-- ==== Sys2Proof/Word.lean ====
section
/-! DEFINITION. The number types of the station: what the manual counts in bits is a bit vector. -/

namespace Sys2Proof

/-- A byte of a frame or of the configuration image. -/
abbrev Byte := BitVec 8

/-- A reading of a 16-bit millisecond station clock (R4). -/
abbrev Clock := BitVec 16

/-- An item number, 0 to 1,099,511,627,775 (40 bits, R55, R87). -/
abbrev Item := BitVec 40

/-- A Gate Line address, 0 to 31 (section 1.1). -/
abbrev Address := BitVec 5

/-- A station number, 0 to 15 (R1). -/
abbrev StationNumber := BitVec 4

/-- A coil of a side, 0 to 3 (section 1.3). -/
abbrev CoilNumber := BitVec 2

/-- A timer (R6): stopped, or running with the time left to its expiry in microseconds. `some 0` is due now. Every duration of the model
is a number of microseconds, unless it says otherwise; one microsecond is one bit time of the Gate Line (R68). -/
abbrev Timer := Option Nat

end Sys2Proof
end

