-- ==== Sys2Proof/Config.lean ====
section
/-! DEFINITION. The configuration values in force (section 1.6, R10, R11, R141): what one installation fixes.
The manual leaves no instruction's result undefined, so no free value stands here. -/

namespace Sys2Proof

/-- Class kind (R141), in the order of the codes LENDING 0 to RESTRICTED 3. -/
inductive ClassKind where
  | lending | reference | openClass | restricted
  deriving DecidableEq, Repr

/-- Unknown policy of a class (R141). -/
inductive UnknownPolicy where
  | alarm | clear
  deriving DecidableEq, Repr

/-- How a hold value is read (R141, R142). -/
inductive Granularity where
  | fine | coarse
  deriving DecidableEq, Repr

/-- An entry of the Collection Class Table (R141). -/
structure ClassEntry where
  present           : Bool
  kind              : ClassKind
  level             : BitVec 2
  policy            : UnknownPolicy
  provisionalEnable : Bool
  holdValue         : Byte
  granularity       : Granularity
  deriving DecidableEq, Repr

/-- Order of coils within a sweep (R50). -/
inductive SweepOrder where
  | sequential | interleaved
  deriving DecidableEq, Repr

/-- The configuration values in force. Durations are in the unit named; a stepped value is held in its own unit, not in
steps (section 1.6). -/
structure Config where
  /-- station count N -/
  n              : Nat
  fittedL        : Bool
  fittedR        : Bool
  /-- registry address; 31 means none -/
  registry       : Nat
  /-- noise floor F -/
  noiseFloor     : Nat
  /-- lane margin M -/
  margin         : Nat
  /-- direction threshold H -/
  threshold      : Nat
  /-- quiet interval, ms -/
  quiet          : Nat
  /-- maximum dwell, ms -/
  maxDwell       : Nat
  /-- close hold, ms -/
  closeHold      : Nat
  /-- ramp time, ms -/
  rampTime       : Nat
  /-- drain time, ms -/
  drainTime      : Nat
  driveMin       : Nat
  driveMax       : Nat
  initialQ       : Nat
  repeatLimit    : Nat
  /-- sweep length B -/
  sweepLength    : Nat
  order          : SweepOrder
  /-- active sweep gap, ms -/
  activeGap      : Nat
  /-- doze delay, s -/
  dozeDelay      : Nat
  /-- notice lifetime, min -/
  lifetime       : Nat
  /-- lamp hold, s -/
  lampHold       : Nat
  /-- sounder on-time, ms -/
  onTime         : Nat
  /-- sounder off-time, ms -/
  offTime        : Nat
  /-- sounder repeats -/
  soundRepeats   : Nat
  classLimit     : Nat
  /-- class entries 0 to 31 -/
  classes        : List ClassEntry
  deriving DecidableEq, Repr

/-- A class entry whose every field is at its lowest value. -/
def ClassEntry.absent : ClassEntry :=
  { present := false, kind := .lending, level := 0, policy := .alarm, provisionalEnable := false,
    holdValue := 0, granularity := .fine }

/-- The values State holds before start-up has adopted any. DESIGN CHOICE (log 7), unsafe: the manual says they have no
value then (R7). -/
def Config.unadopted : Config :=
  { n := 2, fittedL := true, fittedR := true, registry := 31, noiseFloor := 24, margin := 96, threshold := 40,
    quiet := 150, maxDwell := 3000, closeHold := 2000, rampTime := 2, drainTime := 1, driveMin := 96, driveMax := 224,
    initialQ := 4, repeatLimit := 1, sweepLength := 4, order := .interleaved, activeGap := 10, dozeDelay := 30,
    lifetime := 120, lampHold := 5, onTime := 300, offTime := 200, soundRepeats := 4, classLimit := 1,
    classes := List.replicate 32 ClassEntry.absent }

end Sys2Proof
end

