-- ==== Sys2Proof/Syntax.lean ====
section
/-! DEFINITION. The commands of the block, one constructor for each row of spec/opcode_table.json, and the frame bodies
that some of them carry (R87, R88). -/

namespace Sys2Proof

/-- Side L or R of the pedestal (R2). -/
inductive Side where
  | L | R
  deriving DecidableEq, Repr

/-- The inner or the outer beam of a side (section 1.3). -/
inductive Beam where
  | inner | outer
  deriving DecidableEq, Repr

/-- The issue mark of a tag (R55). -/
inductive IssueMark where
  | issued | notIssued
  deriving DecidableEq, Repr

/-- The verdict of a DECIDE, in the order of the codes 0 to 5 (R87). -/
inductive Verdict where
  | clear | alarm | inbound | linger | provisional | withdraw
  deriving DecidableEq, Repr

/-- The reason of a DECIDE, in the order of the codes 0 to 13 (R87). -/
inductive Reason where
  | none | noSignal | noDirection | classUnknown | classAbsent | reference | hallLevel | exempt | issuedMark
  | issuedNotice | issuedAnswer | unissued | returned | noAnswer
  deriving DecidableEq, Repr

/-- The status of an ANSWER, in the order of the codes 0 to 2 (R87). -/
inductive AnswerStatus where
  | issued | notIssued | unknown
  deriving DecidableEq, Repr

/-- The run state a REPORT carries: RUNNING 1, CONFIG FAULT 2 (R87). -/
inductive ReportedRun where
  | running | configFault
  deriving DecidableEq, Repr

/-- A sample as a SIGHT or JOIN carries it (R88). -/
structure WireSample where
  strength : Byte
  side     : Side
  coil     : CoilNumber
  age      : BitVec 12
  deriving DecidableEq, Repr

structure SightBody where
  item     : Item
  code     : Byte
  mark     : IssueMark
  level    : BitVec 2
  takeover : Bool
  again    : Bool
  samples  : List WireSample
  deriving DecidableEq, Repr

structure JoinBody where
  item    : Item
  lead    : Byte
  samples : List WireSample
  deriving DecidableEq, Repr

/-- `again` is the repeat flag; lane B 255 means none. -/
structure DecideBody where
  item    : Item
  verdict : Verdict
  reason  : Reason
  laneA   : Byte
  laneB   : Byte
  again   : Bool
  deriving DecidableEq, Repr

structure DeferBody where
  lane : Byte
  hold : Byte
  deriving DecidableEq, Repr

structure QueryBody where
  receiver : Byte
  tag      : Byte
  item     : Item
  deriving DecidableEq, Repr

structure AnswerBody where
  receiver : Byte
  tag      : Byte
  item     : Item
  status   : AnswerStatus
  error    : Bool
  deriving DecidableEq, Repr

/-- `target` 255 means all. -/
structure PollBody where
  target : Byte
  clear  : Bool
  deriving DecidableEq, Repr

/-- The eight counters (R167), in the order a REPORT carries them (R87). -/
structure Counters (α : Type) where
  led           : α
  alarms        : α
  withdrawn     : α
  lingers       : α
  samplesLost   : α
  framesDropped : α
  framesBad     : α
  answersMissed : α
  deriving DecidableEq, Repr

structure ReportBody where
  run       : ReportedRun
  modeL     : Bool
  modeR     : Bool
  faults    : Byte
  table     : Byte
  directory : Byte
  cache     : BitVec 16
  counters  : Counters (BitVec 16)
  deriving DecidableEq, Repr

/-- A frame body by kind (R87). -/
inductive Body where
  | deferBody     (b : DeferBody)
  | releaseBody   (lane : Byte)
  | decideBody    (b : DecideBody)
  | claimBody     (lane : Byte)
  | sightBody     (b : SightBody)
  | joinBody      (b : JoinBody)
  | queryBody     (b : QueryBody)
  | reportBody    (b : ReportBody)
  | issueBody     (items : List Item)
  | returnBody    (items : List Item)
  | answerBody    (b : AnswerBody)
  | pollBody      (b : PollBody)
  | clearHallBody
  deriving DecidableEq, Repr

/-- A frame as the line carries it (R69). -/
structure Frame where
  sender : Address
  body   : Body
  deriving DecidableEq, Repr

/-- What the receiver made of a run of bytes on the line (R69, R82): the bytes, whether a stop bit read 0, and whether a
partial byte stood before the closing idle gap. -/
structure RawFrame where
  bytes   : List Byte
  badStop : Bool
  partialByte : Bool
  deriving DecidableEq, Repr

/-- A tag reply as the receiver takes it (R55). -/
structure Reply where
  item     : Item
  code     : Byte
  mark     : IssueMark
  level    : BitVec 2
  strength : Byte
  deriving DecidableEq, Repr

/-- The outcome of a reply slot (R55). -/
inductive SlotOutcome where
  | empty
  | single (r : Reply)
  | collided
  deriving DecidableEq, Repr

/-- The commands: one constructor for each row of the table. `after` is the time in microseconds from the command before it to
this one (DESIGN CHOICE, log 1). A frame command is the frame's end at this station (R84). -/
inductive Instr where
  /-- FULL_RESET (R7) -/
  | fullReset (after : Nat)
  /-- START_UP (R8, R1): `straps` is the value the straps present -/
  | startUp (after : Nat) (straps : StationNumber)
  /-- READ_ATTEMPT_FAIL (R8) -/
  | readAttemptFail (after : Nat)
  /-- RETRY_WAIT_END (R8) -/
  | retryWaitEnd (after : Nat)
  /-- READ_ATTEMPT_COMPLETE (R9): the 98 bytes read -/
  | readAttemptComplete (after : Nat) (image : List Byte)
  /-- STARTUP_IDLE_GAP (R13) -/
  | startupIdleGap (after : Nat)
  /-- SECONDS_TICK (R5) -/
  | secondsTick (after : Nat)
  /-- NOTICE_EXPIRY (R128) -/
  | noticeExpiry (after : Nat)
  /-- RAMP_END (R18): the level the field monitor gives -/
  | rampEnd (after : Nat) (side : Side) (level : Byte)
  /-- LIVE_LIMIT (R21) -/
  | liveLimit (after : Nat) (side : Side)
  /-- DRIVE_LOSS (R22) -/
  | driveLoss (after : Nat) (side : Side) (coil : CoilNumber)
  /-- DRAIN_END (R24) -/
  | drainEnd (after : Nat) (side : Side) (coil : CoilNumber)
  /-- CUT_WAIT_END (R25) -/
  | cutWaitEnd (after : Nat) (side : Side)
  /-- RETEST_END (R27) -/
  | retestEnd (after : Nat) (side : Side) (coil : CoilNumber)
  /-- CLAIM_WAIT_END (R38) -/
  | claimWaitEnd (after : Nat) (side : Side)
  /-- CLAIM_HOLD_TIMER_END (R42) -/
  | claimHoldTimerEnd (after : Nat) (side : Side)
  /-- REST_TIMER_END (R44) -/
  | restTimerEnd (after : Nat) (side : Side)
  /-- CLAIM (R33) -/
  | heardClaim (after : Nat) (sender : Address) (lane : Byte)
  /-- DEFER (R39) -/
  | heardDefer (after : Nat) (sender : Address) (body : DeferBody)
  /-- RELEASE (R44) -/
  | heardRelease (after : Nat) (sender : Address) (lane : Byte)
  /-- GAP_END (R52) -/
  | gapEnd (after : Nat) (side : Side)
  /-- SLOT_END (R55) -/
  | slotEnd (after : Nat) (side : Side) (outcome : SlotOutcome)
  /-- DOZE_TIMER_END (R49) -/
  | dozeTimerEnd (after : Nat) (side : Side)
  /-- BEAM_INPUT_CHANGE (R62): the level the input changes to -/
  | beamInputChange (after : Nat) (side : Side) (beam : Beam) (broken : Bool)
  /-- BEAM_DEBOUNCE_END (R62) -/
  | beamDebounceEnd (after : Nat) (side : Side) (beam : Beam)
  /-- ATTEMPT_START (R70) -/
  | attemptStart (after : Nat)
  /-- CONTENTION_LOST (R72) -/
  | contentionLost (after : Nat)
  /-- TRANSMIT_COMPLETE (R73) -/
  | transmitComplete (after : Nat)
  /-- BAD_FRAME (R82) -/
  | badFrame (after : Nat) (raw : RawFrame)
  /-- SIGHT (R101) -/
  | heardSight (after : Nat) (sender : Address) (body : SightBody)
  /-- JOIN (R103) -/
  | heardJoin (after : Nat) (sender : Address) (body : JoinBody)
  /-- DECIDE (R104) -/
  | heardDecide (after : Nat) (sender : Address) (body : DecideBody)
  /-- QUERY (R84) -/
  | heardQuery (after : Nat) (sender : Address) (body : QueryBody)
  /-- REPORT (R84) -/
  | heardReport (after : Nat) (sender : Address) (body : ReportBody)
  /-- SOLE_PATIENCE_END (R100) -/
  | solePatienceEnd (after : Nat) (item : Item)
  /-- PATIENCE_TIMER_END (R108) -/
  | patienceTimerEnd (after : Nat) (item : Item)
  /-- DIRECTORY_EXPIRY (R92) -/
  | directoryExpiry (after : Nat) (item : Item)
  /-- CLOSE_HOLD_END (R110) -/
  | closeHoldEnd (after : Nat) (item : Item)
  /-- ISSUE (R125) -/
  | heardIssue (after : Nat) (sender : Address) (items : List Item)
  /-- RETURN (R125) -/
  | heardReturn (after : Nat) (sender : Address) (items : List Item)
  /-- ANSWER (R135) -/
  | heardAnswer (after : Nat) (sender : Address) (body : AnswerBody)
  /-- QUIET_TIMER_END (R145) -/
  | quietTimerEnd (after : Nat) (item : Item)
  /-- DWELL_REACHED (R146) -/
  | dwellReached (after : Nat) (item : Item)
  /-- HOLD_TIMER_END (R152) -/
  | holdTimerEnd (after : Nat) (item : Item)
  /-- HALL_LEVEL_INPUT_CHANGE (R143): the value the two inputs change to -/
  | hallLevelInputChange (after : Nat) (value : BitVec 2)
  /-- HALL_LEVEL_DEBOUNCE_END (R143) -/
  | hallLevelDebounceEnd (after : Nat)
  /-- LAMP_HOLD_END (R164) -/
  | lampHoldEnd (after : Nat) (side : Side)
  /-- HOLDER_EXPIRY (R164) -/
  | holderExpiry (after : Nat) (side : Side) (item : Item)
  /-- FLASH_PHASE_END (R164) -/
  | flashPhaseEnd (after : Nat) (side : Side)
  /-- CADENCE_TIMER_END (R165) -/
  | cadenceTimerEnd (after : Nat)
  /-- POLL (R168) -/
  | heardPoll (after : Nat) (sender : Address) (body : PollBody)
  /-- CLEAR_HALL (R171) -/
  | heardClearHall (after : Nat) (sender : Address)
  /-- SOF_STAMP (R86) -/
  | sofStamp (after : Nat)
  deriving DecidableEq, Repr

end Sys2Proof
end

