-- ==== Sys2Proof/Decode.lean ====
section
/-! DEFINITION. The words that spell a command. spec/opcode_table.json gives no row any bits, so no word spells one (log 31). -/

namespace Sys2Proof

def decodeTableWord (_nbits _w : Nat) : Option Instr := none

end Sys2Proof
end

