-- ==== Sys2Proof/Machine/State.lean ====
section
/-! DEFINITION. The state of the station as plain data, block by block, and its value right after Full Reset. INVENTORY.md lists
each field with the rule that names it. -/

namespace Sys2Proof.Machine

/-- One value for each side of the station. -/
structure PerSide (α : Type) where
  left  : α
  right : α
  deriving DecidableEq, Repr

def PerSide.get {α : Type} (p : PerSide α) : Side → α
  | .L => p.left
  | .R => p.right

def PerSide.set {α : Type} (p : PerSide α) : Side → α → PerSide α
  | .L, a => { p with left := a }
  | .R, a => { p with right := a }

/-- Four values, numbered 0 to 3. -/
structure Quad (α : Type) where
  v0 : α
  v1 : α
  v2 : α
  v3 : α
  deriving DecidableEq, Repr

def Quad.get {α : Type} (q : Quad α) (i : BitVec 2) : α :=
  if i = 0 then q.v0 else if i = 1 then q.v1 else if i = 2 then q.v2 else q.v3

def Quad.set {α : Type} (q : Quad α) (i : BitVec 2) (a : α) : Quad α :=
  if i = 0 then { q with v0 := a } else if i = 1 then { q with v1 := a } else if i = 2 then { q with v2 := a }
  else { q with v3 := a }

def Quad.map {α β : Type} (q : Quad α) (f : α → β) : Quad β := ⟨f q.v0, f q.v1, f q.v2, f q.v3⟩

def Quad.toList {α : Type} (q : Quad α) : List α := [q.v0, q.v1, q.v2, q.v3]

/-! ### Start-up, configuration and time base (chapter 1) -/

/-- Run state (section 1.5). -/
inductive RunState where
  | starting | running | configFault
  deriving DecidableEq, Repr

/-- What start-up is doing (R7, R8): RESET held low or power not yet complete; read attempt `n` in progress; the 10 ms wait
after failed attempt `n`; start-up ended. -/
inductive StartPhase where
  | resetHeld
  | reading (attempt : Nat)
  | retryWait (attempt : Nat) (left : Nat)
  | ended
  deriving DecidableEq, Repr

structure Sys where
  run     : RunState
  phase   : StartPhase
  station : StationNumber
  cfg     : Config
  deriving DecidableEq, Repr

/-- Station clock (R4) with the microseconds into its current millisecond, seconds count and time to the next tick (R5). -/
structure Time where
  clock       : Clock
  subMs       : Nat
  seconds     : BitVec 16
  secondTimer : Timer
  deriving DecidableEq, Repr

/-- One value for each beam of a side. -/
structure PerBeam (α : Type) where
  inner : α
  outer : α
  deriving DecidableEq, Repr

def PerBeam.get {α : Type} (p : PerBeam α) : Beam → α
  | .inner => p.inner
  | .outer => p.outer

def PerBeam.set {α : Type} (p : PerBeam α) : Beam → α → PerBeam α
  | .inner, a => { p with inner := a }
  | .outer, a => { p with outer := a }

/-- The levels the input pins present: beams (R61) and hall level (R143). -/
structure Pins where
  beamsBroken : PerSide (PerBeam Bool)
  hall        : BitVec 2
  deriving DecidableEq, Repr

/-! ### Coil Controller (chapter 2) -/

inductive CoilState where
  | idle | ramping | live | draining | faulted
  deriving DecidableEq, Repr

/-- The coil record (R15). -/
structure Coil where
  state     : CoilState
  q         : Nat
  faultMark : Bool
  drain     : Timer
  retest    : Timer
  deriving DecidableEq, Repr

/-- The Coil Controller of one side (R15). The live timer counts up from 0 (R21). -/
structure CoilUnit where
  coils   : Quad Coil
  ramp    : Timer
  live    : Option Nat
  cutWait : Timer
  deriving DecidableEq, Repr

/-! ### Lane Claim Unit (chapter 3) -/

inductive RestCause where
  | closing | yielded | deferred | gap | backOff
  deriving DecidableEq, Repr

inductive ClaimState where
  | free
  | asking
  | holding
  | resting (cause : RestCause)
  deriving DecidableEq, Repr

/-- The claim record (R32). Its owed frame is the side's entries of the waiting list (log 10). -/
structure Claim where
  state           : ClaimState
  sent            : Bool
  clash           : Bool
  deferredPartner : Bool
  request         : Bool
  wait            : Timer
  hold            : Timer
  rest            : Timer
  deriving DecidableEq, Repr

/-! ### Sweep Scheduler (chapter 4) -/

inductive SweepState where
  | waiting | claiming | sweeping | releasing
  deriving DecidableEq, Repr

inductive SideMode where
  | active | doze
  deriving DecidableEq, Repr

/-- The notice a Scheduler at a refused position waits for (R53). -/
inductive SweepWait where
  | none | drain | cutWait
  deriving DecidableEq, Repr

/-- The round in progress (R55): `stopping` is a priority stop at the end of the slot in progress (R65 case 1); `cut` says
the live limit was taken at the moment the slot in progress ends (R21). -/
structure Round where
  q        : Nat
  ended    : Nat
  empties  : Nat
  singles  : Nat
  collided : Nat
  slot     : Nat
  stopping : Bool
  cut      : Bool
  deriving DecidableEq, Repr

/-- A beam debouncer (R62). -/
structure Debouncer where
  broken : Bool
  timer  : Timer
  deriving DecidableEq, Repr

/-- The sweep record (R48). `exhausted`: an exhausted hold has been reported to the sweep in hand (R60, R64). -/
structure Sweep where
  state     : SweepState
  mode      : SideMode
  c0        : CoilNumber
  priority  : Bool
  full      : Bool
  list      : List CoilNumber
  position  : Nat
  repeats   : Nat
  gap       : Timer
  doze      : Timer
  beams     : PerBeam Debouncer
  wait      : SweepWait
  exhausted : Bool
  round     : Option Round
  deriving DecidableEq, Repr

/-! ### Line Interface (chapter 5) -/

/-- An own sample as a queued SIGHT or JOIN holds it. -/
structure OwnSample where
  side     : Side
  coil     : CoilNumber
  strength : Byte
  time     : Clock
  deriving DecidableEq, Repr

/-- The outcome of an evaluation, and what a DECIDE names (R114, R153). -/
structure Decision where
  verdict : Verdict
  reason  : Reason
  laneA   : Nat
  laneB   : Option Nat
  deriving DecidableEq, Repr

structure SightMsg where
  item     : Item
  code     : Byte
  mark     : IssueMark
  level    : BitVec 2
  takeover : Bool
  again    : Bool
  samples  : List OwnSample
  deriving DecidableEq, Repr

structure JoinMsg where
  item    : Item
  lead    : Nat
  samples : List OwnSample
  deriving DecidableEq, Repr

structure DecideMsg where
  item     : Item
  decision : Decision
  again    : Bool
  deriving DecidableEq, Repr

/-- The content of a queued frame (R74). A REPORT holds no values until its attempt (R169), a DEFER no remaining hold (R41). -/
inductive Payload where
  | sight   (m : SightMsg)
  | join    (m : JoinMsg)
  | decision (m : DecideMsg)
  | claim   (lane : Nat)
  | defer   (lane : Nat)
  | release (lane : Nat)
  | query   (receiver : Nat) (tag : Nat) (item : Item)
  | report
  deriving DecidableEq, Repr

/-- Who offered a frame (R74). `noRecord`: a JOIN with no record behind it (R96), or a frame whose record has been freed. -/
inductive Owner where
  | side (sd : Side)
  | record (item : Item)
  | noRecord
  | slot (k : BitVec 2)
  | reportUnit
  deriving DecidableEq, Repr

/-- A request made while a frame was under transmission (R80). -/
inductive PendingRequest where
  | none
  | remove
  | convert (lead : Nat)
  deriving DecidableEq, Repr

/-- A queued frame (R74). Its place in the queue is the order in which frames were taken. -/
structure QFrame where
  payload : Payload
  owner   : Owner
  losses  : Nat
  underTx : Bool
  asked   : PendingRequest
  deriving DecidableEq, Repr

/-- An entry of the waiting list: the owner and the kind of the frame it intends (R79). -/
inductive WaitKey where
  | claim (sd : Side)
  | defer (sd : Side)
  | release (sd : Side)
  | sight (item : Item)
  | join (item : Item)
  | decision (item : Item)
  | query (k : BitVec 2)
  | report
  deriving DecidableEq, Repr

/-- An attempt in progress (R70): the frame as filled, its bytes, the time left to its frame end (the bytes and the closing
idle gap), and the clock reading at its start (R71, R86). -/
structure Attempt where
  frame : Frame
  bytes : List Byte
  left  : Nat
  stamp : Clock
  deriving DecidableEq, Repr

/-- What the line is doing, as the station takes it: not listening (R8, R13), idle for `since` after the idle moment,
receiving a frame with its SOF stamp (R86), or carrying the station's own attempt. -/
inductive LinePhase where
  | deaf
  | idle (since : Nat)
  | receiving (stamp : Clock)
  | sending (a : Attempt)
  deriving DecidableEq, Repr

structure Line where
  phase   : LinePhase
  queue   : List QFrame
  waiting : List WaitKey
  backoff : Bool
  deriving DecidableEq, Repr

/-! ### Passage Engine and verdict contexts (chapters 6 and 9) -/

inductive SentFlag where
  | unsent | queued | sent
  deriving DecidableEq, Repr

/-- An entry of a sample list (R91). -/
structure Sample where
  station  : Nat
  side     : Side
  coil     : CoilNumber
  strength : Byte
  time     : Clock
  flag     : SentFlag
  deriving DecidableEq, Repr

/-- The stage of a LEAD record (R90, R144). HELD carries the held result and the time left of the hold (R150). -/
inductive Stage where
  | openStage
  | provisional
  | held (laneA : Nat) (laneB : Option Nat) (entry : ClassEntry) (left : Nat)
  deriving DecidableEq, Repr

/-- A LEAD record's fields (R90) and its verdict context (R144). -/
structure Lead where
  stage     : Stage
  provSent  : Bool
  slot      : Option (BitVec 2)
  quiet     : Timer
  provMade  : Bool
  provLanes : Option (Nat × Option Nat)
  final     : Option Decision
  owed      : Option Decision
  deriving DecidableEq, Repr

/-- The state of a record that is not FREE, with the fields present in it (R90). -/
inductive RecState where
  | sole (announcePending : Bool)
  | lead (l : Lead)
  | joint (lead : Nat) (patience : Timer)
  | closed (d : Decision) (closeTime : Clock)
  deriving DecidableEq, Repr

/-- A passage record that is not FREE (R90). -/
structure Record where
  item    : Item
  code    : Byte
  level   : BitVec 2
  mark    : IssueMark
  created : Clock
  samples : List Sample
  state   : RecState
  deriving DecidableEq, Repr

/-- A Snoop Directory entry (R92). -/
structure DirEntry where
  item  : Item
  lead  : Nat
  heard : Clock
  deriving DecidableEq, Repr

/-! ### Issue Status Unit (chapter 8) -/

inductive NoticeStatus where
  | issued | returned
  deriving DecidableEq, Repr

/-- An entry of the Issue Notice Cache (R124). -/
structure Notice where
  item   : Item
  status : NoticeStatus
  age    : Nat
  deriving DecidableEq, Repr

/-- What a WAITING slot serves (R131). -/
structure SlotUse where
  item     : Item
  position : Nat
  tag      : Nat
  deriving DecidableEq, Repr

/-- A query slot (R131): FREE when `use` is none. -/
structure QSlot where
  seq : BitVec 2
  use : Option SlotUse
  deriving DecidableEq, Repr

/-- The query slots and the slot-wait list (R131); a waiting record is named by its item, which no other record carries (R90). -/
structure Queries where
  slots : Quad QSlot
  wait  : List Item
  deriving DecidableEq, Repr

/-! ### Hall level, lamps, sounder and reports (chapters 9 to 11) -/

structure Hall where
  level : BitVec 2
  timer : Timer
  deriving DecidableEq, Repr

structure Holder where
  item : Item
  left : Nat
  deriving DecidableEq, Repr

/-- What a lamp shows (R160), with the timer that runs in that state. -/
inductive LampState where
  | dark
  | flashing (lit : Bool) (left : Nat)
  | steady (left : Nat)
  deriving DecidableEq, Repr

structure Lamp where
  state   : LampState
  holders : List Holder
  deriving DecidableEq, Repr

/-- The sounder's state (R165), with its cadence timer. -/
inductive SounderState where
  | silent
  | on (left : Nat)
  | off (left : Nat)
  deriving DecidableEq, Repr

structure Sounder where
  state   : SounderState
  repeats : Nat
  again   : Bool
  deriving DecidableEq, Repr

inductive ReportRequest where
  | none | queued | owed
  deriving DecidableEq, Repr

structure ReportUnit where
  counters : Counters Nat
  request  : ReportRequest
  clear    : Bool
  carried  : Counters Nat
  deriving DecidableEq, Repr

/-! ### The whole station -/

/-- Why the machine would stop with a fault. The manual names no such case, so no constructor stands here: no meaning can
answer a fault. -/
inductive Fault where
  deriving DecidableEq, Repr

/-- Why a command would be refused. -/
inductive Refusal where
  /-- Raised by an arm of exec for a command that has no meaning yet; no arm does so now. Safe. -/
  | notModelled (mnemonic : String)
  deriving DecidableEq, Repr

/-- The state of the station. `pending` is the queue of commands waiting, first in first out. -/
structure State where
  pending   : List Instr
  sys       : Sys
  time      : Time
  pins      : Pins
  coils     : PerSide CoilUnit
  claims    : PerSide Claim
  sweeps    : PerSide Sweep
  line      : Line
  table     : List (Option Record)
  directory : List DirEntry
  cache     : List Notice
  queries   : Queries
  hall      : Hall
  lamps     : PerSide Lamp
  sounder   : Sounder
  report    : ReportUnit
  deriving DecidableEq, Repr

/-! ### Values at Full Reset -/

/-- R31. The stored Q before entry to RUNNING is a DESIGN CHOICE (log 8), unsafe. -/
def Coil.reset : Coil := { state := .idle, q := 4, faultMark := false, drain := none, retest := none }

def CoilUnit.reset : CoilUnit :=
  { coils := ⟨Coil.reset, Coil.reset, Coil.reset, Coil.reset⟩, ramp := none, live := none, cutWait := none }

/-- R47. -/
def Claim.reset : Claim :=
  { state := .free, sent := false, clash := false, deferredPartner := false, request := false, wait := none, hold := none,
    rest := none }

/-- R66. -/
def Sweep.reset : Sweep :=
  { state := .waiting, mode := .active, c0 := 0, priority := false, full := false, list := [], position := 0, repeats := 0,
    gap := none, doze := none, beams := ⟨⟨false, none⟩, ⟨false, none⟩⟩, wait := .none, exhausted := false, round := none }

/-- R81, R8. -/
def Line.reset : Line := { phase := .deaf, queue := [], waiting := [], backoff := false }

/-- R139. -/
def Queries.reset : Queries := { slots := ⟨⟨0, none⟩, ⟨0, none⟩, ⟨0, none⟩, ⟨0, none⟩⟩, wait := [] }

/-- R166. -/
def Lamp.reset : Lamp := { state := .dark, holders := [] }

/-- R166. -/
def Sounder.reset : Sounder := { state := .silent, repeats := 0, again := false }

def Counters.zero : Counters Nat := ⟨0, 0, 0, 0, 0, 0, 0, 0⟩

/-- R167, R168. -/
def ReportUnit.reset : ReportUnit := { counters := Counters.zero, request := .none, clear := false, carried := Counters.zero }

/-- The number of positions of the Passage Table (R90). -/
def tableSize : Nat := 48

/-- The station right after Full Reset is taken (R7): RESET is still low, nothing has been read. The station number, the
configuration values, the stored Q and the pin levels are DESIGN CHOICES (log 6 to 9). -/
def State.reset : State :=
  { pending := []
    sys := { run := .starting, phase := .resetHeld, station := 0, cfg := Config.unadopted }
    time := { clock := 0, subMs := 0, seconds := 0, secondTimer := none }
    pins := { beamsBroken := ⟨⟨false, false⟩, ⟨false, false⟩⟩, hall := 0 }
    coils := ⟨CoilUnit.reset, CoilUnit.reset⟩
    claims := ⟨Claim.reset, Claim.reset⟩
    sweeps := ⟨Sweep.reset, Sweep.reset⟩
    line := Line.reset
    table := List.replicate tableSize none
    directory := []
    cache := []
    queries := Queries.reset
    hall := { level := 0, timer := none }
    lamps := ⟨Lamp.reset, Lamp.reset⟩
    sounder := Sounder.reset
    report := ReportUnit.reset }

end Sys2Proof.Machine
end

