-- ==== Sys2Proof/Machine/Ops.lean ====
section
/-! DEFINITION. The named operations every block uses: durations, geometry, timers, counters, records by item, samples. -/

namespace Sys2Proof.Machine

/-! ### Fixed durations (section 1.6, table of constants) -/

/-- `n` milliseconds in microseconds. -/
def ms (n : Nat) : Nat := n * 1000

/-- Wait after a failed read attempt (R8). -/
def retryWaitTime : Nat := ms 10
/-- The number of read attempts (R8). -/
def readAttempts : Nat := 3
/-- One second of station clock time (R5). -/
def secondTime : Nat := ms 1000
/-- Slot time (R55). -/
def slotTime : Nat := 500
/-- Maximum live time per coil (R21). -/
def maxLiveTime : Nat := ms 40
/-- Coil retest interval (R19). -/
def retestTime : Nat := ms 10000
/-- Claim wait (R35). -/
def claimWaitTime : Nat := ms 3
/-- Claim hold limit (R38). -/
def claimHoldTime : Nat := ms 60
/-- Yield gap (R39). -/
def yieldGap : Nat := 20
/-- Beam debounce (R62). -/
def beamStableTime : Nat := ms 5
/-- Hall-level debounce (R143). -/
def hallStableTime : Nat := ms 20
/-- Doze sweep gap in ms (R49). -/
def dozeGap : Nat := 500
/-- Byte time (R68). -/
def byteTime : Nat := 10
/-- Idle gap, 3 byte times (R68). -/
def idleGap : Nat := 30
/-- Line slot (R68). -/
def lineSlot : Nat := 10
/-- Contention retry limit (R72). -/
def retryLimit : Nat := 16
/-- Flash cadence (R160). -/
def flashTime : Nat := ms 250
/-- Positions of the transmit queue and its normal share (R74). -/
def queueSize : Nat := 8
def normalShare : Nat := 6
/-- Samples one SIGHT or JOIN holds (R76). -/
def frameSamples : Nat := 4
/-- Entries of a sample list (R93), of the Snoop Directory (R92), of the Issue Notice Cache (R124), holders of a lamp (R160). -/
def listSize : Nat := 16
def directorySize : Nat := 64
def cacheSize : Nat := 512
def holderLimit : Nat := 4
/-- The registry address that means none (section 1.6). -/
def noRegistry : Nat := 31

/-- Patience interval in ms (R108). -/
def patienceMs (c : Config) : Nat := c.maxDwell + 2560

/-! ### Geometry (R2, R3) -/

def fitted (c : Config) : Side → Bool
  | .L => c.fittedL
  | .R => c.fittedR

/-- The station number as a count. -/
def State.number (s : State) : Nat := s.sys.station.toNat

/-- The lane a side of station `n` faces (R2). -/
def sideLane (n : Nat) : Side → Nat
  | .L => n
  | .R => n + 1

def State.lane (s : State) (sd : Side) : Nat := sideLane s.number sd

/-- Whether the side faces an end lane (R2). -/
def State.facesEnd (s : State) : Side → Bool
  | .L => s.number == 0
  | .R => s.number + 1 == s.sys.cfg.n

/-- The station on the other flank of the side's lane (R2, R33), where the lane is inner. -/
def State.partner (s : State) : Side → Nat
  | .L => s.number - 1
  | .R => s.number + 1

/-- A fitted side of a station in RUNNING acts (R3). -/
def State.acts (s : State) (sd : Side) : Bool := s.sys.run == .running && fitted s.sys.cfg sd

/-! ### Clock readings (R4) and timers (R6) -/

/-- Time elapsed between two stored readings (R4). -/
def elapsedMs (now t : Clock) : Nat := (now - t).toNat

/-- `now` less `t` for the state's clock. -/
def State.since (s : State) (t : Clock) : Nat := elapsedMs s.time.clock t

/-- A timer is due when its duration has passed (R6). -/
def isDue (t : Timer) : Bool := t == some 0

/-! ### Updates by side -/

def State.setCoils (s : State) (sd : Side) (u : CoilUnit) : State := { s with coils := s.coils.set sd u }
def State.setClaim (s : State) (sd : Side) (c : Claim) : State := { s with claims := s.claims.set sd c }
def State.setSweep (s : State) (sd : Side) (w : Sweep) : State := { s with sweeps := s.sweeps.set sd w }
def State.setLamp (s : State) (sd : Side) (l : Lamp) : State := { s with lamps := s.lamps.set sd l }
def State.setPhase (s : State) (p : LinePhase) : State := { s with line := { s.line with phase := p } }
def State.setQueue (s : State) (q : List QFrame) : State := { s with line := { s.line with queue := q } }
def State.setWaiting (s : State) (w : List WaitKey) : State := { s with line := { s.line with waiting := w } }
def State.setBackoff (s : State) (b : Bool) : State := { s with line := { s.line with backoff := b } }
def State.setTable (s : State) (t : List (Option Record)) : State := { s with table := t }
def State.setDirectory (s : State) (d : List DirEntry) : State := { s with directory := d }
def State.setCache (s : State) (c : List Notice) : State := { s with cache := c }
def State.setQueries (s : State) (q : Queries) : State := { s with queries := q }
def State.setReport (s : State) (r : ReportUnit) : State := { s with report := r }
def State.setSounder (s : State) (u : Sounder) : State := { s with sounder := u }

/-! ### Counters (R167) -/

inductive CounterName where
  | led | alarms | withdrawn | lingers | samplesLost | framesDropped | framesBad | answersMissed
  deriving DecidableEq, Repr

def counterAt {α : Type} (c : Counters α) : CounterName → α
  | .led => c.led
  | .alarms => c.alarms
  | .withdrawn => c.withdrawn
  | .lingers => c.lingers
  | .samplesLost => c.samplesLost
  | .framesDropped => c.framesDropped
  | .framesBad => c.framesBad
  | .answersMissed => c.answersMissed

def putCounter {α : Type} (c : Counters α) (k : CounterName) (v : α) : Counters α :=
  match k with
  | .led => { c with led := v }
  | .alarms => { c with alarms := v }
  | .withdrawn => { c with withdrawn := v }
  | .lingers => { c with lingers := v }
  | .samplesLost => { c with samplesLost := v }
  | .framesDropped => { c with framesDropped := v }
  | .framesBad => { c with framesBad := v }
  | .answersMissed => { c with answersMissed := v }

/-- A counter stays at 65535 (R167). -/
def satAdd (c n : Nat) : Nat := min 65535 (c + n)

/-- Advance a counter by `n`; in STARTING and CONFIG FAULT no event advances one (R167, R14). -/
def State.count (s : State) (k : CounterName) (n : Nat) : State :=
  if s.sys.run = .running then
    s.setReport { s.report with counters := putCounter s.report.counters k (satAdd (counterAt s.report.counters k) n) }
  else s

/-! ### Records by item (R90) -/

def ofItem (x : Item) : Option Record → Bool
  | some r => r.item == x
  | none => false

/-- The record of an item, if any: no two records carry the same item (R90). -/
def findRecord (x : Item) : List (Option Record) → Option Record
  | [] => none
  | some r :: t => if r.item = x then some r else findRecord x t
  | none :: t => findRecord x t

def State.record? (s : State) (x : Item) : Option Record := findRecord x s.table

/-- Put `o` in place of the record of item `x`. -/
def replaceRecord (x : Item) (o : Option Record) (t : List (Option Record)) : List (Option Record) :=
  t.map fun e => if ofItem x e then o else e

/-- Store a record in place of the record of its item. -/
def State.putRecord (s : State) (r : Record) : State := s.setTable (replaceRecord r.item (some r) s.table)

def State.putRecState (s : State) (r : Record) (st : RecState) : State := s.putRecord { r with state := st }

/-- The record's position 0 to 47 (R131). -/
def State.positionOf (s : State) (x : Item) : Nat := s.table.findIdx (ofItem x)

/-- Table occupancy (R90). -/
def State.occupancy (s : State) : Nat := (s.table.filter Option.isSome).length

/-- The LEAD fields of an item's record, if it is LEAD. -/
def State.lead? (s : State) (x : Item) : Option (Record × Lead) :=
  match s.record? x with
  | some r => match r.state with
    | .lead l => some (r, l)
    | _ => none
  | none => none

/-- Store the LEAD fields of an item's record. -/
def State.putLead (s : State) (r : Record) (l : Lead) : State := s.putRecState r (.lead l)

/-! ### Samples (R91, R93, R116) -/

/-- Weight of a strength over the noise floor (R93, R116). -/
def weightOf (floor : Nat) (a : Byte) : Nat := a.toNat - floor

def Sample.weight (floor : Nat) (p : Sample) : Nat := weightOf floor p.strength

/-- An own sample is one whose station is this station's number (R91). -/
def Sample.own (me : Nat) (p : Sample) : Bool := p.station == me

def Sample.content (p : Sample) : OwnSample := ⟨p.side, p.coil, p.strength, p.time⟩

/-- An offer moves the sent flags of the entries it carries, whose flags pass `ok`: for each carried sample the first own entry with
its content that no other carried sample stands for (R91; log 22). -/
def flagAll (me : Nat) (ok : SentFlag → Bool) (dest : SentFlag) : List OwnSample → List Sample → List Sample
  | _, [] => []
  | cs, p :: ps =>
    if p.own me && cs.contains p.content && ok p.flag then
      { p with flag := dest } :: flagAll me ok dest (cs.erase p.content) ps
    else p :: flagAll me ok dest cs ps

/-- Move the sent flags of the samples `cs` in the record of item `x`, if it has one. -/
def State.flagSamples (s : State) (x : Item) (ok : SentFlag → Bool) (dest : SentFlag) (cs : List OwnSample) : State :=
  match s.record? x with
  | some r => s.putRecord { r with samples := flagAll s.number ok dest cs r.samples }
  | none => s

/-- Move the flag of the first own entry with content `c` whose flag passes `ok`, if the list holds one. -/
def flagFirst (me : Nat) (ok : SentFlag → Bool) (dest : SentFlag) (c : OwnSample) : List Sample → Option (List Sample)
  | [] => none
  | p :: ps =>
    if p.own me && p.content == c && ok p.flag then some ({ p with flag := dest } :: ps)
    else (flagFirst me ok dest c ps).map (p :: ·)

def isQueued : SentFlag → Bool := (· == .queued)
def isUnsent : SentFlag → Bool := (· == .unsent)
def anyFlag : SentFlag → Bool := fun _ => true

/-- What becomes of a frame moves the flags of the samples it carried that are still in the list, WHATEVER flag each has by then: a
sample may be in two frames, or UNSENT since a yield (R91). Where entries of equal content differ in flag, a QUEUED one is taken
(log 22). -/
def settleFlags (me : Nat) (dest : SentFlag) (cs : List OwnSample) (ps : List Sample) : List Sample :=
  cs.foldl (fun l c => ((flagFirst me isQueued dest c l).or (flagFirst me (· != dest) dest c l)).getD l) ps

/-- The record of item `x`, if there is one, takes what became of a frame that carried `cs` (R91). -/
def State.settleSamples (s : State) (x : Item) (dest : SentFlag) (cs : List OwnSample) : State :=
  match s.record? x with
  | some r => s.putRecord { r with samples := settleFlags s.number dest cs r.samples }
  | none => s

/-- Insert before the first entry whose key is not greater: with `sortDesc` a stable descending order. -/
def insertDesc {α : Type} (key : α → Nat) (a : α) : List α → List α
  | [] => [a]
  | b :: bs => if key b ≤ key a then a :: b :: bs else b :: insertDesc key a bs

def sortDesc {α : Type} (key : α → Nat) (l : List α) : List α := l.foldr (insertDesc key) []

/-- The record's UNSENT own samples, oldest first; those that share a time in list order (R97). -/
def State.unsentOwn (s : State) (r : Record) : List OwnSample :=
  (sortDesc (fun p : Sample => s.since p.time)
    (r.samples.filter fun p => p.own s.number && isUnsent p.flag)).map Sample.content

/-- The 4 own samples of greatest strength; ties to the earlier time, then to the place nearer the start (R108). -/
def State.strongestOwn (s : State) (r : Record) : List OwnSample :=
  ((sortDesc (fun p : Sample => p.strength.toNat * 65536 + s.since p.time)
    (r.samples.filter fun p => p.own s.number)).take frameSamples).map Sample.content

end Sys2Proof.Machine
end

