-- ==== Sys2Proof/Machine/Alarm.lean ====
section
/-! DEFINITION. The Alarm Unit's own operations (chapter 10): named lamps, holder lists, the lamps and the sounder. -/

namespace Sys2Proof.Machine

/-- The lamp of a side is named by a DECIDE's lanes: the side is fitted and its lane is lane A or lane B (R159). -/
def State.names (s : State) (sd : Side) (laneA : Nat) (laneB : Option Nat) : Bool :=
  s.acts sd && (s.lane sd == laneA || some (s.lane sd) == laneB)

/-- A lamp that enters FLASHING: phase LIT, the phase timer started (R161, R164). -/
def LampState.flashStart : LampState := .flashing true flashTime

/-- A lamp whose list is `hs` after a holder has left it: FLASHING with an empty list becomes DARK (R162, R164). -/
def LampState.settle (st : LampState) (hs : List Holder) : LampState :=
  match st with
  | .flashing lit left => if hs.isEmpty then .dark else .flashing lit left
  | .dark => .dark
  | .steady left => .steady left

/-- A lamp that takes a PROVISIONAL (R161): a DARK one enters FLASHING, any other runs on undisturbed. -/
def LampState.provoke (st : LampState) : LampState :=
  match st with
  | .dark => .flashStart
  | .flashing lit left => .flashing lit left
  | .steady left => .steady left

/-- What a lamp shows when its hold ends (R164). -/
def LampState.afterHold (hs : List Holder) : LampState := if hs.isEmpty then .dark else .flashStart

/-- The holder list with an item removed (R162). -/
def dropHolder (x : Item) (hs : List Holder) : List Holder := hs.filter fun h => h.item != x

/-- The holder list with an item added or refreshed at the newest end; the oldest of 4 makes room (R161). -/
def putHolder (x : Item) (patience : Nat) (hs : List Holder) : List Holder :=
  let rest := if hs.any fun h => h.item == x then dropHolder x hs
    else if holderLimit ≤ hs.length then hs.drop 1 else hs
  rest ++ [{ item := x, left := patience }]

/-- A PROVISIONAL on a named lamp (R161). -/
def Lamp.addHolder (l : Lamp) (x : Item) (patience : Nat) : Lamp :=
  { state := l.state.provoke, holders := putHolder x patience l.holders }

/-- The item leaves the lamp's list; a lamp whose list does not hold it is not changed (R162). -/
def Lamp.removeHolder (l : Lamp) (x : Item) : Lamp :=
  if l.holders.any fun h => h.item == x then
    { state := l.state.settle (dropHolder x l.holders), holders := dropHolder x l.holders }
  else l

/-- An ALARM on a named lamp: STEADY for the full lamp hold (R163). -/
def Lamp.steady (l : Lamp) (hold : Nat) : Lamp := { l with state := .steady hold }

/-- The lamp hold in force (R6, R160). -/
def lampHoldTime (c : Config) : Nat := ms (c.lampHold * 1000)

/-- A cadence starts (R165). -/
def cadenceStart (c : Config) : Sounder := { state := .on (ms c.onTime), repeats := c.soundRepeats, again := false }

/-- A driving ALARM at the sounder (R165). -/
def Sounder.drive (c : Config) (u : Sounder) : Sounder :=
  match u.state with
  | .silent => cadenceStart c
  | .on _ | .off _ => { u with again := true }

/-- The cadence timer's expiry (R165). -/
def Sounder.cadenceEnd (c : Config) (u : Sounder) : Sounder :=
  match u.state with
  | .silent => u
  | .on _ => { u with state := .off (ms c.offTime) }
  | .off _ =>
    if 1 < u.repeats then { u with state := .on (ms c.onTime), repeats := u.repeats - 1 }
    else if u.again then cadenceStart c
    else { state := .silent, repeats := 0, again := false }

/-- One lamp at a DECIDE that is not a repeat (R159, table). -/
def State.lampDecide (s : State) (sd : Side) (x : Item) (v : Verdict) (named : Bool) : State :=
  let l := s.lamps.get sd
  match v with
  | .provisional => if named then s.setLamp sd (l.addHolder x (ms (patienceMs s.sys.cfg))) else s
  | .withdraw | .clear | .inbound | .linger => s.setLamp sd (l.removeHolder x)
  | .alarm =>
    let m := l.removeHolder x
    s.setLamp sd (if named then m.steady (lampHoldTime s.sys.cfg) else m)

/-- A DECIDE at the Alarm Unit, heard or the station's own (R159): a repeat is ignored whole. -/
def State.alarmDecide (s : State) (x : Item) (v : Verdict) (laneA : Nat) (laneB : Option Nat) (again : Bool) : State :=
  if again then s
  else
    let nl := s.names .L laneA laneB
    let nr := s.names .R laneA laneB
    let t := (s.lampDecide .L x v nl).lampDecide .R x v nr
    if v = .alarm ∧ (nl || nr) then t.setSounder (t.sounder.drive s.sys.cfg) else t

/-- The lamp hold timer's expiry (R164). -/
def Lamp.holdEnd (l : Lamp) : Lamp :=
  match l.state with
  | .steady _ => { l with state := .afterHold l.holders }
  | .dark | .flashing _ _ => l

/-- The phase timer's expiry (R164). -/
def Lamp.phaseEnd (l : Lamp) : Lamp :=
  match l.state with
  | .flashing lit _ => { l with state := .flashing (!lit) flashTime }
  | .dark | .steady _ => l

/-- Hall Clear on the lamps and the sounder (R166). -/
def State.alarmHallClear (s : State) : State :=
  { s with lamps := ⟨Lamp.reset, Lamp.reset⟩, sounder := Sounder.reset }

end Sys2Proof.Machine
end

