-- ==== Sys2Proof/Machine/Queue.lean ====
section
/-! DEFINITION. The transmit queue and its waiting list (R74 to R80): how an offer is judged, displaced, merged or refused. -/

namespace Sys2Proof.Machine

/-- DECIDE, DEFER and RELEASE are urgent (R74). -/
def Payload.urgent : Payload → Bool
  | .decision _ | .defer _ | .release _ => true
  | .sight _ | .join _ | .claim _ | .query _ _ _ | .report => false

def QFrame.urgent (f : QFrame) : Bool := f.payload.urgent

/-- The class of a waiting entry (R79). -/
def WaitKey.urgent : WaitKey → Bool
  | .decision _ | .defer _ | .release _ => true
  | .sight _ | .join _ | .claim _ | .query _ | .report => false

/-- A frame as newly taken into the queue (R72, R74). -/
def QFrame.fresh (owner : Owner) (p : Payload) : QFrame :=
  { payload := p, owner := owner, losses := 0, underTx := false, asked := .none }

/-- The number of normal frames queued (R74). -/
def normalCount (q : List QFrame) : Nat := (q.filter fun f => !f.urgent).length

/-- The head of the queue: the oldest urgent frame, else the oldest normal one (R74). -/
def headOf (q : List QFrame) : Option QFrame := (q.find? QFrame.urgent).or q.head?

/-- Mark the first frame that is `f` as under transmission. -/
def startFrame (f : QFrame) : List QFrame → List QFrame
  | [] => []
  | g :: q => if g = f then { g with underTx := true } :: q else g :: startFrame f q

/-! ### Merging and replacing (R76, R77) -/

/-- Who is told of a frame that has taken an offer in (R73, R76): a record that merged samples into it, else the owner it had (log 23). -/
def Owner.joined (offerer : Owner) (was : Owner) : Owner :=
  match offerer with
  | .record x => .record x
  | .side _ | .noRecord | .slot _ | .reportUnit => was

/-- Merge a SIGHT offer into the item's queued SIGHT that is not under transmission: samples until it holds 4, flags set in
either. The second component is the samples returned as not taken (R76). -/
def mergeSight (owner : Owner) (m : SightMsg) : List QFrame → Option (List QFrame × List OwnSample)
  | [] => none
  | f :: q =>
    match f.payload with
    | .sight n =>
      if n.item = m.item ∧ f.underTx = false then
        let room := frameSamples - n.samples.length
        some ({ f with
            payload := .sight { n with
              samples := n.samples ++ m.samples.take room
              takeover := n.takeover || m.takeover
              again := n.again || m.again }
            owner := owner.joined f.owner } :: q, m.samples.drop room)
      else (mergeSight owner m q).map fun p => (f :: p.1, p.2)
    | _ => (mergeSight owner m q).map fun p => (f :: p.1, p.2)

/-- Whether a queued frame is a JOIN that a JOIN offer merges into (R76). -/
def joinRoom (m : JoinMsg) (f : QFrame) : Bool :=
  match f.payload with
  | .join n => n.item == m.item && n.lead == m.lead && !f.underTx && decide (n.samples.length < frameSamples)
  | _ => false

/-- Merge a JOIN offer into the newest queued JOIN that qualifies (R76). -/
def mergeJoin (owner : Owner) (m : JoinMsg) : List QFrame → Option (List QFrame × List OwnSample)
  | [] => none
  | f :: q =>
    match mergeJoin owner m q with
    | some p => some (f :: p.1, p.2)
    | none =>
      match f.payload with
      | .join n =>
        if joinRoom m f then
          let room := frameSamples - n.samples.length
          some ({ f with
              payload := .join { n with samples := n.samples ++ m.samples.take room }
              owner := owner.joined f.owner } :: q, m.samples.drop room)
        else none
      | _ => none

/-- A DECIDE replaces the item's queued DECIDE in place: content, owner, loss count 0 (R77). -/
def replaceDecide (owner : Owner) (m : DecideMsg) : List QFrame → Option (List QFrame)
  | [] => none
  | f :: q =>
    match f.payload with
    | .decision n =>
      if n.item = m.item ∧ f.underTx = false then
        some ({ f with payload := .decision m, owner := owner, losses := 0 } :: q)
      else (replaceDecide owner m q).map (f :: ·)
    | _ => (replaceDecide owner m q).map (f :: ·)

/-- A queued frame that takes in a DEFER or RELEASE of the same side for the same lane (R77). -/
def absorbs (owner : Owner) (p : Payload) (f : QFrame) : Bool :=
  f.payload == p && f.owner == owner && !f.underTx

/-- R75 case 1: the queue after the offer is taken into a queued frame, and the samples returned. -/
def mergeOrReplace (owner : Owner) (p : Payload) (q : List QFrame) : Option (List QFrame × List OwnSample) :=
  match p with
  | .sight m => mergeSight owner m q
  | .join m => mergeJoin owner m q
  | .decision m => (replaceDecide owner m q).map fun q' => (q', [])
  | .defer _ | .release _ => if q.any (absorbs owner p) then some (q, []) else none
  | .claim _ | .query _ _ _ | .report => none

/-- R75 case 2: the item's SIGHT or DECIDE is under transmission. -/
def barredBy (p : Payload) (f : QFrame) : Bool :=
  f.underTx && match p, f.payload with
    | .sight m, .sight n => m.item == n.item
    | .decision m, .decision n => m.item == n.item
    | _, _ => false

/-- R78: the oldest queued JOIN that is not under transmission, with the queue without it. -/
def takeOldestJoin : List QFrame → Option (JoinMsg × Owner × List QFrame)
  | [] => none
  | f :: q =>
    match f.payload with
    | .join m =>
      if f.underTx then (takeOldestJoin q).map fun t => (t.1, t.2.1, f :: t.2.2) else some (m, f.owner, q)
    | _ => (takeOldestJoin q).map fun t => (t.1, t.2.1, f :: t.2.2)

/-- How the queue judges an offer (R75 to R78). -/
inductive Judged where
  | into (q : List QFrame) (left : List OwnSample)
  | placed (q : List QFrame) (displaced : Option (JoinMsg × Owner))
  | refused

def judgeOffer (owner : Owner) (p : Payload) (q : List QFrame) : Judged :=
  match mergeOrReplace owner p q with
  | some t => .into t.1 t.2
  | none =>
    if q.any (barredBy p) then .refused
    else if p.urgent then
      if q.length < queueSize then .placed (q ++ [QFrame.fresh owner p]) none else .refused
    else if q.length < queueSize ∧ normalCount q < normalShare then .placed (q ++ [QFrame.fresh owner p]) none
    else match takeOldestJoin q with
      | some t => .placed (t.2.2 ++ [QFrame.fresh owner p]) (some (t.1, t.2.1))
      | none => .refused

/-- What the owner is told of its offer (R75). -/
inductive OfferResult where
  | taken
  | merged (left : List OwnSample)
  | refused
  deriving DecidableEq, Repr

/-- An offer taken into a position ends the walk of the waiting list (R79). -/
def OfferResult.usedPosition : OfferResult → Bool
  | .taken => true
  | .merged _ | .refused => false

/-- Take an entry off the waiting list: the offer was taken, or the owner gives up its intent (R79). -/
def State.giveUp (s : State) (k : WaitKey) : State := s.setWaiting (s.line.waiting.filter (· ≠ k))

/-- Enter a refused owner in the waiting list, once for each frame it intends (R79). -/
def State.enterWaiting (s : State) (k : WaitKey) : State :=
  if k ∈ s.line.waiting then s else s.setWaiting (s.line.waiting ++ [k])

/-- R78 on the displaced JOIN: its samples are counted lost and become SENT in the record that offered it (R91, R98), also those that
the displacing JOIN carries (DESIGN CHOICE, log 37). -/
def State.loseJoin (s : State) : Option (JoinMsg × Owner) → State
  | none => s
  | some (m, o) =>
    let s1 := s.count .samplesLost m.samples.length
    match o with
    | .record x => s1.settleSamples x .sent m.samples
    | _ => s1

/-- An offer (R75). `key` is the waiting entry of the intent; a JOIN with no record behind it has none (R98). -/
def State.offer (s : State) (key : Option WaitKey) (owner : Owner) (p : Payload) : State × OfferResult :=
  let taken (t : State) : State := match key with
    | some k => t.giveUp k
    | none => t
  match judgeOffer owner p s.line.queue with
  | .into q left => (taken (s.setQueue q), .merged left)
  | .placed q d => ((taken (s.setQueue q)).loseJoin d, .taken)
  | .refused => (match key with
    | some k => s.enterWaiting k
    | none => s, .refused)

end Sys2Proof.Machine
end

