-- ==== Sys2Proof/Machine/Offers.lean ====
section
/-! DEFINITION. What each owner offers to the transmit queue, the walk of the waiting list, removals and conversions
(R79, R80, with the owners' rules R34, R40, R43, R97, R98, R102, R107, R108, R133, R153, R155, R168). -/

namespace Sys2Proof.Machine

/-! ### Claim frames -/

def State.offerClaim (s : State) (sd : Side) : State × OfferResult :=
  s.offer (some (.claim sd)) (.side sd) (.claim (s.lane sd))

def State.offerDefer (s : State) (sd : Side) : State × OfferResult :=
  s.offer (some (.defer sd)) (.side sd) (.defer (s.lane sd))

def State.offerRelease (s : State) (sd : Side) : State × OfferResult :=
  s.offer (some (.release sd)) (.side sd) (.release (s.lane sd))

/-! ### SIGHT (R97, R102, R108) -/

/-- A SIGHT with the record's fields as they stand at the offer (R97). -/
def sightOf (r : Record) (takeover again : Bool) (cs : List OwnSample) : SightMsg :=
  { item := r.item, code := r.code, mark := r.mark, level := r.level, takeover := takeover, again := again, samples := cs }

/-- The offered samples that the queue took: those not returned by a merge (R76). -/
def takenSamples (cs left : List OwnSample) : List OwnSample := cs.take (cs.length - left.length)

/-- A SOLE record announces its item (R97). -/
def State.offerSight (s : State) (r : Record) : State × OfferResult :=
  let cs := (s.unsentOwn r).take frameSamples
  let o := s.offer (some (.sight r.item)) (.record r.item) (.sight (sightOf r false false cs))
  match o.2 with
  | .taken =>
    (o.1.putRecord { r with samples := flagAll s.number isUnsent .queued cs r.samples, state := .sole false }, o.2)
  | .merged left =>
    (o.1.putRecord { r with
      samples := flagAll s.number isUnsent .queued (takenSamples cs left) r.samples, state := .sole false }, o.2)
  | .refused => (o.1.putRecState r (.sole true), o.2)

/-- A LEAD record re-asserts with a repeat SIGHT of no samples (R102). -/
def State.offerRepeatSight (s : State) (r : Record) : State × OfferResult :=
  s.offer (some (.sight r.item)) (.record r.item) (.sight (sightOf r false true []))

/-- A JOINT record offers its takeover SIGHT (R108). -/
def State.offerTakeover (s : State) (r : Record) : State × OfferResult :=
  let cs := s.strongestOwn r
  let o := s.offer (some (.sight r.item)) (.record r.item) (.sight (sightOf r true false cs))
  match o.2 with
  | .taken => (o.1.flagSamples r.item anyFlag .queued cs, o.2)
  | .merged left => (o.1.flagSamples r.item anyFlag .queued (takenSamples cs left), o.2)
  | .refused => o

/-! ### JOIN (R98) -/

/-- One JOIN of up to 4 UNSENT own samples to the record's lead, and its result; none when nothing is UNSENT or the record is
not JOINT. -/
def State.offerJoinOnce (s : State) (x : Item) : Option (State × OfferResult) :=
  match s.record? x with
  | none => none
  | some r =>
    match r.state with
    | .joint lead _ =>
      match (s.unsentOwn r).take frameSamples with
      | [] => none
      | c :: cs =>
        let o := s.offer (some (.join x)) (.record x) (.join { item := x, lead := lead, samples := c :: cs })
        match o.2 with
        | .taken => some (o.1.flagSamples x isUnsent .queued (c :: cs), o.2)
        | .merged left => some (o.1.flagSamples x isUnsent .queued (takenSamples (c :: cs) left), o.2)
        | .refused => some o
    | _ => none

/-- One JOIN after another until no sample is UNSENT or an offer is refused (R98). `fuel` bounds the JOINs: a list holds at most
16 samples and each offer that is not refused takes at least one. The second component says whether a position was used. -/
def State.offerJoinsFuel (x : Item) : Nat → State → Bool → State × Bool
  | 0, s, used => (s, used)
  | fuel + 1, s, used =>
    match s.offerJoinOnce x with
    | none => (s, used)
    | some (t, .refused) => (t, used)
    | some (t, .taken) => State.offerJoinsFuel x fuel t true
    | some (t, .merged _) => State.offerJoinsFuel x fuel t used

/-- The record offers its UNSENT own samples, unless a refused JOIN of its own is waiting (R98). -/
def State.offerJoins (s : State) (x : Item) : State :=
  if .join x ∈ s.line.waiting then s else (State.offerJoinsFuel x listSize s false).1

/-! ### DECIDE (R107, R153, R155, R156) -/

/-- Offer a DECIDE of a LEAD record; a refused one becomes the owed DECIDE (R153, R155, R156). A record has one place in the waiting list
for its DECIDE: one refused while an earlier one waits keeps that place (DESIGN CHOICE, log 34). -/
def State.offerDecision (s : State) (x : Item) (d : Decision) : State × OfferResult :=
  let o := s.offer (some (.decision x)) (.record x) (.decision { item := x, decision := d, again := false })
  match o.1.lead? x with
  | some (r, l) => (o.1.putLead r { l with owed := if o.2 = .refused then some d else none }, o.2)
  | none => o

/-- A CLOSED record offers a repeat DECIDE (R107). -/
def State.offerRepeatDecide (s : State) (x : Item) (d : Decision) : State × OfferResult :=
  s.offer (some (.decision x)) (.record x) (.decision { item := x, decision := d, again := true })

/-- Whether an owed DECIDE is still intended when the queue asks (R153, R155, R156). -/
def Lead.stillOwes (l : Lead) (d : Decision) : Bool :=
  match d.verdict with
  | .provisional => l.stage == .provisional && l.final.isNone
  | .withdraw => l.final.isNone
  | _ => true

/-! ### QUERY (R133) and REPORT (R168) -/

/-- A WAITING slot offers its QUERY. -/
def State.offerQuery (s : State) (k : BitVec 2) : State × OfferResult :=
  match (s.queries.slots.get k).use with
  | some u => s.offer (some (.query k)) (.slot k) (.query s.sys.cfg.registry u.tag u.item)
  | none => (s.giveUp (.query k), .refused)

/-- The Report Unit offers its REPORT: QUEUED when taken, OWED when refused. -/
def State.offerReport (s : State) : State × OfferResult :=
  let o := s.offer (some .report) .reportUnit .report
  (o.1.setReport { o.1.report with request := if o.2 = .refused then .owed else .queued }, o.2)

/-! ### The walk of the waiting list (R79) -/

/-- Ask the owner of an entry to offer again. An owner that no longer intends the frame gives the entry up. The second
component says whether the offer was taken into a position. -/
def State.askAgain (s : State) (k : WaitKey) : State × Bool :=
  match k with
  | .claim sd =>
    if (s.claims.get sd).state = .asking ∧ (s.claims.get sd).sent = false then
      let o := s.offerClaim sd
      (o.1, o.2.usedPosition)
    else (s.giveUp k, false)
  | .defer sd =>
    let o := s.offerDefer sd
    (o.1, o.2.usedPosition)
  | .release sd =>
    let o := s.offerRelease sd
    (o.1, o.2.usedPosition)
  | .sight x =>
    match s.record? x with
    | some r =>
      match r.state with
      | .sole _ => let o := s.offerSight r; (o.1, o.2.usedPosition)
      | .lead _ => let o := s.offerRepeatSight r; (o.1, o.2.usedPosition)
      | .joint _ _ => let o := s.offerTakeover r; (o.1, o.2.usedPosition)
      | .closed _ _ => (s.giveUp k, false)
    | none => (s.giveUp k, false)
  | .join x =>
    match s.offerJoinOnce x with
    | none => (s.giveUp k, false)
    | some _ => State.offerJoinsFuel x listSize s false
  | .decision x =>
    match s.record? x with
    | some r =>
      match r.state with
      | .lead l =>
        match l.owed with
        | some d =>
          if l.stillOwes d then let o := s.offerDecision x d; (o.1, o.2.usedPosition)
          else ((s.putLead r { l with owed := none }).giveUp k, false)
        | none => (s.giveUp k, false)
      | .closed d _ => let o := s.offerRepeatDecide x d; (o.1, o.2.usedPosition)
      | _ => (s.giveUp k, false)
    | none => (s.giveUp k, false)
  | .query q =>
    let o := s.offerQuery q
    (o.1, o.2.usedPosition)
  | .report =>
    if s.report.request = .owed then let o := s.offerReport; (o.1, o.2.usedPosition)
    else (s.giveUp k, false)

/-- Ask the owners in turn; the first offer taken into a position ends the walk (R79). -/
def State.walkList : List WaitKey → State → State
  | [], s => s
  | k :: ks, s =>
    if k ∈ s.line.waiting then
      let o := s.askAgain k
      if o.2 then o.1 else State.walkList ks o.1
    else State.walkList ks s

/-- A position has freed: first the urgent entries, then the normal ones, each in the order they were refused (R79). -/
def State.walk (s : State) : State :=
  State.walkList (s.line.waiting.filter WaitKey.urgent ++ s.line.waiting.filter fun k => !k.urgent) s

/-! ### Removal and conversion (R80) -/

/-- The queue without the first frame that is `ok` and not under transmission. -/
def dropFirst (ok : QFrame → Bool) : List QFrame → Option (List QFrame)
  | [] => none
  | f :: q => if ok f && !f.underTx then some q else (dropFirst ok q).map (f :: ·)

/-- Remove the frames that are `ok` and not under transmission, one after another; each frees a position (R79). -/
def State.removeLoop (ok : QFrame → Bool) : Nat → State → State
  | 0, s => s
  | fuel + 1, s =>
    match dropFirst ok s.line.queue with
    | none => s
    | some q => State.removeLoop ok fuel (s.setQueue q).walk

/-- Hold a removal as pending on a frame under transmission (R80). -/
def holdRemoval (ok : QFrame → Bool) (q : List QFrame) : List QFrame :=
  q.map fun f => if ok f && f.underTx then { f with asked := .remove } else f

/-- An owner asks for the removal of its frames that are `ok` (R80). -/
def State.askRemoval (s : State) (ok : QFrame → Bool) : State :=
  State.removeLoop ok queueSize (s.setQueue (holdRemoval ok s.line.queue))

def ofSide (sd : Side) (f : QFrame) : Bool := f.owner == .side sd
def ofRecord (x : Item) (f : QFrame) : Bool := f.owner == .record x
def ofSlot (k : BitVec 2) (f : QFrame) : Bool := f.owner == .slot k

def isClaim (f : QFrame) : Bool := match f.payload with
  | .claim _ => true
  | _ => false
def isDefer (f : QFrame) : Bool := match f.payload with
  | .defer _ => true
  | _ => false
def isSight (f : QFrame) : Bool := match f.payload with
  | .sight _ => true
  | _ => false
def isJoin (f : QFrame) : Bool := match f.payload with
  | .join _ => true
  | _ => false
def isDecision (f : QFrame) : Bool := match f.payload with
  | .decision _ => true
  | _ => false

/-- A SIGHT turned into a JOIN naming `lead`: samples, position, place and loss count kept (R80). -/
def convertFrame (lead : Nat) (f : QFrame) : QFrame :=
  match f.payload with
  | .sight m => { f with payload := .join { item := m.item, lead := lead, samples := m.samples }, asked := .none }
  | _ => f

def sightEmpty (f : QFrame) : Bool := match f.payload with
  | .sight m => m.samples.isEmpty
  | _ => false

/-- The record's SIGHT is converted into a JOIN naming `lead`; one without samples is removed instead; one under transmission
holds the request as pending (R80). -/
def State.askConversion (s : State) (x : Item) (lead : Nat) : State :=
  let mine (f : QFrame) : Bool := ofRecord x f && isSight f
  let q := s.line.queue.map fun f =>
    if mine f then
      if f.underTx then { f with asked := .convert lead }
      else if sightEmpty f then f else convertFrame lead f
    else f
  State.removeLoop (fun f => mine f && sightEmpty f) queueSize (s.setQueue q)

/-- The samples carried by the record's queued takeover SIGHT (R108). -/
def sightSamples (x : Item) (q : List QFrame) : List OwnSample :=
  q.flatMap fun f => if ofRecord x f && !f.underTx then
    match f.payload with
    | .sight m => m.samples
    | _ => []
  else []

/-! ### Freeing a record -/

/-- A freed record's frames have no owner that acts on their completion (R96, R110). A SIGHT that waits keeps its owner, since a later
record of the item merges into it (R76; log 23). -/
def orphan (x : Item) (q : List QFrame) : List QFrame :=
  q.map fun f => if ofRecord x f && !(isSight f && !f.underTx) then { f with owner := .noRecord } else f

/-- The record of `x` becomes FREE: its waiting entries are given up and frames still queued go out without an owner
(R96, R100, R110). -/
def State.freeRecord (s : State) (x : Item) : State :=
  (((((s.setTable (replaceRecord x none s.table)).giveUp (.sight x)).giveUp (.join x)).giveUp (.decision x)).setQueue
    (orphan x s.line.queue))

end Sys2Proof.Machine
end

