-- ==== Sys2Proof/Machine/Coils.lean ====
section
/-! DEFINITION. The Coil Controller's own operations (chapter 2): activation, drain, cut, side at rest. -/

namespace Sys2Proof.Machine

def State.coilUnit (s : State) (sd : Side) : CoilUnit := s.coils.get sd
def State.coil (s : State) (sd : Side) (k : CoilNumber) : Coil := (s.coils.get sd).coils.get k

/-- Store one coil of a side. -/
def State.setCoil (s : State) (sd : Side) (k : CoilNumber) (c : Coil) : State :=
  s.setCoils sd { s.coils.get sd with coils := (s.coils.get sd).coils.set k c }

/-- A coil is energised while it is RAMPING or LIVE (R15). -/
def CoilState.energised : CoilState → Bool
  | .ramping | .live => true
  | .idle | .draining | .faulted => false

/-- A coil whose field is not gone: RAMPING, LIVE or DRAINING (R26). -/
def CoilState.hasField : CoilState → Bool
  | .ramping | .live | .draining => true
  | .idle | .faulted => false

/-- The coils of a side in number order. -/
def allCoils : List CoilNumber := [0, 1, 2, 3]

/-- The coil of the side that is RAMPING or LIVE, if any (R16). -/
def CoilUnit.energisedCoil (u : CoilUnit) : Option CoilNumber :=
  allCoils.find? fun k => (u.coils.get k).state.energised

/-- The coil of the side that is in state `c`, if any. -/
def CoilUnit.coilIn (u : CoilUnit) (c : CoilState) : Option CoilNumber :=
  allCoils.find? fun k => (u.coils.get k).state == c

/-- The side is at rest (R26). -/
def CoilUnit.atRest (u : CoilUnit) : Bool :=
  !(allCoils.any fun k => (u.coils.get k).state.hasField) && u.cutWait.isNone

def State.atRest (s : State) (sd : Side) : Bool := (s.coils.get sd).atRest

/-- The conditions of R16 for an activate request. -/
def State.mayActivate (s : State) (sd : Side) (k : CoilNumber) : Bool :=
  (s.coil sd k).state == .idle && (s.coils.get sd).energisedCoil.isNone &&
    (s.facesEnd sd || (s.claims.get sd).state == .holding) && (s.coils.get sd).cutWait.isNone

/-- An activate request that is taken: the coil becomes RAMPING and the ramp timer starts (R16). -/
def State.activate (s : State) (sd : Side) (k : CoilNumber) : State :=
  let u := s.coils.get sd
  s.setCoils sd { u with
    coils := u.coils.set k { u.coils.get k with state := .ramping }
    ramp := some (ms s.sys.cfg.rampTime) }

/-- End the round in progress without an outcome for its slot (R22, R23). -/
def State.cutRound (s : State) (sd : Side) : State := s.setSweep sd { s.sweeps.get sd with round := none }

/-- The effect of a drain on the Coil Controller (R23, table): LIVE and RAMPING become DRAINING with the drain timer started. -/
def CoilUnit.drained (u : CoilUnit) (drainTime : Nat) (k : CoilNumber) : CoilUnit :=
  let c := u.coils.get k
  match c.state with
  | .live => { u with coils := u.coils.set k { c with state := .draining, drain := some drainTime }, live := none }
  | .ramping => { u with coils := u.coils.set k { c with state := .draining, drain := some drainTime }, ramp := none }
  | .idle | .draining | .faulted => u

/-- Drain a coil; a LIVE one ends its round in progress (R23). -/
def State.drain (s : State) (sd : Side) (k : CoilNumber) : State :=
  let t := s.setCoils sd ((s.coils.get sd).drained (ms s.sys.cfg.drainTime) k)
  if (s.coil sd k).state = .live then t.cutRound sd else t

/-- Drain the coil of the side that is RAMPING or LIVE, if any (R17). -/
def State.drainEnergised (s : State) (sd : Side) : State :=
  match (s.coils.get sd).energisedCoil with
  | some k => s.drain sd k
  | none => s

/-- Cut a coil's drive without a drain: FAULTED, fault mark, retest timer and the side's cut wait (R19, R22, R25). -/
def CoilUnit.cut (u : CoilUnit) (drainTime : Nat) (k : CoilNumber) : CoilUnit :=
  { u with
    coils := u.coils.set k { u.coils.get k with state := .faulted, faultMark := true, retest := some retestTime }
    cutWait := some drainTime }

/-- Store the slot count the Scheduler returns (R15, R57). -/
def State.storeQ (s : State) (sd : Side) (k : CoilNumber) (q : Nat) : State :=
  s.setCoil sd k { s.coil sd k with q := q }

/-- Hall Clear on one coil (R30, table). -/
def Coil.hallClear (drainTime : Nat) (c : Coil) : Coil :=
  if c.state.hasField then { c with state := .draining, drain := some drainTime } else c

/-- Hall Clear on a Coil Controller (R30). -/
def CoilUnit.hallClear (drainTime : Nat) (u : CoilUnit) : CoilUnit :=
  { coils := u.coils.map (Coil.hallClear drainTime), ramp := none, live := none
    cutWait := u.cutWait.map fun _ => drainTime }

end Sys2Proof.Machine
end

