-- ==== Sys2Proof/Machine/Claims.lean ====
section
/-! DEFINITION. The Lane Claim Unit's own operations (chapter 3). -/

namespace Sys2Proof.Machine

/-- Take a sweep request in FREE: an inner-lane side offers a CLAIM and asks (R34), an end-lane side holds at once (R45). The
second component says that the lane is granted. -/
def State.takeRequest (s : State) (sd : Side) : State × Bool :=
  let c := s.claims.get sd
  if s.facesEnd sd then
    (s.setClaim sd { c with state := .holding, hold := some claimHoldTime, request := false }, true)
  else
    (((s.setClaim sd { c with state := .asking, sent := false, request := true }).offerClaim sd).1, false)

/-- The Sweep Scheduler asks for the lane (R34, R45). -/
def State.requestLane (s : State) (sd : Side) : State × Bool :=
  let c := s.claims.get sd
  match c.state with
  | .free => s.takeRequest sd
  | .resting _ | .asking | .holding => (s.setClaim sd { c with request := true }, false)

/-- A side that becomes FREE takes a pending request at once (R34). An owed RELEASE is given up when a rest ends (R44). -/
def State.becomeFree (s : State) (sd : Side) : State × Bool :=
  let t := s.setClaim sd { s.claims.get sd with state := .free, rest := none }
  if (s.claims.get sd).request then t.takeRequest sd else (t, false)

/-- The end of a hold: RESTING with cause CLOSING; an inner-lane side's RAMPING or LIVE coil is drained (R42, R17). In any other
state than HOLDING nothing happens. -/
def State.endHold (s : State) (sd : Side) : State :=
  let c := s.claims.get sd
  if c.state = .holding then
    let t := s.setClaim sd { c with state := .resting .closing }
    if s.facesEnd sd then t else t.drainEnergised sd
  else s

/-- A field clash reported to the Lane Claim Unit in HOLDING or CLOSING (R42, R46). -/
def State.claimClash (s : State) (sd : Side) : State :=
  let c := s.claims.get sd
  if c.state = .holding ∨ c.state = .resting .closing then
    let t := s.endHold sd
    t.setClaim sd { t.claims.get sd with clash := true }
  else s

/-- The clash back-off (R43). -/
def State.clashBackOff (s : State) : Nat := ms ((s.number + 1) * 5)

/-- The state a hold leads to at rest, from its marks (R43, table). -/
def afterRelease (c : Claim) : ClaimState :=
  if c.clash then .resting .backOff else if c.deferredPartner then .resting .gap else .free

/-- The side has come to rest in CLOSING: it gives up the lane (R43), or for an end lane takes its next state without a frame
(R45). The second component says that a pending request was granted. -/
def State.giveUpLane (s : State) (sd : Side) : State × Bool :=
  let c := s.claims.get sd
  if c.state = .resting .closing then
    if s.facesEnd sd then
      if c.clash then
        (s.setClaim sd { c with state := .resting .backOff, clash := false, hold := none, rest := some s.clashBackOff }, false)
      else (s.setClaim sd { c with clash := false, hold := none }).becomeFree sd
    else
      let t := ((s.giveUp (.defer sd)).offerRelease sd).1
      let u := t.setClaim sd
        { c with state := afterRelease c, clash := false, deferredPartner := false, hold := none, rest := none }
      if afterRelease c = .free then u.becomeFree sd else (u, false)
  else (s, false)

/-- Leave ASKING for a timed rest: the queued or owed CLAIM is given up and removed (R36, R37). -/
def State.yieldTo (s : State) (sd : Side) (cause : RestCause) (rest : Nat) : State :=
  ((s.setClaim sd { s.claims.get sd with
      state := .resting cause, sent := false, wait := none, rest := some rest }).giveUp (.claim sd)).askRemoval
    (fun f => ofSide sd f && isClaim f)

/-- Answer the partner's CLAIM with a DEFER and set the deferred-partner mark (R37, R40). -/
def State.deferPartner (s : State) (sd : Side) : State :=
  ((s.setClaim sd { s.claims.get sd with deferredPartner := true }).offerDefer sd).1

/-- The rest after the partner came first: the claim hold limit plus the yield gap (R37). -/
def yieldRest : Nat := claimHoldTime + ms yieldGap

/-- The partner's CLAIM is heard (R37, R40, R44). -/
def State.partnerClaim (s : State) (sd : Side) : State :=
  let c := s.claims.get sd
  match c.state with
  | .free => s
  | .asking => if c.sent then s.deferPartner sd else s.yieldTo sd .yielded yieldRest
  | .holding => s.deferPartner sd
  | .resting .closing => s.deferPartner sd
  | .resting .yielded => s.setClaim sd { c with rest := some yieldRest }
  | .resting .deferred => s.setClaim sd { c with state := .resting .yielded, rest := some yieldRest }
  | .resting .gap => ((s.giveUp (.release sd)).becomeFree sd).1
  | .resting .backOff => s

/-- The rest after a DEFER: the carried remaining hold, at most 60, plus the yield gap (R39). -/
def deferredRest (hold : Nat) : Nat := ms (min hold 60 + yieldGap)

/-- The partner's DEFER is heard (R39). -/
def State.partnerDefer (s : State) (sd : Side) (hold : Nat) : State :=
  let c := s.claims.get sd
  match c.state with
  | .asking =>
    (((s.setClaim sd { c with deferredPartner := false }).giveUp (.defer sd)).yieldTo sd .deferred
      (deferredRest hold)).askRemoval (fun f => ofSide sd f && isDefer f)
  | .free | .holding | .resting _ => s

/-- The partner's RELEASE is heard (R44). -/
def State.partnerRelease (s : State) (sd : Side) : State :=
  match (s.claims.get sd).state with
  | .resting .closing => s
  | .resting _ => ((s.giveUp (.release sd)).becomeFree sd).1
  | .free | .asking | .holding => s

/-- The Lane Claim Unit that takes a claim frame as its partner's (R33): the side that faces the lane, is not at an end lane, and
whose other flank is the sender. -/
def State.claimSide (s : State) (sender : Nat) (lane : Nat) : Option Side :=
  [Side.L, Side.R].find? fun sd => !s.facesEnd sd && s.lane sd == lane && s.partner sd == sender

/-- The remaining hold a DEFER carries at its attempt, in whole ms (R41; log 17). -/
def State.remainingHold (s : State) (sd : Side) : Nat :=
  let c := s.claims.get sd
  match c.state with
  | .asking => if c.sent then 60 else 0
  | .holding | .resting .closing => match c.hold with
    | some left => (left + 999) / 1000
    | none => 0
  | .free | .resting _ => 0

/-- The rest timer of a GAP or BACK-OFF rest starts when the RELEASE is transmitted or dropped, unless the rest has ended (R43,
R44). -/
def State.releaseSettled (s : State) (sd : Side) : State :=
  let c := s.claims.get sd
  match c.state with
  | .resting .gap => if c.rest = none then s.setClaim sd { c with rest := some (ms yieldGap) } else s
  | .resting .backOff => if c.rest = none then s.setClaim sd { c with rest := some s.clashBackOff } else s
  | .free | .asking | .holding | .resting _ => s

/-- The side's own CLAIM has been transmitted (R35). -/
def State.claimTransmitted (s : State) (sd : Side) : State :=
  let c := s.claims.get sd
  if c.state = .asking then s.setClaim sd { c with sent := true, wait := some claimWaitTime } else s

end Sys2Proof.Machine
end

