-- ==== Sys2Proof/Machine/Flags.lean ====
section
/-! DEFINITION. What is computed from State and held nowhere else: the reported status (R29, R169) and the outputs (R15, R160, R165). -/

namespace Sys2Proof.Machine

def bit (b : Bool) (k : Nat) : Nat := if b then 2 ^ k else 0

/-- The coil fault set of one side as bits 0 to 3 (R29). -/
def CoilUnit.faultBits (u : CoilUnit) : Nat :=
  bit u.coils.v0.faultMark 0 + bit u.coils.v1.faultMark 1 + bit u.coils.v2.faultMark 2 + bit u.coils.v3.faultMark 3

/-- The coil fault set: bits 0 to 3 side L, bits 4 to 7 side R (R29, R87). -/
def State.faultSet (s : State) : Byte := BitVec.ofNat 8 (s.coils.left.faultBits + 16 * s.coils.right.faultBits)

def Sweep.dozing (w : Sweep) : Bool := w.mode == .doze

/-- A coil's drive is on while it is RAMPING or LIVE (R16, R23). -/
def State.driveOn (s : State) (sd : Side) (k : CoilNumber) : Bool := (s.coil sd k).state.energised

/-- The lamp output: lit in STEADY and in FLASHING with phase LIT (R160). -/
def LampState.output : LampState → Bool
  | .dark => false
  | .flashing lit _ => lit
  | .steady _ => true

def State.lampOutput (s : State) (sd : Side) : Bool := (s.lamps.get sd).state.output

/-- The sounder output: driven in ON (R165). -/
def SounderState.output : SounderState → Bool
  | .on _ => true
  | .silent | .off _ => false

def State.sounderOutput (s : State) : Bool := s.sounder.state.output

def Counters.wire (c : Counters Nat) : Counters (BitVec 16) :=
  { led := .ofNat 16 c.led, alarms := .ofNat 16 c.alarms, withdrawn := .ofNat 16 c.withdrawn
    lingers := .ofNat 16 c.lingers, samplesLost := .ofNat 16 c.samplesLost
    framesDropped := .ofNat 16 c.framesDropped, framesBad := .ofNat 16 c.framesBad
    answersMissed := .ofNat 16 c.answersMissed }

/-- The fields of a REPORT at the start of its attempt (R169); in CONFIG FAULT every field but the run state is 0 (R14). -/
def State.reportBody (s : State) : ReportBody :=
  if s.sys.run = .configFault then
    { run := .configFault, modeL := false, modeR := false, faults := 0, table := 0, directory := 0, cache := 0
      counters := Counters.wire Counters.zero }
  else
    { run := .running, modeL := s.sweeps.left.dozing, modeR := s.sweeps.right.dozing, faults := s.faultSet
      table := .ofNat 8 s.occupancy, directory := .ofNat 8 s.directory.length, cache := .ofNat 16 s.cache.length
      counters := Counters.wire s.report.counters }

end Sys2Proof.Machine
end

