-- ==== Sys2Proof/WellFormed.lean ====
section
/-! DEFINITION. Which commands are well formed: the operands a frame or a read attempt of the manual can carry. Ranges that
the operand's own type enforces (an address of 5 bits, an item of 40 bits, a coil of 2 bits) need no check here. -/

namespace Sys2Proof

/-- A SIGHT carries 0 to 4 samples (R87). -/
def SightBody.wellFormed (b : SightBody) : Bool := b.samples.length ≤ 4

/-- A JOIN carries 1 to 4 samples (R87). -/
def JoinBody.wellFormed (b : JoinBody) : Bool := 1 ≤ b.samples.length && b.samples.length ≤ 4

/-- An ISSUE or RETURN names 1 to 8 items (R87). -/
def itemsWellFormed (items : List Item) : Bool := 1 ≤ items.length && items.length ≤ 8

/-- A command is well formed when its operands are ones the manual gives: an image of 98 bytes (R8, R9) and bodies of an
allowed length (R87). -/
def Instr.wellFormed : Instr → Bool
  | .readAttemptComplete _ image => image.length == 98
  | .heardSight _ _ b => b.wellFormed
  | .heardJoin _ _ b => b.wellFormed
  | .heardIssue _ _ items => itemsWellFormed items
  | .heardReturn _ _ items => itemsWellFormed items
  | .fullReset _ | .startUp _ _ | .readAttemptFail _ | .retryWaitEnd _ | .startupIdleGap _ | .secondsTick _
  | .noticeExpiry _ | .rampEnd _ _ _ | .liveLimit _ _ | .driveLoss _ _ _ | .drainEnd _ _ _ | .cutWaitEnd _ _
  | .retestEnd _ _ _ | .claimWaitEnd _ _ | .claimHoldTimerEnd _ _ | .restTimerEnd _ _ | .heardClaim _ _ _
  | .heardDefer _ _ _ | .heardRelease _ _ _ | .gapEnd _ _ | .slotEnd _ _ _ | .dozeTimerEnd _ _
  | .beamInputChange _ _ _ _ | .beamDebounceEnd _ _ _ | .attemptStart _ | .contentionLost _ | .transmitComplete _
  | .badFrame _ _ | .heardDecide _ _ _ | .heardQuery _ _ _ | .heardReport _ _ _ | .solePatienceEnd _ _
  | .patienceTimerEnd _ _ | .directoryExpiry _ _ | .closeHoldEnd _ _ | .heardAnswer _ _ _ | .quietTimerEnd _ _
  | .dwellReached _ _ | .holdTimerEnd _ _ | .hallLevelInputChange _ _ | .hallLevelDebounceEnd _ | .lampHoldEnd _ _
  | .holderExpiry _ _ _ | .flashPhaseEnd _ _ | .cadenceTimerEnd _ | .heardPoll _ _ _ | .heardClearHall _ _
  | .sofStamp _ => true

/-- The time operand of a command. -/
def Instr.after : Instr → Nat
  | .fullReset a | .startUp a _ | .readAttemptFail a | .retryWaitEnd a | .readAttemptComplete a _ | .startupIdleGap a
  | .secondsTick a | .noticeExpiry a | .rampEnd a _ _ | .liveLimit a _ | .driveLoss a _ _ | .drainEnd a _ _
  | .cutWaitEnd a _ | .retestEnd a _ _ | .claimWaitEnd a _ | .claimHoldTimerEnd a _ | .restTimerEnd a _
  | .heardClaim a _ _ | .heardDefer a _ _ | .heardRelease a _ _ | .gapEnd a _ | .slotEnd a _ _ | .dozeTimerEnd a _
  | .beamInputChange a _ _ _ | .beamDebounceEnd a _ _ | .attemptStart a | .contentionLost a | .transmitComplete a
  | .badFrame a _ | .heardSight a _ _ | .heardJoin a _ _ | .heardDecide a _ _ | .heardQuery a _ _ | .heardReport a _ _
  | .solePatienceEnd a _ | .patienceTimerEnd a _ | .directoryExpiry a _ | .closeHoldEnd a _ | .heardIssue a _ _
  | .heardReturn a _ _ | .heardAnswer a _ _ | .quietTimerEnd a _ | .dwellReached a _ | .holdTimerEnd a _
  | .hallLevelInputChange a _ | .hallLevelDebounceEnd a | .lampHoldEnd a _ | .holderExpiry a _ _ | .flashPhaseEnd a _
  | .cadenceTimerEnd a | .heardPoll a _ _ | .heardClearHall a _ | .sofStamp a => a

end Sys2Proof
end

