-- ==== Sys2Proof/Machine/Operands.lean ====
section
/-! DEFINITION. The operand forms of the line: frames as bytes and back (R69, R82, R87, R88), the CRC, the bits on the line (R68), and
how a queued frame is filled at an attempt (R41, R85, R169). -/

namespace Sys2Proof.Machine

/-! ### Codes of fields with listed values (R87) -/

def verdictCode : Verdict → Byte
  | .clear => 0
  | .alarm => 1
  | .inbound => 2
  | .linger => 3
  | .provisional => 4
  | .withdraw => 5

def verdictOf (b : Byte) : Option Verdict :=
  if b = 0 then some .clear else if b = 1 then some .alarm else if b = 2 then some .inbound
  else if b = 3 then some .linger else if b = 4 then some .provisional else if b = 5 then some .withdraw else none

def reasonCode : Reason → Byte
  | .none => 0
  | .noSignal => 1
  | .noDirection => 2
  | .classUnknown => 3
  | .classAbsent => 4
  | .reference => 5
  | .hallLevel => 6
  | .exempt => 7
  | .issuedMark => 8
  | .issuedNotice => 9
  | .issuedAnswer => 10
  | .unissued => 11
  | .returned => 12
  | .noAnswer => 13

def reasonOf (b : Byte) : Option Reason :=
  if b = 0 then some .none else if b = 1 then some .noSignal else if b = 2 then some .noDirection
  else if b = 3 then some .classUnknown else if b = 4 then some .classAbsent else if b = 5 then some .reference
  else if b = 6 then some .hallLevel else if b = 7 then some .exempt else if b = 8 then some .issuedMark
  else if b = 9 then some .issuedNotice else if b = 10 then some .issuedAnswer else if b = 11 then some .unissued
  else if b = 12 then some .returned else if b = 13 then some .noAnswer else none

def statusCode : AnswerStatus → Byte
  | .issued => 0
  | .notIssued => 1
  | .unknown => 2

def statusOf (b : Byte) : Option AnswerStatus :=
  if b = 0 then some .issued else if b = 1 then some .notIssued else if b = 2 then some .unknown else none

def runCode : ReportedRun → Byte
  | .running => 1
  | .configFault => 2

def runOf (b : Byte) : Option ReportedRun :=
  if b = 1 then some .running else if b = 2 then some .configFault else none

/-! ### Numbers of several bytes, most significant byte first (R69) -/

def itemBytes (x : Item) : List Byte :=
  [x.extractLsb' 32 8, x.extractLsb' 24 8, x.extractLsb' 16 8, x.extractLsb' 8 8, x.extractLsb' 0 8]

def itemOf (a b c d e : Byte) : Item := (((a ++ b) ++ c) ++ d) ++ e

def wordBytes (w : BitVec 16) : List Byte := [w.extractLsb' 8 8, w.extractLsb' 0 8]

def wordOf (a b : Byte) : BitVec 16 := a ++ b

def bitByte (b : Bool) : Byte := if b then 1 else 0

/-! ### Samples (R88) -/

def sideBit : Side → BitVec 1
  | .L => 0
  | .R => 1

def sideOf (b : BitVec 1) : Side := if b = 1 then .R else .L

/-- The second byte of a sample: side, coil, a bit sent as 0, the four high bits of the age. -/
def sampleByte (w : WireSample) : Byte := ((sideBit w.side ++ w.coil) ++ (0 : BitVec 1)) ++ w.age.extractLsb' 8 4

def sampleBytes (w : WireSample) : List Byte := [w.strength, sampleByte w, w.age.extractLsb' 0 8]

def sampleFrom (a b c : Byte) : WireSample :=
  { strength := a, side := sideOf (b.extractLsb' 7 1), coil := b.extractLsb' 5 2, age := b.extractLsb' 0 4 ++ c }

def samplesBytes : List WireSample → List Byte
  | [] => []
  | w :: ws => sampleBytes w ++ samplesBytes ws

/-- Three bytes to a sample; none for a length that is no multiple of 3. -/
def samplesFrom : List Byte → Option (List WireSample)
  | [] => some []
  | a :: b :: c :: t => (samplesFrom t).map (sampleFrom a b c :: ·)
  | _ :: _ => none

def itemsBytes : List Item → List Byte
  | [] => []
  | x :: xs => itemBytes x ++ itemsBytes xs

def itemsFrom : List Byte → Option (List Item)
  | [] => some []
  | a :: b :: c :: d :: e :: t => (itemsFrom t).map (itemOf a b c d e :: ·)
  | _ :: _ => none

/-! ### Bodies (R87) -/

def kindCode : Body → Byte
  | .deferBody _ => 16
  | .releaseBody _ => 17
  | .decideBody _ => 18
  | .claimBody _ => 32
  | .sightBody _ => 33
  | .joinBody _ => 34
  | .queryBody _ => 35
  | .reportBody _ => 36
  | .issueBody _ => 64
  | .returnBody _ => 65
  | .answerBody _ => 66
  | .pollBody _ => 67
  | .clearHallBody => 68

def markBit : IssueMark → BitVec 1
  | .issued => 1
  | .notIssued => 0

def markOf (b : BitVec 1) : IssueMark := if b = 1 then .issued else .notIssued

/-- The flags byte of a SIGHT: issue mark, tag level, takeover, repeat; the other bits as 0. -/
def sightFlags (b : SightBody) : Byte :=
  (((markBit b.mark ++ b.level) ++ (0 : BitVec 3)) ++ BitVec.ofBool b.takeover) ++ BitVec.ofBool b.again

def modeByte (l r : Bool) : Byte := ((0 : BitVec 6) ++ BitVec.ofBool r) ++ BitVec.ofBool l

def counterBytes (c : Counters (BitVec 16)) : List Byte :=
  wordBytes c.led ++ (wordBytes c.alarms ++ (wordBytes c.withdrawn ++ (wordBytes c.lingers ++ (wordBytes c.samplesLost ++
    (wordBytes c.framesDropped ++ (wordBytes c.framesBad ++ wordBytes c.answersMissed))))))

def bodyBytes : Body → List Byte
  | .deferBody b => [b.lane, b.hold]
  | .releaseBody lane => [lane]
  | .decideBody b =>
    itemBytes b.item ++ [verdictCode b.verdict, reasonCode b.reason, b.laneA, b.laneB, bitByte b.again]
  | .claimBody lane => [lane]
  | .sightBody b => itemBytes b.item ++ ([b.code, sightFlags b] ++ samplesBytes b.samples)
  | .joinBody b => itemBytes b.item ++ ([b.lead] ++ samplesBytes b.samples)
  | .queryBody b => [b.receiver, b.tag] ++ itemBytes b.item
  | .reportBody b =>
    [runCode b.run, modeByte b.modeL b.modeR, b.faults, b.table, b.directory] ++
      (wordBytes b.cache ++ counterBytes b.counters)
  | .issueBody items => itemsBytes items
  | .returnBody items => itemsBytes items
  | .answerBody b => [b.receiver, b.tag] ++ (itemBytes b.item ++ [statusCode b.status, bitByte b.error])
  | .pollBody b => [b.target, bitByte b.clear]
  | .clearHallBody => []

def decideFrom : List Byte → Option DecideBody
  | [a, b, c, d, e, v, w, p, q, f] =>
    match verdictOf v, reasonOf w with
    | some vd, some rs =>
      some { item := itemOf a b c d e, verdict := vd, reason := rs, laneA := p, laneB := q, again := f.getLsbD 0 }
    | _, _ => none
  | _ => none

def sightFrom : List Byte → Option SightBody
  | a :: b :: c :: d :: e :: code :: f :: t =>
    (samplesFrom t).map fun ws =>
      { item := itemOf a b c d e, code := code, mark := markOf (f.extractLsb' 7 1), level := f.extractLsb' 5 2
        takeover := f.getLsbD 1, again := f.getLsbD 0, samples := ws }
  | _ => none

def joinFrom : List Byte → Option JoinBody
  | a :: b :: c :: d :: e :: l :: t =>
    (samplesFrom t).map fun ws => { item := itemOf a b c d e, lead := l, samples := ws }
  | _ => none

def queryFrom : List Byte → Option QueryBody
  | [r, g, a, b, c, d, e] => some { receiver := r, tag := g, item := itemOf a b c d e }
  | _ => none

def answerFrom : List Byte → Option AnswerBody
  | [r, g, a, b, c, d, e, st, f] =>
    (statusOf st).map fun status =>
      { receiver := r, tag := g, item := itemOf a b c d e, status := status, error := f.getLsbD 0 }
  | _ => none

def reportFrom : List Byte → Option ReportBody
  | [r, m, f, t, d, k1, k0, a1, a0, b1, b0, c1, c0, d1, d0, e1, e0, f1, f0, g1, g0, h1, h0] =>
    (runOf r).map fun run =>
      { run := run, modeL := m.getLsbD 0, modeR := m.getLsbD 1, faults := f, table := t, directory := d
        cache := wordOf k1 k0
        counters := { led := wordOf a1 a0, alarms := wordOf b1 b0, withdrawn := wordOf c1 c0, lingers := wordOf d1 d0
                      samplesLost := wordOf e1 e0, framesDropped := wordOf f1 f0, framesBad := wordOf g1 g0
                      answersMissed := wordOf h1 h0 } }
  | _ => none

def deferFrom : List Byte → Option DeferBody
  | [l, h] => some { lane := l, hold := h }
  | _ => none

def laneFrom : List Byte → Option Byte
  | [l] => some l
  | _ => none

def pollFrom : List Byte → Option PollBody
  | [t, f] => some { target := t, clear := f.getLsbD 0 }
  | _ => none

/-- A body of an allowed length (R82, R87): bodies of a fixed length always are. -/
def sizeAllowed : Body → Bool
  | .sightBody b => b.wellFormed
  | .joinBody b => b.wellFormed
  | .issueBody items | .returnBody items => itemsWellFormed items
  | .deferBody _ | .releaseBody _ | .decideBody _ | .claimBody _ | .queryBody _ | .reportBody _ | .answerBody _
  | .pollBody _ | .clearHallBody => true

/-- The body that bytes of a kind stand for; none where R82 fails the frame for its kind, its body size or a code. -/
def bodyFrom (kind : Byte) (bs : List Byte) : Option Body :=
  (if kind = 16 then (deferFrom bs).map .deferBody
  else if kind = 17 then (laneFrom bs).map .releaseBody
  else if kind = 18 then (decideFrom bs).map .decideBody
  else if kind = 32 then (laneFrom bs).map .claimBody
  else if kind = 33 then (sightFrom bs).map .sightBody
  else if kind = 34 then (joinFrom bs).map .joinBody
  else if kind = 35 then (queryFrom bs).map .queryBody
  else if kind = 36 then (reportFrom bs).map .reportBody
  else if kind = 64 then (itemsFrom bs).map .issueBody
  else if kind = 65 then (itemsFrom bs).map .returnBody
  else if kind = 66 then (answerFrom bs).map .answerBody
  else if kind = 67 then (pollFrom bs).map .pollBody
  else if kind = 68 then (if bs.isEmpty then some .clearHallBody else none)
  else none).filter sizeAllowed

/-! ### Frames (R69) -/

/-- One bit into the CRC: generator x^16 + x^12 + x^5 + 1. -/
def crcBit (r : BitVec 16) (b : Bool) : BitVec 16 :=
  let top := r.getLsbD 15 ^^ b
  let shifted := r <<< 1
  if top then shifted ^^^ 0x1021 else shifted

/-- The bits of a byte, most significant first. -/
def byteBits (b : Byte) : List Bool :=
  [b.getLsbD 7, b.getLsbD 6, b.getLsbD 5, b.getLsbD 4, b.getLsbD 3, b.getLsbD 2, b.getLsbD 1, b.getLsbD 0]

def crcByte (r : BitVec 16) (b : Byte) : BitVec 16 := (byteBits b).foldl crcBit r

/-- The CRC of a frame's kind, sender, body-length and body bytes. -/
def crc16 (bs : List Byte) : BitVec 16 := bs.foldl crcByte 0xFFFF

def preamble : Byte := 85

def maxBody : Nat := 48

/-- The bytes that the CRC covers. -/
def coveredBytes (f : Frame) : List Byte :=
  kindCode f.body :: f.sender.setWidth 8 :: BitVec.ofNat 8 (bodyBytes f.body).length :: bodyBytes f.body

/-- A frame as a station sends it. -/
def frameBytes (f : Frame) : List Byte := preamble :: (coveredBytes f ++ wordBytes (crc16 (coveredBytes f)))

/-- The frame that received bytes stand for; none where a structural check of R82 fails. -/
def frameFrom : List Byte → Option Frame
  | p :: kind :: sender :: len :: rest =>
    let body := rest.take (rest.length - 2)
    if 2 ≤ rest.length ∧ p = preamble ∧ rest.drop (rest.length - 2) = wordBytes (crc16 (kind :: sender :: len :: body)) ∧
        len.toNat ≤ maxBody ∧ len.toNat = body.length then
      (bodyFrom kind body).map fun b => { sender := sender.setWidth 5, body := b }
    else none
  | _ => none

/-- The structural checks of R82 on a run of bytes. -/
def checkRaw (r : RawFrame) : Option Frame :=
  if r.badStop || r.partialByte then none else frameFrom r.bytes

/-- Whether a K16 sends the body's kind (section 1.1, R83). -/
def fromK16 : Body → Bool
  | .deferBody _ | .releaseBody _ | .decideBody _ | .claimBody _ | .sightBody _ | .joinBody _ | .queryBody _
  | .reportBody _ => true
  | .issueBody _ | .returnBody _ | .answerBody _ | .pollBody _ | .clearHallBody => false

/-- The sender check of R83. -/
def State.senderOk (s : State) (sender : Address) (b : Body) : Bool :=
  if fromK16 b then decide (sender.toNat < s.sys.cfg.n) && sender.toNat != s.number else decide (16 ≤ sender.toNat)

/-! ### Bits on the line (R68) -/

/-- Bit `k` of a run of bytes on the line: a start bit at 0, eight data bits most significant first, a stop bit at 1. -/
def lineBit (bs : List Byte) (k : Nat) : Option Bool :=
  (bs[k / 10]?).map fun b =>
    if k % 10 = 0 then false else if k % 10 = 9 then true else b.getLsbD (8 - k % 10)

/-- The time from the start of an attempt to the frame's end: its bytes and the closing idle gap (R68, R69). -/
def attemptTime (bs : List Byte) : Nat := bs.length * byteTime + idleGap

/-! ### Filling a frame at an attempt (R41, R85, R169) -/

/-- The age carried for a local time (R85). -/
def ageOf (now t : Clock) : BitVec 12 := BitVec.ofNat 12 (min 4095 (elapsedMs now t))

def OwnSample.wire (now : Clock) (p : OwnSample) : WireSample :=
  { strength := p.strength, side := p.side, coil := p.coil, age := ageOf now p.time }

def laneByte (n : Nat) : Byte := BitVec.ofNat 8 n

/-- Lane B, or 255 for none (R87). -/
def laneBByte : Option Nat → Byte
  | some n => laneByte n
  | none => 255

/-- The remaining hold that a queued DEFER carries: that of the side that offered it (R41). -/
def State.deferHold (s : State) : Owner → Nat
  | .side sd => s.remainingHold sd
  | .record _ | .noRecord | .slot _ | .reportUnit => 0

def State.fillBody (s : State) (f : QFrame) : Body :=
  let now := s.time.clock
  match f.payload with
  | .sight m => .sightBody
      { item := m.item, code := m.code, mark := m.mark, level := m.level, takeover := m.takeover, again := m.again
        samples := m.samples.map (OwnSample.wire now) }
  | .join m => .joinBody { item := m.item, lead := laneByte m.lead, samples := m.samples.map (OwnSample.wire now) }
  | .decision m => .decideBody
      { item := m.item, verdict := m.decision.verdict, reason := m.decision.reason, laneA := laneByte m.decision.laneA
        laneB := laneBByte m.decision.laneB, again := m.again }
  | .claim lane => .claimBody (laneByte lane)
  | .defer lane => .deferBody { lane := laneByte lane, hold := BitVec.ofNat 8 (s.deferHold f.owner) }
  | .release lane => .releaseBody (laneByte lane)
  | .query receiver tag item => .queryBody { receiver := laneByte receiver, tag := laneByte tag, item := item }
  | .report => .reportBody s.reportBody

/-- The frame as the station sends it, under its station number (R1). -/
def State.fillFrame (s : State) (f : QFrame) : Frame := { sender := s.sys.station.setWidth 5, body := s.fillBody f }

end Sys2Proof.Machine
end

