-- ==== Sys2Proof/Machine/Estimation.lean ====
section
/-! DEFINITION. The lane and direction computation (chapter 7): a pure function of a sample list, the clock reading and four
configuration values. -/

namespace Sys2Proof.Machine

inductive Direction where
  | outbound | inbound | undetermined
  deriving DecidableEq, Repr

/-- The result of an evaluation (R114). -/
structure Estimate where
  signal    : Bool
  laneA     : Nat
  laneB     : Option Nat
  direction : Direction
  deriving DecidableEq, Repr

/-- The lane of a sample (R115). -/
def Sample.lane (p : Sample) : Nat := sideLane p.station p.side

/-- The sum of the weights of a list of samples. -/
def totalWeight (floor : Nat) (ps : List Sample) : Nat := (ps.map (Sample.weight floor)).sum

/-- The lane score S_j (R117). -/
def laneScore (floor : Nat) (ps : List Sample) (j : Nat) : Nat := totalWeight floor (ps.filter fun p => p.lane == j)

/-- The first of a list of lanes with the greatest score; `b` stands for the best so far. -/
def bestLaneFrom (score : Nat → Nat) (b : Nat) : List Nat → Nat
  | [] => b
  | j :: js => bestLaneFrom score (if score b < score j then j else b) js

/-- The lowest-numbered of the lanes with the greatest score among `lanes`, which rise (R117); 0 for no lane. -/
def bestLane (score : Nat → Nat) : List Nat → Nat
  | [] => 0
  | j :: js => bestLaneFrom score j js

/-- A difference this great or greater is a time that lies ahead (R119, R120). -/
def aheadLimit : Nat := 61440

/-- The elapsed time of a sample at an evaluation (R119). -/
def elapsedAt (now t : Clock) : Nat :=
  let e := elapsedMs now t
  if aheadLimit ≤ e then 0 else e

/-- The sample of greatest elapsed time, the first of them in the list (R119). -/
def oldestFrom (now : Clock) (b : Sample) : List Sample → Sample
  | [] => b
  | p :: ps => oldestFrom now (if elapsedAt now b.time < elapsedAt now p.time then p else b) ps

/-- The origin of a sample list (R119); none for an empty list. -/
def originOf (now : Clock) : List Sample → Option Clock
  | [] => none
  | p :: ps => some (oldestFrom now p ps).time

/-- The relative time of a reading (R120). -/
def relativeTime (origin t : Clock) : Nat :=
  let r := elapsedMs t origin
  if aheadLimit ≤ r then 0 else min r 4095

/-- Coils 0 and 1 form the inner face (section 1.3). -/
def Sample.inner (p : Sample) : Bool := p.coil == 0 || p.coil == 1

/-- A face's centroid: the weighted mean of the relative times, rounded half up (R122). -/
def centroid (floor : Nat) (origin : Clock) (ps : List Sample) : Nat :=
  ((ps.map fun p => p.weight floor * relativeTime origin p.time).sum + totalWeight floor ps / 2) / totalWeight floor ps

/-- The direction from the two centroids (R123). -/
def directionOf (threshold : Nat) (ti outer : Nat) : Direction :=
  if ti + threshold ≤ outer then .outbound
  else if outer + threshold ≤ ti then .inbound
  else .undetermined

/-- The direction of the samples of the direction lanes (R121 to R123). -/
def faceDirection (floor threshold : Nat) (origin : Clock) (ps : List Sample) : Direction :=
  let inner := ps.filter Sample.inner
  let outer := ps.filter fun p => !p.inner
  if totalWeight floor inner = 0 ∨ totalWeight floor outer = 0 then .undetermined
  else directionOf threshold (centroid floor origin inner) (centroid floor origin outer)

/-- The second lane: the best of the lanes other than the chosen one, if the lanes are ambiguous (R118). -/
def secondLane (score : Nat → Nat) (margin : Nat) (lanes : List Nat) (j : Nat) : Option Nat :=
  let j2 := bestLane score (lanes.filter (· ≠ j))
  if 0 < score j2 ∧ score j - score j2 < margin then some j2 else none

/-- The evaluation (R113 to R123). -/
def estimate (c : Config) (now : Clock) (ps : List Sample) : Estimate :=
  let score := laneScore c.noiseFloor ps
  let lanes := List.range (c.n + 1)
  let j := bestLane score lanes
  if score j = 0 then { signal := false, laneA := 0, laneB := none, direction := .undetermined }
  else
    let b := secondLane score c.margin lanes j
    let chosen := ps.filter fun p => p.lane == j || some p.lane == b
    let dir := match originOf now ps with
      | some o => faceDirection c.noiseFloor c.threshold o chosen
      | none => .undetermined
    { signal := true, laneA := j, laneB := b, direction := dir }

/-- The dwell of a sample list: the elapsed time of its origin (R146). -/
def dwellOf (now : Clock) (ps : List Sample) : Nat :=
  match originOf now ps with
  | some o => elapsedAt now o
  | none => 0

end Sys2Proof.Machine
end

