-- ==== Sys2Proof/Machine/Issue.lean ====
section
/-! DEFINITION. The Issue Status Unit's own operations (chapter 8): the cache, issue status, query slots. -/

namespace Sys2Proof.Machine

/-! ### The cache (R124 to R128) -/

/-- Enter a notice: the item's entry moves to the newest end with age 0 and the new status; a new entry in a full cache evicts the
oldest (R125, R127). -/
def enterNotice (st : NoticeStatus) (c : List Notice) (x : Item) : List Notice :=
  let rest := c.filter fun e => e.item != x
  let kept := if c.any fun e => e.item == x then rest else if cacheSize ≤ c.length then c.drop 1 else c
  kept ++ [{ item := x, status := st, age := 0 }]

/-- The cache's status for an item (R129). -/
def noticeOf (x : Item) (c : List Notice) : Option NoticeStatus := (c.find? fun e => e.item == x).map Notice.status

/-- The notice lifetime in seconds (R6). -/
def lifetimeSeconds (c : Config) : Nat := c.lifetime * 60

/-- Remove the entries whose age has reached the lifetime, oldest first, stopping at the first that is younger (R128). -/
def expireNotices (lifetime : Nat) (c : List Notice) : List Notice := c.dropWhile fun e => decide (lifetime ≤ e.age)

/-- Every entry ages by one at a seconds tick (R128). -/
def ageNotices (c : List Notice) : List Notice := c.map fun e => { e with age := e.age + 1 }

/-! ### Issue status (R129, R135) -/

/-- The outcome of an issue-status request (R129). -/
inductive IssueStatus where
  | byMark | byNotice | byAnswer
  | unissued | returned
  | unknown
  | ask
  deriving DecidableEq, Repr

/-- R129, table. -/
def issueStatus (mark : IssueMark) (entry : Option NoticeStatus) (registry : Nat) : IssueStatus :=
  match mark, entry with
  | _, some .returned => .returned
  | .issued, some .issued => .byMark
  | .issued, none => .byMark
  | .notIssued, some .issued => .byNotice
  | .notIssued, none => if registry = noRegistry then .unissued else .ask

def State.issueStatusOf (s : State) (r : Record) : IssueStatus :=
  issueStatus r.mark (noticeOf r.item s.cache) s.sys.cfg.registry

/-- The outcome a matching ANSWER carries (R135, table). -/
def answerOutcome (st : AnswerStatus) (error : Bool) : IssueStatus :=
  if error then .unknown else match st with
    | .issued => .byAnswer
    | .notIssued => .unissued
    | .unknown => .unknown

/-- At the re-evaluation a matching ANSWER calls for, its outcome stands in place of the table's, unless the table gives ISSUED from
the mark or NOT ISSUED from a RETURN notice (R135). -/
def withAnswer (answer : Option IssueStatus) (table : IssueStatus) : IssueStatus :=
  match answer, table with
  | none, t => t
  | some _, .byMark => .byMark
  | some _, .returned => .returned
  | some a, _ => a

/-! ### Query slots (R131 to R134) -/

/-- The tag of slot `k` used with sequence `q` (R131). -/
def queryTag (k q : BitVec 2) : Nat := k.toNat * 4 + q.toNat

def allSlots : List (BitVec 2) := [0, 1, 2, 3]

/-- The lowest-numbered FREE slot (R132). -/
def Queries.freeSlot (q : Queries) : Option (BitVec 2) := allSlots.find? fun k => (q.slots.get k).use.isNone

/-- Set or clear the query slot field of a LEAD record (R90). -/
def State.setSlotField (s : State) (x : Item) (k : Option (BitVec 2)) : State :=
  match s.lead? x with
  | some (r, l) => s.putLead r { l with slot := k }
  | none => s

/-- A FREE slot becomes WAITING for a record and offers its QUERY (R132, R133). -/
def State.takeSlot (s : State) (k : BitVec 2) (x : Item) : State :=
  let q := s.queries.slots.get k
  let t := s.setQueries { s.queries with
    slots := s.queries.slots.set k { q with use := some { item := x, position := s.positionOf x, tag := queryTag k q.seq } } }
  ((t.setSlotField x (some k)).offerQuery k).1

/-- Free a slot (R134): its QUERY is removed, the record's field cleared, the sequence advances, and the oldest waiting record takes
the slot at once. -/
def State.freeSlot (s : State) (k : BitVec 2) : State :=
  match (s.queries.slots.get k).use with
  | none => s
  | some u =>
    let t := (((s.giveUp (.query k)).askRemoval (ofSlot k)).setSlotField u.item none)
    let v := t.setQueries { t.queries with
      slots := t.queries.slots.set k { seq := (t.queries.slots.get k).seq + 1, use := none } }
    match v.queries.wait with
    | [] => v
    | y :: ys => (v.setQueries { v.queries with wait := ys }).takeSlot k y

/-- The record leaves the slot-wait list (R130, R137, R138). -/
def State.leaveSlotWait (s : State) (x : Item) : State :=
  s.setQueries { s.queries with wait := s.queries.wait.filter (· ≠ x) }

/-- A record that holds a slot or waits for one gives it up (R130, R138). `slot` is its query slot field. -/
def State.endQuery (s : State) (x : Item) (slot : Option (BitVec 2)) : State :=
  match slot with
  | some k => s.freeSlot k
  | none => s.leaveSlotWait x

/-- What the unit does with the outcome of a request in the asking manner (R130, R132). -/
def State.actOnStatus (s : State) (x : Item) (slot : Option (BitVec 2)) (o : IssueStatus) : State :=
  if o = .ask then
    if slot.isSome ∨ x ∈ s.queries.wait then s
    else match s.queries.freeSlot with
      | some k => s.takeSlot k x
      | none => s.setQueries { s.queries with wait := s.queries.wait ++ [x] }
  else s.endQuery x slot

/-- Hall Clear on the slots (R140). -/
def QSlot.hallClear (q : QSlot) : QSlot := if q.use.isSome then { seq := q.seq + 1, use := none } else q

def Queries.hallClear (q : Queries) : Queries := { slots := q.slots.map QSlot.hallClear, wait := [] }

end Sys2Proof.Machine
end

