-- ==== Sys2Proof/Machine/Verdicts.lean ====
section
/-! DEFINITION. The Verdict Unit's own operations (chapter 9): class checks, evaluations, the DECIDEs they offer. -/

namespace Sys2Proof.Machine

/-- The hold limit of a class in ms (R142). -/
def holdLimit (e : ClassEntry) : Nat :=
  match e.granularity with
  | .fine => e.holdValue.toNat
  | .coarse => e.holdValue.toNat * 8 + 7

/-- The class entry a collection code selects: none for a code at or above the class table limit (R141). -/
def classOf (c : Config) (code : Byte) : Option ClassEntry :=
  if code.toNat < c.classLimit then some (c.classes.getD code.toNat ClassEntry.absent) else none

/-- What the steps of R148 and the class checks of R149 give: a decision, or on to the issue check with the class entry. -/
inductive Checked where
  | decided (d : Decision)
  | toIssue (e : ClassEntry)
  deriving DecidableEq, Repr

/-- The class checks on an OUTBOUND result (R149). -/
def classChecks (c : Config) (hall : BitVec 2) (code : Byte) (level : BitVec 2) (e : Estimate) : Checked :=
  let d (v : Verdict) (w : Reason) : Checked := .decided { verdict := v, reason := w, laneA := e.laneA, laneB := e.laneB }
  match classOf c code with
  | none => d .alarm .classUnknown
  | some k =>
    if !k.present then d .alarm .classAbsent
    else if k.kind = .reference then d .alarm .reference
    else if k.kind = .restricted ∧ k.level < hall then d .alarm .hallLevel
    else if k.kind = .openClass ∧ level ≤ k.level ∧ hall ≤ k.level then d .clear .exempt
    else .toIssue k

/-- The steps of R148, then the class checks of R149. -/
def resultChecks (c : Config) (hall : BitVec 2) (code : Byte) (level : BitVec 2) (e : Estimate) : Checked :=
  if !e.signal then .decided { verdict := .linger, reason := .noSignal, laneA := 0, laneB := none }
  else match e.direction with
    | .inbound => .decided { verdict := .inbound, reason := .none, laneA := e.laneA, laneB := e.laneB }
    | .undetermined => .decided { verdict := .linger, reason := .noDirection, laneA := e.laneA, laneB := e.laneB }
    | .outbound => classChecks c hall code level e

/-- The verdict of a class's unknown policy (R150). -/
def policyVerdict : UnknownPolicy → Verdict
  | .alarm => .alarm
  | .clear => .clear

/-- The verdict and reason of an issue outcome (R150, table); ASK for a class that holds gives none. -/
def issueVerdict (e : ClassEntry) : IssueStatus → Option (Verdict × Reason)
  | .byMark => some (.clear, .issuedMark)
  | .byNotice => some (.clear, .issuedNotice)
  | .byAnswer => some (.clear, .issuedAnswer)
  | .unissued => some (.alarm, .unissued)
  | .returned => some (.alarm, .returned)
  | .unknown => some (policyVerdict e.policy, .noAnswer)
  | .ask => if holdLimit e = 0 then some (policyVerdict e.policy, .noAnswer) else none

/-- The evaluation of a record at this moment (R113). -/
def State.estimateOf (s : State) (r : Record) : Estimate := estimate s.sys.cfg s.time.clock r.samples

/-- The checks of R148 and R149 on a record at this moment. -/
def State.checkRecord (s : State) (r : Record) : Checked :=
  resultChecks s.sys.cfg s.hall.level r.code r.level (s.estimateOf r)

/-- The checks made in the look-up manner (R154): none when ASK for a class that holds gives no verdict. -/
def State.lookUp (s : State) (r : Record) : Option Decision :=
  match s.checkRecord r with
  | .decided d => some d
  | .toIssue e => (issueVerdict e (s.issueStatusOf r)).map fun v =>
      { verdict := v.1, reason := v.2, laneA := (s.estimateOf r).laneA, laneB := (s.estimateOf r).laneB }

/-- Offer a final decision (R153): stage OPEN, the decision kept, the DECIDE offered. -/
def State.offerFinal (s : State) (x : Item) (d : Decision) : State :=
  match s.lead? x with
  | some (r, l) => ((s.putLead r { l with stage := .openStage, final := some d }).offerDecision x d).1
  | none => s

/-- Whether a final evaluation has an effect: stage OPEN or PROVISIONAL and no final decision (R145). -/
def Lead.undecided (l : Lead) : Bool :=
  l.final.isNone && match l.stage with
    | .openStage | .provisional => true
    | .held _ _ _ _ => false

/-- Put a record in HELD (R150). -/
def State.holdRecord (s : State) (x : Item) (a : Nat) (b : Option Nat) (e : ClassEntry) : State :=
  match s.lead? x with
  | some (r, l) => s.putLead r { l with stage := .held a b e (ms (holdLimit e)) }
  | none => s

/-- A final evaluation (R147 to R150). -/
def State.finalEvaluation (s : State) (x : Item) : State :=
  match s.lead? x with
  | some (r, l) =>
    if l.undecided then
      match s.checkRecord r with
      | .decided d => s.offerFinal x d
      | .toIssue e =>
        let est := s.estimateOf r
        let o := s.issueStatusOf r
        let t := if holdLimit e = 0 then s else s.actOnStatus x l.slot o
        match issueVerdict e o with
        | some v => t.offerFinal x { verdict := v.1, reason := v.2, laneA := est.laneA, laneB := est.laneB }
        | none => t.holdRecord x est.laneA est.laneB e
    else s
  | none => s

/-- The re-evaluation of a HELD record: the issue check alone, with the held result (R151). `answer` is the outcome a matching
ANSWER carries. -/
def State.reEvaluateHeld (s : State) (x : Item) (answer : Option IssueStatus) : State :=
  match s.lead? x with
  | some (r, l) =>
    match l.stage with
    | .held a b e _ =>
      let o := withAnswer answer (s.issueStatusOf r)
      let t := s.actOnStatus x l.slot o
      match o with
      | .ask => t
      | _ => match issueVerdict e o with
        | some v => t.offerFinal x { verdict := v.1, reason := v.2, laneA := a, laneB := b }
        | none => t
    | .openStage | .provisional => s
  | none => s

/-- Whether a look-up's decision lights an early alarm (R154 condition 2). -/
def earlyAlarm (d : Decision) : Bool :=
  d.verdict == .alarm &&
    (d.reason == .unissued || d.reason == .returned || d.reason == .reference || d.reason == .hallLevel)

/-- The provisional check (R154) and its offer (R155). -/
def State.provisionalCheck (s : State) (x : Item) : State :=
  match s.lead? x with
  | some (r, l) =>
    if l.stage = .openStage ∧ l.provMade = false ∧ l.final = none then
      match s.lookUp r, classOf s.sys.cfg r.code with
      | some d, some e =>
        if earlyAlarm d && e.present && e.provisionalEnable then
          ((s.putLead r { l with stage := .provisional, provMade := true, provLanes := some (d.laneA, d.laneB) }).offerDecision
            x { d with verdict := .provisional }).1
        else s
      | _, _ => s
    else s
  | none => s

/-- A notice names the item of a PROVISIONAL record: anything but ALARM offers a WITHDRAW naming the provisional lanes (R156). -/
def State.reEvaluateProvisional (s : State) (x : Item) : State :=
  match s.lead? x with
  | some (r, l) =>
    if l.stage = .provisional ∧ l.final = none then
      let lanes := l.provLanes.getD (0, none)
      let withdraw (w : Reason) : State :=
        ((s.putLead r { l with stage := .openStage }).offerDecision x
          { verdict := .withdraw, reason := w, laneA := lanes.1, laneB := lanes.2 }).1
      match s.lookUp r with
      | some d => if d.verdict = .alarm then s else withdraw d.reason
      | none => withdraw .none
    else s
  | none => s

/-- A notice names an item that has a LEAD record (R126, R151, R156). -/
def State.noticeTold (s : State) (x : Item) : State :=
  match s.lead? x with
  | some (_, l) => match l.stage with
    | .held _ _ _ _ => s.reEvaluateHeld x none
    | .provisional => s.reEvaluateProvisional x
    | .openStage => s
  | none => s

/-- A sample has been added to a LEAD record (R109): the quiet timer restarts (R145), a HELD record is re-evaluated (R151), the
provisional check runs if due (R154), and a sample that moves the origin back to the maximum dwell calls for a final evaluation
(R146). `before` is the dwell before the sample. -/
def State.sampleAdded (s : State) (x : Item) (before : Nat) : State :=
  match s.lead? x with
  | some (r, l) =>
    let t := s.putLead r { l with quiet := some (ms s.sys.cfg.quiet) }
    match l.stage with
    | .held _ _ _ _ => t.reEvaluateHeld x none
    | .openStage | .provisional =>
      let u := t.provisionalCheck x
      let dwell := dwellOf s.time.clock r.samples
      if before < dwell ∧ s.sys.cfg.maxDwell ≤ dwell then u.finalEvaluation x else u
  | none => s

/-- A new verdict context (R99, R144). -/
def Lead.fresh (c : Config) : Lead :=
  { stage := .openStage, provSent := false, slot := none, quiet := some (ms c.quiet), provMade := false, provLanes := none,
    final := none, owed := none }

/-- The context of a new LEAD record is created; `evaluate` at once for a takeover, otherwise where the dwell is already reached
(R146, R147). -/
def State.contextCreated (s : State) (x : Item) (evaluate : Bool) : State :=
  match s.lead? x with
  | some (r, _) =>
    if evaluate || decide (s.sys.cfg.maxDwell ≤ dwellOf s.time.clock r.samples) then s.finalEvaluation x else s
  | none => s

/-- The hold timer of a HELD record expires (R152, R137): the slot is freed and counted, or the place in the list given up; the
unknown policy decides. -/
def State.holdExpired (s : State) (x : Item) : State :=
  match s.lead? x with
  | some (_, l) =>
    match l.stage with
    | .held a b e _ =>
      let t := (if l.slot.isSome then s.count .answersMissed 1 else s).endQuery x l.slot
      t.offerFinal x { verdict := policyVerdict e.policy, reason := .noAnswer, laneA := a, laneB := b }
    | .openStage | .provisional => s
  | none => s

end Sys2Proof.Machine
end

