-- ==== Sys2Proof/Machine/Timing.lean ====
section
/-! DEFINITION. The passing of time (R4, R5, R6): every running timer falls by the time that passes, and time never passes a moment at
which an expiry is due and has not been taken (DESIGN CHOICE, log 2). -/

namespace Sys2Proof.Machine

/-! ### Timers fall -/

def runDown (d : Nat) (t : Timer) : Timer := t.map (· - d)

def Coil.elapse (d : Nat) (c : Coil) : Coil := { c with drain := runDown d c.drain, retest := runDown d c.retest }

def CoilUnit.elapse (d : Nat) (u : CoilUnit) : CoilUnit :=
  { coils := u.coils.map (Coil.elapse d), ramp := runDown d u.ramp, live := u.live.map (· + d), cutWait := runDown d u.cutWait }

def Claim.elapse (d : Nat) (c : Claim) : Claim :=
  { c with wait := runDown d c.wait, hold := runDown d c.hold, rest := runDown d c.rest }

def Debouncer.elapse (d : Nat) (b : Debouncer) : Debouncer := { b with timer := runDown d b.timer }

def Round.elapse (d : Nat) (r : Round) : Round := { r with slot := r.slot - d }

def Sweep.elapse (d : Nat) (w : Sweep) : Sweep :=
  { w with
    gap := runDown d w.gap, doze := runDown d w.doze
    beams := ⟨w.beams.inner.elapse d, w.beams.outer.elapse d⟩
    round := w.round.map (Round.elapse d) }

def LinePhase.elapse (d : Nat) : LinePhase → LinePhase
  | .deaf => .deaf
  | .idle since => .idle (since + d)
  | .receiving stamp => .receiving stamp
  | .sending a => .sending { a with left := a.left - d }

def Stage.elapse (d : Nat) : Stage → Stage
  | .openStage => .openStage
  | .provisional => .provisional
  | .held a b e left => .held a b e (left - d)

def RecState.elapse (d : Nat) : RecState → RecState
  | .sole p => .sole p
  | .lead l => .lead { l with stage := l.stage.elapse d, quiet := runDown d l.quiet }
  | .joint y patience => .joint y (runDown d patience)
  | .closed dec t => .closed dec t

def Record.elapse (d : Nat) (r : Record) : Record := { r with state := r.state.elapse d }

def LampState.elapse (d : Nat) : LampState → LampState
  | .dark => .dark
  | .flashing lit left => .flashing lit (left - d)
  | .steady left => .steady (left - d)

def Lamp.elapse (d : Nat) (l : Lamp) : Lamp :=
  { state := l.state.elapse d, holders := l.holders.map fun h => { h with left := h.left - d } }

def SounderState.elapse (d : Nat) : SounderState → SounderState
  | .silent => .silent
  | .on left => .on (left - d)
  | .off left => .off (left - d)

def StartPhase.elapse (d : Nat) : StartPhase → StartPhase
  | .resetHeld => .resetHeld
  | .reading n => .reading n
  | .retryWait n left => .retryWait n (left - d)
  | .ended => .ended

/-- The station clock advances by 1 every millisecond, in RUNNING only (R4). -/
def Time.elapse (d : Nat) (running : Bool) (t : Time) : Time :=
  if running then
    { t with
      clock := t.clock + BitVec.ofNat 16 ((t.subMs + d) / 1000)
      subMs := (t.subMs + d) % 1000
      secondTimer := runDown d t.secondTimer }
  else t

/-- `d` microseconds pass. -/
def State.elapse (s : State) (d : Nat) : State :=
  { s with
    sys := { s.sys with phase := s.sys.phase.elapse d }
    time := s.time.elapse d (s.sys.run == .running)
    coils := ⟨s.coils.left.elapse d, s.coils.right.elapse d⟩
    claims := ⟨s.claims.left.elapse d, s.claims.right.elapse d⟩
    sweeps := ⟨s.sweeps.left.elapse d, s.sweeps.right.elapse d⟩
    line := { s.line with phase := s.line.phase.elapse d }
    table := s.table.map (Option.map (Record.elapse d))
    hall := { s.hall with timer := runDown d s.hall.timer }
    lamps := ⟨s.lamps.left.elapse d, s.lamps.right.elapse d⟩
    sounder := { s.sounder with state := s.sounder.state.elapse d } }

/-! ### The moments at which an expiry is due -/

def Coil.deadlines (c : Coil) : List Nat := c.drain.toList ++ c.retest.toList

def CoilUnit.deadlines (u : CoilUnit) : List Nat :=
  u.coils.toList.flatMap Coil.deadlines ++ u.ramp.toList ++ (u.live.map (maxLiveTime - ·)).toList ++ u.cutWait.toList

def Claim.deadlines (c : Claim) : List Nat := c.wait.toList ++ c.hold.toList ++ c.rest.toList

def Sweep.deadlines (w : Sweep) : List Nat :=
  w.gap.toList ++ w.doze.toList ++ w.beams.inner.timer.toList ++ w.beams.outer.timer.toList ++
    (w.round.map Round.slot).toList

/-- The access delay of the next attempt (R70). -/
def State.accessDelay (s : State) (head : QFrame) : Nat :=
  if s.line.backoff then (1 + s.number) * lineSlot else if head.urgent then lineSlot else 5 * lineSlot

/-- The station may start attempts (R70, R14). -/
def State.maySend (s : State) : Bool := s.sys.run == .running || s.sys.run == .configFault

/-- The first slot boundary not before `t` (R68). -/
def slotBoundary (t : Nat) : Nat := (t + (lineSlot - 1)) / lineSlot * lineSlot

/-- Time from now to the start of the next attempt, or to the end of the attempt in progress (R70, R73). -/
def State.lineDeadlines (s : State) : List Nat :=
  match s.line.phase with
  | .sending a => [a.left]
  | .idle since =>
    if s.maySend then
      match headOf s.line.queue with
      | some f => [slotBoundary (max since (s.accessDelay f)) - since]
      | none => []
    else []
  | .deaf | .receiving _ => []

/-- Microseconds until the clock reads `interval` ms past a stored reading (R4). -/
def untilElapsed (t : Time) (interval : Nat) (stored : Clock) : Nat :=
  (interval - elapsedMs t.clock stored) * 1000 - t.subMs

/-- Microseconds until a LEAD record's dwell reaches the maximum (R146): its origin may lie ahead (R119). -/
def untilDwell (t : Time) (maxDwell : Nat) (origin : Clock) : Nat :=
  let e := elapsedMs t.clock origin
  if aheadLimit ≤ e then (65536 - e + maxDwell) * 1000 - t.subMs else (maxDwell - e) * 1000 - t.subMs

/-- A SIGHT of the record is under transmission with its removal held as pending (R100). -/
def removalHeld (x : Item) (q : List QFrame) : Bool :=
  q.any fun f => ofRecord x f && isSight f && f.underTx && f.asked == .remove

def Stage.deadlines : Stage → List Nat
  | .openStage | .provisional => []
  | .held _ _ _ left => [left]

/-- The moments due in a record (R100, R108, R110, R145, R146, R152). -/
def State.recordDeadlines (s : State) (r : Record) : List Nat :=
  match r.state with
  | .sole _ => if removalHeld r.item s.line.queue then [] else [untilElapsed s.time (patienceMs s.sys.cfg) r.created]
  | .lead l =>
    l.quiet.toList ++ l.stage.deadlines ++
      (if l.undecided then (originOf s.time.clock r.samples).toList.map (untilDwell s.time s.sys.cfg.maxDwell) else [])
  | .joint _ patience => patience.toList
  | .closed _ t => [untilElapsed s.time s.sys.cfg.closeHold t]

def LampState.deadlines : LampState → List Nat
  | .dark => []
  | .flashing _ left => [left]
  | .steady left => [left]

def Lamp.deadlines (l : Lamp) : List Nat := l.state.deadlines ++ l.holders.map Holder.left

def SounderState.deadlines : SounderState → List Nat
  | .silent => []
  | .on left => [left]
  | .off left => [left]

def StartPhase.deadlines : StartPhase → List Nat
  | .resetHeld | .reading _ | .ended => []
  | .retryWait _ left => [left]

/-- Every moment at which something is due, counted from now. -/
def State.deadlines (s : State) : List Nat :=
  s.sys.phase.deadlines ++ s.time.secondTimer.toList ++ s.coils.left.deadlines ++ s.coils.right.deadlines ++
    s.claims.left.deadlines ++ s.claims.right.deadlines ++ s.sweeps.left.deadlines ++ s.sweeps.right.deadlines ++
    s.lineDeadlines ++ s.table.flatMap (fun e => (e.map s.recordDeadlines).getD []) ++
    s.directory.map (fun e => untilElapsed s.time (patienceMs s.sys.cfg) e.heard) ++ s.hall.timer.toList ++
    s.lamps.left.deadlines ++ s.lamps.right.deadlines ++ s.sounder.state.deadlines

/-- Up to `us` microseconds pass: no more than to the first moment that is due. -/
def State.advance (s : State) (us : Nat) : State := s.elapse (s.deadlines.foldl min us)

/-- A stored reading lies an interval in the past (R4). -/
def State.reached (s : State) (interval : Nat) (t : Clock) : Bool := decide (interval ≤ s.since t)

end Sys2Proof.Machine
end

