-- ==== Sys2Proof/Machine/AlarmCommands.lean ====
section
/-! DEFINITION. The commands of chapter 10: the timers of the lamps and the sounder. -/

namespace Sys2Proof.Machine

/-- A lamp hold timer expires (R164). -/
def State.lampHoldEnds (s : State) (sd : Side) : State :=
  match (s.lamps.get sd).state with
  | .steady left => if left = 0 then s.setLamp sd (s.lamps.get sd).holdEnd else s
  | .dark | .flashing _ _ => s

def execLampHoldEnd (after : Nat) (side : Side) (s : State) : Host.Outcome State Fault Refusal :=
  .next ((s.advance after).lampHoldEnds side)

/-- A holder's expiry timer ends (R164). A PROVISIONAL for a lamp's only holder at this same moment finds the lamp as the command before it
left it: the phase runs on if the PROVISIONAL comes first, and starts afresh if the expiry does (DESIGN CHOICE, log 36). -/
def State.holderExpires (s : State) (sd : Side) (x : Item) : State :=
  let l := s.lamps.get sd
  if l.holders.any fun h => h.item == x && h.left == 0 then s.setLamp sd (l.removeHolder x) else s

def execHolderExpiry (after : Nat) (side : Side) (item : Item) (s : State) : Host.Outcome State Fault Refusal :=
  .next ((s.advance after).holderExpires side item)

/-- The phase timer of a FLASHING lamp expires (R164). -/
def State.flashEnds (s : State) (sd : Side) : State :=
  match (s.lamps.get sd).state with
  | .flashing _ left => if left = 0 then s.setLamp sd (s.lamps.get sd).phaseEnd else s
  | .dark | .steady _ => s

def execFlashPhaseEnd (after : Nat) (side : Side) (s : State) : Host.Outcome State Fault Refusal :=
  .next ((s.advance after).flashEnds side)

/-- The cadence timer is due (R165). -/
def SounderState.due : SounderState → Bool
  | .silent => false
  | .on left | .off left => left == 0

/-- The cadence timer expires (R165). -/
def State.cadenceEnds (s : State) : State :=
  if s.sounder.state.due then s.setSounder (s.sounder.cadenceEnd s.sys.cfg) else s

def execCadenceTimerEnd (after : Nat) (s : State) : Host.Outcome State Fault Refusal :=
  .next (s.advance after).cadenceEnds

end Sys2Proof.Machine
end

