-- ==== Sys2Proof/Machine/Passage.lean ====
section
/-! DEFINITION. The Passage Engine's own operations (chapter 6): sample lists, the Snoop Directory, local samples, heard SIGHT, JOIN and
DECIDE frames, and the record changes at completions and drops. -/

namespace Sys2Proof.Machine

/-! ### The sample list (R93, R94) -/

/-- Whether `p` gives way before `b`: a smaller weight, or the same weight and an earlier time (R93). -/
def weaker (floor : Nat) (now : Clock) (p b : Sample) : Bool :=
  p.weight floor < b.weight floor ||
    (p.weight floor == b.weight floor && elapsedMs now b.time < elapsedMs now p.time)

/-- The index of the entry that gives way in a full list: smallest weight, then earliest time, then nearest the start (R93). -/
def weakestFrom (floor : Nat) (now : Clock) (b : Sample) (bi : Nat) : Nat → List Sample → Nat
  | _, [] => bi
  | i, p :: ps =>
    if weaker floor now p b then weakestFrom floor now p i (i + 1) ps else weakestFrom floor now b bi (i + 1) ps

def weakestIndex (floor : Nat) (now : Clock) : List Sample → Nat
  | [] => 0
  | p :: ps => weakestFrom floor now p 0 1 ps

/-- What becomes of a list offered a sample (R93): the list, whether the sample entered, and how many samples were lost. -/
structure ListOffer where
  samples : List Sample
  entered : Bool
  lost    : Nat
  deriving DecidableEq, Repr

def offerToList (floor : Nat) (now : Clock) (p : Sample) (l : List Sample) : ListOffer :=
  if l.length < listSize then { samples := l ++ [p], entered := true, lost := 0 }
  else
    let i := weakestIndex floor now l
    match l[i]? with
    | some b =>
      if b.weight floor < p.weight floor then { samples := l.set i p, entered := true, lost := 1 }
      else { samples := l, entered := false, lost := 1 }
    | none => { samples := l, entered := false, lost := 1 }

/-- Two readings lie within 1 ms of each other, either way (R94). -/
def withinOneMs (a b : Clock) : Bool := elapsedMs a b ≤ 1 || elapsedMs b a ≤ 1

/-- A heard sample is a copy of an entry (R94). -/
def isCopy (p e : Sample) : Bool :=
  p.station == e.station && p.side == e.side && p.coil == e.coil && p.strength == e.strength && withinOneMs p.time e.time

/-- Offer a sample to the list of the record of `x` (R93); a LEAD record's addition is told to the Verdict Unit (R109). The second
component says whether the sample entered. -/
def State.addSample (s : State) (x : Item) (p : Sample) : State × Bool :=
  match s.record? x with
  | none => (s, false)
  | some r =>
    let o := offerToList s.sys.cfg.noiseFloor s.time.clock p r.samples
    let t := (s.putRecord { r with samples := o.samples }).count .samplesLost o.lost
    if o.entered then (t.sampleAdded x (dwellOf s.time.clock r.samples), true) else (t, false)

/-- Offer a heard sample, unless the list holds a copy of it (R94). -/
def State.addHeard (s : State) (x : Item) (p : Sample) : State :=
  match s.record? x with
  | none => s
  | some r => if r.samples.any (isCopy p) then s else (s.addSample x p).1

/-- The heard samples in the order the frame carries them (R94). -/
def State.addAllHeard (s : State) (x : Item) (ps : List Sample) : State := ps.foldl (fun t p => t.addHeard x p) s

/-- A carried sample with its sender as station and its local time (R86, R88, R91). -/
def heardSample (sender : Nat) (stamp : Clock) (w : WireSample) : Sample :=
  { station := sender, side := w.side, coil := w.coil, strength := w.strength, time := stamp - w.age.setWidth 16
    flag := .sent }

def heardSamples (sender : Nat) (stamp : Clock) (ws : List WireSample) : List Sample := ws.map (heardSample sender stamp)

/-! ### The Snoop Directory (R92) -/

def dirEntry (x : Item) (d : List DirEntry) : Option DirEntry := d.find? fun e => e.item == x

def dirRemove (x : Item) (d : List DirEntry) : List DirEntry := d.filter fun e => e.item != x

/-- Give the item's entry a lead and the time last heard, as the newest; the oldest of 64 makes room for a new one (R92). -/
def dirPut (x : Item) (lead : Nat) (now : Clock) (d : List DirEntry) : List DirEntry :=
  let rest := dirRemove x d
  (if (dirEntry x d).isNone ∧ directorySize ≤ d.length then rest.drop 1 else rest) ++
    [{ item := x, lead := lead, heard := now }]

/-- A heard SIGHT for an item with no record (R92). -/
def dirSight (x : Item) (sender : Nat) (now : Clock) (d : List DirEntry) : List DirEntry := dirPut x sender now d

/-- A heard JOIN for an item with no record: an entry keeps its lead (R92). -/
def dirJoin (x : Item) (lead : Nat) (now : Clock) (d : List DirEntry) : List DirEntry :=
  match dirEntry x d with
  | some e => dirPut x e.lead now d
  | none => dirPut x lead now d

/-- A heard PROVISIONAL or WITHDRAW refreshes an entry (R92, R105). -/
def dirRefresh (x : Item) (now : Clock) (d : List DirEntry) : List DirEntry :=
  match dirEntry x d with
  | some e => dirPut x e.lead now d
  | none => d

/-! ### Local samples (R95, R96) -/

/-- The lowest-numbered FREE position (R96). -/
def freePosition (t : List (Option Record)) : Option Nat :=
  let i := t.findIdx Option.isNone
  if i < t.length then some i else none

/-- The CLOSED record with the earliest close time, the lower-numbered position first (R96). -/
def oldestClosed (now : Clock) : List (Option Record) → Option (Record × Nat)
  | [] => none
  | e :: t =>
    match e, oldestClosed now t with
    | some r, some b => match r.state with
      | .closed _ c => if b.2 ≤ elapsedMs now c then some (r, elapsedMs now c) else some b
      | _ => some b
    | some r, none => match r.state with
      | .closed _ c => some (r, elapsedMs now c)
      | _ => none
    | none, o => o

/-- The state with a position made FREE for a new record, and that position (R96). -/
def State.roomForRecord (s : State) : Option (State × Nat) :=
  match freePosition s.table with
  | some i => some (s, i)
  | none =>
    match oldestClosed s.time.clock s.table with
    | some (r, _) =>
      let t := s.freeRecord r.item
      (freePosition t.table).map fun i => (t, i)
    | none => none

/-- A record created from a local sample (R96). -/
def newRecord (now : Clock) (r : Reply) (p : Sample) (st : RecState) : Record :=
  { item := r.item, code := r.code, level := r.level, mark := r.mark, created := now, samples := [p], state := st }

def State.patience (s : State) : Nat := ms (patienceMs s.sys.cfg)

/-- A local sample for an item with no record (R96). -/
def State.localNew (s : State) (r : Reply) (p : Sample) : State :=
  let x := r.item
  match s.roomForRecord with
  | some (t, i) =>
    match dirEntry x s.directory with
    | some e =>
      ((t.setTable (t.table.set i (some (newRecord s.time.clock r p (.joint e.lead (some s.patience)))))).setDirectory
        (dirRemove x t.directory)).offerJoins x
    | none =>
      let rec0 := newRecord s.time.clock r p (.sole false)
      ((t.setTable (t.table.set i (some rec0))).offerSight rec0).1
  | none =>
    match dirEntry x s.directory with
    | some e =>
      let o := s.offer none .noRecord (.join { item := x, lead := e.lead, samples := [p.content] })
      if o.2 = .refused then o.1.count .samplesLost 1 else o.1
    | none => s.count .samplesLost 1

/-- A local sample for an item that has a record (R95). -/
def State.localKnown (s : State) (rec0 : Record) (r : Reply) (p : Sample) : State :=
  let x := r.item
  let marked := s.putRecord { rec0 with mark := r.mark }
  match rec0.state with
  | .sole waiting =>
    let o := marked.addSample x p
    if o.2 ∧ waiting = false then
      match o.1.record? x with
      | some r1 => (o.1.offerSight r1).1
      | none => o.1
    else o.1
  | .lead _ => (marked.addSample x p).1
  | .joint _ _ =>
    let o := marked.addSample x p
    if o.2 then o.1.offerJoins x else o.1
  | .closed d _ => s.putRecState rec0 (.closed d s.time.clock)

/-- The own sample a reply makes at its slot's end (R55, R91). -/
def State.sampleOf (s : State) (sd : Side) (k : CoilNumber) (r : Reply) : Sample :=
  { station := s.number, side := sd, coil := k, strength := r.strength, time := s.time.clock, flag := .unsent }

/-- A local sample is handed to the Passage Engine (R95, R96). -/
def State.localSample (s : State) (sd : Side) (k : CoilNumber) (r : Reply) : State :=
  let p := s.sampleOf sd k r
  match s.record? r.item with
  | some rec0 => s.localKnown rec0 r p
  | none => s.localNew r p

/-! ### Heard SIGHT and JOIN (R101 to R103) -/

/-- A SOLE record becomes JOINT to `lead` (R101 steps 1 to 3). -/
def State.soleToJoint (s : State) (rec0 : Record) (lead : Nat) : State :=
  let x := rec0.item
  (((s.putRecState rec0 (.joint lead (some s.patience))).giveUp (.sight x)).askConversion x lead).offerJoins x

/-- Every own sample becomes UNSENT (R102). -/
def unsendOwn (me : Nat) (ps : List Sample) : List Sample :=
  ps.map fun p => if p.own me then { p with flag := .unsent } else p

/-- A LEAD record yields to `lead` (R102). It gives up a waiting repeat SIGHT (DESIGN CHOICE, log 35). -/
def State.yieldLead (s : State) (rec0 : Record) (l : Lead) (lead : Nat) : State :=
  let x := rec0.item
  let t := (s.putRecord { rec0 with
    samples := unsendOwn s.number rec0.samples, state := .joint lead (some s.patience) })
  let u := (((t.giveUp (.decision x)).giveUp (.sight x)).askRemoval (fun f => ofRecord x f && isDecision f)).endQuery x l.slot
  (u.askRemoval (fun f => ofRecord x f && isSight f)).offerJoins x

/-- A SIGHT from station `y` finds a LEAD record: yield or re-assert (R102). -/
def State.contested (s : State) (rec0 : Record) (l : Lead) (y : Nat) (again : Bool) : State :=
  if y < s.number ∧ l.provSent = false then s.yieldLead rec0 l y
  else if again then s
  else (s.offerRepeatSight rec0).1

/-- Take the issue mark of a heard SIGHT (R101). -/
def State.takeMark (s : State) (x : Item) (m : IssueMark) : State :=
  match s.record? x with
  | some r => s.putRecord { r with mark := m }
  | none => s

/-- A DECIDE of the record is queued or waiting (R103). -/
def State.decisionIntended (s : State) (x : Item) : Bool :=
  (s.line.queue.any fun f => ofRecord x f && isDecision f) || decide (.decision x ∈ s.line.waiting)

/-- A JOINT record hears another SIGHT: new lead, patience restarted, a queued takeover SIGHT removed with its samples UNSENT again
(R103, R108; log 21). A SIGHT inherited from a freed record of the item is removed like it (DESIGN CHOICE, log 23). -/
def State.rejoin (s : State) (rec0 : Record) (y : Nat) : State :=
  let x := rec0.item
  let cs := sightSamples x s.line.queue
  let t := s.putRecord { rec0 with
    samples := settleFlags s.number .unsent cs rec0.samples, state := .joint y (some s.patience) }
  let u := (t.giveUp (.sight x)).askRemoval (fun f => ofRecord x f && isSight f)
  u.offerJoins x

/-- A heard SIGHT (R101 to R103). -/
def State.heardSight (s : State) (y : Nat) (stamp : Clock) (b : SightBody) : State :=
  let x := b.item
  let ps := heardSamples y stamp b.samples
  match s.record? x with
  | none => s.setDirectory (dirSight x y s.time.clock s.directory)
  | some r =>
    match r.state with
    | .sole _ => ((s.soleToJoint r y).takeMark x b.mark).addAllHeard x ps
    | .lead l => ((s.contested r l y b.again).takeMark x b.mark).addAllHeard x ps
    | .joint _ _ => ((s.rejoin r y).takeMark x b.mark).addAllHeard x ps
    | .closed d _ => if s.decisionIntended x then s else (s.offerRepeatDecide x d).1

/-- A heard JOIN naming lead `b.lead` (R103). -/
def State.heardJoin (s : State) (y : Nat) (stamp : Clock) (b : JoinBody) : State :=
  let x := b.item
  let lead := b.lead.toNat
  let ps := heardSamples y stamp b.samples
  if s.sys.cfg.n ≤ lead ∨ lead = y then s
  else match s.record? x with
    | none => s.setDirectory (dirJoin x lead s.time.clock s.directory)
    | some r =>
      match r.state with
      | .sole _ => (if lead = s.number then s else s.soleToJoint r lead).addAllHeard x ps
      | .lead l => (if lead = s.number then s else s.contested r l lead false).addAllHeard x ps
      | .joint _ _ => s.addAllHeard x ps
      | .closed _ _ => s

/-! ### Decisions (R104 to R107) -/

def Verdict.isFinal : Verdict → Bool
  | .clear | .alarm | .inbound | .linger => true
  | .provisional | .withdraw => false

/-- The decision a heard DECIDE carries; lane B 255 is none (R87, R104). -/
def decisionOf (b : DecideBody) : Decision :=
  { verdict := b.verdict, reason := b.reason, laneA := b.laneA.toNat
    laneB := if b.laneB = 255 then none else some b.laneB.toNat }

/-- The record closes with a decision: waiting entries given up, its SIGHT, JOIN and DECIDE frames removed, a query slot freed
(R104). A LEAD record's waiting repeat SIGHT is among the entries given up (DESIGN CHOICE, log 35). A JOINT record's SIGHT that it
inherited from a freed record of the item is removed like a takeover SIGHT (DESIGN CHOICE, log 23). -/
def State.closeBy (s : State) (rec0 : Record) (d : Decision) : State :=
  let x := rec0.item
  let t := (((s.putRecState rec0 (.closed d s.time.clock)).giveUp (.sight x)).giveUp (.join x)).giveUp (.decision x)
  match rec0.state with
  | .sole _ => t.askRemoval fun f => ofRecord x f && isSight f
  | .joint _ _ => t.askRemoval fun f => ofRecord x f && (isJoin f || isSight f)
  | .lead l =>
    ((t.askRemoval fun f => ofRecord x f && isDecision f).endQuery x l.slot).askRemoval fun f => ofRecord x f && isSight f
  | .closed _ _ => s

/-- A heard DECIDE at the Passage Engine (R104, R105). -/
def State.passageDecide (s : State) (b : DecideBody) : State :=
  let x := b.item
  if Verdict.isFinal b.verdict then
    match s.record? x with
    | some r => s.closeBy r (decisionOf b)
    | none => s.setDirectory (dirRemove x s.directory)
  else s.setDirectory (dirRefresh x s.time.clock s.directory)

/-! ### Completions, drops and expiries -/

/-- The samples a completed frame carried become SENT where still in the list (R91, R93). -/
def State.samplesSent (s : State) (x : Item) (cs : List OwnSample) : State := s.settleSamples x .sent cs

/-- The record becomes LEAD with a fresh context (R99); waiting entries for a SIGHT or a JOIN are given up. -/
def State.becomeLead (s : State) (x : Item) : State :=
  match s.record? x with
  | some r => ((s.putRecState r (.lead (Lead.fresh s.sys.cfg))).giveUp (.sight x)).giveUp (.join x)
  | none => s

/-- What the completion of an own SIGHT does to its record (R99), before any new offer: the state, and whether a context was created
and is to be evaluated at once. -/
def State.sightSent (s : State) (x : Item) (m : SightMsg) : State × Option Bool :=
  match s.record? x with
  | some r =>
    match r.state with
    | .sole _ => ((s.samplesSent x m.samples).becomeLead x, some false)
    | .lead _ => (s.samplesSent x m.samples, none)
    | .joint _ _ => if m.takeover then ((s.samplesSent x m.samples).becomeLead x, some true) else (s.samplesSent x m.samples, none)
    | .closed _ _ => (s, none)
  | none => (s, none)

/-- What the completion of an own DECIDE does to its record (R106). A record that closes gives up a waiting repeat SIGHT at this moment
(DESIGN CHOICE, log 35). -/
def State.decisionSent (s : State) (x : Item) (m : DecideMsg) : State :=
  match s.lead? x with
  | some (r, l) =>
    if m.again then s
    else if Verdict.isFinal m.decision.verdict then
      ((s.putRecState r (.closed m.decision s.time.clock)).giveUp (.decision x)).giveUp (.sight x)
    else if m.decision.verdict = .provisional then s.putLead r { l with provSent := true }
    else s
  | none => s

/-- A SOLE record a patience interval old is freed: its SIGHT is removed and each of its samples is counted lost (R100). -/
def State.freeSole (s : State) (r : Record) : State :=
  ((s.freeRecord r.item).count .samplesLost r.samples.length).askRemoval fun f =>
    ofRecord r.item f && isSight f

/-- The SIGHT of the record is under transmission (R100). -/
def sightUnderTx (x : Item) (q : List QFrame) : Bool := q.any fun f => ofRecord x f && isSight f && f.underTx

/-- A SOLE record's patience has passed (R100): freed at once, or, while its SIGHT is under transmission, marked for removal at a
loss. -/
def State.solePatience (s : State) (r : Record) : State :=
  if sightUnderTx r.item s.line.queue then
    s.setQueue (holdRemoval (fun f => ofRecord r.item f && isSight f) s.line.queue)
  else s.freeSole r

/-- Hall Clear on the Passage Engine (R112). -/
def State.passageHallClear (s : State) : State :=
  (s.setTable (s.table.map fun _ => none)).setDirectory []

end Sys2Proof.Machine
end

