-- ==== Sys2Proof/Machine/Reports.lean ====
section
/-! DEFINITION. The Report Unit's own operations (chapter 11) and the decision counters (R157). -/

namespace Sys2Proof.Machine

/-- A POLL at the Report Unit (R168): the first offers a REPORT, a later one adds its clear flag to the request. -/
def State.takePoll (s : State) (clear : Bool) : State :=
  match s.report.request with
  | .none => ((s.setReport { s.report with clear := clear }).offerReport).1
  | .queued | .owed => s.setReport { s.report with clear := s.report.clear || clear }

/-- Each counter reduced by the value carried for it (R170). -/
def Counters.minus (c d : Counters Nat) : Counters Nat :=
  { led := c.led - d.led, alarms := c.alarms - d.alarms, withdrawn := c.withdrawn - d.withdrawn
    lingers := c.lingers - d.lingers, samplesLost := c.samplesLost - d.samplesLost
    framesDropped := c.framesDropped - d.framesDropped, framesBad := c.framesBad - d.framesBad
    answersMissed := c.answersMissed - d.answersMissed }

/-- The station's REPORT has been transmitted (R170). -/
def State.reportSent (s : State) : State :=
  let r := s.report
  s.setReport { r with
    request := .none, clear := false
    counters := if r.clear then Counters.minus r.counters r.carried else r.counters }

/-- The station's REPORT has been dropped (R170). -/
def State.reportDropped (s : State) : State := s.setReport { s.report with request := .none, clear := false }

/-- Hall Clear on the Report Unit (R171). -/
def State.reportHallClear (s : State) : State := s.setReport { s.report with request := .none, clear := false }

/-- The counters that an own transmitted DECIDE advances (R157, R167). -/
def State.countDecision (s : State) (v : Verdict) (again : Bool) : State :=
  if again then s
  else match v with
    | .clear | .inbound => s.count .led 1
    | .alarm => (s.count .led 1).count .alarms 1
    | .linger => (s.count .led 1).count .lingers 1
    | .withdraw => s.count .withdrawn 1
    | .provisional => s

end Sys2Proof.Machine
end

