-- ==== Sys2Proof/Machine/Sweeps.lean ====
section
/-! DEFINITION. The Sweep Scheduler's own operations (chapter 4): lists, grant, positions, the guard, the end of a sweep and
priority triggers. -/

namespace Sys2Proof.Machine

/-- Coil i of an ordinary list of length `len` from start coil c0 (R50). -/
def orderedCoil (o : SweepOrder) (len : Nat) (c0 : CoilNumber) (i : Nat) : CoilNumber :=
  match o with
  | .interleaved => c0 ^^^ BitVec.ofNat 2 i
  | .sequential =>
    let base := c0.toNat / len * len
    BitVec.ofNat 2 (base + (c0.toNat - base + i) % len)

/-- An ordinary coil list (R50). -/
def orderedList (o : SweepOrder) (len : Nat) (c0 : CoilNumber) : List CoilNumber :=
  (List.range len).map (orderedCoil o len c0)

/-- The sweep length of a mode (R49). -/
def sweepLengthOf (c : Config) : SideMode → Nat
  | .active => c.sweepLength
  | .doze => 1

/-- The gap of a mode (R49). -/
def gapOf (c : Config) : SideMode → Nat
  | .active => ms c.activeGap
  | .doze => ms dozeGap

/-- The list the next sweep would cover: full if the priority mark is set, else the ordinary one (R52). -/
def State.plannedList (s : State) (sd : Side) : List CoilNumber :=
  let w := s.sweeps.get sd
  if w.priority then allCoils else orderedList s.sys.cfg.order (sweepLengthOf s.sys.cfg w.mode) w.c0

/-- The time since the claim entered HOLDING (R53). -/
def State.holdSoFar (s : State) (sd : Side) : Nat :=
  match (s.claims.get sd).hold with
  | some left => claimHoldTime - left
  | none => claimHoldTime

/-- The ramp check of R53 case 3 fails. -/
def State.rampCheckFails (s : State) (sd : Side) (k : CoilNumber) : Bool :=
  !s.facesEnd sd && decide (claimHoldTime <
    s.holdSoFar sd + ms s.sys.cfg.rampTime + (s.coil sd k).q * slotTime + ms s.sys.cfg.drainTime)

/-- Start the gap timer in WAITING (R52, R59). -/
def State.startGap (s : State) (sd : Side) : State :=
  let w := s.sweeps.get sd
  s.setSweep sd { w with state := .waiting, gap := some (gapOf s.sys.cfg w.mode) }

/-- Reach the positions of the list from `pos` on (R53). The second component says that the sweep ends: no further position, or
the hold found exhausted. Where a refused position's coil is DRAINING and the cut wait runs too, the drain is waited for first, and the
position is then reached afresh (DESIGN CHOICE, log 33). -/
def State.reachFrom (sd : Side) : List CoilNumber → Nat → State → State × Bool
  | [], pos, s => (s.setSweep sd { s.sweeps.get sd with position := pos, wait := .none }, true)
  | k :: ks, pos, s =>
    if (s.coil sd k).state = .faulted then State.reachFrom sd ks (pos + 1) s
    else
      let t := s.setSweep sd { s.sweeps.get sd with position := pos, wait := .none }
      if s.rampCheckFails sd k then (t, true)
      else if s.mayActivate sd k then (t.activate sd k, false)
      else if (s.coil sd k).state = .draining then
        (s.setSweep sd { s.sweeps.get sd with position := pos, wait := .drain }, false)
      else if (s.coils.get sd).cutWait.isSome then
        (s.setSweep sd { s.sweeps.get sd with position := pos, wait := .cutWait }, false)
      else (t, !s.facesEnd sd && (s.claims.get sd).state != .holding)

/-- Reach the position the sweep stands at (R53). -/
def State.reachHere (s : State) (sd : Side) : State × Bool :=
  let w := s.sweeps.get sd
  State.reachFrom sd (w.list.drop w.position) w.position s

/-- Entry to RELEASING: c0 advances, the sweep's plan is discarded (R51, R59). -/
def State.enterReleasing (s : State) (sd : Side) : State :=
  let w := s.sweeps.get sd
  s.setSweep sd { w with
    state := .releasing, c0 := w.c0 + 1, full := false, list := [], position := 0, repeats := 0, gap := none
    wait := .none, exhausted := false, round := none }

/-- The lane is granted: the state becomes SWEEPING and the list is made; a set priority mark makes it full (R52). -/
def State.beginList (s : State) (sd : Side) : State :=
  let w := s.sweeps.get sd
  s.setSweep sd { w with
    state := .sweeping, list := s.plannedList sd, full := w.priority, priority := false, position := 0, repeats := 0
    wait := .none, exhausted := false, round := none }

/-- Begin a sweep (R52): skip it when every coil of the planned list is FAULTED, else ask for the lane. An end lane that is FREE
grants in the same moment. -/
def State.beginSweep (s : State) (sd : Side) : State :=
  let w := s.sweeps.get sd
  if (s.plannedList sd).all fun k => (s.coil sd k).state == .faulted then
    (s.setSweep sd { w with c0 := w.c0 + 1, priority := false }).startGap sd
  else
    let o := (s.setSweep sd { w with state := .claiming, gap := none }).requestLane sd
    if o.2 then
      let p := (o.1.beginList sd).reachHere sd
      if p.2 then (p.1.enterReleasing sd).endHold sd else p.1
    else o.1

/-- The side has come to rest: the Lane Claim Unit is told (R43, R45), then the Scheduler, which leaves RELEASING (R59). -/
def State.restTold (s : State) (sd : Side) : State :=
  let o := s.giveUpLane sd
  let t :=
    if o.2 ∧ (o.1.sweeps.get sd).state = .claiming then ((o.1.beginList sd).reachHere sd).1 else o.1
  if (t.sweeps.get sd).state = .releasing then
    let u := t.setSweep sd { t.sweeps.get sd with state := .waiting }
    if (u.sweeps.get sd).priority then u.beginSweep sd else u.startGap sd
  else t

/-- The end of a sweep (R59): entry to RELEASING, the report to the Lane Claim Unit if one is made, and the question whether the
side is at rest already. -/
def State.endSweep (s : State) (sd : Side) (reported : Bool) : State :=
  let t := s.enterReleasing sd
  let u := if reported then t.endHold sd else t
  if u.atRest sd then u.restTold sd else u

/-- Reach the position the sweep stands at and end the sweep where R53 says so. -/
def State.reach (s : State) (sd : Side) : State :=
  let o := s.reachHere sd
  if o.2 then o.1.endSweep sd true else o.1

/-- Move on to the next position (R54, R57); after an exhausted hold no further position is reached (R60). -/
def State.moveOn (s : State) (sd : Side) : State :=
  let w := s.sweeps.get sd
  if w.state = .sweeping then
    if w.exhausted then s.endSweep sd false
    else (s.setSweep sd { w with position := w.position + 1 }).reach sd
  else s

/-- The grant reported to a Scheduler in CLAIMING (R52). -/
def State.grant (s : State) (sd : Side) : State :=
  if (s.sweeps.get sd).state = .claiming then (s.beginList sd).reach sd else s

/-- A new round of `q` slots (R55). -/
def Round.fresh (q : Nat) : Round :=
  { q := q, ended := 0, empties := 0, singles := 0, collided := 0, slot := slotTime, stopping := false, cut := false }

/-- The live check of R56 for a round of `q` slots. -/
def State.liveCheck (s : State) (sd : Side) (q : Nat) : Bool :=
  decide ((s.coils.get sd).live.getD 0 + q * slotTime ≤ maxLiveTime)

/-- The hold check of R56, made only for a side facing an inner lane. -/
def State.holdCheck (s : State) (sd : Side) (q : Nat) : Bool :=
  s.facesEnd sd || decide (s.holdSoFar sd + q * slotTime + ms s.sys.cfg.drainTime ≤ claimHoldTime)

/-- Put a round of `q` slots on coil `k` to the guard (R56). `repeats` is the repeat count it runs under; `back` the stored Q
returned when the guard refuses it. -/
def State.startRound (s : State) (sd : Side) (k : CoilNumber) (q repeats back : Nat) : State :=
  if s.liveCheck sd q && s.holdCheck sd q then
    s.setSweep sd { s.sweeps.get sd with repeats := repeats, round := some (Round.fresh q) }
  else
    let t := (s.storeQ sd k back).drain sd k
    if s.holdCheck sd q then t.moveOn sd else t.endSweep sd true

/-- The stored Q that a round's tally gives (R57 step 2). -/
def adaptedQ (r : Round) : Nat :=
  if 4 * r.empties > 3 * r.q ∧ r.q > 1 then r.q / 2
  else if 2 * r.collided > r.q ∧ r.q < 16 then 2 * r.q
  else r.q

/-- A repeat round is wanted (R57 step 1). -/
def wantsRepeat (r : Round) (repeats limit : Nat) : Bool :=
  decide (2 * r.collided > r.q) && decide (r.q < 16) && decide (repeats < limit)

/-- The live timer has reached 40 ms, whether or not LIVE_LIMIT has been taken yet (R58). -/
def State.liveSpent (s : State) (sd : Side) : Bool := decide (maxLiveTime ≤ (s.coils.get sd).live.getD 0)

/-- A round on coil `k` has run to its end (R57). `last` says that no repeat may follow: the live timer has reached 40 ms at this moment
(R58) or an exhausted hold has been reported (R60). -/
def State.weighRound (s : State) (sd : Side) (k : CoilNumber) (r : Round) (last : Bool) : State :=
  let w := s.sweeps.get sd
  let t := s.setSweep sd { w with round := none }
  if !last && wantsRepeat r w.repeats s.sys.cfg.repeatLimit then
    t.startRound sd k (2 * r.q) (w.repeats + 1) (adaptedQ r)
  else ((t.storeQ sd k (adaptedQ r)).drain sd k).moveOn sd

/-- The restart of a sweep as a full sweep, when no round is in progress (R65 cases 2 to 4). -/
def State.restartNow (s : State) (sd : Side) : State :=
  let t := s.setSweep sd { s.sweeps.get sd with
    list := allCoils, full := true, position := 0, repeats := 0, wait := .none, round := none }
  match (s.coils.get sd).energisedCoil with
  | some k =>
    if k = 0 then
      if (s.coil sd k).state = .live then t.startRound sd k (s.coil sd k).q 0 (s.coil sd k).q else t
    else (t.drain sd k).reach sd
  | none => t.reach sd

/-- A priority trigger taken as a restart (R65): a round in progress stops at the end of its slot. -/
def State.restart (s : State) (sd : Side) : State :=
  let w := s.sweeps.get sd
  match w.round with
  | some r => s.setSweep sd { w with round := some { r with stopping := true } }
  | none => s.restartNow sd

/-- A priority trigger reaches the side's Scheduler (R64). An unfitted side takes none (R63). -/
def State.priorityTrigger (s : State) (sd : Side) : State :=
  let w := s.sweeps.get sd
  if s.acts sd then
    match w.state with
    | .waiting => (s.setSweep sd { w with gap := none, priority := true }).beginSweep sd
    | .claiming | .releasing => s.setSweep sd { w with priority := true }
    | .sweeping =>
      if w.full then s
      else if w.exhausted then s.setSweep sd { w with priority := true }
      else s.restart sd
  else s

/-- A beam break or a sample on the side: the doze timer restarts, a DOZE side becomes ACTIVE (R49). -/
def State.activity (s : State) (sd : Side) : State :=
  s.setSweep sd { s.sweeps.get sd with mode := .active, doze := some (ms (s.sys.cfg.dozeDelay * 1000)) }

/-- A PROVISIONAL DECIDE reaches both Schedulers, each of which judges the lanes against its own side (R63). -/
def State.provisionalTriggers (s : State) (laneA : Nat) (laneB : Option Nat) : State :=
  let one (t : State) (sd : Side) : State :=
    if t.lane sd = laneA ∨ some (t.lane sd) = laneB then t.priorityTrigger sd else t
  one (one s .L) .R

/-- The coil of the position the sweep stands at. -/
def Sweep.coilHere (w : Sweep) : Option CoilNumber := w.list[w.position]?

/-- An exhausted hold is reported to the Scheduler (R60). On an inner lane it also ends a round that the live limit has cut, whose slot
ends at this same moment, with no outcome for that slot (DESIGN CHOICE, log 20). -/
def State.holdExhausted (s : State) (sd : Side) : State :=
  let w := s.sweeps.get sd
  if w.state = .sweeping then
    if s.facesEnd sd then
      if (s.coils.get sd).energisedCoil.isSome || w.round.isSome then s.setSweep sd { w with exhausted := true }
      else s.endSweep sd false
    else s.endSweep sd false
  else s

/-- Hall Clear on a Sweep Scheduler (R67); the Scheduler of an unfitted side keeps its Full Reset values (R3). A round that the live limit
has cut, whose slot ends at this same moment, ends here with no outcome for that slot (DESIGN CHOICE, log 20). -/
def Sweep.hallClear (c : Config) (isFitted : Bool) (w : Sweep) : Sweep :=
  if isFitted then
    { w with
      state := .waiting, priority := false, full := false, list := [], position := 0, repeats := 0
      gap := some (gapOf c w.mode), wait := .none, exhausted := false, round := none }
  else w

end Sys2Proof.Machine
end

