-- ==== Sys2Proof/Machine/Frames.lean ====
section
/-! DEFINITION. Shared operations at a frame's end and at the end of an attempt: the receive checks (R82, R83, R14), Hall Clear (R171),
and what owners do when a frame of theirs is transmitted, dropped, or has a pending request carried out (R72, R73, R80). -/

namespace Sys2Proof.Machine

/-! ### A received frame -/

/-- A frame's end in `receiving` (R69): the line is at an idle moment. A station in RUNNING hands a frame that passes the sender check
and has an allowed body size to `act`, with its SOF stamp, and counts any other (R82, R83). In CONFIG FAULT it counts none, and `fault`
is what the station still takes (R14). -/
def State.takeFrame (s : State) (sender : Address) (b : Body) (act : Clock → State → State) (fault : State → State) : State :=
  match s.line.phase with
  | .receiving stamp =>
    let t := s.setPhase (.idle 0)
    match s.sys.run with
    | .running => if sizeAllowed b && s.senderOk sender b then act stamp t else t.count .framesBad 1
    | .configFault => fault t
    | .starting => t
  | .deaf | .idle _ | .sending _ => s

/-- A frame that a station in CONFIG FAULT ignores (R14). -/
def ignored (s : State) : State := s

/-- The partner's claim frame is given to the Lane Claim Unit that takes it, if any does (R33). -/
def State.toPartner (s : State) (sender : Address) (lane : Byte) (act : State → Side → State) : State :=
  match s.claimSide sender.toNat lane.toNat with
  | some sd => act s sd
  | none => s

/-- A POLL's target is the station number or all (R84). -/
def State.polled (s : State) (target : Byte) : Bool := target.toNat == s.number || target == 255

/-! ### Notices and answers (R125, R126, R135, R136) -/

/-- The distinct items of a list in the order of their first mention (R126). -/
def firstMentions : List Item → List Item
  | [] => []
  | x :: xs => x :: (firstMentions xs).filter (· ≠ x)

/-- The items of a notice frame are entered in turn; then each distinct item is told once (R125, R126). -/
def State.takeNotices (s : State) (st : NoticeStatus) (items : List Item) : State :=
  (firstMentions items).foldl State.noticeTold (s.setCache (items.foldl (enterNotice st) s.cache))

/-- The slot that an ANSWER matches (R135). -/
def State.matchingSlot (s : State) (b : AnswerBody) : Option (BitVec 2) :=
  let k := BitVec.ofNat 2 (b.tag.toNat / 4)
  match (s.queries.slots.get k).use with
  | some u => if b.tag.toNat < 16 ∧ u.tag = b.tag.toNat ∧ u.item = b.item then some k else none
  | none => none

/-- An ANSWER addressed to this station (R135, R136). -/
def State.takeAnswer (s : State) (b : AnswerBody) : State :=
  match s.matchingSlot b with
  | some k =>
    let t := s.freeSlot k
    let u := if b.status = .issued ∧ b.error = false then t.setCache (enterNotice .issued t.cache b.item) else t
    u.reEvaluateHeld b.item (some (answerOutcome b.status b.error))
  | none => s.count .answersMissed 1

/-! ### Hall Clear (R171, table) -/

def State.hallClear (s : State) : State :=
  let c := s.sys.cfg
  { s with
    coils := ⟨s.coils.left.hallClear (ms c.drainTime), s.coils.right.hallClear (ms c.drainTime)⟩
    claims := ⟨Claim.reset, Claim.reset⟩
    sweeps := ⟨s.sweeps.left.hallClear c c.fittedL, s.sweeps.right.hallClear c c.fittedR⟩
    line := { s.line with queue := [], waiting := [], backoff := false }
    table := s.table.map fun _ => none
    directory := []
    queries := s.queries.hallClear
    lamps := ⟨Lamp.reset, Lamp.reset⟩
    sounder := Sounder.reset
    report := { s.report with request := .none, clear := false } }

/-! ### The frame under transmission -/

/-- The frame under transmission (R70). -/
def sentFrame (q : List QFrame) : Option QFrame := q.find? QFrame.underTx

/-- The queue after the frame under transmission has left it. -/
def withoutSent : List QFrame → List QFrame
  | [] => []
  | f :: q => if f.underTx then q else f :: withoutSent q

/-- The frame under transmission goes back to waiting with its loss count raised (R72). -/
def backToWaiting : List QFrame → List QFrame
  | [] => []
  | f :: q => if f.underTx then { f with underTx := false, losses := f.losses + 1 } :: q else f :: backToWaiting q

/-! ### A completed frame (R73) -/

/-- What a completed frame does to its owners before any new offer, and the context it creates, if any, with whether that is to be
evaluated at once (R35, R43, R98, R99, R106, R157, R159, R170). -/
def State.frameSent (s : State) (f : QFrame) : State × Option Bool :=
  match f.payload, f.owner with
  | .claim _, .side sd => (s.claimTransmitted sd, none)
  | .release _, .side sd => (s.releaseSettled sd, none)
  | .sight m, .record x => s.sightSent x m
  | .join m, .record x => (s.samplesSent x m.samples, none)
  | .decision m, o =>
    let t := match o with
      | .record x => s.decisionSent x m
      | _ => s
    ((t.alarmDecide m.item m.decision.verdict m.decision.laneA m.decision.laneB m.again).countDecision
      m.decision.verdict m.again, none)
  | .report, _ => (s.reportSent, none)
  | _, _ => (s, none)

/-- What follows once the waiting owners have been asked: the new context's first judgement (R146, R147) and the priority triggers of an
own PROVISIONAL (R63). -/
def State.afterSent (s : State) (f : QFrame) (ctx : Option Bool) : State :=
  match f.payload with
  | .sight m => match ctx with
    | some evaluate => s.contextCreated m.item evaluate
    | none => s
  | .decision m =>
    if m.decision.verdict = .provisional then s.provisionalTriggers m.decision.laneA m.decision.laneB else s
  | _ => s

/-! ### A dropped frame (R72) -/

/-- Whether a removal is held on a frame of a SOLE record (R100). -/
def State.soleLeaving (s : State) (f : QFrame) : Option Record :=
  match f.payload, f.owner with
  | .sight _, .record x =>
    if f.asked = .remove then
      match s.record? x with
      | some r => match r.state with
        | .sole _ => some r
        | _ => none
      | none => none
    else none
  | _, _ => none

/-- What a drop does to the frame's owner before any new offer (R43, R91, R100, R170). -/
def State.frameDropped (s : State) (f : QFrame) : State :=
  match s.soleLeaving f with
  | some r => s.freeSole r
  | none =>
    match f.payload, f.owner with
    | .release _, .side sd => s.releaseSettled sd
    | .sight m, .record x => s.settleSamples x .unsent m.samples
    | .join m, .record x => s.settleSamples x .unsent m.samples
    | .report, _ => s.reportDropped
    | _, _ => s

/-- What the owner of a dropped frame offers afresh (R36, R97, R98, R108, R133, R153). The samples of a dropped takeover SIGHT that the
fresh one leaves out are UNSENT samples of a JOINT record and go out as JOINs (R91, R98; log 21). -/
def State.afterDropped (s : State) (f : QFrame) : State :=
  match f.payload, f.owner with
  | .claim _, .side sd =>
    if (s.claims.get sd).state = .asking ∧ (s.claims.get sd).sent = false then (s.offerClaim sd).1 else s
  | .sight m, .record x =>
    match s.record? x with
    | some r => match r.state with
      | .sole _ => (s.offerSight r).1
      | .joint _ _ => if m.takeover then (s.offerTakeover r).1.offerJoins x else s
      | .lead _ | .closed _ _ => s
    | none => s
  | .join _, .record x => s.offerJoins x
  | .query _ tag _, .slot k =>
    match (s.queries.slots.get k).use with
    | some u => if u.tag = tag then (s.offerQuery k).1 else s
    | none => s
  | .decision m, .record x =>
    match s.lead? x with
    | some (_, l) =>
      if !m.again && Verdict.isFinal m.decision.verdict && l.final.isSome then (s.offerDecision x m.decision).1 else s
    | none => s
  | _, _ => s

/-- The frame under transmission is dropped at its sixteenth loss (R72). -/
def State.dropSent (s : State) (f : QFrame) : State :=
  ((((s.setQueue (withoutSent s.line.queue)).count .framesDropped 1).frameDropped f).walk).afterDropped f

/-- A removal or conversion held while the frame was under transmission is carried out at the loss (R72, R80, R100). -/
def State.carryOut (s : State) (f : QFrame) : State :=
  match f.asked with
  | .none => s
  | .remove =>
    match s.soleLeaving f with
    | some r => s.freeSole r
    | none => State.removeLoop (fun g => g.asked == .remove) queueSize s
  | .convert lead =>
    let mine (g : QFrame) : Bool := g.asked == .convert lead
    let q := s.line.queue.map fun g => if mine g && !sightEmpty g then convertFrame lead g else g
    State.removeLoop (fun g => mine g && sightEmpty g) queueSize (s.setQueue q)

end Sys2Proof.Machine
end

