-- ==== Sys2Proof/Machine/ClaimCommands.lean ====
section
/-! DEFINITION. The commands of chapter 3: the claim timers and the frames CLAIM, DEFER and RELEASE. -/

namespace Sys2Proof.Machine

/-- The claim wait expires (R38): an ASKING side takes the lane and its request is granted. -/
def State.claimWaitEnds (s : State) (sd : Side) : State :=
  let c := s.claims.get sd
  if isDue c.wait then
    if c.state = .asking then
      (s.setClaim sd { c with state := .holding, wait := none, hold := some claimHoldTime, request := false }).grant sd
    else s.setClaim sd { c with wait := none }
  else s

def execClaimWaitEnd (after : Nat) (side : Side) (s : State) : Host.Outcome State Fault Refusal :=
  .next ((s.advance after).claimWaitEnds side)

/-- The claim hold timer expires (R42): a hold ends and the Scheduler is told that it is exhausted (R60). -/
def State.holdTimerEnds (s : State) (sd : Side) : State :=
  let c := s.claims.get sd
  if isDue c.hold then
    let t := s.setClaim sd { c with hold := none }
    if c.state = .holding then (t.endHold sd).holdExhausted sd else t
  else s

def execClaimHoldTimerEnd (after : Nat) (side : Side) (s : State) : Host.Outcome State Fault Refusal :=
  .next ((s.advance after).holdTimerEnds side)

/-- The rest timer expires (R44, R45): an owed RELEASE is given up, the side is FREE, and a pending request is taken; an end lane grants
it at once. -/
def State.restEnds (s : State) (sd : Side) : State :=
  let c := s.claims.get sd
  if isDue c.rest then
    match c.state with
    | .resting .closing | .free | .asking | .holding => s.setClaim sd { c with rest := none }
    | .resting _ =>
      let o := (s.giveUp (.release sd)).becomeFree sd
      if o.2 then o.1.grant sd else o.1
  else s

def execRestTimerEnd (after : Nat) (side : Side) (s : State) : Host.Outcome State Fault Refusal :=
  .next ((s.advance after).restEnds side)

/-- CLAIM (R33, R37, R40, R44). -/
def execHeardClaim (after : Nat) (sender : Address) (lane : Byte) (s : State) : Host.Outcome State Fault Refusal :=
  .next ((s.advance after).takeFrame sender (.claimBody lane)
    (fun _ t => t.toPartner sender lane State.partnerClaim) ignored)

/-- DEFER (R33, R39). -/
def execHeardDefer (after : Nat) (sender : Address) (body : DeferBody) (s : State) :
    Host.Outcome State Fault Refusal :=
  .next ((s.advance after).takeFrame sender (.deferBody body)
    (fun _ t => t.toPartner sender body.lane fun u sd => u.partnerDefer sd body.hold.toNat) ignored)

/-- RELEASE (R33, R44). -/
def execHeardRelease (after : Nat) (sender : Address) (lane : Byte) (s : State) : Host.Outcome State Fault Refusal :=
  .next ((s.advance after).takeFrame sender (.releaseBody lane)
    (fun _ t => t.toPartner sender lane State.partnerRelease) ignored)

end Sys2Proof.Machine
end

