-- ==== Sys2Proof/Machine/CoilCommands.lean ====
section
/-! DEFINITION. The commands of chapter 2: RAMP_END to RETEST_END. -/

namespace Sys2Proof.Machine

/-- The sweep in hand ends without a report, if there is one (R54, R59, R60). -/
def State.abandonSweep (s : State) (sd : Side) : State :=
  if (s.sweeps.get sd).state = .sweeping then s.endSweep sd false else s

/-- Low field (R19): FAULTED, and the Scheduler moves on (R54), or ends a sweep whose hold is exhausted (R60). -/
def State.lowField (s : State) (sd : Side) (k : CoilNumber) : State :=
  (s.setCoils sd ((s.coils.get sd).cut (ms s.sys.cfg.drainTime) k)).moveOn sd

/-- Field clash (R20): DRAINING, the sweep abandoned (R54), the Lane Claim Unit told (R42, R46). -/
def State.fieldClash (s : State) (sd : Side) (k : CoilNumber) : State :=
  ((s.drain sd k).abandonSweep sd).claimClash sd

/-- Good ramp (R21): LIVE with its mark cleared; the first round goes to the guard (R54), or after an exhausted hold the coil is drained
with no round (R60). -/
def State.goodRamp (s : State) (sd : Side) (k : CoilNumber) : State :=
  let u := s.coils.get sd
  let t := s.setCoils sd { u with
    coils := u.coils.set k { u.coils.get k with state := .live, faultMark := false }, live := some 0 }
  let w := t.sweeps.get sd
  if w.state = .sweeping then
    if w.exhausted then (t.drain sd k).endSweep sd false
    else t.startRound sd k (t.coil sd k).q 0 (t.coil sd k).q
  else t

/-- The ramp timer expires with the field at `level` (R18). -/
def State.rampEnds (s : State) (sd : Side) (level : Byte) : State :=
  let u := s.coils.get sd
  if isDue u.ramp then
    let t := s.setCoils sd { u with ramp := none }
    match u.coilIn .ramping with
    | some k =>
      if level.toNat < s.sys.cfg.driveMin then t.lowField sd k
      else if s.sys.cfg.driveMax < level.toNat then t.fieldClash sd k
      else t.goodRamp sd k
    | none => t
  else s

def execRampEnd (after : Nat) (side : Side) (level : Byte) (s : State) : Host.Outcome State Fault Refusal :=
  .next ((s.advance after).rampEnds side level)

/-- The Scheduler's answer to the loss of its LIVE coil (R54, R58): the next position, or where a priority stop waited for the slot's end,
the restart at this moment (R65; log 18, 20). -/
def State.afterLoss (s : State) (sd : Side) (stopping : Bool) : State :=
  let w := s.sweeps.get sd
  if stopping && w.state == .sweeping && !w.exhausted then s.restartNow sd else s.moveOn sd

/-- The live timer reaches 40 ms (R21): a coil still LIVE is drained. A slot that ends at this moment keeps its outcome; a round cut
within a slot ends, a priority stop that waited for its slot restarting the sweep at this moment (DESIGN CHOICE, log 20). -/
def State.liveEnds (s : State) (sd : Side) : State :=
  let u := s.coils.get sd
  match u.live with
  | some e =>
    if maxLiveTime ≤ e then
      match u.coilIn .live with
      | some k =>
        let t := s.setCoils sd (u.drained (ms s.sys.cfg.drainTime) k)
        let w := s.sweeps.get sd
        match w.round with
        | some r =>
          if r.slot = 0 then t.setSweep sd { w with round := some { r with cut := true } }
          else (t.cutRound sd).afterLoss sd r.stopping
        | none => t.moveOn sd
      | none => s.setCoils sd { u with live := none }
    else s
  | none => s

def execLiveLimit (after : Nat) (side : Side) (s : State) : Host.Outcome State Fault Refusal :=
  .next ((s.advance after).liveEnds side)

/-- A drive loss on a LIVE coil (R22); on any other it is ignored. -/
def State.driveLost (s : State) (sd : Side) (k : CoilNumber) : State :=
  let u := s.coils.get sd
  if (u.coils.get k).state = .live then
    let stopping := ((s.sweeps.get sd).round.map Round.stopping).getD false
    let t := s.setCoils sd { u.cut (ms s.sys.cfg.drainTime) k with live := none }
    (t.cutRound sd).afterLoss sd stopping
  else s

def execDriveLoss (after : Nat) (side : Side) (coil : CoilNumber) (s : State) : Host.Outcome State Fault Refusal :=
  .next ((s.advance after).driveLost side coil)

/-- The side is told of its rest, if it is at rest (R26). -/
def State.tellRest (s : State) (sd : Side) : State := if s.atRest sd then s.restTold sd else s

/-- A Scheduler that waits for this notice reaches its position afresh (R53; log 13). -/
def State.resume (s : State) (sd : Side) (cause : SweepWait) : State :=
  let w := s.sweeps.get sd
  if w.state = .sweeping ∧ w.wait = cause then s.reach sd else s

/-- The coil's drain timer expires: IDLE (R24), and the side may be at rest (R26). -/
def State.drainEnds (s : State) (sd : Side) (k : CoilNumber) : State :=
  let c := s.coil sd k
  if isDue c.drain then
    if c.state = .draining then
      let mine := (s.sweeps.get sd).coilHere == some k
      let t := (s.setCoil sd k { c with state := .idle, drain := none }).tellRest sd
      if mine then t.resume sd .drain else t
    else s.setCoil sd k { c with drain := none }
  else s

def execDrainEnd (after : Nat) (side : Side) (coil : CoilNumber) (s : State) : Host.Outcome State Fault Refusal :=
  .next ((s.advance after).drainEnds side coil)

/-- The cut wait expires (R25): the side may ramp again, and may be at rest (R26). -/
def State.cutWaitEnds (s : State) (sd : Side) : State :=
  let u := s.coils.get sd
  if isDue u.cutWait then ((s.setCoils sd { u with cutWait := none }).tellRest sd).resume sd .cutWait else s

def execCutWaitEnd (after : Nat) (side : Side) (s : State) : Host.Outcome State Fault Refusal :=
  .next ((s.advance after).cutWaitEnds side)

/-- The coil's retest timer expires (R27): a FAULTED coil becomes IDLE, its fault mark staying set. -/
def State.retestEnds (s : State) (sd : Side) (k : CoilNumber) : State :=
  let c := s.coil sd k
  if isDue c.retest then
    s.setCoil sd k { c with retest := none, state := if c.state = .faulted then .idle else c.state }
  else s

def execRetestEnd (after : Nat) (side : Side) (coil : CoilNumber) (s : State) : Host.Outcome State Fault Refusal :=
  .next ((s.advance after).retestEnds side coil)

end Sys2Proof.Machine
end

