-- ==== Sys2Proof/Machine/IssueCommands.lean ====
section
/-! DEFINITION. The commands of chapter 8: the frames ISSUE, RETURN and ANSWER. -/

namespace Sys2Proof.Machine

/-- ISSUE (R125, R126). -/
def execHeardIssue (after : Nat) (sender : Address) (items : List Item) (s : State) :
    Host.Outcome State Fault Refusal :=
  .next ((s.advance after).takeFrame sender (.issueBody items) (fun _ t => t.takeNotices .issued items) ignored)

/-- RETURN (R125, R126). -/
def execHeardReturn (after : Nat) (sender : Address) (items : List Item) (s : State) :
    Host.Outcome State Fault Refusal :=
  .next ((s.advance after).takeFrame sender (.returnBody items) (fun _ t => t.takeNotices .returned items) ignored)

/-- ANSWER (R84, R135, R136): one addressed to another station is ignored. -/
def execHeardAnswer (after : Nat) (sender : Address) (body : AnswerBody) (s : State) :
    Host.Outcome State Fault Refusal :=
  .next ((s.advance after).takeFrame sender (.answerBody body)
    (fun _ t => if body.receiver.toNat = t.number then t.takeAnswer body else t) ignored)

end Sys2Proof.Machine
end

