-- ==== Sys2Proof/Machine/LineCommands.lean ====
section
/-! DEFINITION. The commands of chapter 5: the line's own events and the frames that no block takes. -/

namespace Sys2Proof.Machine

/-- The frame whose attempt starts at this moment, if one does (R70): the line is idle at a slot boundary at least the access delay of the
queue's head after the idle moment. -/
def State.attemptHead (s : State) : Option QFrame :=
  match s.line.phase with
  | .idle since =>
    match headOf s.line.queue with
    | some f => if s.maySend && since % lineSlot == 0 && decide (s.accessDelay f ≤ since) then some f else none
    | none => none
  | .deaf | .receiving _ | .sending _ => none

/-- The attempt of a frame starts: it is filled, goes under transmission, and a REPORT's counters are kept (R70, R85, R169). -/
def State.startAttempt (s : State) (f : QFrame) : State :=
  let frame := s.fillFrame f
  let bytes := frameBytes frame
  let t := { s with line := { s.line with
    phase := .sending { frame := frame, bytes := bytes, left := attemptTime bytes, stamp := s.time.clock }
    queue := startFrame f s.line.queue } }
  match f.payload with
  | .report => t.setReport { t.report with carried := t.report.counters }
  | .sight _ | .join _ | .decision _ | .claim _ | .defer _ | .release _ | .query _ _ _ => t

/-- ATTEMPT_START. -/
def State.attemptStarts (s : State) : State :=
  match s.attemptHead with
  | some f => s.startAttempt f
  | none => s

def execAttemptStart (after : Nat) (s : State) : Host.Outcome State Fault Refusal :=
  .next (s.advance after).attemptStarts

/-- The bit of an attempt on the line now; none in the closing idle gap (R68, R71). -/
def Attempt.bitNow (a : Attempt) : Option Bool := lineBit a.bytes (attemptTime a.bytes - a.left)

/-- Contention lost at an attempt with SOF stamp `stamp` (R71, R72). -/
def State.loseContention (s : State) (stamp : Clock) : State :=
  let t := (s.setPhase (.receiving stamp)).setBackoff true
  match sentFrame s.line.queue with
  | some f =>
    if retryLimit ≤ f.losses + 1 then t.dropSent f
    else (t.setQueue (backToWaiting s.line.queue)).carryOut { f with underTx := false, losses := f.losses + 1 }
  | none => t

/-- CONTENTION_LOST: a bit sent at 1 is read back at 0. -/
def State.contentionLost (s : State) : State :=
  match s.line.phase with
  | .sending a => if a.bitNow = some true then s.loseContention a.stamp else s
  | .deaf | .idle _ | .receiving _ => s

def execContentionLost (after : Nat) (s : State) : Host.Outcome State Fault Refusal :=
  .next (s.advance after).contentionLost

/-- The frame under transmission completes (R73, R79). -/
def State.complete (s : State) : State :=
  let t := (s.setPhase (.idle 0)).setBackoff false
  match sentFrame s.line.queue with
  | some f =>
    let o := (t.setQueue (withoutSent s.line.queue)).frameSent f
    (o.1.walk).afterSent f o.2
  | none => t

/-- TRANSMIT_COMPLETE: an attempt reaches its frame's end. -/
def State.transmitCompletes (s : State) : State :=
  match s.line.phase with
  | .sending a => if a.left = 0 then s.complete else s
  | .deaf | .idle _ | .receiving _ => s

def execTransmitComplete (after : Nat) (s : State) : Host.Outcome State Fault Refusal :=
  .next (s.advance after).transmitCompletes

/-- Whether a received run of bytes is one that a station in RUNNING discards (R82, R83). -/
def State.discards (s : State) (raw : RawFrame) : Bool :=
  match checkRaw raw with
  | some f => s.sys.run == .running && !s.senderOk f.sender f.body
  | none => true

/-- BAD_FRAME (R82, R83, R14): discarded at its frame's end, and counted in RUNNING. A run of bytes that passes every check is no such
event (log 16). In CONFIG FAULT a POLL that fails a check of R82 which R14 does not list (shape, body size) is ignored too (DESIGN CHOICE,
log 38). -/
def State.badFrameEnds (s : State) (raw : RawFrame) : State :=
  match s.line.phase with
  | .receiving _ => if s.discards raw then (s.setPhase (.idle 0)).count .framesBad 1 else s
  | .deaf | .idle _ | .sending _ => s

def execBadFrame (after : Nat) (raw : RawFrame) (s : State) : Host.Outcome State Fault Refusal :=
  .next ((s.advance after).badFrameEnds raw)

/-- QUERY of another station (R84): accepted and ignored. -/
def execHeardQuery (after : Nat) (sender : Address) (body : QueryBody) (s : State) :
    Host.Outcome State Fault Refusal :=
  .next ((s.advance after).takeFrame sender (.queryBody body) (fun _ t => t) ignored)

/-- REPORT of another station (R84): accepted and ignored. -/
def execHeardReport (after : Nat) (sender : Address) (body : ReportBody) (s : State) :
    Host.Outcome State Fault Refusal :=
  .next ((s.advance after).takeFrame sender (.reportBody body) (fun _ t => t) ignored)

/-- Another station's preamble begins on an idle line (R86, R70). At the very slot boundary at which the station's own attempt is due,
and taken before ATTEMPT_START, it keeps that attempt from starting (DESIGN CHOICE, log 39). -/
def State.frameBegins (s : State) : State :=
  match s.line.phase with
  | .idle _ => s.setPhase (.receiving s.time.clock)
  | .deaf | .receiving _ | .sending _ => s

def execSofStamp (after : Nat) (s : State) : Host.Outcome State Fault Refusal :=
  .next (s.advance after).frameBegins

end Sys2Proof.Machine
end

