-- ==== Sys2Proof/Machine/PassageCommands.lean ====
section
/-! DEFINITION. The commands of chapter 6: the frames SIGHT, JOIN and DECIDE and the expiries of records and directory entries. -/

namespace Sys2Proof.Machine

/-- SIGHT (R101 to R103). -/
def execHeardSight (after : Nat) (sender : Address) (body : SightBody) (s : State) :
    Host.Outcome State Fault Refusal :=
  .next ((s.advance after).takeFrame sender (.sightBody body)
    (fun stamp t => t.heardSight sender.toNat stamp body) ignored)

/-- JOIN (R103). -/
def execHeardJoin (after : Nat) (sender : Address) (body : JoinBody) (s : State) :
    Host.Outcome State Fault Refusal :=
  .next ((s.advance after).takeFrame sender (.joinBody body)
    (fun stamp t => t.heardJoin sender.toNat stamp body) ignored)

/-- A heard DECIDE at its three owners (R84; order: log 28). -/
def State.takeDecide (s : State) (b : DecideBody) : State :=
  let d := decisionOf b
  let t := (s.passageDecide b).alarmDecide b.item b.verdict d.laneA d.laneB b.again
  if b.verdict = .provisional then t.provisionalTriggers d.laneA d.laneB else t

/-- DECIDE (R104, R105, R159, R63). -/
def execHeardDecide (after : Nat) (sender : Address) (body : DecideBody) (s : State) :
    Host.Outcome State Fault Refusal :=
  .next ((s.advance after).takeFrame sender (.decideBody body) (fun _ t => t.takeDecide body) ignored)

/-- A SOLE record is a patience interval old (R100). -/
def State.soleExpires (s : State) (x : Item) : State :=
  match s.record? x with
  | some r => match r.state with
    | .sole _ => if s.reached (patienceMs s.sys.cfg) r.created then s.solePatience r else s
    | .lead _ | .joint _ _ | .closed _ _ => s
  | none => s

def execSolePatienceEnd (after : Nat) (item : Item) (s : State) : Host.Outcome State Fault Refusal :=
  .next ((s.advance after).soleExpires item)

/-- A JOINT record's patience timer expires: a takeover SIGHT is offered (R108). -/
def State.patienceEnds (s : State) (x : Item) : State :=
  match s.record? x with
  | some r => match r.state with
    | .joint y patience =>
      if isDue patience then
        let r' := { r with state := .joint y none }
        ((s.putRecord r').offerTakeover r').1
      else s
    | .sole _ | .lead _ | .closed _ _ => s
  | none => s

def execPatienceTimerEnd (after : Nat) (item : Item) (s : State) : Host.Outcome State Fault Refusal :=
  .next ((s.advance after).patienceEnds item)

/-- A directory entry has not been heard of for the patience interval (R92). -/
def State.directoryExpires (s : State) (x : Item) : State :=
  match dirEntry x s.directory with
  | some e =>
    if s.reached (patienceMs s.sys.cfg) e.heard then s.setDirectory (dirRemove x s.directory) else s
  | none => s

def execDirectoryExpiry (after : Nat) (item : Item) (s : State) : Host.Outcome State Fault Refusal :=
  .next ((s.advance after).directoryExpires item)

/-- A CLOSED record's close hold has passed (R110). -/
def State.closeExpires (s : State) (x : Item) : State :=
  match s.record? x with
  | some r => match r.state with
    | .closed _ t => if s.reached s.sys.cfg.closeHold t then s.freeRecord x else s
    | .sole _ | .lead _ | .joint _ _ => s
  | none => s

def execCloseHoldEnd (after : Nat) (item : Item) (s : State) : Host.Outcome State Fault Refusal :=
  .next ((s.advance after).closeExpires item)

end Sys2Proof.Machine
end

