-- ==== Sys2Proof/Machine/ReportCommands.lean ====
section
/-! DEFINITION. The commands of chapter 11: the frames POLL and CLEAR HALL. -/

namespace Sys2Proof.Machine

/-- A POLL in CONFIG FAULT is taken where its sender is a desk and its target this station or all (R14). -/
def State.pollInFault (s : State) (sender : Address) (b : PollBody) : State :=
  if decide (16 ≤ sender.toNat) && s.polled b.target then s.takePoll b.clear else s

/-- POLL (R84, R168, R14): one for another station is ignored. -/
def execHeardPoll (after : Nat) (sender : Address) (body : PollBody) (s : State) : Host.Outcome State Fault Refusal :=
  .next ((s.advance after).takeFrame sender (.pollBody body)
    (fun _ t => if t.polled body.target then t.takePoll body.clear else t) fun t => t.pollInFault sender body)

/-- CLEAR HALL (R171). -/
def execHeardClearHall (after : Nat) (sender : Address) (s : State) : Host.Outcome State Fault Refusal :=
  .next ((s.advance after).takeFrame sender .clearHallBody (fun _ t => t.hallClear) ignored)

end Sys2Proof.Machine
end

