-- ==== Sys2Proof/Machine/StartUp.lean ====
section
/-! DEFINITION. Start-up (chapter 1): the image's layout (R89), defaults (R10), clamping (R11), the structural checks (R12) and entry to
RUNNING. -/

namespace Sys2Proof.Machine

/-- The bytes a read attempt gives and the part of them that is summed (R8, R9). -/
def imageSize : Nat := 98
def summedSize : Nat := 96

def byteAt (image : List Byte) (k : Nat) : Nat := (image.getD k 0).toNat

/-- The sum of bytes 0 to 95 modulo 65536 (R9). -/
def imageSum (image : List Byte) : Nat := ((image.take summedSize).map BitVec.toNat).sum % 65536

/-- The check held in bytes 96 and 97 (R89). -/
def imageCheck (image : List Byte) : Nat := byteAt image 96 * 256 + byteAt image 97

/-- Presence mark `k` (R89). -/
def markSet (image : List Byte) (k : Nat) : Bool := (byteAt image (1 + k / 8)).testBit (k % 8)

/-! ### Clamping (R11) -/

def clampTo (lo hi v : Nat) : Nat := max lo (min v hi)

def distance (a b : Nat) : Nat := (a - b) + (b - a)

/-- The nearest of a rising list of values, the greater of two equally near; `best` is the nearest so far. -/
def nearestFrom (v best : Nat) : List Nat → Nat
  | [] => best
  | x :: xs => nearestFrom v (if distance v x ≤ distance v best then x else best) xs

def nearest (v : Nat) : List Nat → Nat
  | [] => v
  | x :: xs => nearestFrom v x xs

def qValues : List Nat := [1, 2, 4, 8, 16]
def lengthValues : List Nat := [1, 2, 4]

/-- A value with a mark: its default where the mark is clear, else its field clamped to a range (R10, R11). -/
def ranged (image : List Byte) (mark field lo hi dflt : Nat) : Nat :=
  if markSet image mark then clampTo lo hi field else dflt

/-- A value with listed values (R11). -/
def listed (image : List Byte) (mark field : Nat) (values : List Nat) (dflt : Nat) : Nat :=
  if markSet image mark then nearest field values else dflt

/-- The two bytes of class entry `k` (R89). -/
def classEntryFrom (image : List Byte) (k : Nat) : ClassEntry :=
  let a := image.getD (32 + 2 * k) 0
  { present := a.getLsbD 7
    kind := match (a.extractLsb' 5 2).toNat with
      | 0 => .lending
      | 1 => .reference
      | 2 => .openClass
      | _ => .restricted
    level := a.extractLsb' 3 2
    policy := if a.getLsbD 2 then .clear else .alarm
    provisionalEnable := a.getLsbD 1
    holdValue := image.getD (33 + 2 * k) 0
    granularity := if a.getLsbD 0 then .coarse else .fine }

/-- The number of class entries (R141). -/
def classCount : Nat := 32

/-- The values in force that an image gives (R10, R11, R89). -/
def configFrom (image : List Byte) : Config :=
  let b := byteAt image
  { n := b 0
    fittedL := ranged image 0 (b 4) 0 1 1 == 1
    fittedR := ranged image 1 (b 5) 0 1 1 == 1
    registry := ranged image 2 (b 6) 16 31 31
    noiseFloor := ranged image 3 (b 7) 0 63 24
    margin := ranged image 4 (b 8) 0 255 24 * 4
    threshold := ranged image 5 (b 9) 1 255 40
    quiet := ranged image 6 (b 10 * 256 + b 11) 40 500 150
    maxDwell := ranged image 7 (b 12) 10 40 30 * 100
    closeHold := ranged image 8 (b 13) 5 50 20 * 100
    rampTime := ranged image 9 (b 14) 1 8 2
    drainTime := ranged image 10 (b 15) 1 4 1
    driveMin := ranged image 11 (b 16) 0 255 96
    driveMax := ranged image 12 (b 17) 1 255 224
    initialQ := listed image 13 (b 18) qValues 4
    repeatLimit := ranged image 14 (b 19) 0 3 1
    sweepLength := listed image 15 (b 20) lengthValues 4
    order := if ranged image 16 (b 21) 0 1 1 == 0 then .sequential else .interleaved
    activeGap := ranged image 17 (b 22) 2 50 10
    dozeDelay := ranged image 18 (b 23) 10 255 30
    lifetime := ranged image 19 (b 24) 1 240 120
    lampHold := ranged image 20 (b 25) 1 30 5
    onTime := ranged image 21 (b 26) 1 255 30 * 10
    offTime := ranged image 22 (b 27) 1 255 20 * 10
    soundRepeats := ranged image 23 (b 28) 1 15 4
    classLimit := clampTo 1 32 (b 29)
    classes := (List.range classCount).map (classEntryFrom image) }

/-- The structural checks (R12). -/
def checksPass (c : Config) (station : StationNumber) : Bool :=
  decide (2 ≤ c.n) && decide (c.n ≤ 16) && decide (station.toNat < c.n) && decide (c.driveMin < c.driveMax)

/-- Start-up ends in CONFIG FAULT (R12). -/
def State.enterFault (s : State) : State :=
  { s with sys := { s.sys with run := .configFault, phase := .ended } }

/-- Every coil of a side takes the initial Q in force (R31). -/
def CoilUnit.withQ (u : CoilUnit) (q : Nat) : CoilUnit := { u with coils := u.coils.map fun c => { c with q := q } }

/-- The Scheduler of a fitted side at entry to RUNNING starts its doze timer and its debouncers' timers (R62, R66). -/
def Sweep.started (c : Config) (w : Sweep) : Sweep :=
  { w with
    doze := some (ms (c.dozeDelay * 1000))
    beams := ⟨{ w.beams.inner with timer := some beamStableTime }, { w.beams.outer with timer := some beamStableTime }⟩ }

/-- The Scheduler of a side at entry to RUNNING: a fitted one begins claiming at once (R66). -/
def State.startSide (s : State) (sd : Side) : State :=
  if fitted s.sys.cfg sd then (s.setSweep sd (Sweep.started s.sys.cfg (s.sweeps.get sd))).beginSweep sd else s

/-- Entry to RUNNING (R12, with R4, R5, R31, R66, R143). -/
def State.enterRunning (s : State) (c : Config) : State :=
  let t := { s with
    sys := { s.sys with run := .running, phase := .ended, cfg := c }
    time := { clock := 0, subMs := 0, seconds := 0, secondTimer := some secondTime }
    coils := ⟨s.coils.left.withQ c.initialQ, s.coils.right.withQ c.initialQ⟩
    hall := { s.hall with timer := some hallStableTime } }
  (t.startSide .L).startSide .R

/-- The bytes read are checked and, where they agree, taken (R9, R12). -/
def State.takeImage (s : State) (image : List Byte) : State :=
  if imageSum image = imageCheck image then
    let c := configFrom image
    if checksPass c s.sys.station then s.enterRunning c
    else ({ s with sys := { s.sys with cfg := c } }).enterFault
  else s.enterFault

end Sys2Proof.Machine
end

