-- ==== Sys2Proof/Machine/StartUpCommands.lean ====
section
/-! DEFINITION. The commands of chapter 1 and the seconds tick: FULL_RESET to NOTICE_EXPIRY. -/

namespace Sys2Proof.Machine

/-- FULL_RESET (R7): every operation is abandoned and every block takes its Full Reset values. The input pins and the commands waiting are
not the station's to reset (log 9). -/
def execFullReset (_after : Nat) (s : State) : Host.Outcome State Fault Refusal :=
  .next { State.reset with pins := s.pins, pending := s.pending }

/-- RESET returns high (R8, R1). -/
def State.startUp (s : State) (straps : StationNumber) : State :=
  if s.sys.phase = .resetHeld then { s with sys := { s.sys with station := straps, phase := .reading 1 } } else s

def execStartUp (after : Nat) (straps : StationNumber) (s : State) : Host.Outcome State Fault Refusal :=
  .next ((s.advance after).startUp straps)

/-- A read attempt fails: a wait of 10 ms, or after the third CONFIG FAULT (R8). -/
def State.readFails (s : State) : State :=
  match s.sys.phase with
  | .reading n =>
    if n < readAttempts then { s with sys := { s.sys with phase := .retryWait n retryWaitTime } } else s.enterFault
  | .resetHeld | .retryWait _ _ | .ended => s

def execReadAttemptFail (after : Nat) (s : State) : Host.Outcome State Fault Refusal :=
  .next (s.advance after).readFails

/-- The wait after a failed attempt ends (R8). -/
def State.retryEnds (s : State) : State :=
  match s.sys.phase with
  | .retryWait n left => if left = 0 then { s with sys := { s.sys with phase := .reading (n + 1) } } else s
  | .resetHeld | .reading _ | .ended => s

def execRetryWaitEnd (after : Nat) (s : State) : Host.Outcome State Fault Refusal :=
  .next (s.advance after).retryEnds

/-- A read attempt completes with its 98 bytes (R9). -/
def State.readCompletes (s : State) (image : List Byte) : State :=
  match s.sys.phase with
  | .reading _ => if image.length = imageSize then s.takeImage image else s
  | .resetHeld | .retryWait _ _ | .ended => s

def execReadAttemptComplete (after : Nat) (image : List Byte) (s : State) : Host.Outcome State Fault Refusal :=
  .next ((s.advance after).readCompletes image)

/-- The idle gap that ends the wait after start-up (R13): the line stands at an idle moment. -/
def State.listen (s : State) : State :=
  if s.sys.run ≠ .starting ∧ s.line.phase = .deaf then s.setPhase (.idle 0) else s

def execStartupIdleGap (after : Nat) (s : State) : Host.Outcome State Fault Refusal :=
  .next (s.advance after).listen

/-- A seconds tick (R5) with the ageing and expiry of notices (R128; log 14). -/
def State.tick (s : State) : State :=
  if isDue s.time.secondTimer then
    { s with
      time := { s.time with seconds := s.time.seconds + 1, secondTimer := some secondTime }
      cache := expireNotices (lifetimeSeconds s.sys.cfg) (ageNotices s.cache) }
  else s

def execSecondsTick (after : Nat) (s : State) : Host.Outcome State Fault Refusal :=
  .next (s.advance after).tick

/-- NOTICE_EXPIRY (R128): entries whose age has reached the lifetime leave the cache, oldest first. -/
def State.expireCache (s : State) : State := s.setCache (expireNotices (lifetimeSeconds s.sys.cfg) s.cache)

def execNoticeExpiry (after : Nat) (s : State) : Host.Outcome State Fault Refusal :=
  .next (s.advance after).expireCache

end Sys2Proof.Machine
end

