-- ==== Sys2Proof/Machine/SweepCommands.lean ====
section
/-! DEFINITION. The commands of chapter 4: gaps, slots, the doze timer and the beams. -/

namespace Sys2Proof.Machine

/-- The gap timer expires (R52): a WAITING side begins a sweep. -/
def State.gapEnds (s : State) (sd : Side) : State :=
  let w := s.sweeps.get sd
  if isDue w.gap then
    let t := s.setSweep sd { w with gap := none }
    if w.state = .waiting then t.beginSweep sd else t
  else s

def execGapEnd (after : Nat) (side : Side) (s : State) : Host.Outcome State Fault Refusal :=
  .next ((s.advance after).gapEnds side)

/-- The tally with one more slot's outcome (R55). -/
def Round.tally (r : Round) : SlotOutcome → Round
  | .empty => { r with ended := r.ended + 1, empties := r.empties + 1 }
  | .single _ => { r with ended := r.ended + 1, singles := r.singles + 1 }
  | .collided => { r with ended := r.ended + 1, collided := r.collided + 1 }

/-- A SINGLE reply makes a sample: the doze timer restarts or the side wakes (R49), and the Passage Engine takes it (R55). -/
def State.slotReply (s : State) (sd : Side) (k : CoilNumber) : SlotOutcome → State
  | .single r => (s.activity sd).localSample sd k r
  | .empty | .collided => s

/-- What follows a slot's end on coil `k`, `r` being the round's tally with it: the next slot, the end of the round (R57, R58), or a
priority stop (R65; log 18, 20). -/
def State.afterSlot (s : State) (sd : Side) (k : CoilNumber) (r : Round) : State :=
  let w := s.sweeps.get sd
  let t := s.setSweep sd { w with round := none }
  if r.stopping then
    if w.exhausted then (t.drain sd k).endSweep sd false else t.restartNow sd
  else if r.q ≤ r.ended then s.weighRound sd k r (r.cut || s.liveSpent sd || w.exhausted)
  else if r.cut then t.moveOn sd
  else s.setSweep sd { w with round := some { r with slot := slotTime } }

/-- A slot ends with an outcome (R55). -/
def State.slotEnds (s : State) (sd : Side) (o : SlotOutcome) : State :=
  let w := s.sweeps.get sd
  match w.round, w.coilHere with
  | some r, some k => if r.slot = 0 then (s.slotReply sd k o).afterSlot sd k (r.tally o) else s
  | _, _ => s

def execSlotEnd (after : Nat) (side : Side) (outcome : SlotOutcome) (s : State) : Host.Outcome State Fault Refusal :=
  .next ((s.advance after).slotEnds side outcome)

/-- The doze timer expires (R49). -/
def State.dozes (s : State) (sd : Side) : State :=
  let w := s.sweeps.get sd
  if isDue w.doze then s.setSweep sd { w with mode := .doze, doze := none } else s

def execDozeTimerEnd (after : Nat) (side : Side) (s : State) : Host.Outcome State Fault Refusal :=
  .next ((s.advance after).dozes side)

/-- A beam input changes (R62): the pin takes the level, and a debouncer that reads it restarts its timer (R61, R3). -/
def State.beamChanges (s : State) (sd : Side) (bm : Beam) (broken : Bool) : State :=
  let p := s.pins.beamsBroken.get sd
  if p.get bm = broken then s
  else
    let t := { s with pins := { s.pins with beamsBroken := s.pins.beamsBroken.set sd (p.set bm broken) } }
    if s.acts sd then
      let w := s.sweeps.get sd
      t.setSweep sd { w with beams := w.beams.set bm { w.beams.get bm with timer := some beamStableTime } }
    else t

def execBeamInputChange (after : Nat) (side : Side) (beam : Beam) (broken : Bool) (s : State) :
    Host.Outcome State Fault Refusal :=
  .next ((s.advance after).beamChanges side beam broken)

/-- A beam's stability timer expires (R62): the taken state follows the input; a beam break restarts the doze timer or wakes the side
(R49) and is a priority trigger (R63). -/
def State.beamSettles (s : State) (sd : Side) (bm : Beam) : State :=
  let w := s.sweeps.get sd
  let b := w.beams.get bm
  if isDue b.timer then
    let input := (s.pins.beamsBroken.get sd).get bm
    let t := s.setSweep sd { w with beams := w.beams.set bm { broken := input, timer := none } }
    if input && !b.broken then (t.activity sd).priorityTrigger sd else t
  else s

def execBeamDebounceEnd (after : Nat) (side : Side) (beam : Beam) (s : State) : Host.Outcome State Fault Refusal :=
  .next ((s.advance after).beamSettles side beam)

end Sys2Proof.Machine
end

