-- ==== Sys2Proof/Machine/VerdictCommands.lean ====
section
/-! DEFINITION. The commands of chapter 9: the triggers of an evaluation, the hold timer and the hall level. -/

namespace Sys2Proof.Machine

/-- The quiet timer of a LEAD record expires (R145). -/
def State.quietEnds (s : State) (x : Item) : State :=
  match s.lead? x with
  | some (r, l) =>
    if isDue l.quiet then (s.putLead r { l with quiet := none }).finalEvaluation x else s
  | none => s

def execQuietTimerEnd (after : Nat) (item : Item) (s : State) : Host.Outcome State Fault Refusal :=
  .next ((s.advance after).quietEnds item)

/-- A LEAD record's dwell reaches the maximum dwell (R146). -/
def State.dwellReached (s : State) (x : Item) : State :=
  match s.lead? x with
  | some (r, _) =>
    if s.sys.cfg.maxDwell ≤ dwellOf s.time.clock r.samples then s.finalEvaluation x else s
  | none => s

def execDwellReached (after : Nat) (item : Item) (s : State) : Host.Outcome State Fault Refusal :=
  .next ((s.advance after).dwellReached item)

/-- A HELD record's hold timer expires (R152). -/
def State.holdEnds (s : State) (x : Item) : State :=
  match s.lead? x with
  | some (_, l) => match l.stage with
    | .held _ _ _ left => if left = 0 then s.holdExpired x else s
    | .openStage | .provisional => s
  | none => s

def execHoldTimerEnd (after : Nat) (item : Item) (s : State) : Host.Outcome State Fault Refusal :=
  .next ((s.advance after).holdEnds item)

/-- The hall-level inputs change (R143): in RUNNING the stability timer restarts. -/
def State.hallChanges (s : State) (value : BitVec 2) : State :=
  if s.pins.hall = value then s
  else
    let t := { s with pins := { s.pins with hall := value } }
    if s.sys.run = .running then { t with hall := { t.hall with timer := some hallStableTime } } else t

def execHallLevelInputChange (after : Nat) (value : BitVec 2) (s : State) : Host.Outcome State Fault Refusal :=
  .next ((s.advance after).hallChanges value)

/-- The hall level's stability timer expires (R143). -/
def State.hallSettles (s : State) : State :=
  if isDue s.hall.timer then { s with hall := { level := s.pins.hall, timer := none } } else s

def execHallLevelDebounceEnd (after : Nat) (s : State) : Host.Outcome State Fault Refusal :=
  .next (s.advance after).hallSettles

end Sys2Proof.Machine
end

