-- ==== Sys2Proof/Machine/Dispatch.lean ====
section
/-! DEFINITION. The dispatch of a command to its meaning, one arm per constructor of Instr. -/

namespace Sys2Proof.Machine

def exec (i : Instr) (s : State) : Host.Outcome State Fault Refusal :=
  match i with
  | .fullReset a => Sys2Proof.Machine.execFullReset a s
  | .startUp a n => Sys2Proof.Machine.execStartUp a n s
  | .readAttemptFail a => Sys2Proof.Machine.execReadAttemptFail a s
  | .retryWaitEnd a => Sys2Proof.Machine.execRetryWaitEnd a s
  | .readAttemptComplete a bs => Sys2Proof.Machine.execReadAttemptComplete a bs s
  | .startupIdleGap a => Sys2Proof.Machine.execStartupIdleGap a s
  | .secondsTick a => Sys2Proof.Machine.execSecondsTick a s
  | .noticeExpiry a => Sys2Proof.Machine.execNoticeExpiry a s
  | .rampEnd a sd v => Sys2Proof.Machine.execRampEnd a sd v s
  | .liveLimit a sd => Sys2Proof.Machine.execLiveLimit a sd s
  | .driveLoss a sd k => Sys2Proof.Machine.execDriveLoss a sd k s
  | .drainEnd a sd k => Sys2Proof.Machine.execDrainEnd a sd k s
  | .cutWaitEnd a sd => Sys2Proof.Machine.execCutWaitEnd a sd s
  | .retestEnd a sd k => Sys2Proof.Machine.execRetestEnd a sd k s
  | .claimWaitEnd a sd => Sys2Proof.Machine.execClaimWaitEnd a sd s
  | .claimHoldTimerEnd a sd => Sys2Proof.Machine.execClaimHoldTimerEnd a sd s
  | .restTimerEnd a sd => Sys2Proof.Machine.execRestTimerEnd a sd s
  | .heardClaim a y l => Sys2Proof.Machine.execHeardClaim a y l s
  | .heardDefer a y b => Sys2Proof.Machine.execHeardDefer a y b s
  | .heardRelease a y l => Sys2Proof.Machine.execHeardRelease a y l s
  | .gapEnd a sd => Sys2Proof.Machine.execGapEnd a sd s
  | .slotEnd a sd o => Sys2Proof.Machine.execSlotEnd a sd o s
  | .dozeTimerEnd a sd => Sys2Proof.Machine.execDozeTimerEnd a sd s
  | .beamInputChange a sd bm br => Sys2Proof.Machine.execBeamInputChange a sd bm br s
  | .beamDebounceEnd a sd bm => Sys2Proof.Machine.execBeamDebounceEnd a sd bm s
  | .attemptStart a => Sys2Proof.Machine.execAttemptStart a s
  | .contentionLost a => Sys2Proof.Machine.execContentionLost a s
  | .transmitComplete a => Sys2Proof.Machine.execTransmitComplete a s
  | .badFrame a raw => Sys2Proof.Machine.execBadFrame a raw s
  | .heardSight a y b => Sys2Proof.Machine.execHeardSight a y b s
  | .heardJoin a y b => Sys2Proof.Machine.execHeardJoin a y b s
  | .heardDecide a y b => Sys2Proof.Machine.execHeardDecide a y b s
  | .heardQuery a y b => Sys2Proof.Machine.execHeardQuery a y b s
  | .heardReport a y b => Sys2Proof.Machine.execHeardReport a y b s
  | .solePatienceEnd a x => Sys2Proof.Machine.execSolePatienceEnd a x s
  | .patienceTimerEnd a x => Sys2Proof.Machine.execPatienceTimerEnd a x s
  | .directoryExpiry a x => Sys2Proof.Machine.execDirectoryExpiry a x s
  | .closeHoldEnd a x => Sys2Proof.Machine.execCloseHoldEnd a x s
  | .heardIssue a y xs => Sys2Proof.Machine.execHeardIssue a y xs s
  | .heardReturn a y xs => Sys2Proof.Machine.execHeardReturn a y xs s
  | .heardAnswer a y b => Sys2Proof.Machine.execHeardAnswer a y b s
  | .quietTimerEnd a x => Sys2Proof.Machine.execQuietTimerEnd a x s
  | .dwellReached a x => Sys2Proof.Machine.execDwellReached a x s
  | .holdTimerEnd a x => Sys2Proof.Machine.execHoldTimerEnd a x s
  | .hallLevelInputChange a v => Sys2Proof.Machine.execHallLevelInputChange a v s
  | .hallLevelDebounceEnd a => Sys2Proof.Machine.execHallLevelDebounceEnd a s
  | .lampHoldEnd a sd => Sys2Proof.Machine.execLampHoldEnd a sd s
  | .holderExpiry a sd x => Sys2Proof.Machine.execHolderExpiry a sd x s
  | .flashPhaseEnd a sd => Sys2Proof.Machine.execFlashPhaseEnd a sd s
  | .cadenceTimerEnd a => Sys2Proof.Machine.execCadenceTimerEnd a s
  | .heardPoll a y b => Sys2Proof.Machine.execHeardPoll a y b s
  | .heardClearHall a y => Sys2Proof.Machine.execHeardClearHall a y s
  | .sofStamp a => Sys2Proof.Machine.execSofStamp a s

end Sys2Proof.Machine
end

