-- ==== Sys2Proof/Machine/Step.lean ====
section
/-! DEFINITION. One step of the machine: the command at the front of the queue, or a millisecond of idling. -/

namespace Sys2Proof.Machine

/-- What passes in one idle step (DESIGN CHOICE, log 4). -/
def idleStep : Nat := ms 1

/-- Take the command at the front of the queue and run it on the state with the queue's rest. On an empty queue the station idles: up to
1 ms passes (log 4). -/
def step (s : State) : Host.Outcome State Fault Refusal :=
  match s.pending with
  | [] => .next (s.advance idleStep)
  | c :: cs => exec c { s with pending := cs }

/-- `s` with the command that a word spells at the front of its queue; unchanged where the word spells none. -/
def State.withFetchWord (s : State) (nbits w : Nat) : State :=
  match Sys2Proof.decodeTableWord nbits w with
  | some c => { s with pending := c :: s.pending }
  | none => s

end Sys2Proof.Machine
end

