-- ==== Sys2Proof/Safety.lean ====
section
/-! DEFINITION. What a sound state is: the limits that the manual states for the station's structures, one predicate for each. -/

namespace Sys2Proof.Machine

/-! ### The transmit queue -/

/-- A SIGHT holds at most 4 samples, a JOIN 1 to 4 (R76, R87, R98). -/
def QFrame.sized (f : QFrame) : Bool :=
  match f.payload with
  | .sight m => decide (m.samples.length ≤ frameSamples)
  | .join m => decide (1 ≤ m.samples.length) && decide (m.samples.length ≤ frameSamples)
  | .decision _ | .claim _ | .defer _ | .release _ | .query _ _ _ | .report => true

def QFrame.sightItem (f : QFrame) : Option Item :=
  match f.payload with
  | .sight m => some m.item
  | _ => none

def QFrame.decideItem (f : QFrame) : Option Item :=
  match f.payload with
  | .decision m => some m.item
  | _ => none

def LinePhase.isSending : LinePhase → Bool
  | .sending _ => true
  | .deaf | .idle _ | .receiving _ => false

/-- At most 8 frames, of which at most 6 are normal; no two SIGHTs and no two DECIDEs for one item; SIGHTs and JOINs of their sizes; at
most one frame under transmission, and none but while an attempt is in progress (R70, R74, R76). -/
def State.QueueSound (s : State) : Prop :=
  s.line.queue.length ≤ queueSize ∧ normalCount s.line.queue ≤ normalShare ∧
    (s.line.queue.filterMap QFrame.sightItem).Nodup ∧ (s.line.queue.filterMap QFrame.decideItem).Nodup ∧
    (∀ f ∈ s.line.queue, f.sized = true) ∧
    (s.line.queue.filter QFrame.underTx).length ≤ (if s.line.phase.isSending then 1 else 0)

/-- The frames in the queue that side `sd` offered with payload `p`. -/
def State.sideFrames (s : State) (sd : Side) (p : Payload) : List QFrame :=
  s.line.queue.filter fun f => f.owner == .side sd && f.payload == p

/-- The side's RELEASE is queued or waits (R43). -/
def State.releaseOut (s : State) (sd : Side) : Prop :=
  s.sideFrames sd (.release (s.lane sd)) ≠ [] ∨ (.release sd) ∈ s.line.waiting

/-- At most one CLAIM, one DEFER and one RELEASE of each side (R74), and what keeps it so: a side's frames name its lane; a frame that
waits is not queued as well; an end-lane side sends none (R45); a side whose CLAIM is queued or waits is ASKING with claim sent no, and the
claim wait runs only once it is sent (R34, R35); a RELEASE is out only after its hold, and waits only at a full queue (R43, R75), so that
none is out once a CLAIM is under transmission. -/
def State.ClaimFramesSound (s : State) : Prop :=
  ∀ sd,
    (∀ f ∈ s.line.queue, f.owner = .side sd →
      f.payload = .claim (s.lane sd) ∨ f.payload = .defer (s.lane sd) ∨ f.payload = .release (s.lane sd)) ∧
    (s.sideFrames sd (.claim (s.lane sd))).length ≤ 1 ∧ (s.sideFrames sd (.defer (s.lane sd))).length ≤ 1 ∧
    (s.sideFrames sd (.release (s.lane sd))).length ≤ 1 ∧
    ((.claim sd) ∈ s.line.waiting → s.sideFrames sd (.claim (s.lane sd)) = []) ∧
    ((.defer sd) ∈ s.line.waiting → s.sideFrames sd (.defer (s.lane sd)) = [] ∧ s.line.queue.length = queueSize) ∧
    ((.release sd) ∈ s.line.waiting → s.sideFrames sd (.release (s.lane sd)) = [] ∧ s.line.queue.length = queueSize) ∧
    (s.facesEnd sd = true → (∀ f ∈ s.line.queue, f.owner ≠ .side sd) ∧
      ∀ k ∈ s.line.waiting, k ≠ .claim sd ∧ k ≠ .defer sd ∧ k ≠ .release sd) ∧
    (s.sideFrames sd (.claim (s.lane sd)) ≠ [] ∨ (.claim sd) ∈ s.line.waiting →
      (s.claims.get sd).state = .asking ∧ (s.claims.get sd).sent = false) ∧
    ((s.claims.get sd).wait ≠ none → (s.claims.get sd).state = .asking ∧ (s.claims.get sd).sent = true) ∧
    (s.releaseOut sd → (s.claims.get sd).state = .free ∨
      ((s.claims.get sd).state = .asking ∧ (s.claims.get sd).sent = false) ∨
      ∃ cause, cause ≠ .closing ∧ (s.claims.get sd).state = .resting cause) ∧
    ((∃ f ∈ s.sideFrames sd (.claim (s.lane sd)), f.underTx = true) → ¬ s.releaseOut sd)

/-! ### Passage Table, Snoop Directory, Issue Notice Cache -/

/-- 48 positions, and a sample list of at most 16 entries in each record (R90, R93). -/
def State.TableBounded (s : State) : Prop :=
  s.table.length = tableSize ∧ ∀ r, some r ∈ s.table → r.samples.length ≤ listSize

/-- The items of the records that are not FREE, in position order. -/
def tableItems (t : List (Option Record)) : List Item := t.filterMap (Option.map Record.item)

/-- The items of the Snoop Directory. -/
def directoryItems (d : List DirEntry) : List Item := d.map DirEntry.item

/-- No two records carry the same item, at most 64 directory entries, no two for one item, and no item both in a record and in the
directory (R90, R92). -/
def State.ItemsApart (s : State) : Prop :=
  (tableItems s.table).Nodup ∧ s.directory.length ≤ directorySize ∧ (directoryItems s.directory).Nodup ∧
    ∀ x ∈ directoryItems s.directory, x ∉ tableItems s.table

/-- At most 512 cache entries, no two for one item, in order of age with the greatest first (R124). -/
def State.CacheSound (s : State) : Prop :=
  s.cache.length ≤ cacheSize ∧ (s.cache.map Notice.item).Nodup ∧ s.cache.Pairwise fun e f => f.age ≤ e.age

/-! ### Query slots -/

/-- A WAITING slot carries its tag, slot × 4 + sequence, and serves a HELD LEAD record, whose query slot field names it and whose position
it keeps; so no two serve one item. A record whose field names a slot is served by it. The slot-wait list names a record at most once, and
only HELD LEAD records without a slot (R130 to R132). -/
def State.QuerySlotsSound (s : State) : Prop :=
  (∀ k u, (s.queries.slots.get k).use = some u → u.tag = k.toNat * 4 + (s.queries.slots.get k).seq.toNat ∧
    ∃ r l p q e left, s.lead? u.item = some (r, l) ∧ l.slot = some k ∧ l.stage = .held p q e left ∧ u.position = s.positionOf u.item) ∧
  (∀ x r l k, s.lead? x = some (r, l) → l.slot = some k → ∃ u, (s.queries.slots.get k).use = some u ∧ u.item = x) ∧
  s.queries.wait.Nodup ∧
  ∀ x ∈ s.queries.wait, ∃ r l p q e left, s.lead? x = some (r, l) ∧ l.slot = none ∧ l.stage = .held p q e left

/-- What keeps a decided LEAD record decided: its final decision, once made, leaves it in OPEN, a final DECIDE it owes is that of a decided
record, and so is one it has queued; a DECIDE that is no repeat belongs to a LEAD record, or is under transmission with its removal held
(R80, R102, R104, R153). -/
def State.DecisionsKept (s : State) : Prop :=
  (∀ x r l, s.lead? x = some (r, l) → (l.final ≠ none → l.stage = .openStage) ∧
    ∀ d, l.owed = some d → d.verdict ∈ [.clear, .alarm, .inbound, .linger] → l.final ≠ none) ∧
  ∀ f ∈ s.line.queue, ∀ m x, f.payload = .decision m → m.again = false → f.owner = .record x → m.item = x ∧
    ((∃ r l, s.lead? x = some (r, l) ∧ (m.decision.verdict ∈ [.clear, .alarm, .inbound, .linger] → l.final ≠ none)) ∨
      (s.lead? x = none ∧ f.underTx = true ∧ f.asked = .remove))

/-! ### Counters and lamps -/

/-- Every counter is at most 65535 (R167). -/
def State.CountersBounded (s : State) : Prop := ∀ k, counterAt s.report.counters k ≤ 65535

/-- At most 4 holders on a lamp and no item twice; a DARK lamp has none, a FLASHING one has one (R160). -/
def Lamp.Sound (l : Lamp) : Prop :=
  l.holders.length ≤ holderLimit ∧ (l.holders.map Holder.item).Nodup ∧
    match l.state with
    | .dark => l.holders = []
    | .flashing _ _ => l.holders ≠ []
    | .steady _ => True

def State.LampsSound (s : State) : Prop := s.lamps.left.Sound ∧ s.lamps.right.Sound

/-! ### Fields and lanes -/

/-- On a side at most one coil is RAMPING or LIVE; while one is LIVE the live timer runs, while one is RAMPING the ramp timer does; and none
has been LIVE for more than 40 ms (R16, R21). -/
def CoilUnit.Sound (u : CoilUnit) : Prop :=
  (∀ j k, (u.coils.get j).state.energised = true → (u.coils.get k).state.energised = true → j = k) ∧
    (∀ k, (u.coils.get k).state = .live → u.live ≠ none) ∧ (∀ k, (u.coils.get k).state = .ramping → u.ramp ≠ none) ∧
    ∀ e, u.live = some e → e ≤ maxLiveTime

/-- A coil of a side facing an inner lane is RAMPING or LIVE only while that side's claim is HOLDING (R16). -/
def State.FieldsGuarded (s : State) : Prop :=
  ∀ sd, (s.coils.get sd).Sound ∧
    ∀ k, s.facesEnd sd = false → (s.coil sd k).state.energised = true → (s.claims.get sd).state = .holding

/-- Outside RUNNING the station stands still: start-up may be going on only outside RUNNING; and then clock and seconds count hold at
0, every block keeps its Full Reset values but for the stored Q, no counter has advanced, and the queue and the waiting list hold
nothing but a REPORT (R4, R5, R8, R14, R31, R47, R66, R139, R143, R166, R167). -/
def State.StillUnlessRunning (s : State) : Prop :=
  (s.sys.phase ≠ .ended → s.sys.run ≠ .running) ∧
    (s.sys.run ≠ .running →
      s.time.clock = 0 ∧ s.time.seconds = 0 ∧ s.time.secondTimer = none ∧
      (∀ sd, (∀ k, (s.coil sd k).state = .idle ∧ (s.coil sd k).faultMark = false ∧ (s.coil sd k).drain = none ∧
          (s.coil sd k).retest = none) ∧
        (s.coils.get sd).ramp = none ∧ (s.coils.get sd).live = none ∧ (s.coils.get sd).cutWait = none ∧
        s.claims.get sd = Claim.reset ∧ s.sweeps.get sd = Sweep.reset ∧ s.lamps.get sd = Lamp.reset) ∧
      (∀ e ∈ s.table, e = none) ∧ s.directory = [] ∧ s.cache = [] ∧ s.queries = Queries.reset ∧
      s.hall = ⟨0, none⟩ ∧ s.sounder = Sounder.reset ∧ s.report.counters = Counters.zero ∧
      (∀ f ∈ s.line.queue, f.payload = .report) ∧ ∀ k ∈ s.line.waiting, k = .report)

/-! ### Conditions that statements share -/

/-- The station in RUNNING is at the end of a frame of another K16 of the row, whose SOF stamp it holds (R82 to R86). -/
def State.HearsK16 (s : State) (sender : Address) (stamp : Clock) : Prop :=
  s.sys.run = .running ∧ s.line.phase = .receiving stamp ∧ sender.toNat < s.sys.cfg.n ∧ sender.toNat ≠ s.sys.station.toNat

/-- The station in RUNNING is at the end of a frame of a desk (R83). -/
def State.HearsDesk (s : State) (sender : Address) (stamp : Clock) : Prop :=
  s.sys.run = .running ∧ s.line.phase = .receiving stamp ∧ 16 ≤ sender.toNat

/-- A normal offer finds a free position (R75 case 4). -/
def State.NormalRoom (s : State) : Prop := s.line.queue.length < queueSize ∧ normalCount s.line.queue < normalShare

/-- The station's attempt is at its frame's end, or at a bit, with frame `f` under transmission between `before` and `behind`. -/
def State.Sends (s : State) (a : Attempt) (before : List QFrame) (f : QFrame) (behind : List QFrame) : Prop :=
  s.line.phase = .sending a ∧ s.line.queue = before ++ f :: behind ∧ (∀ g ∈ before, g.underTx = false) ∧ f.underTx = true

/-- The DECIDE of a record that carries `d`, not a repeat, is queued, or waits as the one that the LEAD fields `l` owe (R153, R155, R156). -/
def State.DecideOffered (s : State) (x : Item) (d : Decision) (l : Lead) : Prop :=
  (∃ f ∈ s.line.queue, f.payload = .decision ⟨x, d, false⟩ ∧ f.owner = .record x) ∨
    ((.decision x) ∈ s.line.waiting ∧ l.owed = some d)

/-- A SIGHT for the item is queued, or waits (R97, R102). -/
def State.SightOffered (s : State) (x : Item) : Prop :=
  (∃ f ∈ s.line.queue, ∃ m, f.payload = .sight m ∧ m.item = x) ∨ (.sight x) ∈ s.line.waiting

/-- The QUERY of a slot is queued, or waits (R133). -/
def State.QueryOffered (s : State) (k : BitVec 2) (tag : Nat) (x : Item) : Prop :=
  (∃ f ∈ s.line.queue, f.payload = .query s.sys.cfg.registry tag x ∧ f.owner = .slot k) ∨ (.query k) ∈ s.line.waiting

/-- The command that is the end of a frame with a given body. -/
def frameCommand (after : Nat) (sender : Address) : Body → Instr
  | .deferBody b => .heardDefer after sender b
  | .releaseBody lane => .heardRelease after sender lane
  | .decideBody b => .heardDecide after sender b
  | .claimBody lane => .heardClaim after sender lane
  | .sightBody b => .heardSight after sender b
  | .joinBody b => .heardJoin after sender b
  | .queryBody b => .heardQuery after sender b
  | .reportBody b => .heardReport after sender b
  | .issueBody items => .heardIssue after sender items
  | .returnBody items => .heardReturn after sender items
  | .answerBody b => .heardAnswer after sender b
  | .pollBody b => .heardPoll after sender b
  | .clearHallBody => .heardClearHall after sender

end Sys2Proof.Machine
end

