-- ==== Sys2Proof/Certificates/Slice0/Obligations.lean ====
section
/-! DEFINITION. The statements for the provers. In each, `v` is the state at the command's moment: `s` with the time `a` passed since the
command before it (log 1 and 2). -/

section
open Sys2Proof Sys2Proof.Machine

/-! ### The queue of commands and the passing of time -/

/-- A step takes the command at the front of the queue and runs it on the state with the queue's rest; on an empty queue up to 1 ms
passes (the model's choice, log 4). -/
def Obligations.StepRunsTheFrontCommand : Prop :=
  (∀ (c : Instr) (cs : List Instr) (s : State), step { s with pending := c :: cs } = exec c { s with pending := cs }) ∧
  ∀ s : State, step { s with pending := [] } = .next ({ s with pending := [] }.advance 1000)

/-- Every command answers a next state, in every state, and leaves the commands that wait as they were. That a command which is no event
of the state answers one too is the model's choice (log 3, 15, 16), and so is that FULL_RESET keeps the commands that wait (log 9). -/
def Obligations.EveryCommandCompletesAndKeepsTheQueue : Prop :=
  ∀ (c : Instr) (s : State), ∃ t, exec c s = .next t ∧ t.pending = s.pending

/-- The time that passes before a command is the time asked for, or ends at the first moment at which an expiry is due: no due moment
is passed (the model's choice, log 2). In RUNNING the clock then advances by 1 every millisecond and wraps from 65535 to 0, outside
RUNNING it holds (R4). -/
def Obligations.TimePassesNoDueMomentAndTheClockCounts : Prop :=
  (∀ (s : State) (us : Nat), ∃ d, s.advance us = s.elapse d ∧ d ≤ us ∧ (∀ x ∈ s.deadlines, d ≤ x) ∧
    (d = us ∨ d ∈ s.deadlines)) ∧
  ∀ (s : State) (d : Nat),
    (s.sys.run = .running → s.time.subMs < 1000 →
      (s.elapse d).time.subMs < 1000 ∧
      (s.elapse d).time.clock.toNat * 1000 + (s.elapse d).time.subMs =
        (s.time.clock.toNat * 1000 + s.time.subMs + d) % 65536000) ∧
    (s.sys.run ≠ .running → (s.elapse d).time = s.time)

/-! ### Start-up (chapter 1) -/

/-- Full Reset in any state: the values the manual gives each block. That the pins and the waiting commands are kept is the model's
choice (log 9). -/
def Obligations.FullResetSetsEveryBlock : Prop :=
  ∀ (s : State) (a : Nat), ∃ t, exec (.fullReset a) s = .next t ∧
    t.sys.run = .starting ∧ t.time.clock = 0 ∧ t.time.seconds = 0 ∧ t.time.secondTimer = none ∧
    (∀ sd k, (t.coil sd k).state = .idle ∧ (t.coil sd k).faultMark = false ∧ (t.coil sd k).drain = none ∧
      (t.coil sd k).retest = none) ∧
    (∀ sd, (t.coils.get sd).ramp = none ∧ (t.coils.get sd).live = none ∧ (t.coils.get sd).cutWait = none ∧
      t.claims.get sd = { state := .free, sent := false, clash := false, deferredPartner := false, request := false,
                          wait := none, hold := none, rest := none } ∧
      (t.sweeps.get sd).state = .waiting ∧ (t.sweeps.get sd).mode = .active ∧ (t.sweeps.get sd).c0 = 0 ∧
      (t.sweeps.get sd).priority = false ∧ (t.sweeps.get sd).full = false ∧ (t.sweeps.get sd).list = [] ∧
      (t.sweeps.get sd).gap = none ∧ (t.sweeps.get sd).doze = none ∧
      (∀ bm, (t.sweeps.get sd).beams.get bm = ⟨false, none⟩) ∧ t.lamps.get sd = ⟨.dark, []⟩) ∧
    t.line.phase = .deaf ∧ t.line.queue = [] ∧ t.line.waiting = [] ∧ t.line.backoff = false ∧
    (∀ x, t.record? x = none) ∧ t.directory = [] ∧ t.cache = [] ∧
    (∀ k, t.queries.slots.get k = ⟨0, none⟩) ∧ t.queries.wait = [] ∧ t.hall = ⟨0, none⟩ ∧
    t.sounder = ⟨.silent, 0, false⟩ ∧ (∀ k, counterAt t.report.counters k = 0) ∧ t.report.request = .none ∧
    t.report.clear = false ∧ t.pins = s.pins

/-- R1, R8, R13: the straps are read once; a failed attempt is followed by a wait of 10 ms and another attempt, at most three in all, the
third giving CONFIG FAULT; after start-up the line is taken up at an idle moment. -/
def Obligations.StartUpReadsInAtMostThreeAttempts : Prop :=
  ∀ (s v : State) (a : Nat), v = s.advance a →
    (∀ straps, v.sys.phase = .resetHeld →
      exec (.startUp a straps) s = .next { v with sys := { v.sys with station := straps, phase := .reading 1 } }) ∧
    (∀ n, v.sys.phase = .reading n → n < 3 →
      exec (.readAttemptFail a) s = .next { v with sys := { v.sys with phase := .retryWait n 10000 } }) ∧
    (v.sys.phase = .reading 3 →
      exec (.readAttemptFail a) s = .next { v with sys := { v.sys with run := .configFault, phase := .ended } }) ∧
    (∀ n, v.sys.phase = .retryWait n 0 →
      exec (.retryWaitEnd a) s = .next { v with sys := { v.sys with phase := .reading (n + 1) } }) ∧
    (v.sys.run ≠ .starting → v.line.phase = .deaf →
      exec (.startupIdleGap a) s = .next { v with line := { v.line with phase := .idle 0 } })

/-- R9: the sum of bytes 0 to 95 modulo 65536 against the check in bytes 96 and 97; a wrong check gives CONFIG FAULT with no value taken,
a right one takes the values and applies the structural checks of R12; an erased memory gives a wrong check. -/
def Obligations.ImageSumDecidesTheRead : Prop :=
  ∀ (s v : State) (a : Nat) (n : Nat) (image : List Byte), v = s.advance a → v.sys.phase = .reading n →
    (image.length = 98 →
      ((image.take 96).map BitVec.toNat).sum % 65536 ≠ (image.getD 96 0).toNat * 256 + (image.getD 97 0).toNat →
      exec (.readAttemptComplete a image) s =
        .next { v with sys := { v.sys with run := .configFault, phase := .ended } }) ∧
    (image.length = 98 →
      ((image.take 96).map BitVec.toNat).sum % 65536 = (image.getD 96 0).toNat * 256 + (image.getD 97 0).toNat →
      ∀ c, c = configFrom image →
        (¬ (2 ≤ c.n ∧ c.n ≤ 16 ∧ v.sys.station.toNat < c.n ∧ c.driveMin < c.driveMax) →
          exec (.readAttemptComplete a image) s =
            .next { v with sys := { v.sys with run := .configFault, phase := .ended, cfg := c } }) ∧
        (2 ≤ c.n → c.n ≤ 16 → v.sys.station.toNat < c.n → c.driveMin < c.driveMax →
          ∃ t, exec (.readAttemptComplete a image) s = .next t ∧
            t.sys = { run := .running, phase := .ended, station := v.sys.station, cfg := c })) ∧
    (((List.replicate 96 (255 : Byte)).map BitVec.toNat).sum % 65536 = 24480 ∧
      exec (.readAttemptComplete a (List.replicate 98 255)) s =
        .next { v with sys := { v.sys with run := .configFault, phase := .ended } })

/-- R12, R31, R66, R143: entry to RUNNING from the Full Reset values. Clock, seconds count and their ticks start; every coil takes the
initial Q; the hall level's timer starts; each fitted side starts its doze and debouncer timers and begins claiming at once, an end-lane
side holding and ramping coil 0, an inner-lane side asking with its CLAIM queued; an unfitted side stands as it was. -/
def Obligations.EntryToRunningStartsEveryBlock : Prop :=
  ∀ (s v : State) (a : Nat) (n : Nat) (image : List Byte) (c : Config), v = s.advance a → v.sys.phase = .reading n →
    image.length = 98 → imageSum image = imageCheck image → c = configFrom image → checksPass c v.sys.station = true →
    v.coils = State.reset.coils → v.claims = State.reset.claims → v.sweeps = State.reset.sweeps → v.line = State.reset.line →
    ∃ t, exec (.readAttemptComplete a image) s = .next t ∧ t.sys.run = .running ∧ t.sys.cfg = c ∧
      t.time = { clock := 0, subMs := 0, seconds := 0, secondTimer := some 1000000 } ∧
      (∀ sd k, (t.coil sd k).q = c.initialQ) ∧ t.hall = { level := v.hall.level, timer := some 20000 } ∧
      (∀ sd, fitted c sd = true →
        (t.sweeps.get sd).doze = some (c.dozeDelay * 1000000) ∧ (t.sweeps.get sd).mode = .active ∧
        (∀ bm, (t.sweeps.get sd).beams.get bm = ⟨false, some 5000⟩) ∧
        (t.facesEnd sd = true → (t.claims.get sd).state = .holding ∧ (t.claims.get sd).hold = some 60000 ∧
          (t.sweeps.get sd).state = .sweeping ∧ (t.coil sd 0).state = .ramping ∧
          (t.coils.get sd).ramp = some (c.rampTime * 1000)) ∧
        (t.facesEnd sd = false → (t.claims.get sd).state = .asking ∧ (t.claims.get sd).sent = false ∧
          (t.sweeps.get sd).state = .claiming ∧ ∃ f ∈ t.line.queue, f.payload = .claim (t.lane sd) ∧ f.owner = .side sd)) ∧
      (∀ sd, fitted c sd = false → t.claims.get sd = v.claims.get sd ∧ t.sweeps.get sd = v.sweeps.get sd) ∧
      t.lamps = v.lamps ∧ t.sounder = v.sounder ∧ t.directory = v.directory ∧ t.cache = v.cache ∧ t.queries = v.queries

/-- R10, R11, R89 and the table of section 1.6: whatever bytes an image holds, every value in force lies in its range or among its listed
values; where every presence mark is clear every value with a default has it; a set mark takes its field, clamped to the range, or as the
nearest listed value, the greater of two equally near. The class entries are read bit by bit. -/
def Obligations.EveryImageGivesValuesInRange : Prop :=
  ∀ (image : List Byte) (c : Config), c = configFrom image →
    (16 ≤ c.registry ∧ c.registry ≤ 31 ∧ c.noiseFloor ≤ 63 ∧ c.margin ≤ 1020 ∧ 4 ∣ c.margin ∧ 1 ≤ c.threshold ∧
      c.threshold ≤ 255 ∧ 40 ≤ c.quiet ∧ c.quiet ≤ 500 ∧ 1000 ≤ c.maxDwell ∧ c.maxDwell ≤ 4000 ∧ 100 ∣ c.maxDwell ∧
      500 ≤ c.closeHold ∧ c.closeHold ≤ 5000 ∧ 100 ∣ c.closeHold ∧ 1 ≤ c.rampTime ∧ c.rampTime ≤ 8 ∧ 1 ≤ c.drainTime ∧
      c.drainTime ≤ 4 ∧ c.driveMin ≤ 255 ∧ 1 ≤ c.driveMax ∧ c.driveMax ≤ 255 ∧ c.initialQ ∈ [1, 2, 4, 8, 16] ∧
      c.repeatLimit ≤ 3 ∧ c.sweepLength ∈ [1, 2, 4] ∧ 2 ≤ c.activeGap ∧ c.activeGap ≤ 50 ∧ 10 ≤ c.dozeDelay ∧
      c.dozeDelay ≤ 255 ∧ 1 ≤ c.lifetime ∧ c.lifetime ≤ 240 ∧ 1 ≤ c.lampHold ∧ c.lampHold ≤ 30 ∧ 10 ≤ c.onTime ∧
      c.onTime ≤ 2550 ∧ 10 ∣ c.onTime ∧ 10 ≤ c.offTime ∧ c.offTime ≤ 2550 ∧ 10 ∣ c.offTime ∧ 1 ≤ c.soundRepeats ∧
      c.soundRepeats ≤ 15 ∧ 1 ≤ c.classLimit ∧ c.classLimit ≤ 32 ∧ c.classes.length = 32) ∧
    ((∀ k, k < 24 → markSet image k = false) →
      c = { n := (image.getD 0 0).toNat, fittedL := true, fittedR := true, registry := 31, noiseFloor := 24, margin := 96,
            threshold := 40, quiet := 150, maxDwell := 3000, closeHold := 2000, rampTime := 2, drainTime := 1, driveMin := 96,
            driveMax := 224, initialQ := 4, repeatLimit := 1, sweepLength := 4, order := .interleaved, activeGap := 10,
            dozeDelay := 30, lifetime := 120, lampHold := 5, onTime := 300, offTime := 200, soundRepeats := 4,
            classLimit := c.classLimit, classes := c.classes }) ∧
    ∀ (b : Nat → Nat) (mark : Nat → Bool) (val : Nat → Nat → Nat → Nat → Nat → Nat) (pick : List Nat → Nat → Nat → Prop),
      b = (fun k => (image.getD k 0).toNat) → mark = (fun k => (image.getD (1 + k / 8) 0).getLsbD (k % 8)) →
      val = (fun k dflt lo hi field => if mark k then max lo (min field hi) else dflt) →
      pick = (fun values field q => q ∈ values ∧ ∀ x ∈ values, max field q - min field q < max field x - min field x ∨
        max field q - min field q = max field x - min field x ∧ x ≤ q) →
      c.n = b 0 ∧ (c.fittedL = true ↔ val 0 1 0 1 (b 4) = 1) ∧ (c.fittedR = true ↔ val 1 1 0 1 (b 5) = 1) ∧
      c.registry = val 2 31 16 31 (b 6) ∧ c.noiseFloor = val 3 24 0 63 (b 7) ∧ c.margin = 4 * val 4 24 0 255 (b 8) ∧
      c.threshold = val 5 40 1 255 (b 9) ∧ c.quiet = val 6 150 40 500 (256 * b 10 + b 11) ∧
      c.maxDwell = 100 * val 7 30 10 40 (b 12) ∧ c.closeHold = 100 * val 8 20 5 50 (b 13) ∧ c.rampTime = val 9 2 1 8 (b 14) ∧
      c.drainTime = val 10 1 1 4 (b 15) ∧ c.driveMin = val 11 96 0 255 (b 16) ∧ c.driveMax = val 12 224 1 255 (b 17) ∧
      (mark 13 = true → pick [1, 2, 4, 8, 16] (b 18) c.initialQ) ∧ c.repeatLimit = val 14 1 0 3 (b 19) ∧
      (mark 15 = true → pick [1, 2, 4] (b 20) c.sweepLength) ∧ (c.order = .interleaved ↔ val 16 1 0 1 (b 21) = 1) ∧
      c.activeGap = val 17 10 2 50 (b 22) ∧ c.dozeDelay = val 18 30 10 255 (b 23) ∧ c.lifetime = val 19 120 1 240 (b 24) ∧
      c.lampHold = val 20 5 1 30 (b 25) ∧ c.onTime = 10 * val 21 30 1 255 (b 26) ∧ c.offTime = 10 * val 22 20 1 255 (b 27) ∧
      c.soundRepeats = val 23 4 1 15 (b 28) ∧ c.classLimit = max 1 (min (b 29) 32) ∧
      ∀ k, k < 32 → ∃ e, c.classes[k]? = some e ∧ e.present = (image.getD (32 + 2 * k) 0).getLsbD 7 ∧
        e.kind = [ClassKind.lending, .reference, .openClass, .restricted].getD (b (32 + 2 * k) / 32 % 4) .lending ∧
        e.level.toNat = b (32 + 2 * k) / 8 % 4 ∧
        (e.policy = .clear ↔ (image.getD (32 + 2 * k) 0).getLsbD 2 = true) ∧
        e.provisionalEnable = (image.getD (32 + 2 * k) 0).getLsbD 1 ∧
        (e.granularity = .coarse ↔ (image.getD (32 + 2 * k) 0).getLsbD 0 = true) ∧ e.holdValue = image.getD (33 + 2 * k) 0

/-! ### Coils (chapter 2) -/

/-- R18 to R21, R42, R53, R54, R56, R59, R60: the ramp end of the side's only energised coil, by the level read. Low field faults the coil
and starts its retest timer and the cut wait; the sweep moves on to its next position, where it waits for the cut wait, or ends after an
exhausted hold. A field clash drains the coil, ends the sweep in hand and a hold with the clash mark. A good ramp makes it LIVE and, where
the guard admits it, starts a round of its stored Q and changes nothing else. A first round that the hold check refuses is not started: the
coil is drained, its stored Q as it was, and the sweep and the hold end, also where the live check refuses it as well (the model's choice,
log 19); one that the live check alone refuses has the coil drained and the sweep move on. After an exhausted hold on an end lane a good
ramp is drained at once with no round, and the sweep ends. -/
def Obligations.RampEndJudgesTheFieldLevel : Prop :=
  ∀ (s v : State) (a : Nat) (sd : Side) (k : CoilNumber) (level : Byte) (u drained : CoilUnit) (w ended : Sweep) (c : Claim),
    v = s.advance a → u = v.coils.get sd → w = v.sweeps.get sd → c = v.claims.get sd → u.ramp = some 0 →
    (u.coils.get k).state = .ramping → (∀ j, (u.coils.get j).state.energised = true → j = k) →
    drained = { u with
      coils := u.coils.set k { u.coils.get k with
        state := .draining, faultMark := false, drain := some (v.sys.cfg.drainTime * 1000) }
      ramp := none, live := none } →
    ended = { w with
      state := .releasing, c0 := w.c0 + 1, full := false, list := [], position := 0, repeats := 0, gap := none, wait := .none
      exhausted := false, round := none } →
    (level.toNat < v.sys.cfg.driveMin →
      ∃ t, exec (.rampEnd a sd level) s = .next t ∧
        t.coil sd k = { u.coils.get k with state := .faulted, faultMark := true, retest := some 10000000 } ∧
        (t.coils.get sd).cutWait = some (v.sys.cfg.drainTime * 1000) ∧ (t.coils.get sd).ramp = none ∧
        (w.state = .sweeping → w.exhausted = true → t.sweeps.get sd = ended ∧ t.claims.get sd = c) ∧
        ∀ j, w.state = .sweeping → w.exhausted = false → w.list[w.position + 1]? = some j → j ≠ k → (u.coils.get j).state = .idle →
          (v.facesEnd sd = true ∨ ∃ left, c.hold = some left ∧
            (60000 - left) + v.sys.cfg.rampTime * 1000 + (u.coils.get j).q * 500 + v.sys.cfg.drainTime * 1000 ≤ 60000) →
          t.claims.get sd = c ∧ t.sweeps.get sd = { w with position := w.position + 1, wait := .cutWait }) ∧
    (v.sys.cfg.driveMin ≤ level.toNat → v.sys.cfg.driveMax < level.toNat →
      ∃ t, exec (.rampEnd a sd level) s = .next t ∧
        t.coil sd k = { u.coils.get k with state := .draining, drain := some (v.sys.cfg.drainTime * 1000) } ∧
        (t.coils.get sd).ramp = none ∧ (w.state = .sweeping → (t.sweeps.get sd).state = .releasing) ∧
        (c.state = .holding ∨ c.state = .resting .closing →
          t.claims.get sd = { c with state := .resting .closing, clash := true })) ∧
    (v.sys.cfg.driveMin ≤ level.toNat → level.toNat ≤ v.sys.cfg.driveMax → w.state = .sweeping → w.exhausted = false →
      (u.coils.get k).q * 500 ≤ 40000 →
      (v.facesEnd sd = true ∨ ∃ left, c.hold = some left ∧
        (60000 - left) + (u.coils.get k).q * 500 + v.sys.cfg.drainTime * 1000 ≤ 60000) →
      exec (.rampEnd a sd level) s = .next ((v.setCoils sd { u with
          coils := u.coils.set k { u.coils.get k with state := .live, faultMark := false }, ramp := none, live := some 0 }).setSweep
        sd { w with
          repeats := 0
          round := some { q := (u.coils.get k).q, ended := 0, empties := 0, singles := 0, collided := 0, slot := 500
                          stopping := false, cut := false } })) ∧
    (∀ left, v.sys.cfg.driveMin ≤ level.toNat → level.toNat ≤ v.sys.cfg.driveMax → w.state = .sweeping → w.exhausted = false →
      v.facesEnd sd = false → c.state = .holding → c.hold = some left →
      60000 < (60000 - left) + (u.coils.get k).q * 500 + v.sys.cfg.drainTime * 1000 →
      exec (.rampEnd a sd level) s =
        .next (((v.setCoils sd drained).setClaim sd { c with state := .resting .closing }).setSweep sd ended)) ∧
    (∀ j, v.sys.cfg.driveMin ≤ level.toNat → level.toNat ≤ v.sys.cfg.driveMax → w.state = .sweeping → w.exhausted = false →
      40000 < (u.coils.get k).q * 500 →
      (v.facesEnd sd = true ∨ c.state = .holding ∧ ∃ left, c.hold = some left ∧
        (60000 - left) + (u.coils.get k).q * 500 + v.sys.cfg.drainTime * 1000 ≤ 60000 ∧
        (60000 - left) + v.sys.cfg.rampTime * 1000 + (u.coils.get j).q * 500 + v.sys.cfg.drainTime * 1000 ≤ 60000) →
      w.list[w.position + 1]? = some j → j ≠ k → (u.coils.get j).state = .idle → u.cutWait = none →
      exec (.rampEnd a sd level) s = .next ((v.setCoils sd { drained with
          coils := drained.coils.set j { u.coils.get j with state := .ramping }, ramp := some (v.sys.cfg.rampTime * 1000) }).setSweep
        sd { w with position := w.position + 1, wait := .none, round := none })) ∧
    (v.sys.cfg.driveMin ≤ level.toNat → level.toNat ≤ v.sys.cfg.driveMax → w.state = .sweeping → w.exhausted = true →
      v.facesEnd sd = true → exec (.rampEnd a sd level) s = .next ((v.setCoils sd drained).setSweep sd ended))

/-- R21 and R22: at 40 ms a LIVE coil is drained; a round cut within a slot ends without that slot's outcome (log 20), and one whose slot
ends at this moment waits for that end. A drive loss on a LIVE coil faults it, starts its retest timer and the cut wait and ends the
round; on any other coil it is ignored, whatever the other coils of the side do. -/
def Obligations.LivePeriodEndsAtLimitOrDriveLoss : Prop :=
  ∀ (s v : State) (a : Nat) (sd : Side) (k : CoilNumber) (u : CoilUnit), v = s.advance a → u = v.coils.get sd →
    ((u.coils.get k).state ≠ .live → exec (.driveLoss a sd k) s = .next v) ∧
    ((∀ j, (u.coils.get j).state.energised = true → j = k) → (u.coils.get k).state = .live →
      (∀ e, u.live = some e → 40000 ≤ e →
        (∃ t, exec (.liveLimit a sd) s = .next t ∧
          t.coil sd k = { u.coils.get k with state := .draining, drain := some (v.sys.cfg.drainTime * 1000) } ∧
          (t.coils.get sd).live = none ∧
          (∀ r, (v.sweeps.get sd).round = some r → r.slot ≠ 0 → (t.sweeps.get sd).round = none)) ∧
        (∀ r, (v.sweeps.get sd).round = some r → r.slot = 0 →
          exec (.liveLimit a sd) s = .next ((v.setCoils sd { u with
              coils := u.coils.set k { u.coils.get k with state := .draining, drain := some (v.sys.cfg.drainTime * 1000) }
              live := none }).setSweep sd
            { v.sweeps.get sd with round := some { r with cut := true } }))) ∧
      ∃ t, exec (.driveLoss a sd k) s = .next t ∧
        t.coil sd k = { u.coils.get k with state := .faulted, faultMark := true, retest := some 10000000 } ∧
        (t.coils.get sd).live = none ∧ (t.coils.get sd).cutWait = some (v.sys.cfg.drainTime * 1000) ∧
        (t.sweeps.get sd).round = none)

/-- R24, R25, R27: the expiry of a drain timer, of a cut wait and of a retest timer, where the side keeps a field and its Scheduler does
not wait for the expiry; nothing else changes. R53: where the Scheduler waits at a position for the end of its coil's drain, or of the
cut wait, it reaches the position afresh at that moment: the coil is ramped, or waited for again where the other of the two is still
running, or, where the ramp check now fails, the hold is exhausted and the sweep ends; a side that is not at rest then goes to CLOSING. -/
def Obligations.DrainCutWaitAndRetestExpire : Prop :=
  ∀ (s v : State) (a : Nat) (sd : Side) (k : CoilNumber) (u : CoilUnit), v = s.advance a → u = v.coils.get sd →
    (∀ j, j ≠ k → (u.coils.get j).state.hasField = true → (v.sweeps.get sd).wait ≠ .drain →
      (u.coils.get k).drain = some 0 → (u.coils.get k).state = .draining →
      exec (.drainEnd a sd k) s = .next (v.setCoils sd { u with
        coils := u.coils.set k { u.coils.get k with state := .idle, drain := none } })) ∧
    (∀ j, (u.coils.get j).state.hasField = true → (v.sweeps.get sd).wait ≠ .cutWait → u.cutWait = some 0 →
      exec (.cutWaitEnd a sd) s = .next (v.setCoils sd { u with cutWait := none })) ∧
    ((u.coils.get k).retest = some 0 → (u.coils.get k).state = .faulted →
      exec (.retestEnd a sd k) s = .next (v.setCoils sd { u with
        coils := u.coils.set k { u.coils.get k with state := .idle, retest := none } })) ∧
    ((u.coils.get k).retest = some 0 → (u.coils.get k).state ≠ .faulted →
      exec (.retestEnd a sd k) s = .next (v.setCoils sd { u with
        coils := u.coils.set k { u.coils.get k with retest := none } })) ∧
    ∀ (c : Claim) (w : Sweep) (u' : CoilUnit) (ev : Instr), c = v.claims.get sd → w = v.sweeps.get sd → c.state = .holding →
      w.state = .sweeping → w.list[w.position]? = some k → (∀ j, (u.coils.get j).state.energised = false) →
      (ev = .drainEnd a sd k ∧ w.wait = .drain ∧ (u.coils.get k).drain = some 0 ∧ (u.coils.get k).state = .draining ∧
          u' = { u with coils := u.coils.set k { u.coils.get k with state := .idle, drain := none } } ∨
        ev = .cutWaitEnd a sd ∧ w.wait = .cutWait ∧ u.cutWait = some 0 ∧ u' = { u with cutWait := none }) →
      ((v.facesEnd sd = true ∨ ∃ left, c.hold = some left ∧
          (60000 - left) + v.sys.cfg.rampTime * 1000 + (u.coils.get k).q * 500 + v.sys.cfg.drainTime * 1000 ≤ 60000) →
        ((u'.coils.get k).state = .idle → u'.cutWait = none →
          exec ev s = .next ((v.setCoils sd { u' with
              coils := u'.coils.set k { u'.coils.get k with state := .ramping }, ramp := some (v.sys.cfg.rampTime * 1000) }).setSweep sd
            { w with wait := .none })) ∧
        ((u'.coils.get k).state = .draining → exec ev s = .next ((v.setCoils sd u').setSweep sd { w with wait := .drain })) ∧
        ((u'.coils.get k).state = .idle → u'.cutWait ≠ none →
          exec ev s = .next ((v.setCoils sd u').setSweep sd { w with wait := .cutWait }))) ∧
      ∀ left, v.facesEnd sd = false → c.hold = some left → (u'.coils.get k).state ≠ .faulted →
        60000 < (60000 - left) + v.sys.cfg.rampTime * 1000 + (u.coils.get k).q * 500 + v.sys.cfg.drainTime * 1000 →
        (u'.cutWait ≠ none ∨ ∃ j, (u'.coils.get j).state.hasField = true) →
        exec ev s = .next (((v.setCoils sd u').setClaim sd { c with state := .resting .closing }).setSweep sd
          { w with
            state := .releasing, c0 := w.c0 + 1, full := false, list := [], position := 0, repeats := 0, gap := none, wait := .none
            exhausted := false, round := none })

/-- R24 to R26, R34, R43, R45, R59, R64: the end of a drain, or of a cut wait, that brings a side in CLOSING to rest. An inner-lane side
offers its RELEASE, takes its next state from its marks and clears them, its hold timer stopped; a pending request, or a priority mark of
the Scheduler, has a FREE side ask again at once. An end-lane side rests for its back-off or is FREE without a frame, and holds again at
once where a request is pending; that the hold timer of an end-lane side stops at this moment is the model's deduction (log 24). The
Scheduler in RELEASING goes to WAITING and starts its gap. -/
def Obligations.RestInClosingGivesUpTheLane : Prop :=
  ∀ (s v : State) (a : Nat) (sd : Side) (u u' : CoilUnit) (c : Claim) (w : Sweep) (ev : Instr), v = s.advance a →
    u = v.coils.get sd → c = v.claims.get sd → w = v.sweeps.get sd →
    ((∃ k, ev = .drainEnd a sd k ∧ (u.coils.get k).drain = some 0 ∧ (u.coils.get k).state = .draining ∧
        (∀ j, j ≠ k → (u.coils.get j).state.hasField = false) ∧ u.cutWait = none ∧
        u' = { u with coils := u.coils.set k { u.coils.get k with state := .idle, drain := none } }) ∨
      (ev = .cutWaitEnd a sd ∧ u.cutWait = some 0 ∧ (∀ j, (u.coils.get j).state.hasField = false) ∧
        u' = { u with cutWait := none })) →
    c.state = .resting .closing →
    (v.facesEnd sd = false → (∀ f ∈ v.line.queue, f.payload ≠ .release (v.lane sd)) →
      (c.request = false ∨ c.clash = true ∨ c.deferredPartner = true → w.state = .releasing → w.priority = false →
        v.line.queue.length < 8 →
        exec ev s = .next (((((v.setCoils sd u').setClaim sd
            { c with
              state := if c.clash then .resting .backOff else if c.deferredPartner then .resting .gap else .free
              clash := false, deferredPartner := false, hold := none, rest := none }).setSweep sd
            { w with state := .waiting, gap := some (gapOf v.sys.cfg w.mode) }).setQueue
              (v.line.queue ++ [{ payload := .release (v.lane sd), owner := .side sd, losses := 0, underTx := false, asked := .none }])).setWaiting
            (v.line.waiting.filter fun e => e ≠ .defer sd && e ≠ .release sd))) ∧
      (∀ w', c.clash = false → c.deferredPartner = false → v.line.queue.length < 7 → normalCount v.line.queue < 6 →
        (c.request = true ∧ w.state = .claiming ∧ w' = w ∨
          c.request = false ∧ w.state = .releasing ∧ w.priority = true ∧ (∃ k, (u'.coils.get k).state ≠ .faulted) ∧
            w' = { w with state := .claiming, gap := none }) →
        exec ev s = .next (((((v.setCoils sd u').setClaim sd
            { c with
              state := .asking, sent := false, clash := false, deferredPartner := false, request := true, hold := none
              rest := none }).setSweep sd w').setQueue
            (v.line.queue ++ [
              { payload := .release (v.lane sd), owner := .side sd, losses := 0, underTx := false, asked := .none },
              { payload := .claim (v.lane sd), owner := .side sd, losses := 0, underTx := false, asked := .none }])).setWaiting
            (v.line.waiting.filter fun e => e ≠ .defer sd && e ≠ .release sd && e ≠ .claim sd)))) ∧
    (v.facesEnd sd = true → w.state = .releasing → w.priority = false → (c.clash = true ∨ c.request = false) →
      exec ev s = .next (((v.setCoils sd u').setClaim sd
          { c with
            state := if c.clash then .resting .backOff else .free
            clash := false, hold := none, rest := if c.clash then some ((v.sys.station.toNat + 1) * 5000) else none }).setSweep sd
        { w with state := .waiting, gap := some (gapOf v.sys.cfg w.mode) })) ∧
    (∀ k ks, v.facesEnd sd = true → c.clash = false → c.request = true → w.state = .claiming →
      (if w.priority then [0, 1, 2, 3] else orderedList v.sys.cfg.order (sweepLengthOf v.sys.cfg w.mode) w.c0) = k :: ks →
      (u'.coils.get k).state = .idle →
      exec ev s = .next (((v.setCoils sd
          { u' with coils := u'.coils.set k { u'.coils.get k with state := .ramping }
                    ramp := some (v.sys.cfg.rampTime * 1000) }).setClaim sd
          { c with state := .holding, clash := false, request := false, hold := some 60000, rest := none }).setSweep sd
        { w with
          state := .sweeping, list := k :: ks, full := w.priority, priority := false, position := 0, repeats := 0
          wait := .none, exhausted := false, round := none }))

/-! ### Claims (chapter 3) -/

/-- R38, R42, R45, R52, R53, R60: the claim wait's expiry gives the lane to an ASKING side, whose Scheduler makes its list and ramps the
first coil. The hold timer's expiry ends a hold: an inner-lane side's energised coil is drained and its sweep ends; an end-lane side's
coils are left alone, and its Scheduler, told that the hold is exhausted, ends its sweep at once where no coil is in hand, remembers it
where one is, and otherwise does nothing. In CLOSING the timer only stops. -/
def Obligations.ClaimWaitAndHoldTimersExpire : Prop :=
  ∀ (s v : State) (a : Nat) (sd : Side) (u : CoilUnit) (c : Claim) (w : Sweep), v = s.advance a →
    u = v.coils.get sd → c = v.claims.get sd → w = v.sweeps.get sd →
    (c.wait = some 0 → c.state = .asking → w.state ≠ .claiming →
      exec (.claimWaitEnd a sd) s = .next (v.setClaim sd
        { c with state := .holding, wait := none, hold := some 60000, request := false })) ∧
    (∀ k ks, c.wait = some 0 → c.state = .asking → w.state = .claiming → v.facesEnd sd = false →
      (if w.priority then [0, 1, 2, 3] else orderedList v.sys.cfg.order (sweepLengthOf v.sys.cfg w.mode) w.c0) = k :: ks →
      (u.coils.get k).state = .idle → (∀ j, (u.coils.get j).state.energised = false) → u.cutWait = none →
      v.sys.cfg.rampTime * 1000 + (u.coils.get k).q * 500 + v.sys.cfg.drainTime * 1000 ≤ 60000 →
      exec (.claimWaitEnd a sd) s = .next (((v.setClaim sd
          { c with state := .holding, wait := none, hold := some 60000, request := false }).setSweep sd
        { w with
          state := .sweeping, list := k :: ks, full := w.priority, priority := false, position := 0, repeats := 0
          wait := .none, exhausted := false, round := none }).setCoils sd
        { u with coils := u.coils.set k { u.coils.get k with state := .ramping }, ramp := some (v.sys.cfg.rampTime * 1000) })) ∧
    (∀ k, c.hold = some 0 → c.state = .holding → v.facesEnd sd = false → w.state = .sweeping →
      (u.coils.get k).state = .live → (∀ j, (u.coils.get j).state.energised = true → j = k) →
      exec (.claimHoldTimerEnd a sd) s = .next (((v.setClaim sd { c with state := .resting .closing, hold := none }).setCoils sd
          { u with
            coils := u.coils.set k { u.coils.get k with state := .draining, drain := some (v.sys.cfg.drainTime * 1000) }
            live := none }).setSweep sd
        { w with
          state := .releasing, c0 := w.c0 + 1, full := false, list := [], position := 0, repeats := 0, gap := none
          wait := .none, exhausted := false, round := none })) ∧
    (∀ k, c.hold = some 0 → c.state = .holding → v.facesEnd sd = true → w.state = .sweeping →
      (u.coils.get k).state.energised = true →
      exec (.claimHoldTimerEnd a sd) s = .next ((v.setClaim sd { c with state := .resting .closing, hold := none }).setSweep sd
        { w with exhausted := true })) ∧
    (∀ k, c.hold = some 0 → c.state = .holding → v.facesEnd sd = true → w.state = .sweeping → w.round = none →
      (∀ j, (u.coils.get j).state.energised = false) → (u.coils.get k).state = .draining →
      exec (.claimHoldTimerEnd a sd) s = .next ((v.setClaim sd { c with state := .resting .closing, hold := none }).setSweep sd
        { w with
          state := .releasing, c0 := w.c0 + 1, full := false, list := [], position := 0, repeats := 0, gap := none
          wait := .none, exhausted := false, round := none })) ∧
    (c.hold = some 0 → c.state = .holding → v.facesEnd sd = true → w.state ≠ .sweeping →
      exec (.claimHoldTimerEnd a sd) s = .next (v.setClaim sd { c with state := .resting .closing, hold := none })) ∧
    (c.hold = some 0 → c.state ≠ .holding →
      exec (.claimHoldTimerEnd a sd) s = .next (v.setClaim sd { c with hold := none }))

/-- R44, R34, R45: a rest other than CLOSING ends at its timer: FREE, an owed RELEASE given up; with a request pending an inner-lane side
queues its CLAIM at once and asks, and an end-lane side holds at once, its Scheduler making its list and ramping the first coil. -/
def Obligations.RestTimerEndsTheRest : Prop :=
  ∀ (s v : State) (a : Nat) (sd : Side) (c : Claim) (cause : RestCause), v = s.advance a → c = v.claims.get sd →
    c.rest = some 0 → c.state = .resting cause → cause ≠ .closing →
    (c.request = false →
      exec (.restTimerEnd a sd) s = .next ((v.setWaiting (v.line.waiting.filter fun e => e ≠ .release sd)).setClaim sd
        { c with state := .free, rest := none })) ∧
    (c.request = true → v.facesEnd sd = false → v.NormalRoom →
      exec (.restTimerEnd a sd) s = .next (((v.setWaiting
          (v.line.waiting.filter fun e => e ≠ .release sd && e ≠ .claim sd)).setClaim sd
          { c with state := .asking, rest := none, sent := false }).setQueue
        (v.line.queue ++ [{ payload := .claim (v.lane sd), owner := .side sd, losses := 0, underTx := false, asked := .none }]))) ∧
    (∀ (u : CoilUnit) (w : Sweep) k ks, u = v.coils.get sd → w = v.sweeps.get sd → c.request = true → v.facesEnd sd = true →
      w.state = .claiming →
      (if w.priority then [0, 1, 2, 3] else orderedList v.sys.cfg.order (sweepLengthOf v.sys.cfg w.mode) w.c0) = k :: ks →
      (u.coils.get k).state = .idle → (∀ j, (u.coils.get j).state.energised = false) → u.cutWait = none →
      exec (.restTimerEnd a sd) s = .next ((((v.setWaiting (v.line.waiting.filter fun e => e ≠ .release sd)).setClaim sd
          { c with state := .holding, rest := none, request := false, hold := some 60000 }).setSweep sd
        { w with
          state := .sweeping, list := k :: ks, full := w.priority, priority := false, position := 0, repeats := 0
          wait := .none, exhausted := false, round := none }).setCoils sd
        { u with coils := u.coils.set k { u.coils.get k with state := .ramping }, ramp := some (v.sys.cfg.rampTime * 1000) }))

/-- R33, R34, R37, R40, R44: the partner's CLAIM by the state it finds. In a GAP rest it ends the rest, an owed RELEASE given up; with the
request pending the side's own CLAIM is offered at once. -/
def Obligations.PartnersClaimByClaimState : Prop :=
  ∀ (s v u : State) (a : Nat) (sd : Side) (sender : Address) (lane : Byte) (stamp : Clock) (c : Claim), v = s.advance a →
    u = v.setPhase (.idle 0) → c = v.claims.get sd → v.HearsK16 sender stamp → lane.toNat = v.lane sd →
    sender.toNat = v.partner sd → v.facesEnd sd = false →
    (c.state = .free ∨ c.state = .resting .backOff → exec (.heardClaim a sender lane) s = .next u) ∧
    (c.state = .asking → c.sent = false → v.line.queue.length ≤ 8 →
      ∃ t, exec (.heardClaim a sender lane) s = .next t ∧
        t.claims.get sd = { c with state := .resting .yielded, wait := none, rest := some 80000 } ∧
        t.sweeps = v.sweeps ∧ t.coils = v.coils ∧ (.claim sd) ∉ t.line.waiting ∧
        ∀ f ∈ t.line.queue, f.owner = .side sd → isClaim f = true → f.underTx = true) ∧
    ((c.state = .asking ∧ c.sent = true) ∨ c.state = .holding ∨ c.state = .resting .closing →
      ∃ t, exec (.heardClaim a sender lane) s = .next t ∧ t.claims.get sd = { c with deferredPartner := true } ∧
        t.sweeps = v.sweeps ∧ t.coils = v.coils ∧
        ((∃ f ∈ t.line.queue, f.payload = .defer (v.lane sd) ∧ f.owner = .side sd) ∨ (.defer sd) ∈ t.line.waiting)) ∧
    (c.state = .resting .yielded →
      exec (.heardClaim a sender lane) s = .next (u.setClaim sd { c with rest := some 80000 })) ∧
    (c.state = .resting .deferred →
      exec (.heardClaim a sender lane) s = .next (u.setClaim sd { c with state := .resting .yielded, rest := some 80000 })) ∧
    (c.state = .resting .gap → c.request = false →
      exec (.heardClaim a sender lane) s = .next ((u.setWaiting (v.line.waiting.filter fun e => e ≠ .release sd)).setClaim sd
        { c with state := .free, rest := none })) ∧
    (c.state = .resting .gap → c.request = true → v.NormalRoom →
      exec (.heardClaim a sender lane) s = .next (((u.setWaiting
          (v.line.waiting.filter fun e => e ≠ .release sd && e ≠ .claim sd)).setClaim sd
          { c with state := .asking, rest := none, sent := false }).setQueue
        (v.line.queue ++ [{ payload := .claim (v.lane sd), owner := .side sd, losses := 0, underTx := false, asked := .none }])))

/-- R33, R34, R39, R44: the partner's DEFER and RELEASE by the state they find. A DEFER in ASKING has the side give way: its CLAIM and its
DEFER leave the queue, unless under transmission, and are no longer owed; the request stays pending. A RELEASE ends any rest but CLOSING,
an owed RELEASE given up: the side is FREE, or with its request pending, as it always is in YIELDED and DEFERRED, offers its CLAIM at
once and asks. -/
def Obligations.PartnersDeferAndReleaseByClaimState : Prop :=
  ∀ (s v u : State) (a : Nat) (sd : Side) (sender : Address) (lane hold : Byte) (stamp : Clock) (c : Claim),
    v = s.advance a → u = v.setPhase (.idle 0) → c = v.claims.get sd → v.HearsK16 sender stamp → lane.toNat = v.lane sd →
    sender.toNat = v.partner sd → v.facesEnd sd = false →
    (c.state = .asking → v.line.queue.length ≤ 8 →
      ∃ t, exec (.heardDefer a sender ⟨lane, hold⟩) s = .next t ∧
        t.claims.get sd = { c with state := .resting .deferred, sent := false, deferredPartner := false, wait := none,
                                   rest := some ((min hold.toNat 60 + 20) * 1000) } ∧
        t.sweeps = v.sweeps ∧ t.coils = v.coils ∧ (.claim sd) ∉ t.line.waiting ∧ (.defer sd) ∉ t.line.waiting ∧
        (∀ f ∈ t.line.queue, f.owner = .side sd → isClaim f = true ∨ isDefer f = true → f.underTx = true) ∧
        (v.line.waiting = [] → (∀ f ∈ v.line.queue, f.owner = .side sd → f.underTx = false) →
          t.line.queue = v.line.queue.filter fun f => f.owner ≠ .side sd || !(isClaim f || isDefer f))) ∧
    (c.state ≠ .asking → exec (.heardDefer a sender ⟨lane, hold⟩) s = .next u) ∧
    (∀ cause, c.state = .resting cause → cause ≠ .closing → c.request = false →
      exec (.heardRelease a sender lane) s = .next ((u.setWaiting (v.line.waiting.filter fun e => e ≠ .release sd)).setClaim sd
        { c with state := .free, rest := none })) ∧
    (∀ cause, c.state = .resting cause → cause ≠ .closing → c.request = true → v.NormalRoom →
      exec (.heardRelease a sender lane) s = .next (((u.setWaiting
          (v.line.waiting.filter fun e => e ≠ .release sd && e ≠ .claim sd)).setClaim sd
          { c with state := .asking, rest := none, sent := false }).setQueue
        (v.line.queue ++ [{ payload := .claim (v.lane sd), owner := .side sd, losses := 0, underTx := false, asked := .none }]))) ∧
    (c.state = .free ∨ c.state = .asking ∨ c.state = .holding ∨ c.state = .resting .closing →
      exec (.heardRelease a sender lane) s = .next u)

/-! ### Sweeps and rounds (chapter 4) -/

/-- R50: coil i of an ordinary list of length L from start coil c0, for both orders; a full sweep's list is 0, 1, 2, 3. -/
def Obligations.CoilListsFollowTheSweepOrder : Prop :=
  (∀ (L : Nat) (c0 : CoilNumber) (i : Nat), L ∈ [1, 2, 4] → i < L →
    ((orderedList .sequential L c0)[i]?).map (fun k => k.toNat / L) = some (c0.toNat / L) ∧
    ((orderedList .sequential L c0)[i]?).map (fun k => k.toNat % L) = some ((c0.toNat + i) % L) ∧
    (orderedList .interleaved L c0)[i]? = some (c0 ^^^ BitVec.ofNat 2 i)) ∧
  (∀ (o : SweepOrder) (L : Nat) (c0 : CoilNumber), (orderedList o L c0).length = L) ∧
  ∀ (s : State) (sd : Side), (s.sweeps.get sd).priority = true → s.plannedList sd = [0, 1, 2, 3]

/-- R52, R34, R45: the gap timer's expiry in WAITING. A list of FAULTED coils is skipped; otherwise an inner-lane side asks, its CLAIM
queued in FREE or its request kept in RESTING; an end-lane side in FREE holds at once and ramps the first coil of its list. -/
def Obligations.GapEndBeginsASweep : Prop :=
  ∀ (s v : State) (a : Nat) (sd : Side) (u : CoilUnit) (c : Claim) (w : Sweep) (list : List CoilNumber), v = s.advance a →
    u = v.coils.get sd → c = v.claims.get sd → w = v.sweeps.get sd →
    list = (if w.priority then [0, 1, 2, 3] else orderedList v.sys.cfg.order (sweepLengthOf v.sys.cfg w.mode) w.c0) →
    w.gap = some 0 → w.state = .waiting →
    ((∀ k ∈ list, (u.coils.get k).state = .faulted) →
      exec (.gapEnd a sd) s = .next (v.setSweep sd
        { w with c0 := w.c0 + 1, priority := false, gap := some (gapOf v.sys.cfg w.mode) })) ∧
    (∀ k ∈ list, (u.coils.get k).state ≠ .faulted → v.facesEnd sd = false → c.state = .free → v.NormalRoom →
      exec (.gapEnd a sd) s = .next ((((v.setSweep sd { w with state := .claiming, gap := none }).setClaim sd
          { c with state := .asking, sent := false, request := true }).setQueue
        (v.line.queue ++ [{ payload := .claim (v.lane sd), owner := .side sd, losses := 0, underTx := false, asked := .none }])).setWaiting
        (v.line.waiting.filter fun e => e ≠ .claim sd))) ∧
    (∀ k ∈ list, ∀ cause, (u.coils.get k).state ≠ .faulted → c.state = .resting cause →
      exec (.gapEnd a sd) s = .next ((v.setSweep sd { w with state := .claiming, gap := none }).setClaim sd
        { c with request := true })) ∧
    (∀ k ks, list = k :: ks → v.facesEnd sd = true → c.state = .free → (u.coils.get k).state = .idle →
      (∀ j, (u.coils.get j).state.energised = false) → u.cutWait = none →
      exec (.gapEnd a sd) s = .next (((v.setClaim sd { c with state := .holding, hold := some 60000, request := false }).setSweep sd
        { w with
          state := .sweeping, list := list, full := w.priority, priority := false, position := 0, repeats := 0, gap := none
          wait := .none, exhausted := false, round := none }).setCoils sd
        { u with coils := u.coils.set k { u.coils.get k with state := .ramping }, ramp := some (v.sys.cfg.rampTime * 1000) }))

/-- R49, R61, R62, R143: the doze timer's expiry; a change of a beam input, or of the hall-level inputs, and what an unfitted side or a
station outside RUNNING makes of it; and the expiry of a stability timer: the value the input presents is taken. A beam that is so taken
as broken is a priority trigger besides. -/
def Obligations.DozeBeamsAndHallLevelAreDebounced : Prop :=
  ∀ (s v : State) (a : Nat) (sd : Side) (bm : Beam) (w : Sweep), v = s.advance a → w = v.sweeps.get sd →
    (w.doze = some 0 → exec (.dozeTimerEnd a sd) s = .next (v.setSweep sd { w with mode := .doze, doze := none })) ∧
    (∀ lvl, (v.pins.beamsBroken.get sd).get bm ≠ lvl → v.sys.run = .running → fitted v.sys.cfg sd = true →
      exec (.beamInputChange a sd bm lvl) s = .next ({ v with pins := { v.pins with
          beamsBroken := v.pins.beamsBroken.set sd ((v.pins.beamsBroken.get sd).set bm lvl) } }.setSweep sd
        { w with beams := w.beams.set bm { w.beams.get bm with timer := some 5000 } })) ∧
    (∀ lvl, (v.pins.beamsBroken.get sd).get bm ≠ lvl → fitted v.sys.cfg sd = false →
      exec (.beamInputChange a sd bm lvl) s = .next { v with pins := { v.pins with
          beamsBroken := v.pins.beamsBroken.set sd ((v.pins.beamsBroken.get sd).set bm lvl) } }) ∧
    ((w.beams.get bm).timer = some 0 → ((v.pins.beamsBroken.get sd).get bm = false ∨ (w.beams.get bm).broken = true) →
      exec (.beamDebounceEnd a sd bm) s = .next (v.setSweep sd
        { w with beams := w.beams.set bm ⟨(v.pins.beamsBroken.get sd).get bm, none⟩ })) ∧
    (∀ value, v.pins.hall ≠ value → v.sys.run = .running →
      exec (.hallLevelInputChange a value) s =
        .next { v with pins := { v.pins with hall := value }, hall := { v.hall with timer := some 20000 } }) ∧
    (∀ value, v.pins.hall ≠ value → v.sys.run ≠ .running →
      exec (.hallLevelInputChange a value) s = .next { v with pins := { v.pins with hall := value } }) ∧
    (v.hall.timer = some 0 →
      exec (.hallLevelDebounceEnd a) s = .next { v with hall := { level := v.pins.hall, timer := none } })

/-- R49, R63 to R65, R52, R53: what starts or restarts a sweep as a full one on a fitted side. A beam break (which also wakes the side), a
PROVISIONAL DECIDE that names its lane, heard or the station's own at its completion, is a priority trigger, taken by the state of the
sweep; in an ordinary sweep with a round in progress it stops the round at its slot's end, and that end, or a trigger with no round in
progress, restarts the sweep, by what the side's coils are doing. Two cases are the model's choices: a coil 0 that is DRAINING while the
cut wait runs too is waited for at its drain first (log 33), and the end of a stopping slot whose round the live limit has cut restarts
the sweep like any other (log 20). -/
def Obligations.PriorityTriggersActBySweepState : Prop :=
  ∀ (s v : State) (a : Nat) (sd : Side) (ev : Instr) (w w0 : Sweep) (u : CoilUnit) (c : Claim), v = s.advance a →
    w = v.sweeps.get sd → u = v.coils.get sd → c = v.claims.get sd → v.sys.run = .running → fitted v.sys.cfg sd = true →
    ((∃ bm, ev = .beamDebounceEnd a sd bm ∧ (w.beams.get bm).timer = some 0 ∧ (v.pins.beamsBroken.get sd).get bm = true ∧
        (w.beams.get bm).broken = false ∧
        w0 = { w with beams := w.beams.set bm ⟨true, none⟩, mode := .active, doze := some (v.sys.cfg.dozeDelay * 1000000) }) ∨
      (∃ sender stamp b, ev = .heardDecide a sender b ∧ v.HearsK16 sender stamp ∧ b.verdict = .provisional ∧
        (v.lane sd = b.laneA.toNat ∨ (b.laneB ≠ 255 ∧ v.lane sd = b.laneB.toNat)) ∧ w0 = w) ∨
      (∃ att before f behind m, ev = .transmitComplete a ∧ v.Sends att before f behind ∧ att.left = 0 ∧ f.payload = .decision m ∧
        m.decision.verdict = .provisional ∧ (v.lane sd = m.decision.laneA ∨ some (v.lane sd) = m.decision.laneB) ∧ w0 = w) ∨
      (∃ o r k, ev = .slotEnd a sd o ∧ (o = .empty ∨ o = .collided) ∧ w.round = some r ∧ r.slot = 0 ∧ r.stopping = true ∧
        w.list[w.position]? = some k ∧ w.state = .sweeping ∧ w.full = false ∧ w.exhausted = false ∧
        w0 = { w with round := none })) →
    ∃ t, exec ev s = .next t ∧
      (w.state = .waiting →
        ((∀ k, (u.coils.get k).state = .faulted) →
          t.sweeps.get sd = { w0 with c0 := w.c0 + 1, priority := false, gap := some (gapOf v.sys.cfg w0.mode) } ∧
            t.claims.get sd = c ∧ t.coils.get sd = u) ∧
        (∀ k, (u.coils.get k).state ≠ .faulted → v.facesEnd sd = false → c.state = .free →
          t.sweeps.get sd = { w0 with state := .claiming, priority := true, gap := none } ∧ t.coils.get sd = u ∧
            t.claims.get sd = { c with state := .asking, sent := false, request := true } ∧
            ((∃ f ∈ t.line.queue, f.payload = .claim (v.lane sd) ∧ f.owner = .side sd) ∨ (.claim sd) ∈ t.line.waiting)) ∧
        (∀ k cause, (u.coils.get k).state ≠ .faulted → c.state = .resting cause →
          t.sweeps.get sd = { w0 with state := .claiming, priority := true, gap := none } ∧ t.coils.get sd = u ∧
            t.claims.get sd = { c with request := true }) ∧
        (v.facesEnd sd = true → c.state = .free → (u.coils.get 0).state = .idle → (∀ j, (u.coils.get j).state.energised = false) →
          u.cutWait = none →
          t.claims.get sd = { c with state := .holding, hold := some 60000, request := false } ∧
            t.coils.get sd = { u with coils := u.coils.set 0 { u.coils.get 0 with state := .ramping }
                                      ramp := some (v.sys.cfg.rampTime * 1000) } ∧
            t.sweeps.get sd = { w0 with
              state := .sweeping, list := [0, 1, 2, 3], full := true, priority := false, position := 0, repeats := 0, gap := none
              wait := .none, exhausted := false, round := none })) ∧
      (w.state = .claiming ∨ w.state = .releasing ∨ (w.state = .sweeping ∧ w.full = false ∧ w.exhausted = true) →
        t.sweeps.get sd = { w0 with priority := true } ∧ t.claims.get sd = c ∧ t.coils.get sd = u) ∧
      (w.state = .sweeping → w.full = true → t.sweeps.get sd = w0 ∧ t.claims.get sd = c ∧ t.coils.get sd = u) ∧
      (∀ r, w.state = .sweeping → w.full = false → w.exhausted = false → w0.round = some r →
        t.sweeps.get sd = { w0 with round := some { r with stopping := true } } ∧ t.claims.get sd = c ∧ t.coils.get sd = u) ∧
      ∀ full, w.state = .sweeping → w.full = false → w.exhausted = false → w0.round = none →
        full = { w0 with list := [0, 1, 2, 3], full := true, position := 0, repeats := 0, wait := .none } →
        ((u.coils.get 0).state = .live → (∀ j, (u.coils.get j).state.energised = true → j = 0) →
          u.live.getD 0 + (u.coils.get 0).q * 500 ≤ 40000 →
          (v.facesEnd sd = true ∨ ∃ left, c.hold = some left ∧
            (60000 - left) + (u.coils.get 0).q * 500 + v.sys.cfg.drainTime * 1000 ≤ 60000) →
          t.sweeps.get sd = { full with round := some { q := (u.coils.get 0).q, ended := 0, empties := 0, singles := 0
                                                        collided := 0, slot := 500, stopping := false, cut := false } } ∧
            t.claims.get sd = c ∧ t.coils.get sd = u) ∧
        ((u.coils.get 0).state = .ramping → (∀ j, (u.coils.get j).state.energised = true → j = 0) →
          t.sweeps.get sd = full ∧ t.claims.get sd = c ∧ t.coils.get sd = u) ∧
        ∀ u', ((∀ j, (u.coils.get j).state.energised = false) ∧ u' = u ∨
            ∃ k, k ≠ 0 ∧ (∀ j, (u.coils.get j).state.energised = true → j = k) ∧
              ((u.coils.get k).state = .live ∧ u' = { u with
                  coils := u.coils.set k { u.coils.get k with state := .draining, drain := some (v.sys.cfg.drainTime * 1000) }
                  live := none } ∨
                (u.coils.get k).state = .ramping ∧ u' = { u with
                  coils := u.coils.set k { u.coils.get k with state := .draining, drain := some (v.sys.cfg.drainTime * 1000) }
                  ramp := none })) →
          (v.facesEnd sd = true ∨ c.state = .holding ∧ ∃ left, c.hold = some left ∧
            (60000 - left) + v.sys.cfg.rampTime * 1000 + (u.coils.get 0).q * 500 + v.sys.cfg.drainTime * 1000 ≤ 60000) →
          ((u.coils.get 0).state = .idle → u.cutWait = none →
            t.sweeps.get sd = full ∧ t.claims.get sd = c ∧
              t.coils.get sd = { u' with coils := u'.coils.set 0 { u'.coils.get 0 with state := .ramping }
                                         ramp := some (v.sys.cfg.rampTime * 1000) }) ∧
          ((u.coils.get 0).state = .draining →
            t.sweeps.get sd = { full with wait := .drain } ∧ t.claims.get sd = c ∧ t.coils.get sd = u')

/-- R55 to R58: a slot that ends EMPTY or COLLIDED. Within the round it is tallied and the next slot begins. As the round's last it
ends the round: with more than half of its slots collided, and a repeat allowed and admitted by the guard, a round of twice the slots
follows; otherwise, and always where the live timer has reached 40 ms, the stored Q is set from the tally and the coil is drained, if the
live limit has not drained it already. -/
def Obligations.SlotEndTalliesAndEndsTheRound : Prop :=
  ∀ (s v : State) (a : Nat) (sd : Side) (k : CoilNumber) (u : CoilUnit) (w : Sweep) (r : Round) (o : SlotOutcome) (E C : Nat)
    (again : Prop),
    v = s.advance a → u = v.coils.get sd → w = v.sweeps.get sd → w.round = some r → w.list[w.position]? = some k → r.slot = 0 →
    r.stopping = false → w.state = .sweeping → w.exhausted = false → 1 ≤ v.sys.cfg.drainTime →
    (o = .empty ∧ E = r.empties + 1 ∧ C = r.collided ∨ o = .collided ∧ E = r.empties ∧ C = r.collided + 1) →
    (again ↔ r.q < 2 * C ∧ r.q < 16 ∧ w.repeats < v.sys.cfg.repeatLimit ∧ u.live.getD 0 < 40000 ∧
      u.live.getD 0 + 2 * r.q * 500 ≤ 40000 ∧
      (v.facesEnd sd = true ∨ ∃ left, (v.claims.get sd).hold = some left ∧
        (60000 - left) + 2 * r.q * 500 + v.sys.cfg.drainTime * 1000 ≤ 60000)) →
    (r.ended + 1 < r.q → r.cut = false →
      exec (.slotEnd a sd o) s = .next (v.setSweep sd { w with
        round := some { r with ended := r.ended + 1, empties := E, collided := C, slot := 500 } })) ∧
    (r.q ≤ r.ended + 1 → r.cut = false → again →
      exec (.slotEnd a sd o) s = .next (v.setSweep sd { w with
        repeats := w.repeats + 1
        round := some { q := 2 * r.q, ended := 0, empties := 0, singles := 0, collided := 0, slot := 500, stopping := false,
                        cut := false } })) ∧
    (r.q ≤ r.ended + 1 → (r.cut = false ∧ ¬ again ∧ (u.coils.get k).state = .live ∧
          (∀ j, (u.coils.get j).state.energised = true → j = k) ∨
        r.cut = true ∧ (u.coils.get k).state = .draining ∧ ∀ j, (u.coils.get j).state.energised = false) →
      ∃ t, exec (.slotEnd a sd o) s = .next t ∧
        t.coil sd k = { u.coils.get k with
          state := .draining, drain := if r.cut then (u.coils.get k).drain else some (v.sys.cfg.drainTime * 1000)
          q := if 4 * E > 3 * r.q ∧ r.q > 1 then r.q / 2 else if 2 * C > r.q ∧ r.q < 16 then 2 * r.q else r.q } ∧
        (t.sweeps.get sd).round = none)

/-- R55, R49, R96 to R98: a SINGLE reply within a round, for an item that has no record. The sample restarts the doze timer. With no
directory entry a SOLE record takes the lowest FREE position and its SIGHT with the sample goes to the queue; an entry makes the record
JOINT to the lead it names, and the sample goes out as a JOIN. In a full table the CLOSED record of the earliest close time makes room,
the lower-numbered position first; with none CLOSED no record is made: the sample goes out as a JOIN without a record where the directory
names a lead, and is lost and counted otherwise. -/
def Obligations.SingleReplyForANewItemIsTaken : Prop :=
  ∀ (s v u : State) (a : Nat) (sd : Side) (k : CoilNumber) (w : Sweep) (r : Round) (reply : Reply) (p : Sample), v = s.advance a →
    w = v.sweeps.get sd → w.round = some r → w.list[w.position]? = some k → r.slot = 0 → r.stopping = false → r.cut = false →
    r.ended + 1 < r.q → v.record? reply.item = none →
    p = { station := v.sys.station.toNat, side := sd, coil := k, strength := reply.strength, time := v.time.clock, flag := .unsent } →
    u = v.setSweep sd { w with mode := .active, doze := some (v.sys.cfg.dozeDelay * 1000000)
                               round := some { r with ended := r.ended + 1, singles := r.singles + 1, slot := 500 } } →
    (∀ i, i < v.table.length → v.table[i]? = some none → (∀ j, j < i → v.table[j]? ≠ some none) → v.NormalRoom →
      ((∀ e ∈ v.directory, e.item ≠ reply.item) →
        (∀ f ∈ v.line.queue, ∀ m, f.payload = .sight m → m.item ≠ reply.item) →
        exec (.slotEnd a sd (.single reply)) s = .next (((u.setTable (v.table.set i (some
            { item := reply.item, code := reply.code, level := reply.level, mark := reply.mark, created := v.time.clock
              samples := [{ p with flag := .queued }], state := .sole false }))).setQueue
          (v.line.queue ++ [
            { payload := .sight { item := reply.item, code := reply.code, mark := reply.mark, level := reply.level, takeover := false
                                  again := false, samples := [⟨sd, k, reply.strength, v.time.clock⟩] }
              owner := .record reply.item, losses := 0, underTx := false, asked := .none }])).setWaiting
          (v.line.waiting.filter fun e => e ≠ .sight reply.item))) ∧
      (∀ e, v.directory.find? (fun e => e.item == reply.item) = some e → (.join reply.item) ∉ v.line.waiting →
        (∀ f ∈ v.line.queue, ∀ m, f.payload = .join m → m.item ≠ reply.item) →
        exec (.slotEnd a sd (.single reply)) s = .next ((((u.setTable (v.table.set i (some
            { item := reply.item, code := reply.code, level := reply.level, mark := reply.mark, created := v.time.clock
              samples := [{ p with flag := .queued }]
              state := .joint e.lead (some ((v.sys.cfg.maxDwell + 2560) * 1000)) }))).setDirectory
          (v.directory.filter fun e => e.item ≠ reply.item)).setQueue (v.line.queue ++ [
            { payload := .join { item := reply.item, lead := e.lead, samples := [⟨sd, k, reply.strength, v.time.clock⟩] }
              owner := .record reply.item, losses := 0, underTx := false, asked := .none }])).setWaiting
          (v.line.waiting.filter fun e => e ≠ .join reply.item)))) ∧
    (∀ before r0 d0 c0 behind, (∀ e ∈ v.table, e ≠ none) → v.table = before ++ some r0 :: behind → r0.state = .closed d0 c0 →
      (∀ r1 d1 c1, some r1 ∈ before → r1.state = .closed d1 c1 → (v.time.clock - c1).toNat < (v.time.clock - c0).toNat) →
      (∀ r1 d1 c1, some r1 ∈ behind → r1.state = .closed d1 c1 → (v.time.clock - c1).toNat ≤ (v.time.clock - c0).toNat) →
      ∃ t r', exec (.slotEnd a sd (.single reply)) s = .next t ∧ t.record? r0.item = none ∧ t.record? reply.item = some r' ∧
        r'.code = reply.code ∧ r'.level = reply.level ∧ r'.mark = reply.mark ∧ r'.created = v.time.clock ∧
        (∃ flag, r'.samples = [{ p with flag := flag }]) ∧
        (v.directory.find? (fun e => e.item == reply.item) = none → ∃ waiting, r'.state = .sole waiting) ∧
        (∀ e, v.directory.find? (fun e => e.item == reply.item) = some e →
          r'.state = .joint e.lead (some ((v.sys.cfg.maxDwell + 2560) * 1000)))) ∧
    ((∀ e ∈ v.table, ∃ r1, e = some r1 ∧ ∀ d c, r1.state ≠ .closed d c) → v.sys.run = .running →
      ((∀ e ∈ v.directory, e.item ≠ reply.item) →
        exec (.slotEnd a sd (.single reply)) s = .next (u.setReport { v.report with
          counters := { v.report.counters with samplesLost := min 65535 (v.report.counters.samplesLost + 1) } })) ∧
      (∀ e, v.directory.find? (fun e => e.item == reply.item) = some e → v.NormalRoom →
        (∀ f ∈ v.line.queue, ∀ m, f.payload = .join m → m.item ≠ reply.item) →
        exec (.slotEnd a sd (.single reply)) s = .next (u.setQueue (v.line.queue ++ [
          { payload := .join { item := reply.item, lead := e.lead, samples := [⟨sd, k, reply.strength, v.time.clock⟩] }
            owner := .noRecord, losses := 0, underTx := false, asked := .none }]))))

/-- R55, R49, R93, R95, R97, R98, R110: a SINGLE reply within a round, for an item that has a record. Its issue mark is taken and its
sample offered to the list, by the record's state: a SOLE record offers a SIGHT with it, or lets it wait for the re-offer; a LEAD record
offers nothing and restarts its quiet timer; a JOINT record offers a JOIN with it; a CLOSED record takes now as its close time and
nothing else. In a full list the sample replaces the entry of smallest weight, the earliest of them, the first of those, or is discarded
where its own weight is no greater; either way one sample is counted lost. Only a sample that enters is offered in a SIGHT or a JOIN, or
restarts the quiet timer. -/
def Obligations.SingleReplyForAKnownItemIsTaken : Prop :=
  ∀ (s v u : State) (a : Nat) (sd : Side) (k : CoilNumber) (w : Sweep) (r : Round) (reply : Reply) (p : Sample) (rec : Record),
    v = s.advance a → w = v.sweeps.get sd → w.round = some r → w.list[w.position]? = some k → r.slot = 0 → r.stopping = false →
    r.cut = false → r.ended + 1 < r.q → v.record? reply.item = some rec → v.report.counters.samplesLost ≤ 65535 →
    p = { station := v.sys.station.toNat, side := sd, coil := k, strength := reply.strength, time := v.time.clock, flag := .unsent } →
    u = v.setSweep sd { w with mode := .active, doze := some (v.sys.cfg.dozeDelay * 1000000)
                               round := some { r with ended := r.ended + 1, singles := r.singles + 1, slot := 500 } } →
    (rec.samples.length < 16 →
      (rec.state = .sole true →
        exec (.slotEnd a sd (.single reply)) s = .next (u.putRecord { rec with mark := reply.mark, samples := rec.samples ++ [p] })) ∧
      (rec.state = .sole false → v.NormalRoom → (∀ f ∈ v.line.queue, ∀ m, f.payload = .sight m → m.item ≠ reply.item) →
        (∀ q ∈ rec.samples, q.station = v.sys.station.toNat → q.flag ≠ .unsent) →
        exec (.slotEnd a sd (.single reply)) s = .next (((u.putRecord { rec with
            mark := reply.mark, samples := rec.samples ++ [{ p with flag := .queued }] }).setQueue (v.line.queue ++ [
          { payload := .sight { item := reply.item, code := rec.code, mark := reply.mark, level := rec.level, takeover := false
                                again := false, samples := [⟨sd, k, reply.strength, v.time.clock⟩] }
            owner := .record reply.item, losses := 0, underTx := false, asked := .none }])).setWaiting
          (v.line.waiting.filter fun e => e ≠ .sight reply.item))) ∧
      (rec.state = .sole false →
        ∃ t r', exec (.slotEnd a sd (.single reply)) s = .next t ∧ t.record? reply.item = some r' ∧ r'.mark = reply.mark ∧
          r'.samples.length = rec.samples.length + 1 ∧
          (r'.state = .sole false ∧ (∃ f ∈ t.line.queue, ∃ m, f.payload = .sight m ∧ m.item = reply.item ∧
              f.owner = .record reply.item) ∨
            r'.state = .sole true ∧ (.sight reply.item) ∈ t.line.waiting)) ∧
      (∀ l, rec.state = .lead l →
        ∃ t r' l', exec (.slotEnd a sd (.single reply)) s = .next t ∧ t.record? reply.item = some r' ∧ r'.mark = reply.mark ∧
          r'.state = .lead l' ∧ l'.quiet = some (v.sys.cfg.quiet * 1000) ∧
          r'.samples.map (fun q => { q with flag := SentFlag.sent }) =
            (rec.samples ++ [p]).map fun q => { q with flag := SentFlag.sent }) ∧
      (∀ y patience, rec.state = .joint y patience → v.NormalRoom → (.join reply.item) ∉ v.line.waiting →
        (∀ f ∈ v.line.queue, ∀ m, f.payload = .join m → m.item ≠ reply.item) →
        (∀ q ∈ rec.samples, q.station = v.sys.station.toNat → q.flag ≠ .unsent) →
        exec (.slotEnd a sd (.single reply)) s = .next (((u.putRecord { rec with
            mark := reply.mark, samples := rec.samples ++ [{ p with flag := .queued }] }).setQueue (v.line.queue ++ [
          { payload := .join { item := reply.item, lead := y, samples := [⟨sd, k, reply.strength, v.time.clock⟩] }
            owner := .record reply.item, losses := 0, underTx := false, asked := .none }])).setWaiting
          (v.line.waiting.filter fun e => e ≠ .join reply.item)))) ∧
    (∀ d c, rec.state = .closed d c →
      exec (.slotEnd a sd (.single reply)) s = .next (u.putRecord { rec with state := .closed d v.time.clock })) ∧
    ∀ before b behind (weight : Sample → Nat) (report : ReportUnit), v.sys.run = .running → rec.samples.length = 16 →
      rec.samples = before ++ b :: behind → weight = (fun q => q.strength.toNat - v.sys.cfg.noiseFloor) →
      (∀ q ∈ before, weight b < weight q ∨
        weight b = weight q ∧ (v.time.clock - q.time).toNat < (v.time.clock - b.time).toNat) →
      (∀ q ∈ behind, weight b < weight q ∨
        weight b = weight q ∧ (v.time.clock - q.time).toNat ≤ (v.time.clock - b.time).toNat) →
      report = { v.report with
        counters := { v.report.counters with samplesLost := min 65535 (v.report.counters.samplesLost + 1) } } →
      (weight p ≤ weight b → (∀ d c, rec.state ≠ .closed d c) →
        exec (.slotEnd a sd (.single reply)) s = .next ((u.putRecord { rec with mark := reply.mark }).setReport report)) ∧
      (weight b < weight p → rec.state = .sole true →
        exec (.slotEnd a sd (.single reply)) s = .next ((u.putRecord { rec with
          mark := reply.mark, samples := before ++ p :: behind }).setReport report)) ∧
      (weight b < weight p → rec.state = .sole false → v.NormalRoom →
        (∀ f ∈ v.line.queue, ∀ m, f.payload = .sight m → m.item ≠ reply.item) →
        (∀ q ∈ before ++ behind, q.station = v.sys.station.toNat → q.flag ≠ .unsent) →
        exec (.slotEnd a sd (.single reply)) s = .next ((((u.putRecord { rec with
            mark := reply.mark, samples := before ++ { p with flag := .queued } :: behind }).setReport report).setQueue
          (v.line.queue ++ [
            { payload := .sight { item := reply.item, code := rec.code, mark := reply.mark, level := rec.level, takeover := false
                                  again := false, samples := [⟨sd, k, reply.strength, v.time.clock⟩] }
              owner := .record reply.item, losses := 0, underTx := false, asked := .none }])).setWaiting
          (v.line.waiting.filter fun e => e ≠ .sight reply.item))) ∧
      (∀ l, weight b < weight p → rec.state = .lead l →
        ∃ t r' l', exec (.slotEnd a sd (.single reply)) s = .next t ∧ t.record? reply.item = some r' ∧ r'.mark = reply.mark ∧
          r'.state = .lead l' ∧ l'.quiet = some (v.sys.cfg.quiet * 1000) ∧
          r'.samples.map (fun q => { q with flag := SentFlag.sent }) =
            (before ++ p :: behind).map fun q => { q with flag := SentFlag.sent }) ∧
      (∀ y patience, weight b < weight p → rec.state = .joint y patience → v.NormalRoom → (.join reply.item) ∉ v.line.waiting →
        (∀ f ∈ v.line.queue, ∀ m, f.payload = .join m → m.item ≠ reply.item) →
        (∀ q ∈ before ++ behind, q.station = v.sys.station.toNat → q.flag ≠ .unsent) →
        exec (.slotEnd a sd (.single reply)) s = .next ((((u.putRecord { rec with
            mark := reply.mark, samples := before ++ { p with flag := .queued } :: behind }).setReport report).setQueue
          (v.line.queue ++ [
            { payload := .join { item := reply.item, lead := y, samples := [⟨sd, k, reply.strength, v.time.clock⟩] }
              owner := .record reply.item, losses := 0, underTx := false, asked := .none }])).setWaiting
          (v.line.waiting.filter fun e => e ≠ .join reply.item)))

/-! ### The Gate Line (chapter 5) -/

/-- R70, R85, R41, R87, R169: on an idle line the head frame starts at a slot boundary no earlier than its access delay: it is filled from
its queued content, with the ages, the remaining hold or the reported values at that moment, and goes under transmission; before the
delay, or off a boundary, nothing happens. A DEFER that finds the side ASKING with its CLAIM not yet transmitted carries 0 (the model's
deduction, log 17). -/
def Obligations.AttemptStartsAfterTheAccessDelay : Prop :=
  ∀ (s v : State) (a since delay : Nat) (f : QFrame) (wire : OwnSample → WireSample), v = s.advance a → v.line.phase = .idle since →
    (v.sys.run = .running ∨ v.sys.run = .configFault) → headOf v.line.queue = some f →
    delay = (if v.line.backoff then (1 + v.sys.station.toNat) * 10 else if f.urgent then 10 else 50) →
    wire = (fun p => ⟨p.strength, p.side, p.coil, BitVec.ofNat 12 (min 4095 (v.time.clock - p.time).toNat)⟩) →
    (delay ≤ since → since % 10 = 0 →
      ∃ fr : Frame, fr.sender.toNat = v.sys.station.toNat ∧
        exec (.attemptStart a) s = .next { v with
          line := { v.line with
            phase := .sending { frame := fr, bytes := frameBytes fr, left := (frameBytes fr).length * 10 + 30
                                stamp := v.time.clock }
            queue := startFrame f v.line.queue }
          report := { v.report with
            carried := if f.payload = .report then v.report.counters else v.report.carried } } ∧
        (∀ m, f.payload = .sight m → fr.body = .sightBody
          { item := m.item, code := m.code, mark := m.mark, level := m.level, takeover := m.takeover, again := m.again
            samples := m.samples.map wire }) ∧
        (∀ m, f.payload = .join m → fr.body = .joinBody
          { item := m.item, lead := BitVec.ofNat 8 m.lead, samples := m.samples.map wire }) ∧
        (∀ m, f.payload = .decision m → fr.body = .decideBody
          { item := m.item, verdict := m.decision.verdict, reason := m.decision.reason, laneA := BitVec.ofNat 8 m.decision.laneA
            laneB := (m.decision.laneB.map (BitVec.ofNat 8)).getD 255, again := m.again }) ∧
        (∀ lane, f.payload = .claim lane → fr.body = .claimBody (BitVec.ofNat 8 lane)) ∧
        (∀ lane, f.payload = .release lane → fr.body = .releaseBody (BitVec.ofNat 8 lane)) ∧
        (∀ receiver tag x, f.payload = .query receiver tag x →
          fr.body = .queryBody { receiver := BitVec.ofNat 8 receiver, tag := BitVec.ofNat 8 tag, item := x }) ∧
        (f.payload = .report → fr.body = .reportBody v.reportBody) ∧
        (∀ lane sd c, f.payload = .defer lane → f.owner = .side sd → c = v.claims.get sd →
          ∃ hold, fr.body = .deferBody ⟨BitVec.ofNat 8 lane, BitVec.ofNat 8 hold⟩ ∧
            (c.state = .asking → hold = if c.sent then 60 else 0) ∧
            (∀ left, c.state = .holding ∨ c.state = .resting .closing → c.hold = some left → hold = (left + 999) / 1000) ∧
            (c.state = .resting .closing → c.hold = none → hold = 0) ∧
            (c.state = .free ∨ (∃ cause, c.state = .resting cause ∧ cause ≠ .closing) → hold = 0))) ∧
    (since < delay ∨ since % 10 ≠ 0 → exec (.attemptStart a) s = .next v)

/-- R71, R72, R80: a bit sent at 1 is read back at 0: the station receives the winner's frame with its own SOF stamp and its next attempt
backs off; the frame keeps its place with one more loss, and at its sixteenth loss is dropped and counted. A removal or a conversion held
while it was under transmission is carried out at the loss. What a drop does to the frame's owner: a CLAIM is offered afresh while its
side is ASKING (R36); a RELEASE starts the rest timer of a GAP or BACK-OFF rest (R43); the samples of a dropped SIGHT or JOIN become
UNSENT, whatever their flag (R91), and go out again at once, in a fresh SIGHT of a SOLE record (R97), a fresh takeover SIGHT (R108) or a
JOIN of a record still JOINT (R98); a SOLE record whose freeing waited for this SIGHT is freed instead (R100); a JOIN without a record is
gone, its sample not counted; a slot still WAITING with a QUERY's tag offers it afresh, any other does not (R133); a final DECIDE of a LEAD
record is offered again unchanged, a PROVISIONAL, a WITHDRAW and a repeat are not (R153, R155, R156, R107). -/
def Obligations.ContentionLossCountsAndDrops : Prop :=
  ∀ (s v : State) (a : Nat) (att : Attempt) (before behind : List QFrame) (f : QFrame), v = s.advance a →
    v.Sends att before f behind → att.bitNow = some true →
    (f.losses + 1 < 16 → f.asked = .none →
      exec (.contentionLost a) s = .next { v with line := { v.line with
        phase := .receiving att.stamp, backoff := true
        queue := before ++ { f with underTx := false, losses := f.losses + 1 } :: behind } }) ∧
    (f.losses + 1 < 16 → v.line.waiting = [] → (∀ g ∈ before ++ behind, g.asked = .none) →
      (∀ lane, f.asked = .remove → f.payload = .claim lane →
        exec (.contentionLost a) s = .next { v with line := { v.line with
          phase := .receiving att.stamp, backoff := true, queue := before ++ behind } }) ∧
      (∀ m lead, f.asked = .convert lead → f.payload = .sight m →
        exec (.contentionLost a) s = .next { v with line := { v.line with
          phase := .receiving att.stamp, backoff := true
          queue := if m.samples = [] then before ++ behind else
            before ++ { payload := .join { item := m.item, lead := lead, samples := m.samples }, owner := f.owner
                        losses := f.losses + 1, underTx := false, asked := .none } :: behind } })) ∧
    (16 ≤ f.losses + 1 → v.sys.run = .running →
      ∃ t, exec (.contentionLost a) s = .next t ∧ t.line.phase = .receiving att.stamp ∧ t.line.backoff = true ∧
        t.report.counters.framesDropped = min 65535 (v.report.counters.framesDropped + 1)) ∧
    (16 ≤ f.losses + 1 → v.sys.run = .running → f.payload = .report → v.line.waiting = [] →
      exec (.contentionLost a) s = .next { v with
        line := { v.line with phase := .receiving att.stamp, backoff := true, queue := before ++ behind }
        report := { v.report with
          counters := { v.report.counters with framesDropped := min 65535 (v.report.counters.framesDropped + 1) }
          request := .none, clear := false } }) ∧
    ∀ (lost : List QFrame → State) (fresh : Payload → Owner → QFrame), 16 ≤ f.losses + 1 → v.sys.run = .running →
      v.line.waiting = [] → (before ++ behind).length < 8 → normalCount (before ++ behind) < 6 →
      lost = (fun q => { v with
        line := { v.line with phase := .receiving att.stamp, backoff := true, queue := q }
        report := { v.report with
          counters := { v.report.counters with framesDropped := min 65535 (v.report.counters.framesDropped + 1) } } }) →
      fresh = (fun p o => { payload := p, owner := o, losses := 0, underTx := false, asked := .none }) →
      (∀ sd c, c = v.claims.get sd → f.payload = .claim (v.lane sd) → f.owner = .side sd →
        exec (.contentionLost a) s = .next (lost (before ++ behind ++
          if c.state = .asking ∧ c.sent = false then [fresh (.claim (v.lane sd)) (.side sd)] else []))) ∧
      (∀ sd c, c = v.claims.get sd → f.payload = .release (v.lane sd) → f.owner = .side sd →
        exec (.contentionLost a) s = .next ((lost (before ++ behind)).setClaim sd { c with
          rest := if c.rest ≠ none then c.rest else
            if c.state = .resting .gap then some 20000 else
            if c.state = .resting .backOff then some ((v.sys.station.toNat + 1) * 5000) else none })) ∧
      (∀ m, f.payload = .join m → f.owner = .noRecord →
        exec (.contentionLost a) s = .next (lost (before ++ behind))) ∧
      (∀ r p x, v.record? x = some r → r.samples = [p] → p.station = v.sys.station.toNat → f.owner = .record x →
        (∀ m y patience, f.payload = .join m → m.item = x → m.samples = [⟨p.side, p.coil, p.strength, p.time⟩] →
          r.state = .joint y patience → (∀ g ∈ before ++ behind, ∀ n, g.payload = .join n → n.item ≠ x) →
          exec (.contentionLost a) s = .next ((lost (before ++ behind ++ [fresh (.join { m with lead := y }) (.record x)])).putRecord
            { r with samples := [{ p with flag := .queued }] })) ∧
        (∀ m, f.payload = .sight m → f.asked = .none → m.samples = [⟨p.side, p.coil, p.strength, p.time⟩] →
          (∀ g ∈ before ++ behind, ∀ n, g.payload = .sight n → n.item ≠ x) →
          (∀ waiting, r.state = .sole waiting →
            exec (.contentionLost a) s = .next ((lost (before ++ behind ++ [
              fresh (.sight { item := x, code := r.code, mark := r.mark, level := r.level, takeover := false, again := false
                              samples := m.samples }) (.record x)])).putRecord
              { r with samples := [{ p with flag := .queued }], state := .sole false })) ∧
          (∀ y patience, m.takeover = true → r.state = .joint y patience →
            exec (.contentionLost a) s = .next ((lost (before ++ behind ++ [
              fresh (.sight { item := x, code := r.code, mark := r.mark, level := r.level, takeover := true, again := false
                              samples := m.samples }) (.record x)])).putRecord
              { r with samples := [{ p with flag := .queued }] })))) ∧
      (∀ r waiting x m, v.record? x = some r → r.state = .sole waiting → f.payload = .sight m → f.owner = .record x →
        f.asked = .remove → (∀ g ∈ before ++ behind, ∀ n, g.payload = .sight n → n.item ≠ x) →
        (∀ g ∈ before ++ behind, g.owner ≠ .record x) →
        exec (.contentionLost a) s = .next (((lost (before ++ behind)).setTable (replaceRecord x none v.table)).count .samplesLost
          r.samples.length)) ∧
      (∀ r l d x again, v.record? x = some r → r.state = .lead l → f.payload = .decision ⟨x, d, again⟩ → f.owner = .record x →
        (again = false → d.verdict ∈ [.clear, .alarm, .inbound, .linger] → l.final ≠ none →
          (∀ g ∈ before ++ behind, ∀ n, g.payload = .decision n → n.item ≠ x) →
          exec (.contentionLost a) s = .next ((lost (before ++ behind ++ [
            fresh (.decision ⟨x, d, false⟩) (.record x)])).putRecord { r with state := .lead { l with owed := none } })) ∧
        (again = true ∨ d.verdict ∈ [.provisional, .withdraw] →
          exec (.contentionLost a) s = .next (lost (before ++ behind)))) ∧
      ∀ receiver tag x k u, f.payload = .query receiver tag x → f.owner = .slot k → (v.queries.slots.get k).use = some u →
        exec (.contentionLost a) s = .next (lost (before ++ behind ++
          if u.tag = tag then [fresh (.query v.sys.cfg.registry u.tag u.item) (.slot k)] else []))

/-- R35, R43, R73, R91, R98, R133: what the completion of a frame does to its owner. A side's own CLAIM starts its claim wait, in ASKING
only; its RELEASE starts the rest timer of a GAP or BACK-OFF rest; a DEFER and a QUERY change nothing; the samples of a JOIN that are still
in its record's list become SENT, whatever their flag by then. The line is at an idle moment and the back-off is cleared. -/
def Obligations.CompletionsTellTheirOwners : Prop :=
  ∀ (s v : State) (a : Nat) (att : Attempt) (before behind : List QFrame) (f : QFrame), v = s.advance a →
    v.Sends att before f behind → att.left = 0 →
    (∀ sd c lane, c = v.claims.get sd → f.owner = .side sd →
      (f.payload = .claim lane → c.state = .asking →
        ∃ t, exec (.transmitComplete a) s = .next t ∧ t.line.phase = .idle 0 ∧ t.line.backoff = false ∧
          t.claims = v.claims.set sd { c with sent := true, wait := some 3000 } ∧ t.sweeps = v.sweeps ∧ t.coils = v.coils) ∧
      (f.payload = .claim lane → c.state ≠ .asking →
        ∃ t, exec (.transmitComplete a) s = .next t ∧ t.line.phase = .idle 0 ∧ t.line.backoff = false ∧ t.claims = v.claims) ∧
      (f.payload = .release lane → c.rest = none → c.state = .resting .gap →
        ∃ t, exec (.transmitComplete a) s = .next t ∧ t.line.phase = .idle 0 ∧ t.line.backoff = false ∧
          t.claims = v.claims.set sd { c with rest := some 20000 }) ∧
      (f.payload = .release lane → c.rest = none → c.state = .resting .backOff →
        ∃ t, exec (.transmitComplete a) s = .next t ∧ t.line.phase = .idle 0 ∧ t.line.backoff = false ∧
          t.claims = v.claims.set sd { c with rest := some ((v.sys.station.toNat + 1) * 5000) })) ∧
    (v.line.waiting = [] →
      ((∃ lane, f.payload = .defer lane) ∨ (∃ receiver tag x, f.payload = .query receiver tag x) ∨
          (∃ m, f.payload = .join m ∧ f.owner = .noRecord) →
        exec (.transmitComplete a) s = .next { v with line := {
          phase := .idle 0, queue := before ++ behind, waiting := [], backoff := false } }) ∧
      ∀ m r p pre post, f.payload = .join m → f.owner = .record m.item → v.record? m.item = some r → r.samples = pre ++ p :: post →
        p.station = v.sys.station.toNat → m.samples = [⟨p.side, p.coil, p.strength, p.time⟩] →
        (p.flag = .queued ∧ (∀ q ∈ pre, q.flag ≠ .queued) ∨
          ∀ q ∈ pre ++ post, ¬ (q.station = p.station ∧ q.side = p.side ∧ q.coil = p.coil ∧ q.strength = p.strength ∧ q.time = p.time)) →
        exec (.transmitComplete a) s = .next ({ v with line := {
          phase := .idle 0, queue := before ++ behind, waiting := [], backoff := false } }.putRecord
            { r with samples := pre ++ { p with flag := .sent } :: post }))

/-- R75, R78, R79, R168, R38, R43: the queue at its limits. A POLL's REPORT, a normal frame, finding no room displaces the oldest JOIN that
is not under transmission, whose samples are counted lost and become SENT in its record, whatever their flag; with no such JOIN it is
refused and waits. When a frame completes, the waiting owners are asked again, the urgent ones first, each class in the order of refusal:
the first offer taken into a position ends the walk, an absorbed one does not, and an owner refused again keeps its place. -/
def Obligations.FullQueueDisplacesAJoinAndAsksInOrder : Prop :=
  (∀ (s v u : State) (a : Nat) (sender : Address) (stamp : Clock) (b : PollBody) (q : List QFrame), v = s.advance a →
    v.HearsDesk sender stamp → b.target = 255 → v.report.request = .none → ¬ v.NormalRoom →
    (∀ before f m behind, v.line.queue = before ++ f :: behind → f.payload = .join m → f.underTx = false →
      (∀ g ∈ before, isJoin g = true → g.underTx = true) →
      q = before ++ behind ++ [{ payload := .report, owner := .reportUnit, losses := 0, underTx := false, asked := .none }] →
      u = (((v.setPhase (.idle 0)).setQueue q).setWaiting (v.line.waiting.filter fun e => e ≠ .report)).setReport { v.report with
        request := .queued, clear := b.clear
        counters := { v.report.counters with samplesLost := min 65535 (v.report.counters.samplesLost + m.samples.length) } } →
      (f.owner = .noRecord → exec (.heardPoll a sender b) s = .next u) ∧
      (∀ r p pre post, f.owner = .record m.item → v.record? m.item = some r → r.samples = pre ++ p :: post →
        p.station = v.sys.station.toNat → m.samples = [⟨p.side, p.coil, p.strength, p.time⟩] →
        (p.flag = .queued ∧ (∀ q ∈ pre, q.flag ≠ .queued) ∨
          ∀ q ∈ pre ++ post, ¬ (q.station = p.station ∧ q.side = p.side ∧ q.coil = p.coil ∧ q.strength = p.strength ∧ q.time = p.time)) →
        exec (.heardPoll a sender b) s = .next (u.putRecord { r with samples := pre ++ { p with flag := .sent } :: post }))) ∧
    ((∀ g ∈ v.line.queue, isJoin g = true → g.underTx = true) → (.report) ∉ v.line.waiting →
      exec (.heardPoll a sender b) s = .next (((v.setPhase (.idle 0)).setWaiting (v.line.waiting ++ [.report])).setReport { v.report with
        request := .owed, clear := b.clear }))) ∧
  ∀ (s v u : State) (a lane : Nat) (att : Attempt) (before behind : List QFrame) (f : QFrame) (sd : Side), v = s.advance a →
    v.Sends att before f behind → att.left = 0 → f.payload = .defer lane →
    u = { v with line := { v.line with phase := .idle 0, queue := before ++ behind, backoff := false } } →
    (∀ w1 w2, v.line.waiting = w1 ++ .release sd :: w2 → (∀ e ∈ w1, e.urgent = false) → (before ++ behind).length < 8 →
      (∀ g ∈ before ++ behind, g.payload ≠ .release (v.lane sd)) →
      exec (.transmitComplete a) s = .next ((u.setQueue (before ++ behind ++ [
        { payload := .release (v.lane sd), owner := .side sd, losses := 0, underTx := false, asked := .none }])).setWaiting
          (v.line.waiting.filter fun e => e ≠ .release sd))) ∧
    (∀ w2 g, v.line.waiting = .defer sd :: .release sd :: w2 → g ∈ before ++ behind → g.payload = .defer (v.lane sd) →
      g.owner = .side sd → g.underTx = false → (before ++ behind).length < 8 →
      (∀ g ∈ before ++ behind, g.payload ≠ .release (v.lane sd)) →
      exec (.transmitComplete a) s = .next ((u.setQueue (before ++ behind ++ [
        { payload := .release (v.lane sd), owner := .side sd, losses := 0, underTx := false, asked := .none }])).setWaiting
          (v.line.waiting.filter fun e => e ≠ .defer sd && e ≠ .release sd))) ∧
    (∀ w2, v.line.waiting = .claim sd :: w2 → (∀ e ∈ w2, e.urgent = false) → (v.claims.get sd).state = .asking →
      (v.claims.get sd).sent = false → (before ++ behind).length < 8 → normalCount (before ++ behind) < 6 →
      exec (.transmitComplete a) s = .next ((u.setQueue (before ++ behind ++ [
        { payload := .claim (v.lane sd), owner := .side sd, losses := 0, underTx := false, asked := .none }])).setWaiting
          (v.line.waiting.filter fun e => e ≠ .claim sd))) ∧
    (6 ≤ normalCount (before ++ behind) → (∀ g ∈ before ++ behind, isJoin g = false) →
      (∀ e ∈ v.line.waiting, e = .report ∧ v.report.request = .owed ∨
        ∃ sd, e = .claim sd ∧ (v.claims.get sd).state = .asking ∧ (v.claims.get sd).sent = false) →
      exec (.transmitComplete a) s = .next u)

/-- R91, R99, R144, R147: completion of the SIGHT of a SOLE record makes it LEAD with a fresh context, to be judged later; completion of a
takeover SIGHT makes a JOINT record LEAD, judged at once: decided, or HELD. A carried sample still in the list becomes SENT, whatever its
flag by then. -/
def Obligations.SightCompletionMakesTheLead : Prop :=
  ∀ (s v : State) (a : Nat) (att : Attempt) (before behind : List QFrame) (f : QFrame) (m : SightMsg) (r : Record),
    v = s.advance a → v.Sends att before f behind → att.left = 0 → f.payload = .sight m → f.owner = .record m.item →
    v.record? m.item = some r →
    (∀ waiting, r.state = .sole waiting → dwellOf v.time.clock r.samples < v.sys.cfg.maxDwell →
      ∃ t r' l, exec (.transmitComplete a) s = .next t ∧ t.record? m.item = some r' ∧ r'.state = .lead l ∧
        l.stage = .openStage ∧ l.provSent = false ∧ l.slot = none ∧ l.quiet = some (v.sys.cfg.quiet * 1000) ∧
        l.provMade = false ∧ l.final = none ∧ r'.code = r.code ∧ r'.level = r.level ∧ r'.mark = r.mark ∧
        r'.created = r.created ∧ t.line.phase = .idle 0 ∧
        ∀ p, r.samples = [p] → p.station = v.sys.station.toNat → m.samples = [⟨p.side, p.coil, p.strength, p.time⟩] →
          r'.samples = [{ p with flag := .sent }]) ∧
    (∀ y patience, r.state = .joint y patience → m.takeover = true →
      ∃ t r' l, exec (.transmitComplete a) s = .next t ∧ t.record? m.item = some r' ∧ r'.state = .lead l ∧
        (l.final ≠ none ∨ ∃ p q e left, l.stage = .held p q e left) ∧ t.line.phase = .idle 0 ∧
        ∀ p, r.samples = [p] → p.station = v.sys.station.toNat → m.samples = [⟨p.side, p.coil, p.strength, p.time⟩] →
          r'.samples = [{ p with flag := .sent }])

/-- R106, R157: completion of the station's own DECIDE, not a repeat: a final one closes its LEAD record with what it carried and counts
LED, and ALARMS or LINGERS; a PROVISIONAL sets provisional-sent; a WITHDRAW is counted. -/
def Obligations.DecideCompletionClosesAndCounts : Prop :=
  ∀ (s v : State) (a : Nat) (att : Attempt) (before behind : List QFrame) (f : QFrame) (m : DecideMsg) (r : Record) (l : Lead),
    v = s.advance a → v.Sends att before f behind → att.left = 0 → f.payload = .decision m → f.owner = .record m.item →
    v.lead? m.item = some (r, l) → v.sys.run = .running → m.again = false →
    ∃ t r', exec (.transmitComplete a) s = .next t ∧ t.record? m.item = some r' ∧
      (m.decision.verdict ∈ [.clear, .alarm, .inbound, .linger] → r'.state = .closed m.decision v.time.clock) ∧
      (m.decision.verdict = .provisional → ∃ l', r'.state = .lead l' ∧ l'.provSent = true) ∧
      (m.decision.verdict = .withdraw → ∃ l', r'.state = .lead l' ∧ l'.provSent = l.provSent ∧ l'.stage = l.stage) ∧
      t.report.counters.led = (if m.decision.verdict ∈ [.clear, .alarm, .inbound, .linger]
        then min 65535 (v.report.counters.led + 1) else v.report.counters.led) ∧
      t.report.counters.alarms = (if m.decision.verdict = .alarm
        then min 65535 (v.report.counters.alarms + 1) else v.report.counters.alarms) ∧
      t.report.counters.lingers = (if m.decision.verdict = .linger
        then min 65535 (v.report.counters.lingers + 1) else v.report.counters.lingers) ∧
      t.report.counters.withdrawn = (if m.decision.verdict = .withdraw
        then min 65535 (v.report.counters.withdrawn + 1) else v.report.counters.withdrawn)

/-- R82 to R84, R86, R14: another station's preamble on an idle line is stamped with the clock, also at the slot boundary at which an own
attempt is due (the model's choice, log 39). At a frame's end a run of bytes that fails a structural check is discarded and counted; so is a
frame of any kind that fails the sender check; in CONFIG FAULT a frame of any kind but POLL is ignored and not counted. A QUERY or a REPORT
from a K16 of the row is accepted and ignored, and so are an ANSWER and a POLL for another station. -/
def Obligations.FramesAreStampedDiscardedOrIgnored : Prop :=
  ∀ (s v : State) (a : Nat), v = s.advance a →
    (∀ since, v.line.phase = .idle since → exec (.sofStamp a) s = .next (v.setPhase (.receiving v.time.clock))) ∧
    (∀ stamp raw, v.line.phase = .receiving stamp → v.sys.run = .running → checkRaw raw = none →
      exec (.badFrame a raw) s = .next ((v.setPhase (.idle 0)).setReport { v.report with
        counters := { v.report.counters with framesBad := min 65535 (v.report.counters.framesBad + 1) } })) ∧
    (∀ stamp (sender : Address) (b : Body), v.line.phase = .receiving stamp → v.sys.run = .running → sizeAllowed b = true →
      (if kindCode b < 64 then v.sys.cfg.n ≤ sender.toNat ∨ sender.toNat = v.sys.station.toNat else sender.toNat < 16) →
      exec (frameCommand a sender b) s = .next ((v.setPhase (.idle 0)).setReport { v.report with
        counters := { v.report.counters with framesBad := min 65535 (v.report.counters.framesBad + 1) } })) ∧
    (∀ stamp (sender : Address) (b : Body), v.line.phase = .receiving stamp → v.sys.run = .configFault →
      (∀ p, b ≠ .pollBody p) → exec (frameCommand a sender b) s = .next (v.setPhase (.idle 0))) ∧
    (∀ sender stamp b, v.HearsK16 sender stamp → exec (.heardQuery a sender b) s = .next (v.setPhase (.idle 0))) ∧
    (∀ sender stamp b, v.HearsK16 sender stamp → exec (.heardReport a sender b) s = .next (v.setPhase (.idle 0))) ∧
    (∀ sender stamp b, v.HearsDesk sender stamp → b.receiver.toNat ≠ v.sys.station.toNat →
      exec (.heardAnswer a sender b) s = .next (v.setPhase (.idle 0))) ∧
    (∀ sender stamp b, v.HearsDesk sender stamp → b.target.toNat ≠ v.sys.station.toNat → b.target ≠ 255 →
      exec (.heardPoll a sender b) s = .next (v.setPhase (.idle 0)))

/-- R69, R82, R87, R88: the receiver's structural checks read back every frame that a station sends, of every kind and allowed size. -/
def Obligations.ReceivedBytesGiveBackTheFrame : Prop :=
  ∀ f : Frame, sizeAllowed f.body = true → checkRaw { bytes := frameBytes f, badStop := false, partialByte := false } = some f

/-! ### Passage records (chapter 6) -/

/-- R92, R101, R80: a heard SIGHT for an item with no record gives its directory entry the sender and the time, as the newest, the oldest
of 64 making room; for a SOLE record it makes the record JOINT to the sender, with the SIGHT's issue mark. The record's queued SIGHT then
becomes a JOIN naming the sender, in its place, its samples and losses kept; one without samples leaves the queue. -/
def Obligations.HeardSightNamesTheLead : Prop :=
  ∀ (s v : State) (a : Nat) (sender : Address) (stamp : Clock) (b : SightBody) (others : List DirEntry), v = s.advance a →
    v.HearsK16 sender stamp → b.samples.length ≤ 4 → others = v.directory.filter (fun e => e.item ≠ b.item) →
    (v.record? b.item = none →
      exec (.heardSight a sender b) s = .next ((v.setPhase (.idle 0)).setDirectory
        ((if others.length = v.directory.length ∧ 64 ≤ v.directory.length then others.drop 1 else others) ++
          [⟨b.item, sender.toNat, v.time.clock⟩]))) ∧
    (∀ r waiting, v.record? b.item = some r → r.state = .sole waiting →
      ∃ t r', exec (.heardSight a sender b) s = .next t ∧ t.record? b.item = some r' ∧
        r'.state = .joint sender.toNat (some ((v.sys.cfg.maxDwell + 2560) * 1000)) ∧ r'.mark = b.mark ∧ r'.code = r.code ∧
        r'.level = r.level ∧ r'.created = r.created ∧ t.directory = v.directory ∧ t.line.phase = .idle 0) ∧
    (∀ r waiting before f m behind, v.record? b.item = some r → r.state = .sole waiting → v.line.queue = before ++ f :: behind →
      f.payload = .sight m → f.owner = .record b.item → f.underTx = false →
      (∀ g ∈ before ++ behind, isSight g = true → g.owner ≠ .record b.item) →
      (∀ q ∈ r.samples, q.station = v.sys.station.toNat → q.flag ≠ .unsent) →
      ∃ t, exec (.heardSight a sender b) s = .next t ∧
        (m.samples ≠ [] → t.line.queue = before ++
          { f with payload := .join { item := m.item, lead := sender.toNat, samples := m.samples }, asked := .none } :: behind) ∧
        (m.samples = [] → v.line.waiting = [] → t.line.queue = before ++ behind))

/-- R102, R103, R107, R109, R145: a heard SIGHT that finds a LEAD record makes it yield to a lower address while no PROVISIONAL of it has
gone out, and otherwise keeps the lead, answering with a repeat SIGHT unless the heard one is a repeat; its mark is taken, and a sample
that it carries is added to the list and restarts the quiet timer. A JOINT record takes the sender as its lead; a CLOSED record with no
DECIDE queued or waiting answers with a repeat DECIDE. -/
def Obligations.HeardSightAtADecidingRecord : Prop :=
  ∀ (s v : State) (a : Nat) (sender : Address) (stamp : Clock) (b : SightBody) (r : Record), v = s.advance a →
    v.HearsK16 sender stamp → b.samples.length ≤ 4 → v.record? b.item = some r →
    (∀ l, r.state = .lead l → sender.toNat < v.sys.station.toNat → l.provSent = false →
      ∃ t r', exec (.heardSight a sender b) s = .next t ∧ t.record? b.item = some r' ∧
        r'.state = .joint sender.toNat (some ((v.sys.cfg.maxDwell + 2560) * 1000)) ∧ r'.mark = b.mark) ∧
    (∀ l, r.state = .lead l → (v.sys.station.toNat ≤ sender.toNat ∨ l.provSent = true) →
      (b.again = true → b.samples = [] →
        exec (.heardSight a sender b) s = .next ((v.setPhase (.idle 0)).putRecord { r with mark := b.mark })) ∧
      (b.again = false →
        ∃ t r' l', exec (.heardSight a sender b) s = .next t ∧ t.record? b.item = some r' ∧ r'.state = .lead l' ∧ r'.mark = b.mark ∧
          (b.samples = [] → l' = l ∧ t.SightOffered b.item)) ∧
      (∀ w, b.again = true → b.samples = [w] → l.final ≠ none → l.stage = .openStage → r.samples.length < 16 →
        v.report.counters.samplesLost ≤ 65535 →
        (∀ e ∈ r.samples, ¬ (e.station = sender.toNat ∧ e.side = w.side ∧ e.coil = w.coil ∧ e.strength = w.strength)) →
        exec (.heardSight a sender b) s = .next ((v.setPhase (.idle 0)).putRecord { r with
          mark := b.mark, state := .lead { l with quiet := some (v.sys.cfg.quiet * 1000) }
          samples := r.samples ++ [⟨sender.toNat, w.side, w.coil, w.strength, stamp - w.age.setWidth 16, .sent⟩] }))) ∧
    (∀ y patience, r.state = .joint y patience →
      ∃ t r', exec (.heardSight a sender b) s = .next t ∧ t.record? b.item = some r' ∧
        r'.state = .joint sender.toNat (some ((v.sys.cfg.maxDwell + 2560) * 1000)) ∧ r'.mark = b.mark) ∧
    (∀ d close, r.state = .closed d close → v.line.queue.length < 8 → (.decision b.item) ∉ v.line.waiting →
      (∀ f ∈ v.line.queue, ∀ m, f.payload = .decision m → m.item ≠ b.item ∧ f.owner ≠ .record b.item) →
      exec (.heardSight a sender b) s = .next ((v.setPhase (.idle 0)).setQueue (v.line.queue ++ [
        { payload := .decision { item := b.item, decision := d, again := true }, owner := .record b.item, losses := 0
          underTx := false, asked := .none }])))

/-- R103, R92, R94: a heard JOIN that names no possible lead is ignored, as is one for a CLOSED record; one for an item with no record
refreshes its directory entry, which keeps its lead, or makes one. A JOIN naming another station makes a SOLE record JOINT to it, and a
LEAD record yield to it or re-assert as for a SIGHT from it. At a record that stays as it is (JOINT; SOLE where the JOIN names this
station) with room in its list, a sample that is no copy is appended with the sender as its station and its local time. -/
def Obligations.HeardJoinIsTakenByTheRecord : Prop :=
  ∀ (s v : State) (a : Nat) (sender : Address) (stamp : Clock) (b : JoinBody) (others : List DirEntry), v = s.advance a →
    v.HearsK16 sender stamp → 1 ≤ b.samples.length → b.samples.length ≤ 4 →
    others = v.directory.filter (fun e => e.item ≠ b.item) →
    (v.sys.cfg.n ≤ b.lead.toNat ∨ b.lead.toNat = sender.toNat →
      exec (.heardJoin a sender b) s = .next (v.setPhase (.idle 0))) ∧
    (∀ r d close, v.record? b.item = some r → r.state = .closed d close →
      exec (.heardJoin a sender b) s = .next (v.setPhase (.idle 0))) ∧
    (∀ e, b.lead.toNat < v.sys.cfg.n → b.lead.toNat ≠ sender.toNat → v.record? b.item = none →
      v.directory.find? (fun e => e.item == b.item) = some e →
      exec (.heardJoin a sender b) s =
        .next ((v.setPhase (.idle 0)).setDirectory (others ++ [⟨b.item, e.lead, v.time.clock⟩]))) ∧
    (b.lead.toNat < v.sys.cfg.n → b.lead.toNat ≠ sender.toNat → v.record? b.item = none →
      others.length = v.directory.length →
      exec (.heardJoin a sender b) s = .next ((v.setPhase (.idle 0)).setDirectory
        ((if 64 ≤ v.directory.length then others.drop 1 else others) ++ [⟨b.item, b.lead.toNat, v.time.clock⟩]))) ∧
    (∀ r waiting, b.lead.toNat < v.sys.cfg.n → b.lead.toNat ≠ sender.toNat → v.record? b.item = some r → r.state = .sole waiting →
      b.lead.toNat ≠ v.sys.station.toNat →
      ∃ t r', exec (.heardJoin a sender b) s = .next t ∧ t.record? b.item = some r' ∧
        r'.state = .joint b.lead.toNat (some ((v.sys.cfg.maxDwell + 2560) * 1000)) ∧ r'.mark = r.mark ∧ r'.created = r.created) ∧
    (∀ r l, b.lead.toNat < v.sys.cfg.n → b.lead.toNat ≠ sender.toNat → v.record? b.item = some r → r.state = .lead l →
      b.lead.toNat ≠ v.sys.station.toNat →
      (b.lead.toNat < v.sys.station.toNat → l.provSent = false →
        ∃ t r', exec (.heardJoin a sender b) s = .next t ∧ t.record? b.item = some r' ∧
          r'.state = .joint b.lead.toNat (some ((v.sys.cfg.maxDwell + 2560) * 1000)) ∧ r'.mark = r.mark) ∧
      (v.sys.station.toNat < b.lead.toNat ∨ l.provSent = true → l.stage = .openStage → l.final ≠ none →
        ∃ t r' l', exec (.heardJoin a sender b) s = .next t ∧ t.record? b.item = some r' ∧ r'.state = .lead l' ∧
          r'.mark = r.mark ∧ t.SightOffered b.item)) ∧
    (∀ r w, b.lead.toNat < v.sys.cfg.n → b.lead.toNat ≠ sender.toNat → v.record? b.item = some r →
      ((∃ y patience, r.state = .joint y patience) ∨ (∃ waiting, r.state = .sole waiting) ∧ b.lead.toNat = v.sys.station.toNat) →
      b.samples = [w] → r.samples.length < 16 → v.report.counters.samplesLost ≤ 65535 →
      (∀ e ∈ r.samples, ¬ (e.station = sender.toNat ∧ e.side = w.side ∧ e.coil = w.coil ∧ e.strength = w.strength)) →
      exec (.heardJoin a sender b) s = .next ((v.setPhase (.idle 0)).putRecord { r with
        samples := r.samples ++ [⟨sender.toNat, w.side, w.coil, w.strength, stamp - w.age.setWidth 16, .sent⟩] }))

/-- R104, R105: a heard final DECIDE closes the item's record, whatever its state but CLOSED, with what it carries and now as its close
time; with no record it removes the directory entry. A PROVISIONAL or a WITHDRAW changes no record, whether or not the item has one, and
refreshes the entry if there is one; a PROVISIONAL, which may have a side ask for its lane, leaves the records as they were but for the
sent flags of a JOIN that the CLAIM displaces (R78). -/
def Obligations.HeardDecideClosesThePassage : Prop :=
  ∀ (s v : State) (a : Nat) (sender : Address) (stamp : Clock) (b : DecideBody) (d : Decision), v = s.advance a →
    v.HearsK16 sender stamp →
    d = ⟨b.verdict, b.reason, b.laneA.toNat, if b.laneB = 255 then none else some b.laneB.toNat⟩ →
    (∀ r, b.verdict ∈ [.clear, .alarm, .inbound, .linger] → v.record? b.item = some r →
      (∀ d' close, r.state ≠ .closed d' close) →
      ∃ t r', exec (.heardDecide a sender b) s = .next t ∧ t.record? b.item = some r' ∧ r'.state = .closed d v.time.clock ∧
        r'.mark = r.mark ∧ r'.samples.length = r.samples.length ∧ t.directory = v.directory) ∧
    (∀ r d' close, b.verdict ∈ [.clear, .alarm, .inbound, .linger] → v.record? b.item = some r → r.state = .closed d' close →
      ∃ t, exec (.heardDecide a sender b) s = .next t ∧ t.table = v.table ∧ t.directory = v.directory) ∧
    (b.verdict ∈ [.clear, .alarm, .inbound, .linger] → v.record? b.item = none →
      ∃ t, exec (.heardDecide a sender b) s = .next t ∧ t.table = v.table ∧
        t.directory = v.directory.filter fun e => e.item ≠ b.item) ∧
    (b.verdict ∈ [.provisional, .withdraw] →
      ∃ t, exec (.heardDecide a sender b) s = .next t ∧
        (∀ e, v.directory.find? (fun e => e.item == b.item) = some e →
          t.directory = (v.directory.filter fun e => e.item ≠ b.item) ++ [⟨b.item, e.lead, v.time.clock⟩]) ∧
        (v.directory.find? (fun e => e.item == b.item) = none → t.directory = v.directory) ∧
        (b.verdict = .withdraw → t.table = v.table) ∧
        ∀ x (bare : Record → Record), bare = (fun r => { r with samples := r.samples.map fun q => { q with flag := SentFlag.sent } }) →
          (t.record? x).map bare = (v.record? x).map bare)

/-- R92, R100, R108, R110: the expiries of the Passage Engine. A directory entry leaves; a CLOSED record becomes FREE; a SOLE record, its
SIGHT not under transmission, becomes FREE: its SIGHT leaves the queue and its samples are counted lost; while its SIGHT is under
transmission the removal waits there and nothing else changes. A JOINT record queues a takeover SIGHT, its patience timer stopped: it
carries the 4 strongest own samples of the list, or all where there are fewer, ties going to the earlier time and then to the place
nearer the start. -/
def Obligations.PassageExpiriesFreeOrTakeOver : Prop :=
  ∀ (s v : State) (a : Nat) (x : Item), v = s.advance a →
    (∀ e, v.directory.find? (fun e => e.item == x) = some e → v.sys.cfg.maxDwell + 2560 ≤ (v.time.clock - e.heard).toNat →
      exec (.directoryExpiry a x) s = .next (v.setDirectory (v.directory.filter fun e => e.item ≠ x))) ∧
    (∀ r d close, v.record? x = some r → r.state = .closed d close →
      v.sys.cfg.closeHold ≤ (v.time.clock - close).toNat →
      ∃ t, exec (.closeHoldEnd a x) s = .next t ∧ t.record? x = none ∧ (.decision x) ∉ t.line.waiting ∧
        t.line.queue.map QFrame.payload = v.line.queue.map QFrame.payload ∧ t.report = v.report ∧
        ∀ y, y ≠ x → t.record? y = v.record? y) ∧
    (∀ r waiting, v.record? x = some r → r.state = .sole waiting → v.sys.run = .running →
      v.sys.cfg.maxDwell + 2560 ≤ (v.time.clock - r.created).toNat → (∀ f ∈ v.line.queue, f.underTx = false) →
      v.line.waiting = [] → v.line.queue.length ≤ 8 →
      ∃ t, exec (.solePatienceEnd a x) s = .next t ∧ t.record? x = none ∧
        t.line.queue.map QFrame.payload = (v.line.queue.filter fun f => f.owner ≠ .record x || !isSight f).map QFrame.payload ∧
        t.report.counters.samplesLost = min 65535 (v.report.counters.samplesLost + r.samples.length) ∧
        ∀ y, y ≠ x → t.record? y = v.record? y) ∧
    (∀ r waiting att before f behind m, v.record? x = some r → r.state = .sole waiting →
      v.sys.cfg.maxDwell + 2560 ≤ (v.time.clock - r.created).toNat → v.Sends att before f behind →
      (∀ g ∈ behind, g.underTx = false) → f.payload = .sight m → f.owner = .record x →
      exec (.solePatienceEnd a x) s = .next (v.setQueue (before ++ { f with asked := .remove } :: behind))) ∧
    (∀ r y, v.record? x = some r → r.state = .joint y (some 0) → v.NormalRoom →
      (∀ f ∈ v.line.queue, ∀ m, f.payload = .sight m → m.item ≠ x) →
      ∃ t r' m, exec (.patienceTimerEnd a x) s = .next t ∧ t.record? x = some r' ∧ r'.state = .joint y none ∧
        t.line.queue = v.line.queue ++ [
          { payload := .sight m, owner := .record x, losses := 0, underTx := false, asked := .none }] ∧
        m.item = x ∧ m.code = r.code ∧ m.level = r.level ∧ m.mark = r.mark ∧ m.takeover = true ∧ m.again = false ∧
        ∀ own : List Sample, own = r.samples.filter (fun p => p.station == v.sys.station.toNat) →
          ∃ places : List Nat, places.Nodup ∧ places.length = min 4 own.length ∧
            m.samples.map some = places.map (fun i => own[i]?.map fun p => ⟨p.side, p.coil, p.strength, p.time⟩) ∧
            ∀ i ∈ places, ∀ j p q, j ∉ places → own[i]? = some p → own[j]? = some q →
              q.strength.toNat < p.strength.toNat ∨ q.strength = p.strength ∧
                ((v.time.clock - q.time).toNat < (v.time.clock - p.time).toNat ∨ q.time = p.time ∧ i < j))

/-! ### Lane and direction estimation (chapter 7) -/

/-- R115 to R118: lane A is the lowest-numbered lane of the greatest score, and the signal is present exactly when that score is above 0.
A score is the sum, over the samples of the lane, of the strength above the noise floor; a list of at most 16 samples scores at most 4080
in any lane. With the signal present, lane B is the lowest-numbered other lane of the second score, exactly when that score is above 0 and
less than the lane margin behind. With the signal absent the result is that of R114: lane A 0, lane B none, UNDETERMINED. -/
def Obligations.LanesAAndBHaveTheGreatestScores : Prop :=
  ∀ (c : Config) (now : Clock) (ps : List Sample) (S : Nat → Nat) (e : Estimate), e = estimate c now ps →
    S = (fun j => ((ps.filter fun p => (match p.side with
      | .L => p.station
      | .R => p.station + 1) == j).map fun p => p.strength.toNat - c.noiseFloor).sum) →
    (e.signal = true ↔ ∃ j, j ≤ c.n ∧ 0 < S j) ∧
    e.laneA ≤ c.n ∧
    (∀ j, j ≤ c.n → S j ≤ S e.laneA ∧ (j < e.laneA → S j < S e.laneA)) ∧
    (ps.length ≤ 16 → ∀ j, S j ≤ 4080) ∧
    (∀ j, 2 ≤ c.n → e.signal = true →
      (e.laneB = some j ↔ j ≤ c.n ∧ j ≠ e.laneA ∧ 0 < S j ∧ S e.laneA - S j < c.margin ∧
        ∀ i, i ≤ c.n → i ≠ e.laneA → S i ≤ S j ∧ (i < j → S i < S j))) ∧
    (e.signal = false → e = ⟨false, 0, none, .undetermined⟩)

/-- R119: the origin is the time of the sample of greatest elapsed time, the first of them in the list; an elapsed time of 61,440 or more
is taken as 0. -/
def Obligations.OriginIsTheOldestSample : Prop :=
  ∀ (now : Clock) (ps : List Sample) (E : Sample → Nat),
    E = (fun p => if 61440 ≤ (now - p.time).toNat then 0 else (now - p.time).toNat) → ps ≠ [] →
    ∃ before p behind, ps = before ++ p :: behind ∧ originOf now ps = some p.time ∧ (∀ q ∈ before, E q < E p) ∧
      ∀ q ∈ behind, E q ≤ E p

/-- R122: a centroid is the weighted mean of the relative times rounded half up, and lies within 0 to 4095; a face with a single sample
of weight above 0 has that sample's relative time; over at most 16 samples every sum stays below 16,709,641. -/
def Obligations.CentroidRoundsTheWeightedMeanHalfUp : Prop :=
  ∀ (floor : Nat) (origin : Clock) (ps : List Sample) (W N : Nat), W = totalWeight floor ps → 0 < W →
    N = (ps.map fun p => p.weight floor * relativeTime origin p.time).sum →
    2 * N < (2 * centroid floor origin ps + 1) * W ∧ 2 * centroid floor origin ps * W ≤ 2 * N + W ∧
    centroid floor origin ps ≤ 4095 ∧ (ps.length ≤ 16 → N + W / 2 < 16709641) ∧
    ∀ p ∈ ps, 0 < p.weight floor → (∀ q ∈ ps, 0 < q.weight floor → q = p) →
      centroid floor origin ps = relativeTime origin p.time

/-- R121, R123: with the signal present, a face of the direction lanes without weight leaves the direction UNDETERMINED; otherwise the
outer centroid less the inner one, within −4095 to 4095, is compared with the threshold. -/
def Obligations.DirectionComparesTheCentroids : Prop :=
  ∀ (c : Config) (now o : Clock) (ps inner outer : List Sample) (e : Estimate), e = estimate c now ps → e.signal = true →
    originOf now ps = some o → 1 ≤ c.threshold →
    inner = (ps.filter fun p => (p.lane = e.laneA ∨ some p.lane = e.laneB) ∧ (p.coil = 0 ∨ p.coil = 1)) →
    outer = (ps.filter fun p => (p.lane = e.laneA ∨ some p.lane = e.laneB) ∧ (p.coil = 2 ∨ p.coil = 3)) →
    (totalWeight c.noiseFloor inner = 0 ∨ totalWeight c.noiseFloor outer = 0 → e.direction = .undetermined) ∧
    (0 < totalWeight c.noiseFloor inner → 0 < totalWeight c.noiseFloor outer →
      ∀ D : Int, D = (centroid c.noiseFloor o outer : Int) - centroid c.noiseFloor o inner →
        -4095 ≤ D ∧ D ≤ 4095 ∧ (e.direction = .outbound ↔ (c.threshold : Int) ≤ D) ∧ (e.direction = .inbound ↔ D ≤ -(c.threshold : Int)) ∧
        (e.direction = .undetermined ↔ -(c.threshold : Int) < D ∧ D < c.threshold))

/-! ### Issue status (chapter 8) -/

/-- R125, R127: an accepted ISSUE or RETURN leaves each item it names in the cache with its status and age 0; for one item the item's entry
takes the newest end, the oldest of 512 making room only for an item that had none. R126, R151, R156: the item's LEAD record is told. With
no such record, or one in OPEN, nothing else changes; a HELD one is settled, by the mark or the notice, or as RETURNED, its slot freed;
for a PROVISIONAL one the checks are looked up again: anything but ALARM offers a WITHDRAW with the provisional lanes. -/
def Obligations.NoticesEnterTheCacheAndAreTold : Prop :=
  ∀ (s v : State) (a : Nat) (sender : Address) (stamp : Clock) (items : List Item), v = s.advance a →
    v.HearsDesk sender stamp → 1 ≤ items.length → items.length ≤ 8 → v.cache.length ≤ 512 →
    (∃ t, exec (.heardIssue a sender items) s = .next t ∧ t.cache.length ≤ 512 ∧
      ∀ x ∈ items, t.cache.find? (fun e => e.item == x) = some ⟨x, .issued, 0⟩) ∧
    (∃ t, exec (.heardReturn a sender items) s = .next t ∧ t.cache.length ≤ 512 ∧
      ∀ x ∈ items, t.cache.find? (fun e => e.item == x) = some ⟨x, .returned, 0⟩) ∧
    ∀ x cmd st others cache, items = [x] → (cmd = .heardIssue a sender items ∧ st = .issued ∨ cmd = .heardReturn a sender items ∧ st = .returned) →
      others = v.cache.filter (fun e => e.item ≠ x) →
      cache = (if others.length = v.cache.length ∧ 512 ≤ v.cache.length then others.drop 1 else others) ++ [⟨x, st, 0⟩] →
      (v.lead? x = none → exec cmd s = .next ((v.setPhase (.idle 0)).setCache cache)) ∧
      ∀ r l, v.lead? x = some (r, l) →
        (l.stage = .openStage → exec cmd s = .next ((v.setPhase (.idle 0)).setCache cache)) ∧
        (∀ laneA laneB e left d, l.stage = .held laneA laneB e left →
          d = (if st = .returned then ⟨.alarm, .returned, laneA, laneB⟩
            else ⟨.clear, if r.mark = .issued then .issuedMark else .issuedNotice, laneA, laneB⟩) →
          ∃ t r' l', exec cmd s = .next t ∧ t.cache = cache ∧ t.record? x = some r' ∧ r'.state = .lead l' ∧ l'.stage = .openStage ∧
            l'.final = some d ∧ t.DecideOffered x d l' ∧
            (l.slot = none → x ∉ t.queries.wait) ∧
            (∀ k seq u, l.slot = some k → v.queries.slots.get k = ⟨seq, some u⟩ → v.queries.wait = [] →
              t.queries.slots.get k = ⟨seq + 1, none⟩)) ∧
        (∀ checked verdict reason lanes, l.stage = .provisional → l.final = none → l.provLanes = some lanes →
          checked = resultChecks v.sys.cfg v.hall.level r.code r.level (estimate v.sys.cfg v.time.clock r.samples) →
          ((∃ d, checked = .decided d ∧ verdict = d.verdict ∧ reason = d.reason) ∨
            (∃ e, checked = .toIssue e) ∧ (st = .returned ∧ verdict = .alarm ∧ reason = .returned ∨
              st = .issued ∧ verdict = .clear ∧ reason = if r.mark = .issued then .issuedMark else .issuedNotice)) →
          (verdict = .alarm → exec cmd s = .next ((v.setPhase (.idle 0)).setCache cache)) ∧
          (verdict ≠ .alarm →
            ∃ t r' l', exec cmd s = .next t ∧ t.cache = cache ∧ t.record? x = some r' ∧ r'.state = .lead l' ∧ l'.stage = .openStage ∧
              l'.final = none ∧ t.DecideOffered x ⟨.withdraw, reason, lanes.1, lanes.2⟩ l'))

/-- R5, R128: at a seconds tick the seconds count advances and wraps, the tick's timer restarts, every entry of a cache kept in order of
age ages by 1, and exactly those whose age has then reached the lifetime leave. That they leave at SECONDS_TICK already, and that
NOTICE_EXPIRY is the removal alone, is the model's deduction (log 14). -/
def Obligations.SecondsTickAgesAndExpiresNotices : Prop :=
  ∀ (s v : State) (a : Nat), v = s.advance a → (v.cache.Pairwise fun e f => f.age ≤ e.age) →
    (v.time.secondTimer = some 0 →
      exec (.secondsTick a) s = .next { v with
        time := { v.time with seconds := v.time.seconds + 1, secondTimer := some 1000000 }
        cache := (v.cache.map fun e => { e with age := e.age + 1 }).filter fun e => e.age < v.sys.cfg.lifetime * 60 }) ∧
    exec (.noticeExpiry a) s = .next { v with cache := v.cache.filter fun e => e.age < v.sys.cfg.lifetime * 60 }

/-- R134, R135, R151, R153: an ANSWER that matches frees its slot and settles its HELD record by the status it carries, except where the
tag's own mark or a RETURN notice decides. -/
def Obligations.MatchingAnswerSettlesTheHeldRecord : Prop :=
  ∀ (s v : State) (a : Nat) (sender : Address) (stamp : Clock) (b : AnswerBody) (k seq : BitVec 2) (pos : Nat) (r : Record)
    (l : Lead) (laneA : Nat) (laneB : Option Nat) (e : ClassEntry) (left : Nat) (entry : Option NoticeStatus),
    v = s.advance a → v.HearsDesk sender stamp → b.receiver.toNat = v.sys.station.toNat →
    b.tag.toNat < 16 → k = BitVec.ofNat 2 (b.tag.toNat / 4) →
    v.queries.slots.get k = ⟨seq, some ⟨b.item, pos, b.tag.toNat⟩⟩ → v.queries.wait = [] →
    v.lead? b.item = some (r, l) → l.stage = .held laneA laneB e left → l.slot = some k →
    entry = (v.cache.find? fun n => n.item == b.item).map Notice.status →
    ∃ t r' l' d, exec (.heardAnswer a sender b) s = .next t ∧ t.queries.slots.get k = ⟨seq + 1, none⟩ ∧
      t.record? b.item = some r' ∧ r'.state = .lead l' ∧ l'.slot = none ∧ l'.stage = .openStage ∧ l'.final = some d ∧
      d.laneA = laneA ∧ d.laneB = laneB ∧
      (b.status = .issued → b.error = false → r.mark = .notIssued →
        (d.verdict, d.reason) = (.clear, .issuedAnswer)) ∧
      (¬ (b.status = .issued ∧ b.error = false) → entry = some .returned → (d.verdict, d.reason) = (.alarm, .returned)) ∧
      (¬ (b.status = .issued ∧ b.error = false) → r.mark = .issued → entry ≠ some .returned →
        (d.verdict, d.reason) = (.clear, .issuedMark)) ∧
      (b.status = .notIssued → b.error = false → r.mark = .notIssued → entry ≠ some .returned →
        (d.verdict, d.reason) = (.alarm, .unissued)) ∧
      (b.status = .unknown ∨ b.error = true → r.mark = .notIssued → entry ≠ some .returned →
        d.reason = .noAnswer ∧ d.verdict = (if e.policy = .alarm then .alarm else .clear))

/-- R136: an ANSWER for this station that matches no WAITING slot is discarded and counted once: no slot, entry or record changes. -/
def Obligations.AnswersThatMatchNoSlotAreDiscarded : Prop :=
  ∀ (s v : State) (a : Nat) (sender : Address) (stamp : Clock) (b : AnswerBody), v = s.advance a →
    v.HearsDesk sender stamp → b.receiver.toNat = v.sys.station.toNat →
    (16 ≤ b.tag.toNat ∨ (v.queries.slots.get (BitVec.ofNat 2 (b.tag.toNat / 4))).use = none ∨
      (∃ u, (v.queries.slots.get (BitVec.ofNat 2 (b.tag.toNat / 4))).use = some u ∧
        (u.tag ≠ b.tag.toNat ∨ u.item ≠ b.item))) →
    exec (.heardAnswer a sender b) s = .next ((v.setPhase (.idle 0)).setReport { v.report with
      counters := { v.report.counters with answersMissed := min 65535 (v.report.counters.answersMissed + 1) } })

/-! ### Verdicts (chapter 9) -/

/-- R148, R149: the steps and class checks on a result, the first that applies deciding; R129: the issue status by the tag's mark, the
cache's entry for the item and the registry address. -/
def Obligations.ChecksAndIssueStatusFollowTheirTables : Prop :=
  (∀ reg, issueStatus .issued (some .issued) reg = .byMark ∧ issueStatus .issued none reg = .byMark ∧
    issueStatus .issued (some .returned) reg = .returned ∧ issueStatus .notIssued (some .issued) reg = .byNotice ∧
    issueStatus .notIssued (some .returned) reg = .returned) ∧
  (∀ reg, 16 ≤ reg → reg ≤ 30 → issueStatus .notIssued none reg = .ask) ∧
  issueStatus .notIssued none 31 = .unissued ∧
  (∀ (s : State) (r : Record), s.issueStatusOf r =
    issueStatus r.mark ((s.cache.find? fun e => e.item == r.item).map Notice.status) s.sys.cfg.registry) ∧
  ∀ (c : Config) (hall level : BitVec 2) (code : Byte) (e : Estimate) (k : ClassEntry),
    (e.signal = false → resultChecks c hall code level e = .decided ⟨.linger, .noSignal, 0, none⟩) ∧
    (e.signal = true →
      (e.direction = .inbound → resultChecks c hall code level e = .decided ⟨.inbound, .none, e.laneA, e.laneB⟩) ∧
      (e.direction = .undetermined →
        resultChecks c hall code level e = .decided ⟨.linger, .noDirection, e.laneA, e.laneB⟩) ∧
      (e.direction = .outbound → c.classLimit ≤ code.toNat →
        resultChecks c hall code level e = .decided ⟨.alarm, .classUnknown, e.laneA, e.laneB⟩) ∧
      (e.direction = .outbound → code.toNat < c.classLimit → c.classes[code.toNat]? = some k →
        (k.present = false → resultChecks c hall code level e = .decided ⟨.alarm, .classAbsent, e.laneA, e.laneB⟩) ∧
        (k.present = true →
          (k.kind = .reference → resultChecks c hall code level e = .decided ⟨.alarm, .reference, e.laneA, e.laneB⟩) ∧
          (k.kind = .restricted → k.level.toNat < hall.toNat →
            resultChecks c hall code level e = .decided ⟨.alarm, .hallLevel, e.laneA, e.laneB⟩) ∧
          (k.kind = .openClass → level.toNat ≤ k.level.toNat → hall.toNat ≤ k.level.toNat →
            resultChecks c hall code level e = .decided ⟨.clear, .exempt, e.laneA, e.laneB⟩) ∧
          (k.kind = .lending ∨ (k.kind = .restricted ∧ hall.toNat ≤ k.level.toNat) ∨
              (k.kind = .openClass ∧ (k.level.toNat < level.toNat ∨ k.level.toNat < hall.toNat)) →
            resultChecks c hall code level e = .toIssue k))))

/-- R145 to R150, R153, R130 to R133: the quiet timer's expiry, or the dwell reaching the maximum, at an undecided record judges it. A
decision, of the checks on the result, of the issue check, or of the unknown policy of a class that does not hold, is kept and its DECIDE
queued, or waits; a status that must be asked for puts the record in HELD with the class's hold limit, and the lowest-numbered FREE slot
becomes WAITING for it and offers its QUERY, or with none FREE the record joins the slot-wait list. A record already decided or HELD is
not judged. -/
def Obligations.FinalEvaluationDecidesOrHolds : Prop :=
  ∀ (s v : State) (a : Nat) (x : Item) (r : Record) (l : Lead) (c : Instr) (e : Estimate) (checked : Checked) (st : IssueStatus),
    v = s.advance a → v.lead? x = some (r, l) → e = estimate v.sys.cfg v.time.clock r.samples →
    checked = resultChecks v.sys.cfg v.hall.level r.code r.level e →
    st = issueStatus r.mark ((v.cache.find? fun n => n.item == r.item).map Notice.status) v.sys.cfg.registry →
    (c = .quietTimerEnd a x ∧ l.quiet = some 0 ∨ c = .dwellReached a x ∧ v.sys.cfg.maxDwell ≤ dwellOf v.time.clock r.samples) →
    (l.final = none → (l.stage = .openStage ∨ l.stage = .provisional) →
      (∀ d, (checked = .decided d ∨
          ∃ k, checked = .toIssue k ∧ d.laneA = e.laneA ∧ d.laneB = e.laneB ∧
            (st = .byMark ∧ (d.verdict, d.reason) = (.clear, .issuedMark) ∨
              st = .byNotice ∧ (d.verdict, d.reason) = (.clear, .issuedNotice) ∨
              st = .unissued ∧ (d.verdict, d.reason) = (.alarm, .unissued) ∨
              st = .returned ∧ (d.verdict, d.reason) = (.alarm, .returned) ∨
              st = .ask ∧ k.holdValue = 0 ∧ k.granularity = .fine ∧
                (d.verdict, d.reason) = (if k.policy = .alarm then .alarm else .clear, .noAnswer))) →
        ∃ t r' l', exec c s = .next t ∧ t.record? x = some r' ∧ r'.state = .lead l' ∧ l'.stage = .openStage ∧ l'.final = some d ∧
          t.DecideOffered x d l') ∧
      (∀ k, checked = .toIssue k → st = .ask → k.holdValue ≠ 0 ∨ k.granularity = .coarse →
        ∃ t r' l', exec c s = .next t ∧ t.record? x = some r' ∧ r'.state = .lead l' ∧ l'.final = none ∧
          l'.stage = .held e.laneA e.laneB k
            ((if k.granularity = .fine then k.holdValue.toNat else k.holdValue.toNat * 8 + 7) * 1000) ∧
          (∀ j seq i, l.slot = none → x ∉ v.queries.wait → v.queries.slots.get j = ⟨seq, none⟩ →
            (∀ i, i.toNat < j.toNat → (v.queries.slots.get i).use ≠ none) →
            v.table[i]? = some (some r) → (∀ n, n < i → ∀ r0, v.table[n]? = some (some r0) → r0.item ≠ x) →
            l'.slot = some j ∧ t.queries = { v.queries with
              slots := v.queries.slots.set j ⟨seq, some ⟨x, i, j.toNat * 4 + seq.toNat⟩⟩ } ∧
            t.QueryOffered j (j.toNat * 4 + seq.toNat) x) ∧
          (l.slot = none → x ∉ v.queries.wait → (∀ j, (v.queries.slots.get j).use ≠ none) →
            l'.slot = none ∧ t.queries = { v.queries with wait := v.queries.wait ++ [x] }))) ∧
    (l.final ≠ none ∨ (∃ p q k left, l.stage = .held p q k left) →
      exec c s = .next (if c = .quietTimerEnd a x then v.putLead r { l with quiet := none } else v))

/-- R109, R145, R146, R151, R154, R155: a sample that a heard JOIN adds to the list of a LEAD record. The quiet timer restarts. An OPEN
record whose provisional check is due and gives ALARM for UNISSUED, RETURNED, REFERENCE or HALL LEVEL, the class's provisional flag being
set, offers a PROVISIONAL and goes to PROVISIONAL; a sample that brings the dwell to the maximum calls for a final evaluation; a HELD
record is settled by a status that has come to be known, and waits on otherwise. Below the maximum dwell DWELL_REACHED itself does nothing
(the model's choice, log 3). -/
def Obligations.SampleAtALeadIsJudged : Prop :=
  ∀ (s v : State) (a : Nat) (sender : Address) (stamp : Clock) (b : JoinBody) (w : WireSample) (x : Item) (r : Record) (l : Lead)
    (ps : List Sample) (e : Estimate) (checked : Checked) (st : IssueStatus), v = s.advance a → v.lead? x = some (r, l) →
    (dwellOf v.time.clock r.samples < v.sys.cfg.maxDwell → exec (.dwellReached a x) s = .next v) ∧
    (v.HearsK16 sender stamp → b.item = x → b.lead.toNat = v.sys.station.toNat → v.sys.station.toNat < v.sys.cfg.n →
      b.samples = [w] → r.samples.length < 16 → v.report.counters.samplesLost ≤ 65535 →
      (∀ q ∈ r.samples, ¬ (q.station = sender.toNat ∧ q.side = w.side ∧ q.coil = w.coil ∧ q.strength = w.strength)) →
      ps = r.samples ++ [⟨sender.toNat, w.side, w.coil, w.strength, stamp - w.age.setWidth 16, .sent⟩] →
      e = estimate v.sys.cfg v.time.clock ps → checked = resultChecks v.sys.cfg v.hall.level r.code r.level e →
      st = issueStatus r.mark ((v.cache.find? fun n => n.item == r.item).map Notice.status) v.sys.cfg.registry →
      (¬ (dwellOf v.time.clock r.samples < dwellOf v.time.clock ps ∧ v.sys.cfg.maxDwell ≤ dwellOf v.time.clock ps) →
        (∀ d k, l.stage = .openStage → l.provMade = false → l.final = none →
          r.code.toNat < v.sys.cfg.classLimit → v.sys.cfg.classes[r.code.toNat]? = some k → k.present = true →
          k.provisionalEnable = true → d.verdict = .alarm →
          (checked = .decided d ∧ (d.reason = .reference ∨ d.reason = .hallLevel) ∨
            (∃ k, checked = .toIssue k) ∧ d.laneA = e.laneA ∧ d.laneB = e.laneB ∧
              (st = .unissued ∧ d.reason = .unissued ∨ st = .returned ∧ d.reason = .returned)) →
          ∃ t r' l', exec (.heardJoin a sender b) s = .next t ∧ t.record? x = some r' ∧ r'.state = .lead l' ∧
            l'.stage = .provisional ∧ l'.provMade = true ∧ l'.provLanes = some (d.laneA, d.laneB) ∧ l'.final = none ∧
            l'.quiet = some (v.sys.cfg.quiet * 1000) ∧ t.DecideOffered x { d with verdict := .provisional } l') ∧
        (l.stage = .provisional ∨ l.stage = .openStage ∧ (l.provMade = true ∨ l.final ≠ none ∨ v.sys.cfg.classLimit ≤ r.code.toNat ∨
            (∀ k, v.sys.cfg.classes[r.code.toNat]? = some k → k.provisionalEnable = false) ∨
            (∃ d, checked = .decided d ∧ d.reason ≠ .reference ∧ d.reason ≠ .hallLevel) ∨
            (∃ k, checked = .toIssue k) ∧ (st = .byMark ∨ st = .byNotice ∨ st = .ask)) →
          exec (.heardJoin a sender b) s = .next ((v.setPhase (.idle 0)).putRecord { r with
            samples := ps, state := .lead { l with quiet := some (v.sys.cfg.quiet * 1000) } }))) ∧
      (dwellOf v.time.clock r.samples < dwellOf v.time.clock ps → v.sys.cfg.maxDwell ≤ dwellOf v.time.clock ps → l.final = none →
        (l.stage = .openStage ∨ l.stage = .provisional) →
        ∃ t r' l', exec (.heardJoin a sender b) s = .next t ∧ t.record? x = some r' ∧ r'.state = .lead l' ∧
          ((∃ d, l'.final = some d ∧ l'.stage = .openStage ∧ t.DecideOffered x d l') ∨
            ∃ k left, l'.stage = .held e.laneA e.laneB k left)) ∧
      (∀ laneA laneB k left, l.stage = .held laneA laneB k left →
        (st = .ask → l.slot ≠ none ∨ x ∈ v.queries.wait →
          exec (.heardJoin a sender b) s = .next ((v.setPhase (.idle 0)).putRecord { r with
            samples := ps, state := .lead { l with quiet := some (v.sys.cfg.quiet * 1000) } })) ∧
        (∀ d, d.laneA = laneA → d.laneB = laneB →
          (st = .byMark ∧ (d.verdict, d.reason) = (.clear, .issuedMark) ∨
            st = .byNotice ∧ (d.verdict, d.reason) = (.clear, .issuedNotice) ∨
            st = .unissued ∧ (d.verdict, d.reason) = (.alarm, .unissued) ∨
            st = .returned ∧ (d.verdict, d.reason) = (.alarm, .returned)) →
          ∃ t r' l', exec (.heardJoin a sender b) s = .next t ∧ t.record? x = some r' ∧ r'.state = .lead l' ∧
            l'.stage = .openStage ∧ l'.final = some d ∧ t.DecideOffered x d l')))

/-- R134, R137, R152, R153: the hold timer of a HELD record expires: a slot serving it is freed and ANSWERS MISSED counted; the class's
unknown policy decides, for reason NO ANSWER, naming the held lanes. The freed slot's sequence advances, and the oldest record of the
slot-wait list takes the slot at once, under the next tag. -/
def Obligations.HoldExpiryAppliesTheUnknownPolicy : Prop :=
  ∀ (s v : State) (a : Nat) (x : Item) (r : Record) (l : Lead) (laneA : Nat) (laneB : Option Nat) (e : ClassEntry) (d : Decision),
    v = s.advance a → v.lead? x = some (r, l) → l.stage = .held laneA laneB e 0 → v.sys.run = .running →
    d = ⟨if e.policy = .alarm then .alarm else .clear, .noAnswer, laneA, laneB⟩ →
    ∃ t r' l', exec (.holdTimerEnd a x) s = .next t ∧ t.record? x = some r' ∧ r'.state = .lead l' ∧ l'.stage = .openStage ∧
      l'.final = some d ∧ t.DecideOffered x d l' ∧
      (l.slot = none → x ∉ t.queries.wait ∧ t.report.counters.answersMissed = v.report.counters.answersMissed) ∧
      (∀ k seq u, l.slot = some k → v.queries.slots.get k = ⟨seq, some u⟩ →
        t.report.counters.answersMissed = min 65535 (v.report.counters.answersMissed + 1) ∧
        (v.queries.wait = [] → t.queries = { v.queries with slots := v.queries.slots.set k ⟨seq + 1, none⟩ }) ∧
        (∀ y ys i ry ly, v.queries.wait = y :: ys → y ≠ x → u.item = x → v.lead? y = some (ry, ly) → v.table[i]? = some (some ry) →
          (∀ n, n < i → ∀ r0, v.table[n]? = some (some r0) → r0.item ≠ y) →
          t.queries = { slots := v.queries.slots.set k ⟨seq + 1, some ⟨y, i, k.toNat * 4 + (seq + 1).toNat⟩⟩, wait := ys } ∧
          t.QueryOffered k (k.toNat * 4 + (seq + 1).toNat) y ∧ ∃ ry' ly', t.lead? y = some (ry', ly') ∧ ly'.slot = some k))

/-! ### Lamps and sounder (chapter 10) -/

/-- R159 to R163, R165: a DECIDE, heard or the station's own at its completion, at the lamp of each side and at the sounder: an ALARM naming
a lamp of a fitted side starts a cadence in SILENT and sets the pending flag while one runs, one that names none leaves the sounder alone.
A repeat is ignored by all of them. -/
def Obligations.DecideActsOnLampsAndSounder : Prop :=
  ∀ (s v : State) (a : Nat) (sd : Side) (ev : Instr) (x : Item) (verdict : Verdict) (laneA : Nat) (laneB : Option Nat) (again : Bool)
    (l : Lamp) (rest : List Holder) (named : Side → Bool), v = s.advance a →
    ((∃ sender stamp b, ev = .heardDecide a sender b ∧ v.HearsK16 sender stamp ∧ x = b.item ∧ verdict = b.verdict ∧
        laneA = b.laneA.toNat ∧ laneB = (if b.laneB = 255 then none else some b.laneB.toNat) ∧ again = b.again) ∨
      (∃ att before f behind m, ev = .transmitComplete a ∧ v.Sends att before f behind ∧ att.left = 0 ∧ v.sys.run = .running ∧
        f.payload = .decision m ∧ x = m.item ∧ verdict = m.decision.verdict ∧ laneA = m.decision.laneA ∧ laneB = m.decision.laneB ∧
        again = m.again)) →
    l = v.lamps.get sd → rest = l.holders.filter (fun h => h.item ≠ x) →
    named = (fun sd => fitted v.sys.cfg sd && (v.lane sd == laneA || some (v.lane sd) == laneB)) →
    ∃ t, exec ev s = .next t ∧
      (again = true → t.lamps = v.lamps ∧ t.sounder = v.sounder) ∧
      (again = false →
        (verdict = .provisional → named sd = true →
          (t.lamps.get sd).holders =
            (if rest.length = l.holders.length ∧ 4 ≤ l.holders.length then rest.drop 1 else rest) ++
              [⟨x, (v.sys.cfg.maxDwell + 2560) * 1000⟩] ∧
          (t.lamps.get sd).state = (if l.state = .dark then .flashing true 250000 else l.state)) ∧
        (verdict = .provisional → named sd = false → t.lamps.get sd = l) ∧
        (verdict ≠ .provisional → (t.lamps.get sd).holders = rest) ∧
        (verdict = .alarm → named sd = true → (t.lamps.get sd).state = .steady (v.sys.cfg.lampHold * 1000000)) ∧
        (verdict ≠ .provisional → ¬ (verdict = .alarm ∧ named sd = true) →
          (t.lamps.get sd).state =
            (match l.state with
              | .flashing lit left => if rest = [] ∧ l.holders ≠ [] then .dark else .flashing lit left
              | .dark => .dark
              | .steady left => .steady left)) ∧
        (verdict = .alarm → named sd = true → t.sounder =
          (if v.sounder.state = .silent then ⟨.on (v.sys.cfg.onTime * 1000), v.sys.cfg.soundRepeats, false⟩
            else { v.sounder with again := true })) ∧
        (verdict ≠ .alarm ∨ (named .L = false ∧ named .R = false) → t.sounder = v.sounder))

/-- R164, R165: the expiry of a lamp's hold timer, of a holder, of the flash phase, and of the sounder's cadence timer. -/
def Obligations.LampAndCadenceTimersExpire : Prop :=
  ∀ (s v : State) (a : Nat) (sd : Side) (l : Lamp) (u : Sounder), v = s.advance a → l = v.lamps.get sd → u = v.sounder →
    (l.state = .steady 0 → exec (.lampHoldEnd a sd) s = .next (v.setLamp sd
      { l with state := if l.holders = [] then .dark else .flashing true 250000 })) ∧
    (∀ lit, l.state = .flashing lit 0 →
      exec (.flashPhaseEnd a sd) s = .next (v.setLamp sd { l with state := .flashing (!lit) 250000 })) ∧
    (∀ x rest, (⟨x, 0⟩ : Holder) ∈ l.holders → rest = l.holders.filter (fun h => h.item ≠ x) →
      (∀ lit left, l.state = .flashing lit left → exec (.holderExpiry a sd x) s = .next (v.setLamp sd
        { state := if rest = [] then .dark else .flashing lit left, holders := rest })) ∧
      (∀ left, l.state = .steady left → exec (.holderExpiry a sd x) s = .next (v.setLamp sd
        { state := .steady left, holders := rest }))) ∧
    (u.state = .on 0 →
      exec (.cadenceTimerEnd a) s = .next (v.setSounder { u with state := .off (v.sys.cfg.offTime * 1000) })) ∧
    (u.state = .off 0 →
      (1 < u.repeats → exec (.cadenceTimerEnd a) s = .next (v.setSounder
        { u with state := .on (v.sys.cfg.onTime * 1000), repeats := u.repeats - 1 })) ∧
      (u.repeats ≤ 1 → u.again = true → exec (.cadenceTimerEnd a) s = .next (v.setSounder
        ⟨.on (v.sys.cfg.onTime * 1000), v.sys.cfg.soundRepeats, false⟩)) ∧
      (u.repeats ≤ 1 → u.again = false → exec (.cadenceTimerEnd a) s = .next (v.setSounder ⟨.silent, 0, false⟩)))

/-! ### Reports and Hall Clear (chapter 11) -/

/-- R168 to R170, R14: a POLL for this station or for all queues one REPORT, or adds its clear flag to the request in hand, in RUNNING and
in CONFIG FAULT alike; the REPORT is filled at its attempt; at its completion a set clear flag takes off each counter what was carried. -/
def Obligations.PollDrawsOneReport : Prop :=
  ∀ (s v : State) (a : Nat), v = s.advance a →
    (∀ (sender : Address) (stamp : Clock) (b : PollBody), v.line.phase = .receiving stamp →
      (v.sys.run = .running ∨ v.sys.run = .configFault) → 16 ≤ sender.toNat →
      (b.target.toNat = v.sys.station.toNat ∨ b.target = 255) →
      (v.report.request = .none → v.NormalRoom →
        exec (.heardPoll a sender b) s = .next ((((v.setPhase (.idle 0)).setQueue (v.line.queue ++ [
            { payload := .report, owner := .reportUnit, losses := 0, underTx := false, asked := .none }])).setWaiting
            (v.line.waiting.filter fun e => e ≠ .report)).setReport { v.report with request := .queued, clear := b.clear })) ∧
      (v.report.request ≠ .none →
        exec (.heardPoll a sender b) s = .next ((v.setPhase (.idle 0)).setReport
          { v.report with clear := v.report.clear || b.clear }))) ∧
    (v.sys.run = .running → v.reportBody =
      { run := .running, modeL := v.sweeps.left.mode == .doze, modeR := v.sweeps.right.mode == .doze, faults := v.faultSet
        table := BitVec.ofNat 8 (v.table.filter Option.isSome).length, directory := BitVec.ofNat 8 v.directory.length
        cache := BitVec.ofNat 16 v.cache.length, counters := Counters.wire v.report.counters }) ∧
    (∀ (k : Fin 4), v.faultSet.getLsbD k.val = (v.coil .L (BitVec.ofNat 2 k.val)).faultMark ∧
      v.faultSet.getLsbD (k.val + 4) = (v.coil .R (BitVec.ofNat 2 k.val)).faultMark) ∧
    (v.sys.run = .configFault → v.reportBody =
      { run := .configFault, modeL := false, modeR := false, faults := 0, table := 0, directory := 0, cache := 0
        counters := ⟨0, 0, 0, 0, 0, 0, 0, 0⟩ }) ∧
    (∀ att before f behind, v.Sends att before f behind → att.left = 0 → f.payload = .report → v.line.waiting = [] →
      ∃ t, exec (.transmitComplete a) s = .next t ∧ t.line.queue = before ++ behind ∧ t.report.request = .none ∧
        t.report.clear = false ∧ ∀ k, counterAt t.report.counters k =
          if v.report.clear then counterAt v.report.counters k - counterAt v.report.carried k
          else counterAt v.report.counters k)

/-- R171 with R30, R47, R67, R81, R112, R140, R158, R166: a CLEAR HALL taken in RUNNING, block by block; what the manual says is kept is
kept. -/
def Obligations.ClearHallEmptiesEveryBlock : Prop :=
  ∀ (s v : State) (a : Nat) (sender : Address) (stamp : Clock), v = s.advance a → v.HearsDesk sender stamp →
    ∃ t, exec (.heardClearHall a sender) s = .next t ∧
      (∀ sd k, t.coil sd k = (if (v.coil sd k).state = .ramping ∨ (v.coil sd k).state = .live ∨ (v.coil sd k).state = .draining
        then { v.coil sd k with state := .draining, drain := some (v.sys.cfg.drainTime * 1000) } else v.coil sd k)) ∧
      (∀ sd, (t.coils.get sd).ramp = none ∧ (t.coils.get sd).live = none ∧
        (t.coils.get sd).cutWait = (v.coils.get sd).cutWait.map (fun _ => v.sys.cfg.drainTime * 1000) ∧
        t.claims.get sd = ⟨.free, false, false, false, false, none, none, none⟩ ∧ t.lamps.get sd = ⟨.dark, []⟩ ∧
        (fitted v.sys.cfg sd = true →
          (t.sweeps.get sd).state = .waiting ∧ (t.sweeps.get sd).priority = false ∧ (t.sweeps.get sd).full = false ∧
          (t.sweeps.get sd).list = [] ∧ (t.sweeps.get sd).round = none ∧
          (t.sweeps.get sd).gap = some (if (v.sweeps.get sd).mode = .active then v.sys.cfg.activeGap * 1000 else 500000) ∧
          (t.sweeps.get sd).mode = (v.sweeps.get sd).mode ∧ (t.sweeps.get sd).doze = (v.sweeps.get sd).doze ∧
          (t.sweeps.get sd).c0 = (v.sweeps.get sd).c0 ∧ (t.sweeps.get sd).beams = (v.sweeps.get sd).beams)) ∧
      t.line = { phase := .idle 0, queue := [], waiting := [], backoff := false } ∧ (∀ x, t.record? x = none) ∧
      t.table.length = v.table.length ∧ t.directory = [] ∧ t.cache = v.cache ∧ t.queries.wait = [] ∧
      (∀ k, t.queries.slots.get k = (if (v.queries.slots.get k).use = none then v.queries.slots.get k
        else ⟨(v.queries.slots.get k).seq + 1, none⟩)) ∧
      t.hall = v.hall ∧ t.sounder = ⟨.silent, 0, false⟩ ∧ t.report = { v.report with request := .none, clear := false } ∧
      t.sys = v.sys ∧ t.time = v.time ∧ t.pins = v.pins

/-! ### Invariants that every step keeps -/

/-- R70, R74, R76: the queue's limits, those of the claim frames of each side among them. -/
def Obligations.EveryStepKeepsTheQueueSound : Prop :=
  ∀ s t : State, step s = .next t → s.QueueSound →
    t.QueueSound ∧ (s.StillUnlessRunning → s.ClaimFramesSound → t.ClaimFramesSound)

/-- R90, R92, R93: the Passage Table and the Snoop Directory keep their limits, and no item is twice among them. -/
def Obligations.EveryStepKeepsTheTableSound : Prop :=
  ∀ s t : State, s.TableBounded → s.ItemsApart → step s = .next t → t.TableBounded ∧ t.ItemsApart

/-- R124: the Issue Notice Cache keeps its limit, one entry for an item, and its order of age. -/
def Obligations.EveryStepKeepsTheCacheSound : Prop :=
  ∀ s t : State, s.CacheSound → step s = .next t → t.CacheSound

/-- R130 to R134, R137, R138: the query slots and the slot-wait list serve HELD records of the Passage Table, each at most once. -/
def Obligations.EveryStepKeepsTheQuerySlotsSound : Prop :=
  ∀ s t : State, s.QueueSound → s.ItemsApart → s.DecisionsKept → s.QuerySlotsSound → step s = .next t →
    t.DecisionsKept ∧ t.QuerySlotsSound

/-- R167: no counter passes 65535. R160: the holder lists keep their limit, no item twice, and a lamp that is not STEADY flashes exactly
while it has a holder. -/
def Obligations.EveryStepKeepsCountersAndLampsSound : Prop :=
  ∀ s t : State, step s = .next t → (s.CountersBounded → t.CountersBounded) ∧ (s.LampsSound → t.LampsSound)

/-- R8, R14: outside RUNNING the station stands still. -/
def Obligations.EveryStepKeepsTheStationStillUnlessRunning : Prop :=
  ∀ s t : State, s.StillUnlessRunning → step s = .next t → t.StillUnlessRunning

/-- R16, R17, R21: on each side at most one coil is RAMPING or LIVE, its ramp or live timer running, none has been LIVE for more than 40 ms,
and one of an inner-lane side is RAMPING or LIVE only while the side's claim is HOLDING. -/
def Obligations.EveryStepKeepsTheFieldsGuarded : Prop :=
  ∀ s t : State, s.StillUnlessRunning → s.FieldsGuarded → step s = .next t → t.FieldsGuarded

/-- Right after reset every invariant holds. -/
def Obligations.ResetMeetsEveryInvariant : Prop :=
  State.reset.QueueSound ∧ State.reset.ClaimFramesSound ∧ State.reset.QuerySlotsSound ∧ State.reset.DecisionsKept ∧
    State.reset.TableBounded ∧ State.reset.ItemsApart ∧ State.reset.CacheSound ∧ State.reset.CountersBounded ∧
    State.reset.LampsSound ∧ State.reset.StillUnlessRunning ∧ State.reset.FieldsGuarded

end
end

