-- ==== Sys2Proof/Laws/State.lean ====
section
/-! SUPPORT. One lemma for each field of State under each named update, and the laws of values kept by side, beam and coil. -/

namespace Sys2Proof.Machine

/-! ### Values by side, by beam, by coil -/

@[simp] theorem PerSide.get_set_self {α : Type} (p : PerSide α) (sd : Side) (a : α) : (p.set sd a).get sd = a := by
  cases sd <;> rfl

theorem PerSide.get_set_of_ne {α : Type} (p : PerSide α) {sd sd' : Side} (a : α) (h : sd' ≠ sd) :
    (p.set sd a).get sd' = p.get sd' := by
  cases sd <;> cases sd' <;> first | rfl | exact absurd rfl h

@[simp] theorem PerSide.set_get_self {α : Type} (p : PerSide α) (sd : Side) : p.set sd (p.get sd) = p := by
  cases sd <;> rfl

@[simp] theorem PerSide.set_set {α : Type} (p : PerSide α) (sd : Side) (a b : α) : (p.set sd a).set sd b = p.set sd b := by
  cases sd <;> rfl

@[simp] theorem PerBeam.get_set_self {α : Type} (p : PerBeam α) (bm : Beam) (a : α) : (p.set bm a).get bm = a := by
  cases bm <;> rfl

theorem PerBeam.get_set_of_ne {α : Type} (p : PerBeam α) {bm bm' : Beam} (a : α) (h : bm' ≠ bm) :
    (p.set bm a).get bm' = p.get bm' := by
  cases bm <;> cases bm' <;> first | rfl | exact absurd rfl h

/-- A number of two bits is one of 0 to 3. -/
theorem coilNumber_cases (k : BitVec 2) : k = 0 ∨ k = 1 ∨ k = 2 ∨ k = 3 := by
  revert k; decide

@[simp] theorem Quad.get_set_self {α : Type} (q : Quad α) (k : BitVec 2) (a : α) : (q.set k a).get k = a := by
  rcases coilNumber_cases k with rfl | rfl | rfl | rfl <;> rfl

theorem Quad.get_set_of_ne {α : Type} (q : Quad α) {j k : BitVec 2} (a : α) (h : j ≠ k) : (q.set k a).get j = q.get j := by
  rcases coilNumber_cases k with rfl | rfl | rfl | rfl <;> rcases coilNumber_cases j with rfl | rfl | rfl | rfl <;>
    first | rfl | exact absurd rfl h

@[simp] theorem Quad.set_set {α : Type} (q : Quad α) (k : BitVec 2) (a b : α) : (q.set k a).set k b = q.set k b := by
  rcases coilNumber_cases k with rfl | rfl | rfl | rfl <;> rfl

@[simp] theorem Quad.set_get_self {α : Type} (q : Quad α) (k : BitVec 2) : q.set k (q.get k) = q := by
  rcases coilNumber_cases k with rfl | rfl | rfl | rfl <;> rfl

@[simp] theorem Quad.get_map {α β : Type} (q : Quad α) (f : α → β) (k : BitVec 2) : (q.map f).get k = f (q.get k) := by
  rcases coilNumber_cases k with rfl | rfl | rfl | rfl <;> rfl

/-! ### State's fields under the named updates -/

@[simp] theorem State.setCoils_pending (s : State) (sd : Side) (u : CoilUnit) : (s.setCoils sd u).pending = s.pending := rfl
@[simp] theorem State.setCoils_sys (s : State) (sd : Side) (u : CoilUnit) : (s.setCoils sd u).sys = s.sys := rfl
@[simp] theorem State.setCoils_time (s : State) (sd : Side) (u : CoilUnit) : (s.setCoils sd u).time = s.time := rfl
@[simp] theorem State.setCoils_pins (s : State) (sd : Side) (u : CoilUnit) : (s.setCoils sd u).pins = s.pins := rfl
@[simp] theorem State.setCoils_coils (s : State) (sd : Side) (u : CoilUnit) : (s.setCoils sd u).coils = s.coils.set sd u := rfl
@[simp] theorem State.setCoils_claims (s : State) (sd : Side) (u : CoilUnit) : (s.setCoils sd u).claims = s.claims := rfl
@[simp] theorem State.setCoils_sweeps (s : State) (sd : Side) (u : CoilUnit) : (s.setCoils sd u).sweeps = s.sweeps := rfl
@[simp] theorem State.setCoils_line (s : State) (sd : Side) (u : CoilUnit) : (s.setCoils sd u).line = s.line := rfl
@[simp] theorem State.setCoils_table (s : State) (sd : Side) (u : CoilUnit) : (s.setCoils sd u).table = s.table := rfl
@[simp] theorem State.setCoils_directory (s : State) (sd : Side) (u : CoilUnit) : (s.setCoils sd u).directory = s.directory := rfl
@[simp] theorem State.setCoils_cache (s : State) (sd : Side) (u : CoilUnit) : (s.setCoils sd u).cache = s.cache := rfl
@[simp] theorem State.setCoils_queries (s : State) (sd : Side) (u : CoilUnit) : (s.setCoils sd u).queries = s.queries := rfl
@[simp] theorem State.setCoils_hall (s : State) (sd : Side) (u : CoilUnit) : (s.setCoils sd u).hall = s.hall := rfl
@[simp] theorem State.setCoils_lamps (s : State) (sd : Side) (u : CoilUnit) : (s.setCoils sd u).lamps = s.lamps := rfl
@[simp] theorem State.setCoils_sounder (s : State) (sd : Side) (u : CoilUnit) : (s.setCoils sd u).sounder = s.sounder := rfl
@[simp] theorem State.setCoils_report (s : State) (sd : Side) (u : CoilUnit) : (s.setCoils sd u).report = s.report := rfl

@[simp] theorem State.setClaim_pending (s : State) (sd : Side) (c : Claim) : (s.setClaim sd c).pending = s.pending := rfl
@[simp] theorem State.setClaim_sys (s : State) (sd : Side) (c : Claim) : (s.setClaim sd c).sys = s.sys := rfl
@[simp] theorem State.setClaim_time (s : State) (sd : Side) (c : Claim) : (s.setClaim sd c).time = s.time := rfl
@[simp] theorem State.setClaim_pins (s : State) (sd : Side) (c : Claim) : (s.setClaim sd c).pins = s.pins := rfl
@[simp] theorem State.setClaim_coils (s : State) (sd : Side) (c : Claim) : (s.setClaim sd c).coils = s.coils := rfl
@[simp] theorem State.setClaim_claims (s : State) (sd : Side) (c : Claim) : (s.setClaim sd c).claims = s.claims.set sd c := rfl
@[simp] theorem State.setClaim_sweeps (s : State) (sd : Side) (c : Claim) : (s.setClaim sd c).sweeps = s.sweeps := rfl
@[simp] theorem State.setClaim_line (s : State) (sd : Side) (c : Claim) : (s.setClaim sd c).line = s.line := rfl
@[simp] theorem State.setClaim_table (s : State) (sd : Side) (c : Claim) : (s.setClaim sd c).table = s.table := rfl
@[simp] theorem State.setClaim_directory (s : State) (sd : Side) (c : Claim) : (s.setClaim sd c).directory = s.directory := rfl
@[simp] theorem State.setClaim_cache (s : State) (sd : Side) (c : Claim) : (s.setClaim sd c).cache = s.cache := rfl
@[simp] theorem State.setClaim_queries (s : State) (sd : Side) (c : Claim) : (s.setClaim sd c).queries = s.queries := rfl
@[simp] theorem State.setClaim_hall (s : State) (sd : Side) (c : Claim) : (s.setClaim sd c).hall = s.hall := rfl
@[simp] theorem State.setClaim_lamps (s : State) (sd : Side) (c : Claim) : (s.setClaim sd c).lamps = s.lamps := rfl
@[simp] theorem State.setClaim_sounder (s : State) (sd : Side) (c : Claim) : (s.setClaim sd c).sounder = s.sounder := rfl
@[simp] theorem State.setClaim_report (s : State) (sd : Side) (c : Claim) : (s.setClaim sd c).report = s.report := rfl

@[simp] theorem State.setSweep_pending (s : State) (sd : Side) (w : Sweep) : (s.setSweep sd w).pending = s.pending := rfl
@[simp] theorem State.setSweep_sys (s : State) (sd : Side) (w : Sweep) : (s.setSweep sd w).sys = s.sys := rfl
@[simp] theorem State.setSweep_time (s : State) (sd : Side) (w : Sweep) : (s.setSweep sd w).time = s.time := rfl
@[simp] theorem State.setSweep_pins (s : State) (sd : Side) (w : Sweep) : (s.setSweep sd w).pins = s.pins := rfl
@[simp] theorem State.setSweep_coils (s : State) (sd : Side) (w : Sweep) : (s.setSweep sd w).coils = s.coils := rfl
@[simp] theorem State.setSweep_claims (s : State) (sd : Side) (w : Sweep) : (s.setSweep sd w).claims = s.claims := rfl
@[simp] theorem State.setSweep_sweeps (s : State) (sd : Side) (w : Sweep) : (s.setSweep sd w).sweeps = s.sweeps.set sd w := rfl
@[simp] theorem State.setSweep_line (s : State) (sd : Side) (w : Sweep) : (s.setSweep sd w).line = s.line := rfl
@[simp] theorem State.setSweep_table (s : State) (sd : Side) (w : Sweep) : (s.setSweep sd w).table = s.table := rfl
@[simp] theorem State.setSweep_directory (s : State) (sd : Side) (w : Sweep) : (s.setSweep sd w).directory = s.directory := rfl
@[simp] theorem State.setSweep_cache (s : State) (sd : Side) (w : Sweep) : (s.setSweep sd w).cache = s.cache := rfl
@[simp] theorem State.setSweep_queries (s : State) (sd : Side) (w : Sweep) : (s.setSweep sd w).queries = s.queries := rfl
@[simp] theorem State.setSweep_hall (s : State) (sd : Side) (w : Sweep) : (s.setSweep sd w).hall = s.hall := rfl
@[simp] theorem State.setSweep_lamps (s : State) (sd : Side) (w : Sweep) : (s.setSweep sd w).lamps = s.lamps := rfl
@[simp] theorem State.setSweep_sounder (s : State) (sd : Side) (w : Sweep) : (s.setSweep sd w).sounder = s.sounder := rfl
@[simp] theorem State.setSweep_report (s : State) (sd : Side) (w : Sweep) : (s.setSweep sd w).report = s.report := rfl

@[simp] theorem State.setLamp_pending (s : State) (sd : Side) (l : Lamp) : (s.setLamp sd l).pending = s.pending := rfl
@[simp] theorem State.setLamp_sys (s : State) (sd : Side) (l : Lamp) : (s.setLamp sd l).sys = s.sys := rfl
@[simp] theorem State.setLamp_time (s : State) (sd : Side) (l : Lamp) : (s.setLamp sd l).time = s.time := rfl
@[simp] theorem State.setLamp_pins (s : State) (sd : Side) (l : Lamp) : (s.setLamp sd l).pins = s.pins := rfl
@[simp] theorem State.setLamp_coils (s : State) (sd : Side) (l : Lamp) : (s.setLamp sd l).coils = s.coils := rfl
@[simp] theorem State.setLamp_claims (s : State) (sd : Side) (l : Lamp) : (s.setLamp sd l).claims = s.claims := rfl
@[simp] theorem State.setLamp_sweeps (s : State) (sd : Side) (l : Lamp) : (s.setLamp sd l).sweeps = s.sweeps := rfl
@[simp] theorem State.setLamp_line (s : State) (sd : Side) (l : Lamp) : (s.setLamp sd l).line = s.line := rfl
@[simp] theorem State.setLamp_table (s : State) (sd : Side) (l : Lamp) : (s.setLamp sd l).table = s.table := rfl
@[simp] theorem State.setLamp_directory (s : State) (sd : Side) (l : Lamp) : (s.setLamp sd l).directory = s.directory := rfl
@[simp] theorem State.setLamp_cache (s : State) (sd : Side) (l : Lamp) : (s.setLamp sd l).cache = s.cache := rfl
@[simp] theorem State.setLamp_queries (s : State) (sd : Side) (l : Lamp) : (s.setLamp sd l).queries = s.queries := rfl
@[simp] theorem State.setLamp_hall (s : State) (sd : Side) (l : Lamp) : (s.setLamp sd l).hall = s.hall := rfl
@[simp] theorem State.setLamp_lamps (s : State) (sd : Side) (l : Lamp) : (s.setLamp sd l).lamps = s.lamps.set sd l := rfl
@[simp] theorem State.setLamp_sounder (s : State) (sd : Side) (l : Lamp) : (s.setLamp sd l).sounder = s.sounder := rfl
@[simp] theorem State.setLamp_report (s : State) (sd : Side) (l : Lamp) : (s.setLamp sd l).report = s.report := rfl

@[simp] theorem State.setPhase_pending (s : State) (p : LinePhase) : (s.setPhase p).pending = s.pending := rfl
@[simp] theorem State.setPhase_sys (s : State) (p : LinePhase) : (s.setPhase p).sys = s.sys := rfl
@[simp] theorem State.setPhase_time (s : State) (p : LinePhase) : (s.setPhase p).time = s.time := rfl
@[simp] theorem State.setPhase_pins (s : State) (p : LinePhase) : (s.setPhase p).pins = s.pins := rfl
@[simp] theorem State.setPhase_coils (s : State) (p : LinePhase) : (s.setPhase p).coils = s.coils := rfl
@[simp] theorem State.setPhase_claims (s : State) (p : LinePhase) : (s.setPhase p).claims = s.claims := rfl
@[simp] theorem State.setPhase_sweeps (s : State) (p : LinePhase) : (s.setPhase p).sweeps = s.sweeps := rfl
@[simp] theorem State.setPhase_line (s : State) (p : LinePhase) : (s.setPhase p).line = { s.line with phase := p } := rfl
@[simp] theorem State.setPhase_table (s : State) (p : LinePhase) : (s.setPhase p).table = s.table := rfl
@[simp] theorem State.setPhase_directory (s : State) (p : LinePhase) : (s.setPhase p).directory = s.directory := rfl
@[simp] theorem State.setPhase_cache (s : State) (p : LinePhase) : (s.setPhase p).cache = s.cache := rfl
@[simp] theorem State.setPhase_queries (s : State) (p : LinePhase) : (s.setPhase p).queries = s.queries := rfl
@[simp] theorem State.setPhase_hall (s : State) (p : LinePhase) : (s.setPhase p).hall = s.hall := rfl
@[simp] theorem State.setPhase_lamps (s : State) (p : LinePhase) : (s.setPhase p).lamps = s.lamps := rfl
@[simp] theorem State.setPhase_sounder (s : State) (p : LinePhase) : (s.setPhase p).sounder = s.sounder := rfl
@[simp] theorem State.setPhase_report (s : State) (p : LinePhase) : (s.setPhase p).report = s.report := rfl

@[simp] theorem State.setQueue_pending (s : State) (q : List QFrame) : (s.setQueue q).pending = s.pending := rfl
@[simp] theorem State.setQueue_sys (s : State) (q : List QFrame) : (s.setQueue q).sys = s.sys := rfl
@[simp] theorem State.setQueue_time (s : State) (q : List QFrame) : (s.setQueue q).time = s.time := rfl
@[simp] theorem State.setQueue_pins (s : State) (q : List QFrame) : (s.setQueue q).pins = s.pins := rfl
@[simp] theorem State.setQueue_coils (s : State) (q : List QFrame) : (s.setQueue q).coils = s.coils := rfl
@[simp] theorem State.setQueue_claims (s : State) (q : List QFrame) : (s.setQueue q).claims = s.claims := rfl
@[simp] theorem State.setQueue_sweeps (s : State) (q : List QFrame) : (s.setQueue q).sweeps = s.sweeps := rfl
@[simp] theorem State.setQueue_line (s : State) (q : List QFrame) : (s.setQueue q).line = { s.line with queue := q } := rfl
@[simp] theorem State.setQueue_table (s : State) (q : List QFrame) : (s.setQueue q).table = s.table := rfl
@[simp] theorem State.setQueue_directory (s : State) (q : List QFrame) : (s.setQueue q).directory = s.directory := rfl
@[simp] theorem State.setQueue_cache (s : State) (q : List QFrame) : (s.setQueue q).cache = s.cache := rfl
@[simp] theorem State.setQueue_queries (s : State) (q : List QFrame) : (s.setQueue q).queries = s.queries := rfl
@[simp] theorem State.setQueue_hall (s : State) (q : List QFrame) : (s.setQueue q).hall = s.hall := rfl
@[simp] theorem State.setQueue_lamps (s : State) (q : List QFrame) : (s.setQueue q).lamps = s.lamps := rfl
@[simp] theorem State.setQueue_sounder (s : State) (q : List QFrame) : (s.setQueue q).sounder = s.sounder := rfl
@[simp] theorem State.setQueue_report (s : State) (q : List QFrame) : (s.setQueue q).report = s.report := rfl

@[simp] theorem State.setWaiting_pending (s : State) (w : List WaitKey) : (s.setWaiting w).pending = s.pending := rfl
@[simp] theorem State.setWaiting_sys (s : State) (w : List WaitKey) : (s.setWaiting w).sys = s.sys := rfl
@[simp] theorem State.setWaiting_time (s : State) (w : List WaitKey) : (s.setWaiting w).time = s.time := rfl
@[simp] theorem State.setWaiting_pins (s : State) (w : List WaitKey) : (s.setWaiting w).pins = s.pins := rfl
@[simp] theorem State.setWaiting_coils (s : State) (w : List WaitKey) : (s.setWaiting w).coils = s.coils := rfl
@[simp] theorem State.setWaiting_claims (s : State) (w : List WaitKey) : (s.setWaiting w).claims = s.claims := rfl
@[simp] theorem State.setWaiting_sweeps (s : State) (w : List WaitKey) : (s.setWaiting w).sweeps = s.sweeps := rfl
@[simp] theorem State.setWaiting_line (s : State) (w : List WaitKey) : (s.setWaiting w).line = { s.line with waiting := w } := rfl
@[simp] theorem State.setWaiting_table (s : State) (w : List WaitKey) : (s.setWaiting w).table = s.table := rfl
@[simp] theorem State.setWaiting_directory (s : State) (w : List WaitKey) : (s.setWaiting w).directory = s.directory := rfl
@[simp] theorem State.setWaiting_cache (s : State) (w : List WaitKey) : (s.setWaiting w).cache = s.cache := rfl
@[simp] theorem State.setWaiting_queries (s : State) (w : List WaitKey) : (s.setWaiting w).queries = s.queries := rfl
@[simp] theorem State.setWaiting_hall (s : State) (w : List WaitKey) : (s.setWaiting w).hall = s.hall := rfl
@[simp] theorem State.setWaiting_lamps (s : State) (w : List WaitKey) : (s.setWaiting w).lamps = s.lamps := rfl
@[simp] theorem State.setWaiting_sounder (s : State) (w : List WaitKey) : (s.setWaiting w).sounder = s.sounder := rfl
@[simp] theorem State.setWaiting_report (s : State) (w : List WaitKey) : (s.setWaiting w).report = s.report := rfl

@[simp] theorem State.setBackoff_pending (s : State) (b : Bool) : (s.setBackoff b).pending = s.pending := rfl
@[simp] theorem State.setBackoff_sys (s : State) (b : Bool) : (s.setBackoff b).sys = s.sys := rfl
@[simp] theorem State.setBackoff_time (s : State) (b : Bool) : (s.setBackoff b).time = s.time := rfl
@[simp] theorem State.setBackoff_pins (s : State) (b : Bool) : (s.setBackoff b).pins = s.pins := rfl
@[simp] theorem State.setBackoff_coils (s : State) (b : Bool) : (s.setBackoff b).coils = s.coils := rfl
@[simp] theorem State.setBackoff_claims (s : State) (b : Bool) : (s.setBackoff b).claims = s.claims := rfl
@[simp] theorem State.setBackoff_sweeps (s : State) (b : Bool) : (s.setBackoff b).sweeps = s.sweeps := rfl
@[simp] theorem State.setBackoff_line (s : State) (b : Bool) : (s.setBackoff b).line = { s.line with backoff := b } := rfl
@[simp] theorem State.setBackoff_table (s : State) (b : Bool) : (s.setBackoff b).table = s.table := rfl
@[simp] theorem State.setBackoff_directory (s : State) (b : Bool) : (s.setBackoff b).directory = s.directory := rfl
@[simp] theorem State.setBackoff_cache (s : State) (b : Bool) : (s.setBackoff b).cache = s.cache := rfl
@[simp] theorem State.setBackoff_queries (s : State) (b : Bool) : (s.setBackoff b).queries = s.queries := rfl
@[simp] theorem State.setBackoff_hall (s : State) (b : Bool) : (s.setBackoff b).hall = s.hall := rfl
@[simp] theorem State.setBackoff_lamps (s : State) (b : Bool) : (s.setBackoff b).lamps = s.lamps := rfl
@[simp] theorem State.setBackoff_sounder (s : State) (b : Bool) : (s.setBackoff b).sounder = s.sounder := rfl
@[simp] theorem State.setBackoff_report (s : State) (b : Bool) : (s.setBackoff b).report = s.report := rfl

@[simp] theorem State.setTable_pending (s : State) (t : List (Option Record)) : (s.setTable t).pending = s.pending := rfl
@[simp] theorem State.setTable_sys (s : State) (t : List (Option Record)) : (s.setTable t).sys = s.sys := rfl
@[simp] theorem State.setTable_time (s : State) (t : List (Option Record)) : (s.setTable t).time = s.time := rfl
@[simp] theorem State.setTable_pins (s : State) (t : List (Option Record)) : (s.setTable t).pins = s.pins := rfl
@[simp] theorem State.setTable_coils (s : State) (t : List (Option Record)) : (s.setTable t).coils = s.coils := rfl
@[simp] theorem State.setTable_claims (s : State) (t : List (Option Record)) : (s.setTable t).claims = s.claims := rfl
@[simp] theorem State.setTable_sweeps (s : State) (t : List (Option Record)) : (s.setTable t).sweeps = s.sweeps := rfl
@[simp] theorem State.setTable_line (s : State) (t : List (Option Record)) : (s.setTable t).line = s.line := rfl
@[simp] theorem State.setTable_table (s : State) (t : List (Option Record)) : (s.setTable t).table = t := rfl
@[simp] theorem State.setTable_directory (s : State) (t : List (Option Record)) : (s.setTable t).directory = s.directory := rfl
@[simp] theorem State.setTable_cache (s : State) (t : List (Option Record)) : (s.setTable t).cache = s.cache := rfl
@[simp] theorem State.setTable_queries (s : State) (t : List (Option Record)) : (s.setTable t).queries = s.queries := rfl
@[simp] theorem State.setTable_hall (s : State) (t : List (Option Record)) : (s.setTable t).hall = s.hall := rfl
@[simp] theorem State.setTable_lamps (s : State) (t : List (Option Record)) : (s.setTable t).lamps = s.lamps := rfl
@[simp] theorem State.setTable_sounder (s : State) (t : List (Option Record)) : (s.setTable t).sounder = s.sounder := rfl
@[simp] theorem State.setTable_report (s : State) (t : List (Option Record)) : (s.setTable t).report = s.report := rfl

@[simp] theorem State.setDirectory_pending (s : State) (d : List DirEntry) : (s.setDirectory d).pending = s.pending := rfl
@[simp] theorem State.setDirectory_sys (s : State) (d : List DirEntry) : (s.setDirectory d).sys = s.sys := rfl
@[simp] theorem State.setDirectory_time (s : State) (d : List DirEntry) : (s.setDirectory d).time = s.time := rfl
@[simp] theorem State.setDirectory_pins (s : State) (d : List DirEntry) : (s.setDirectory d).pins = s.pins := rfl
@[simp] theorem State.setDirectory_coils (s : State) (d : List DirEntry) : (s.setDirectory d).coils = s.coils := rfl
@[simp] theorem State.setDirectory_claims (s : State) (d : List DirEntry) : (s.setDirectory d).claims = s.claims := rfl
@[simp] theorem State.setDirectory_sweeps (s : State) (d : List DirEntry) : (s.setDirectory d).sweeps = s.sweeps := rfl
@[simp] theorem State.setDirectory_line (s : State) (d : List DirEntry) : (s.setDirectory d).line = s.line := rfl
@[simp] theorem State.setDirectory_table (s : State) (d : List DirEntry) : (s.setDirectory d).table = s.table := rfl
@[simp] theorem State.setDirectory_directory (s : State) (d : List DirEntry) : (s.setDirectory d).directory = d := rfl
@[simp] theorem State.setDirectory_cache (s : State) (d : List DirEntry) : (s.setDirectory d).cache = s.cache := rfl
@[simp] theorem State.setDirectory_queries (s : State) (d : List DirEntry) : (s.setDirectory d).queries = s.queries := rfl
@[simp] theorem State.setDirectory_hall (s : State) (d : List DirEntry) : (s.setDirectory d).hall = s.hall := rfl
@[simp] theorem State.setDirectory_lamps (s : State) (d : List DirEntry) : (s.setDirectory d).lamps = s.lamps := rfl
@[simp] theorem State.setDirectory_sounder (s : State) (d : List DirEntry) : (s.setDirectory d).sounder = s.sounder := rfl
@[simp] theorem State.setDirectory_report (s : State) (d : List DirEntry) : (s.setDirectory d).report = s.report := rfl

@[simp] theorem State.setCache_pending (s : State) (c : List Notice) : (s.setCache c).pending = s.pending := rfl
@[simp] theorem State.setCache_sys (s : State) (c : List Notice) : (s.setCache c).sys = s.sys := rfl
@[simp] theorem State.setCache_time (s : State) (c : List Notice) : (s.setCache c).time = s.time := rfl
@[simp] theorem State.setCache_pins (s : State) (c : List Notice) : (s.setCache c).pins = s.pins := rfl
@[simp] theorem State.setCache_coils (s : State) (c : List Notice) : (s.setCache c).coils = s.coils := rfl
@[simp] theorem State.setCache_claims (s : State) (c : List Notice) : (s.setCache c).claims = s.claims := rfl
@[simp] theorem State.setCache_sweeps (s : State) (c : List Notice) : (s.setCache c).sweeps = s.sweeps := rfl
@[simp] theorem State.setCache_line (s : State) (c : List Notice) : (s.setCache c).line = s.line := rfl
@[simp] theorem State.setCache_table (s : State) (c : List Notice) : (s.setCache c).table = s.table := rfl
@[simp] theorem State.setCache_directory (s : State) (c : List Notice) : (s.setCache c).directory = s.directory := rfl
@[simp] theorem State.setCache_cache (s : State) (c : List Notice) : (s.setCache c).cache = c := rfl
@[simp] theorem State.setCache_queries (s : State) (c : List Notice) : (s.setCache c).queries = s.queries := rfl
@[simp] theorem State.setCache_hall (s : State) (c : List Notice) : (s.setCache c).hall = s.hall := rfl
@[simp] theorem State.setCache_lamps (s : State) (c : List Notice) : (s.setCache c).lamps = s.lamps := rfl
@[simp] theorem State.setCache_sounder (s : State) (c : List Notice) : (s.setCache c).sounder = s.sounder := rfl
@[simp] theorem State.setCache_report (s : State) (c : List Notice) : (s.setCache c).report = s.report := rfl

@[simp] theorem State.setQueries_pending (s : State) (q : Queries) : (s.setQueries q).pending = s.pending := rfl
@[simp] theorem State.setQueries_sys (s : State) (q : Queries) : (s.setQueries q).sys = s.sys := rfl
@[simp] theorem State.setQueries_time (s : State) (q : Queries) : (s.setQueries q).time = s.time := rfl
@[simp] theorem State.setQueries_pins (s : State) (q : Queries) : (s.setQueries q).pins = s.pins := rfl
@[simp] theorem State.setQueries_coils (s : State) (q : Queries) : (s.setQueries q).coils = s.coils := rfl
@[simp] theorem State.setQueries_claims (s : State) (q : Queries) : (s.setQueries q).claims = s.claims := rfl
@[simp] theorem State.setQueries_sweeps (s : State) (q : Queries) : (s.setQueries q).sweeps = s.sweeps := rfl
@[simp] theorem State.setQueries_line (s : State) (q : Queries) : (s.setQueries q).line = s.line := rfl
@[simp] theorem State.setQueries_table (s : State) (q : Queries) : (s.setQueries q).table = s.table := rfl
@[simp] theorem State.setQueries_directory (s : State) (q : Queries) : (s.setQueries q).directory = s.directory := rfl
@[simp] theorem State.setQueries_cache (s : State) (q : Queries) : (s.setQueries q).cache = s.cache := rfl
@[simp] theorem State.setQueries_queries (s : State) (q : Queries) : (s.setQueries q).queries = q := rfl
@[simp] theorem State.setQueries_hall (s : State) (q : Queries) : (s.setQueries q).hall = s.hall := rfl
@[simp] theorem State.setQueries_lamps (s : State) (q : Queries) : (s.setQueries q).lamps = s.lamps := rfl
@[simp] theorem State.setQueries_sounder (s : State) (q : Queries) : (s.setQueries q).sounder = s.sounder := rfl
@[simp] theorem State.setQueries_report (s : State) (q : Queries) : (s.setQueries q).report = s.report := rfl

@[simp] theorem State.setReport_pending (s : State) (r : ReportUnit) : (s.setReport r).pending = s.pending := rfl
@[simp] theorem State.setReport_sys (s : State) (r : ReportUnit) : (s.setReport r).sys = s.sys := rfl
@[simp] theorem State.setReport_time (s : State) (r : ReportUnit) : (s.setReport r).time = s.time := rfl
@[simp] theorem State.setReport_pins (s : State) (r : ReportUnit) : (s.setReport r).pins = s.pins := rfl
@[simp] theorem State.setReport_coils (s : State) (r : ReportUnit) : (s.setReport r).coils = s.coils := rfl
@[simp] theorem State.setReport_claims (s : State) (r : ReportUnit) : (s.setReport r).claims = s.claims := rfl
@[simp] theorem State.setReport_sweeps (s : State) (r : ReportUnit) : (s.setReport r).sweeps = s.sweeps := rfl
@[simp] theorem State.setReport_line (s : State) (r : ReportUnit) : (s.setReport r).line = s.line := rfl
@[simp] theorem State.setReport_table (s : State) (r : ReportUnit) : (s.setReport r).table = s.table := rfl
@[simp] theorem State.setReport_directory (s : State) (r : ReportUnit) : (s.setReport r).directory = s.directory := rfl
@[simp] theorem State.setReport_cache (s : State) (r : ReportUnit) : (s.setReport r).cache = s.cache := rfl
@[simp] theorem State.setReport_queries (s : State) (r : ReportUnit) : (s.setReport r).queries = s.queries := rfl
@[simp] theorem State.setReport_hall (s : State) (r : ReportUnit) : (s.setReport r).hall = s.hall := rfl
@[simp] theorem State.setReport_lamps (s : State) (r : ReportUnit) : (s.setReport r).lamps = s.lamps := rfl
@[simp] theorem State.setReport_sounder (s : State) (r : ReportUnit) : (s.setReport r).sounder = s.sounder := rfl
@[simp] theorem State.setReport_report (s : State) (r : ReportUnit) : (s.setReport r).report = r := rfl

@[simp] theorem State.setSounder_pending (s : State) (u : Sounder) : (s.setSounder u).pending = s.pending := rfl
@[simp] theorem State.setSounder_sys (s : State) (u : Sounder) : (s.setSounder u).sys = s.sys := rfl
@[simp] theorem State.setSounder_time (s : State) (u : Sounder) : (s.setSounder u).time = s.time := rfl
@[simp] theorem State.setSounder_pins (s : State) (u : Sounder) : (s.setSounder u).pins = s.pins := rfl
@[simp] theorem State.setSounder_coils (s : State) (u : Sounder) : (s.setSounder u).coils = s.coils := rfl
@[simp] theorem State.setSounder_claims (s : State) (u : Sounder) : (s.setSounder u).claims = s.claims := rfl
@[simp] theorem State.setSounder_sweeps (s : State) (u : Sounder) : (s.setSounder u).sweeps = s.sweeps := rfl
@[simp] theorem State.setSounder_line (s : State) (u : Sounder) : (s.setSounder u).line = s.line := rfl
@[simp] theorem State.setSounder_table (s : State) (u : Sounder) : (s.setSounder u).table = s.table := rfl
@[simp] theorem State.setSounder_directory (s : State) (u : Sounder) : (s.setSounder u).directory = s.directory := rfl
@[simp] theorem State.setSounder_cache (s : State) (u : Sounder) : (s.setSounder u).cache = s.cache := rfl
@[simp] theorem State.setSounder_queries (s : State) (u : Sounder) : (s.setSounder u).queries = s.queries := rfl
@[simp] theorem State.setSounder_hall (s : State) (u : Sounder) : (s.setSounder u).hall = s.hall := rfl
@[simp] theorem State.setSounder_lamps (s : State) (u : Sounder) : (s.setSounder u).lamps = s.lamps := rfl
@[simp] theorem State.setSounder_sounder (s : State) (u : Sounder) : (s.setSounder u).sounder = u := rfl
@[simp] theorem State.setSounder_report (s : State) (u : Sounder) : (s.setSounder u).report = s.report := rfl

@[simp] theorem State.giveUp_pending (s : State) (k : WaitKey) : (s.giveUp k).pending = s.pending := rfl
@[simp] theorem State.giveUp_sys (s : State) (k : WaitKey) : (s.giveUp k).sys = s.sys := rfl
@[simp] theorem State.giveUp_time (s : State) (k : WaitKey) : (s.giveUp k).time = s.time := rfl
@[simp] theorem State.giveUp_pins (s : State) (k : WaitKey) : (s.giveUp k).pins = s.pins := rfl
@[simp] theorem State.giveUp_coils (s : State) (k : WaitKey) : (s.giveUp k).coils = s.coils := rfl
@[simp] theorem State.giveUp_claims (s : State) (k : WaitKey) : (s.giveUp k).claims = s.claims := rfl
@[simp] theorem State.giveUp_sweeps (s : State) (k : WaitKey) : (s.giveUp k).sweeps = s.sweeps := rfl
@[simp] theorem State.giveUp_line (s : State) (k : WaitKey) : (s.giveUp k).line = { s.line with waiting := s.line.waiting.filter (· ≠ k) } := rfl
@[simp] theorem State.giveUp_table (s : State) (k : WaitKey) : (s.giveUp k).table = s.table := rfl
@[simp] theorem State.giveUp_directory (s : State) (k : WaitKey) : (s.giveUp k).directory = s.directory := rfl
@[simp] theorem State.giveUp_cache (s : State) (k : WaitKey) : (s.giveUp k).cache = s.cache := rfl
@[simp] theorem State.giveUp_queries (s : State) (k : WaitKey) : (s.giveUp k).queries = s.queries := rfl
@[simp] theorem State.giveUp_hall (s : State) (k : WaitKey) : (s.giveUp k).hall = s.hall := rfl
@[simp] theorem State.giveUp_lamps (s : State) (k : WaitKey) : (s.giveUp k).lamps = s.lamps := rfl
@[simp] theorem State.giveUp_sounder (s : State) (k : WaitKey) : (s.giveUp k).sounder = s.sounder := rfl
@[simp] theorem State.giveUp_report (s : State) (k : WaitKey) : (s.giveUp k).report = s.report := rfl

@[simp] theorem State.putRecord_pending (s : State) (r : Record) : (s.putRecord r).pending = s.pending := rfl
@[simp] theorem State.putRecord_sys (s : State) (r : Record) : (s.putRecord r).sys = s.sys := rfl
@[simp] theorem State.putRecord_time (s : State) (r : Record) : (s.putRecord r).time = s.time := rfl
@[simp] theorem State.putRecord_pins (s : State) (r : Record) : (s.putRecord r).pins = s.pins := rfl
@[simp] theorem State.putRecord_coils (s : State) (r : Record) : (s.putRecord r).coils = s.coils := rfl
@[simp] theorem State.putRecord_claims (s : State) (r : Record) : (s.putRecord r).claims = s.claims := rfl
@[simp] theorem State.putRecord_sweeps (s : State) (r : Record) : (s.putRecord r).sweeps = s.sweeps := rfl
@[simp] theorem State.putRecord_line (s : State) (r : Record) : (s.putRecord r).line = s.line := rfl
@[simp] theorem State.putRecord_table (s : State) (r : Record) : (s.putRecord r).table = replaceRecord r.item (some r) s.table := rfl
@[simp] theorem State.putRecord_directory (s : State) (r : Record) : (s.putRecord r).directory = s.directory := rfl
@[simp] theorem State.putRecord_cache (s : State) (r : Record) : (s.putRecord r).cache = s.cache := rfl
@[simp] theorem State.putRecord_queries (s : State) (r : Record) : (s.putRecord r).queries = s.queries := rfl
@[simp] theorem State.putRecord_hall (s : State) (r : Record) : (s.putRecord r).hall = s.hall := rfl
@[simp] theorem State.putRecord_lamps (s : State) (r : Record) : (s.putRecord r).lamps = s.lamps := rfl
@[simp] theorem State.putRecord_sounder (s : State) (r : Record) : (s.putRecord r).sounder = s.sounder := rfl
@[simp] theorem State.putRecord_report (s : State) (r : Record) : (s.putRecord r).report = s.report := rfl

@[simp] theorem State.putRecState_pending (s : State) (r : Record) (c : RecState) : (s.putRecState r c).pending = s.pending := rfl
@[simp] theorem State.putRecState_sys (s : State) (r : Record) (c : RecState) : (s.putRecState r c).sys = s.sys := rfl
@[simp] theorem State.putRecState_time (s : State) (r : Record) (c : RecState) : (s.putRecState r c).time = s.time := rfl
@[simp] theorem State.putRecState_pins (s : State) (r : Record) (c : RecState) : (s.putRecState r c).pins = s.pins := rfl
@[simp] theorem State.putRecState_coils (s : State) (r : Record) (c : RecState) : (s.putRecState r c).coils = s.coils := rfl
@[simp] theorem State.putRecState_claims (s : State) (r : Record) (c : RecState) : (s.putRecState r c).claims = s.claims := rfl
@[simp] theorem State.putRecState_sweeps (s : State) (r : Record) (c : RecState) : (s.putRecState r c).sweeps = s.sweeps := rfl
@[simp] theorem State.putRecState_line (s : State) (r : Record) (c : RecState) : (s.putRecState r c).line = s.line := rfl
@[simp] theorem State.putRecState_table (s : State) (r : Record) (c : RecState) : (s.putRecState r c).table = replaceRecord r.item (some { r with state := c }) s.table := rfl
@[simp] theorem State.putRecState_directory (s : State) (r : Record) (c : RecState) : (s.putRecState r c).directory = s.directory := rfl
@[simp] theorem State.putRecState_cache (s : State) (r : Record) (c : RecState) : (s.putRecState r c).cache = s.cache := rfl
@[simp] theorem State.putRecState_queries (s : State) (r : Record) (c : RecState) : (s.putRecState r c).queries = s.queries := rfl
@[simp] theorem State.putRecState_hall (s : State) (r : Record) (c : RecState) : (s.putRecState r c).hall = s.hall := rfl
@[simp] theorem State.putRecState_lamps (s : State) (r : Record) (c : RecState) : (s.putRecState r c).lamps = s.lamps := rfl
@[simp] theorem State.putRecState_sounder (s : State) (r : Record) (c : RecState) : (s.putRecState r c).sounder = s.sounder := rfl
@[simp] theorem State.putRecState_report (s : State) (r : Record) (c : RecState) : (s.putRecState r c).report = s.report := rfl

@[simp] theorem State.putLead_pending (s : State) (r : Record) (l : Lead) : (s.putLead r l).pending = s.pending := rfl
@[simp] theorem State.putLead_sys (s : State) (r : Record) (l : Lead) : (s.putLead r l).sys = s.sys := rfl
@[simp] theorem State.putLead_time (s : State) (r : Record) (l : Lead) : (s.putLead r l).time = s.time := rfl
@[simp] theorem State.putLead_pins (s : State) (r : Record) (l : Lead) : (s.putLead r l).pins = s.pins := rfl
@[simp] theorem State.putLead_coils (s : State) (r : Record) (l : Lead) : (s.putLead r l).coils = s.coils := rfl
@[simp] theorem State.putLead_claims (s : State) (r : Record) (l : Lead) : (s.putLead r l).claims = s.claims := rfl
@[simp] theorem State.putLead_sweeps (s : State) (r : Record) (l : Lead) : (s.putLead r l).sweeps = s.sweeps := rfl
@[simp] theorem State.putLead_line (s : State) (r : Record) (l : Lead) : (s.putLead r l).line = s.line := rfl
@[simp] theorem State.putLead_table (s : State) (r : Record) (l : Lead) : (s.putLead r l).table = replaceRecord r.item (some { r with state := .lead l }) s.table := rfl
@[simp] theorem State.putLead_directory (s : State) (r : Record) (l : Lead) : (s.putLead r l).directory = s.directory := rfl
@[simp] theorem State.putLead_cache (s : State) (r : Record) (l : Lead) : (s.putLead r l).cache = s.cache := rfl
@[simp] theorem State.putLead_queries (s : State) (r : Record) (l : Lead) : (s.putLead r l).queries = s.queries := rfl
@[simp] theorem State.putLead_hall (s : State) (r : Record) (l : Lead) : (s.putLead r l).hall = s.hall := rfl
@[simp] theorem State.putLead_lamps (s : State) (r : Record) (l : Lead) : (s.putLead r l).lamps = s.lamps := rfl
@[simp] theorem State.putLead_sounder (s : State) (r : Record) (l : Lead) : (s.putLead r l).sounder = s.sounder := rfl
@[simp] theorem State.putLead_report (s : State) (r : Record) (l : Lead) : (s.putLead r l).report = s.report := rfl

/-! ### A counter advances (R167) -/

@[simp] theorem State.count_pending (s : State) (k : CounterName) (n : Nat) : (s.count k n).pending = s.pending := by
  unfold State.count; split <;> rfl
@[simp] theorem State.count_sys (s : State) (k : CounterName) (n : Nat) : (s.count k n).sys = s.sys := by
  unfold State.count; split <;> rfl
@[simp] theorem State.count_time (s : State) (k : CounterName) (n : Nat) : (s.count k n).time = s.time := by
  unfold State.count; split <;> rfl
@[simp] theorem State.count_pins (s : State) (k : CounterName) (n : Nat) : (s.count k n).pins = s.pins := by
  unfold State.count; split <;> rfl
@[simp] theorem State.count_coils (s : State) (k : CounterName) (n : Nat) : (s.count k n).coils = s.coils := by
  unfold State.count; split <;> rfl
@[simp] theorem State.count_claims (s : State) (k : CounterName) (n : Nat) : (s.count k n).claims = s.claims := by
  unfold State.count; split <;> rfl
@[simp] theorem State.count_sweeps (s : State) (k : CounterName) (n : Nat) : (s.count k n).sweeps = s.sweeps := by
  unfold State.count; split <;> rfl
@[simp] theorem State.count_line (s : State) (k : CounterName) (n : Nat) : (s.count k n).line = s.line := by
  unfold State.count; split <;> rfl
@[simp] theorem State.count_table (s : State) (k : CounterName) (n : Nat) : (s.count k n).table = s.table := by
  unfold State.count; split <;> rfl
@[simp] theorem State.count_directory (s : State) (k : CounterName) (n : Nat) : (s.count k n).directory = s.directory := by
  unfold State.count; split <;> rfl
@[simp] theorem State.count_cache (s : State) (k : CounterName) (n : Nat) : (s.count k n).cache = s.cache := by
  unfold State.count; split <;> rfl
@[simp] theorem State.count_queries (s : State) (k : CounterName) (n : Nat) : (s.count k n).queries = s.queries := by
  unfold State.count; split <;> rfl
@[simp] theorem State.count_hall (s : State) (k : CounterName) (n : Nat) : (s.count k n).hall = s.hall := by
  unfold State.count; split <;> rfl
@[simp] theorem State.count_lamps (s : State) (k : CounterName) (n : Nat) : (s.count k n).lamps = s.lamps := by
  unfold State.count; split <;> rfl
@[simp] theorem State.count_sounder (s : State) (k : CounterName) (n : Nat) : (s.count k n).sounder = s.sounder := by
  unfold State.count; split <;> rfl

theorem State.count_running {s : State} (h : s.sys.run = .running) (k : CounterName) (n : Nat) : s.count k n =
    s.setReport { s.report with counters := putCounter s.report.counters k (min 65535 (counterAt s.report.counters k + n)) } := by
  simp [State.count, h, satAdd]

theorem State.count_still {s : State} (h : s.sys.run ≠ .running) (k : CounterName) (n : Nat) : s.count k n = s := by
  simp [State.count, h]

@[simp] theorem counterAt_putCounter_self {α : Type} (c : Counters α) (k : CounterName) (v : α) :
    counterAt (putCounter c k v) k = v := by cases k <;> rfl

theorem counterAt_putCounter_of_ne {α : Type} (c : Counters α) {j k : CounterName} (v : α) (h : j ≠ k) :
    counterAt (putCounter c k v) j = counterAt c j := by
  cases k <;> cases j <;> first | rfl | exact absurd rfl h

/-! ### An update of a side after another of the same side -/

@[simp] theorem State.setCoils_setCoils (s : State) (sd : Side) (u u' : CoilUnit) :
    (s.setCoils sd u).setCoils sd u' = s.setCoils sd u' := by simp [State.setCoils]
@[simp] theorem State.setClaim_setClaim (s : State) (sd : Side) (c c' : Claim) :
    (s.setClaim sd c).setClaim sd c' = s.setClaim sd c' := by simp [State.setClaim]
@[simp] theorem State.setSweep_setSweep (s : State) (sd : Side) (w w' : Sweep) :
    (s.setSweep sd w).setSweep sd w' = s.setSweep sd w' := by simp [State.setSweep]
@[simp] theorem State.setLamp_setLamp (s : State) (sd : Side) (l l' : Lamp) :
    (s.setLamp sd l).setLamp sd l' = s.setLamp sd l' := by simp [State.setLamp]

end Sys2Proof.Machine
end

