-- ==== Sys2Proof/Laws/Offers.lean ====
section
/-! SUPPORT. What an offer, a walk of the waiting list, a removal and a conversion leave as they were. -/

namespace Sys2Proof.Machine

/-! ### Records by item -/

/-- What a record keeps when its frames are offered: all but the sent flags, the announce-pending flag and the owed DECIDE. -/
def RecState.bare : RecState → RecState
  | .sole _ => .sole false
  | .lead l => .lead { l with owed := none }
  | .joint y p => .joint y p
  | .closed d t => .closed d t

def Record.bare (r : Record) : Record :=
  { r with samples := r.samples.map fun p => { p with flag := .unsent }, state := r.state.bare }

@[simp] theorem ofItem_some (x : Item) (r : Record) : ofItem x (some r) = (r.item == x) := rfl
@[simp] theorem ofItem_none (x : Item) : ofItem x none = false := rfl

@[simp] theorem replaceRecord_nil (x : Item) (o : Option Record) : replaceRecord x o [] = [] := rfl

@[simp] theorem replaceRecord_cons (x : Item) (o e : Option Record) (t : List (Option Record)) :
    replaceRecord x o (e :: t) = (if ofItem x e then o else e) :: replaceRecord x o t := rfl

theorem findRecord_item {x : Item} {t : List (Option Record)} {r : Record} (h : findRecord x t = some r) : r.item = x := by
  induction t with
  | nil => simp [findRecord] at h
  | cons e t ih =>
    cases e with
    | none => exact ih h
    | some r' =>
      by_cases hx : r'.item = x
      · simp [findRecord, hx] at h; exact h ▸ hx
      · simp [findRecord, hx] at h; exact ih h

theorem record?_item {s : State} {x : Item} {r : Record} (h : s.record? x = some r) : r.item = x := findRecord_item h

theorem findRecord_replace_same {x : Item} {r r' : Record} (hr : r'.item = x) {t : List (Option Record)}
    (h : findRecord x t = some r) : findRecord x (replaceRecord x (some r') t) = some r' := by
  induction t with
  | nil => simp [findRecord] at h
  | cons e t ih =>
    cases e with
    | none => exact ih h
    | some a =>
      by_cases hx : a.item = x
      · simp [hx, findRecord, hr]
      · simp only [findRecord, hx, if_false] at h
        simp [hx, findRecord, ih h]

theorem findRecord_replace_of_ne {x y : Item} (hy : y ≠ x) {o : Option Record} (ho : ∀ r, o = some r → r.item = x)
    (t : List (Option Record)) : findRecord y (replaceRecord x o t) = findRecord y t := by
  induction t with
  | nil => rfl
  | cons e t ih =>
    cases e with
    | none => simpa [findRecord] using ih
    | some a =>
      by_cases hx : a.item = x
      · have ha : a.item ≠ y := fun h => hy (h ▸ hx)
        cases o with
        | none => simp [hx, findRecord, ih, Ne.symm hy]
        | some r => simp [hx, findRecord, ih, ho r rfl, Ne.symm hy]
      · by_cases hay : a.item = y
        · simp [findRecord, hay, hy]
        · simp [findRecord, hx, hay, ih]

theorem findRecord_replace_none (x : Item) (t : List (Option Record)) : findRecord x (replaceRecord x none t) = none := by
  induction t with
  | nil => rfl
  | cons e t ih =>
    cases e with
    | none => simpa [findRecord] using ih
    | some a =>
      by_cases hx : a.item = x
      · simp [hx, findRecord, ih]
      · simp [hx, findRecord, ih]

@[simp] theorem replaceRecord_length (x : Item) (o : Option Record) (t : List (Option Record)) :
    (replaceRecord x o t).length = t.length := by simp [replaceRecord]

/-- Storing a record where its item already has one makes it that item's record and leaves every other item's. -/
theorem record?_putRecord {s : State} {r r' : Record} (h : s.record? r'.item = some r) (y : Item) :
    (s.putRecord r').record? y = if y = r'.item then some r' else s.record? y := by
  by_cases hy : y = r'.item
  · subst hy; simpa [State.putRecord, State.record?] using findRecord_replace_same rfl h
  · simpa [State.putRecord, State.record?, hy] using
      findRecord_replace_of_ne hy (fun r hr => by cases hr; rfl) s.table

/-! ### What offers change -/

/-- The state with everything blanked that offers may change: the queue, the waiting list, the table, SAMPLES LOST and whether a
REPORT is queued or owed. -/
def State.offLine (s : State) : State :=
  { s with
    line := { s.line with queue := [], waiting := [] }
    table := []
    report := { s.report with counters := { s.report.counters with samplesLost := 0 }, request := .none } }

/-- From `s` to `t` nothing but offers was made: outside the queue, the waiting list, SAMPLES LOST and the report request nothing
changes, and each item's record keeps its fields. -/
structure OnlyOffers (s t : State) : Prop where
  offLine : t.offLine = s.offLine
  records : ∀ x, (t.record? x).map Record.bare = (s.record? x).map Record.bare
  length  : t.table.length = s.table.length

theorem OnlyOffers.refl (s : State) : OnlyOffers s s := ⟨rfl, fun _ => rfl, rfl⟩

theorem OnlyOffers.trans {s t u : State} (h : OnlyOffers s t) (k : OnlyOffers t u) : OnlyOffers s u :=
  ⟨k.offLine.trans h.offLine, fun x => (k.records x).trans (h.records x), k.length.trans h.length⟩

section Fields
variable {s t : State} (h : OnlyOffers s t)
include h
theorem OnlyOffers.pending : t.pending = s.pending := by
  have e := congrArg State.pending h.offLine; exact e
theorem OnlyOffers.sys : t.sys = s.sys := by
  have e := congrArg State.sys h.offLine; exact e
theorem OnlyOffers.time : t.time = s.time := by
  have e := congrArg State.time h.offLine; exact e
theorem OnlyOffers.pins : t.pins = s.pins := by
  have e := congrArg State.pins h.offLine; exact e
theorem OnlyOffers.coils : t.coils = s.coils := by
  have e := congrArg State.coils h.offLine; exact e
theorem OnlyOffers.claims : t.claims = s.claims := by
  have e := congrArg State.claims h.offLine; exact e
theorem OnlyOffers.sweeps : t.sweeps = s.sweeps := by
  have e := congrArg State.sweeps h.offLine; exact e
theorem OnlyOffers.directory : t.directory = s.directory := by
  have e := congrArg State.directory h.offLine; exact e
theorem OnlyOffers.cache : t.cache = s.cache := by
  have e := congrArg State.cache h.offLine; exact e
theorem OnlyOffers.queries : t.queries = s.queries := by
  have e := congrArg State.queries h.offLine; exact e
theorem OnlyOffers.hall : t.hall = s.hall := by
  have e := congrArg State.hall h.offLine; exact e
theorem OnlyOffers.lamps : t.lamps = s.lamps := by
  have e := congrArg State.lamps h.offLine; exact e
theorem OnlyOffers.sounder : t.sounder = s.sounder := by
  have e := congrArg State.sounder h.offLine; exact e
theorem OnlyOffers.phase : t.line.phase = s.line.phase := by
  have e := congrArg (fun u => u.line.phase) h.offLine; exact e
theorem OnlyOffers.backoff : t.line.backoff = s.line.backoff := by
  have e := congrArg (fun u => u.line.backoff) h.offLine; exact e
theorem OnlyOffers.clear : t.report.clear = s.report.clear := by
  have e := congrArg (fun u => u.report.clear) h.offLine; exact e
theorem OnlyOffers.carried : t.report.carried = s.report.carried := by
  have e := congrArg (fun u => u.report.carried) h.offLine; exact e
/-- Of the counters, offers advance SAMPLES LOST alone. -/
theorem OnlyOffers.counter {k : CounterName} (hk : k ≠ .samplesLost) :
    counterAt t.report.counters k = counterAt s.report.counters k := by
  have e := congrArg (fun u => counterAt u.report.counters k) h.offLine
  cases k <;> first | exact e | exact absurd rfl hk
end Fields

/-! ### The shared operations -/

theorem setQueue_onlyOffers (s : State) (q : List QFrame) : OnlyOffers s (s.setQueue q) := ⟨rfl, fun _ => rfl, rfl⟩

theorem setWaiting_onlyOffers (s : State) (w : List WaitKey) : OnlyOffers s (s.setWaiting w) := ⟨rfl, fun _ => rfl, rfl⟩

theorem giveUp_onlyOffers (s : State) (k : WaitKey) : OnlyOffers s (s.giveUp k) := setWaiting_onlyOffers s _

theorem enterWaiting_onlyOffers (s : State) (k : WaitKey) : OnlyOffers s (s.enterWaiting k) := by
  unfold State.enterWaiting; split
  · exact .refl s
  · exact setWaiting_onlyOffers s _

theorem countLost_onlyOffers (s : State) (n : Nat) : OnlyOffers s (s.count .samplesLost n) := by
  unfold State.count; split
  · exact ⟨rfl, fun _ => rfl, rfl⟩
  · exact .refl s

/-- A record stored in place of one that differs in offer fields alone. -/
theorem putRecord_onlyOffers {s : State} {r r' : Record} (h : s.record? r'.item = some r) (hb : r'.bare = r.bare) :
    OnlyOffers s (s.putRecord r') :=
  ⟨rfl, fun x => by
    rw [record?_putRecord h]; split
    · next hx => subst hx; simp [h, hb]
    · rfl, by simp [State.putRecord]⟩

theorem flagAll_bare (me : Nat) (ok : SentFlag → Bool) (dest : SentFlag) (cs : List OwnSample) (ps : List Sample) :
    (flagAll me ok dest cs ps).map (fun p => { p with flag := SentFlag.unsent }) =
      ps.map (fun p => { p with flag := SentFlag.unsent }) := by
  induction ps generalizing cs with
  | nil => rfl
  | cons p ps ih => unfold flagAll; split <;> simp [ih]

theorem flagAll_length (me : Nat) (ok : SentFlag → Bool) (dest : SentFlag) (cs : List OwnSample) (ps : List Sample) :
    (flagAll me ok dest cs ps).length = ps.length := by
  have := congrArg List.length (flagAll_bare me ok dest cs ps); simpa using this

theorem flagFirst_bare {me : Nat} {ok : SentFlag → Bool} {dest : SentFlag} {c : OwnSample} {ps qs : List Sample}
    (h : flagFirst me ok dest c ps = some qs) :
    qs.map (fun p => { p with flag := SentFlag.unsent }) = ps.map (fun p => { p with flag := SentFlag.unsent }) := by
  induction ps generalizing qs with
  | nil => cases h
  | cons p ps ih =>
    unfold flagFirst at h
    split at h
    · cases h; rfl
    · obtain ⟨l, hl, rfl⟩ := Option.map_eq_some_iff.1 h
      simp [ih hl]

/-- What becomes of a frame moves sent flags and nothing else of a list. -/
theorem settleFlags_bare (me : Nat) (dest : SentFlag) (cs : List OwnSample) (ps : List Sample) :
    (settleFlags me dest cs ps).map (fun p => { p with flag := SentFlag.unsent }) =
      ps.map (fun p => { p with flag := SentFlag.unsent }) := by
  unfold settleFlags
  induction cs generalizing ps with
  | nil => rfl
  | cons c cs ih =>
    rw [List.foldl_cons, ih]
    cases hq : flagFirst me isQueued dest c ps with
    | some l => exact flagFirst_bare hq
    | none =>
      cases ho : flagFirst me (· != dest) dest c ps with
      | some l => exact flagFirst_bare ho
      | none => rfl

theorem settleFlags_length (me : Nat) (dest : SentFlag) (cs : List OwnSample) (ps : List Sample) :
    (settleFlags me dest cs ps).length = ps.length := by
  have := congrArg List.length (settleFlags_bare me dest cs ps); simpa using this

theorem settleSamples_onlyOffers (s : State) (x : Item) (dest : SentFlag) (cs : List OwnSample) :
    OnlyOffers s (s.settleSamples x dest cs) := by
  unfold State.settleSamples
  split
  · next r h =>
    have hx := record?_item h
    exact putRecord_onlyOffers (r := r) (by simpa [hx] using h) (by simp [Record.bare, settleFlags_bare])
  · exact .refl s

theorem flagSamples_onlyOffers (s : State) (x : Item) (ok : SentFlag → Bool) (dest : SentFlag) (cs : List OwnSample) :
    OnlyOffers s (s.flagSamples x ok dest cs) := by
  unfold State.flagSamples
  split
  · next r h =>
    have hx := record?_item h
    refine putRecord_onlyOffers (r := r) (by simpa [hx] using h) ?_
    simp [Record.bare, flagAll_bare]
  · exact .refl s

theorem loseJoin_onlyOffers (s : State) (d : Option (JoinMsg × Owner)) : OnlyOffers s (s.loseJoin d) := by
  unfold State.loseJoin
  split
  · exact .refl s
  · dsimp only
    split
    · exact (countLost_onlyOffers s _).trans (settleSamples_onlyOffers _ _ _ _)
    · exact countLost_onlyOffers s _

theorem offer_onlyOffers (s : State) (key : Option WaitKey) (owner : Owner) (p : Payload) :
    OnlyOffers s (s.offer key owner p).1 := by
  have taken (q : List QFrame) : OnlyOffers s (match key with
      | some k => (s.setQueue q).giveUp k
      | none => s.setQueue q) := by
    cases key with
    | none => exact setQueue_onlyOffers s q
    | some k => exact (setQueue_onlyOffers s q).trans (giveUp_onlyOffers _ k)
  unfold State.offer
  dsimp only
  split
  · exact taken _
  · exact (taken _).trans (loseJoin_onlyOffers _ _)
  · cases key with
    | none => exact .refl s
    | some k => exact enterWaiting_onlyOffers s k

theorem lead?_eq_some {s : State} {x : Item} {r : Record} {l : Lead} :
    s.lead? x = some (r, l) ↔ s.record? x = some r ∧ r.state = .lead l := by
  unfold State.lead?
  cases hr : s.record? x with
  | none => simp
  | some r' =>
    cases hs : r'.state with
    | lead l' =>
      simp [hs]
      rintro rfl
      simp [hs, eq_comm]
    | sole _ => simp [hs]; rintro rfl; simp [hs]
    | joint _ _ => simp [hs]; rintro rfl; simp [hs]
    | closed _ _ => simp [hs]; rintro rfl; simp [hs]

/-- A record's fields, as its owner reads them before an offer, still stand after it. -/
theorem OnlyOffers.record_exists {s t : State} (h : OnlyOffers s t) {x : Item} {r : Record} (hr : s.record? x = some r) :
    ∃ r', t.record? x = some r' ∧ r'.bare = r.bare := by
  have := h.records x
  rw [hr] at this
  cases ht : t.record? x with
  | none => simp [ht] at this
  | some r' => exact ⟨r', rfl, by simpa [ht] using this⟩

/-- Storing, after an offer, a record that differs from the one before it in offer fields alone. -/
theorem OnlyOffers.thenPut {s t : State} (h : OnlyOffers s t) {r r' : Record} (hr : s.record? r'.item = some r)
    (hb : r'.bare = r.bare) : OnlyOffers s (t.putRecord r') := by
  obtain ⟨r1, h1, hb1⟩ := h.record_exists hr
  exact h.trans (putRecord_onlyOffers h1 (hb.trans hb1.symm))

theorem offerSight_onlyOffers {s : State} {r : Record} {w : Bool} (h : s.record? r.item = some r) (hs : r.state = .sole w) :
    OnlyOffers s (s.offerSight r).1 := by
  unfold State.offerSight
  dsimp only
  split
  · exact (offer_onlyOffers _ _ _ _).thenPut (r := r) h (by simp [Record.bare, hs, flagAll_bare, RecState.bare])
  · exact (offer_onlyOffers _ _ _ _).thenPut (r := r) h (by simp [Record.bare, hs, flagAll_bare, RecState.bare])
  · exact (offer_onlyOffers _ _ _ _).thenPut (r := r) h (by simp [Record.bare, hs, RecState.bare])

theorem offerTakeover_onlyOffers (s : State) (r : Record) : OnlyOffers s (s.offerTakeover r).1 := by
  unfold State.offerTakeover
  dsimp only
  split
  · exact (offer_onlyOffers _ _ _ _).trans (flagSamples_onlyOffers _ _ _ _ _)
  · exact (offer_onlyOffers _ _ _ _).trans (flagSamples_onlyOffers _ _ _ _ _)
  · exact offer_onlyOffers _ _ _ _

theorem offerJoinOnce_onlyOffers {s : State} {x : Item} {o : State × OfferResult} (h : s.offerJoinOnce x = some o) :
    OnlyOffers s o.1 := by
  unfold State.offerJoinOnce at h
  split at h
  · cases h
  · next r _ =>
    split at h
    · split at h
      · cases h
      · dsimp only at h
        split at h <;> (cases h)
        · exact (offer_onlyOffers _ _ _ _).trans (flagSamples_onlyOffers _ _ _ _ _)
        · exact (offer_onlyOffers _ _ _ _).trans (flagSamples_onlyOffers _ _ _ _ _)
        · exact offer_onlyOffers _ _ _ _
    · cases h

theorem offerJoinsFuel_onlyOffers (x : Item) (fuel : Nat) (s : State) (used : Bool) :
    OnlyOffers s (State.offerJoinsFuel x fuel s used).1 := by
  induction fuel generalizing s used with
  | zero => exact .refl s
  | succ n ih =>
    unfold State.offerJoinsFuel
    split
    · exact .refl s
    · next t h => exact offerJoinOnce_onlyOffers h
    · next t h => exact (offerJoinOnce_onlyOffers h).trans (ih t true)
    · next t _ h => exact (offerJoinOnce_onlyOffers h).trans (ih t used)

theorem offerJoins_onlyOffers (s : State) (x : Item) : OnlyOffers s (s.offerJoins x) := by
  unfold State.offerJoins; split
  · exact .refl s
  · exact offerJoinsFuel_onlyOffers _ _ _ _

theorem putLead_onlyOffers {s : State} {r : Record} {l l' : Lead} (h : s.record? r.item = some r) (hs : r.state = .lead l)
    (hl : { l' with owed := none } = { l with owed := none }) : OnlyOffers s (s.putLead r l') :=
  putRecord_onlyOffers (r := r) h (by simp [Record.bare, hs, RecState.bare, hl])

theorem offerDecision_onlyOffers (s : State) (x : Item) (d : Decision) : OnlyOffers s (s.offerDecision x d).1 := by
  unfold State.offerDecision
  dsimp only
  split
  · next r l h =>
    obtain ⟨hr, hs⟩ := lead?_eq_some.1 h
    have hx := record?_item hr
    exact (offer_onlyOffers _ _ _ _).trans (putLead_onlyOffers (by rw [hx]; exact hr) hs rfl)
  · exact offer_onlyOffers _ _ _ _

theorem offerQuery_onlyOffers (s : State) (k : BitVec 2) : OnlyOffers s (s.offerQuery k).1 := by
  unfold State.offerQuery; split
  · exact offer_onlyOffers _ _ _ _
  · exact giveUp_onlyOffers _ _

theorem offerReport_onlyOffers (s : State) : OnlyOffers s s.offerReport.1 := by
  refine (offer_onlyOffers s _ _ _).trans ⟨rfl, fun _ => rfl, rfl⟩

theorem askAgain_onlyOffers (s : State) (k : WaitKey) : OnlyOffers s (s.askAgain k).1 := by
  cases k with
  | claim sd =>
    simp only [State.askAgain]; split
    · exact offer_onlyOffers _ _ _ _
    · exact giveUp_onlyOffers _ _
  | defer sd => exact offer_onlyOffers _ _ _ _
  | release sd => exact offer_onlyOffers _ _ _ _
  | sight x =>
    simp only [State.askAgain]
    split
    · next r h =>
      have hx := record?_item h
      split
      · next hs => exact offerSight_onlyOffers (by rw [hx]; exact h) hs
      · exact offer_onlyOffers _ _ _ _
      · exact offerTakeover_onlyOffers _ _
      · exact giveUp_onlyOffers _ _
    · exact giveUp_onlyOffers _ _
  | join x =>
    simp only [State.askAgain]; split
    · exact giveUp_onlyOffers _ _
    · exact offerJoinsFuel_onlyOffers _ _ _ _
  | decision x =>
    simp only [State.askAgain]
    split
    · next r h =>
      have hx := record?_item h
      split
      · next l hs =>
        split
        · split
          · exact offerDecision_onlyOffers _ _ _
          · exact (putLead_onlyOffers (l' := { l with owed := none }) (by rw [hx]; exact h) hs rfl).trans
              (giveUp_onlyOffers _ _)
        · exact giveUp_onlyOffers _ _
      · exact offer_onlyOffers _ _ _ _
      · exact giveUp_onlyOffers _ _
    · exact giveUp_onlyOffers _ _
  | query q => exact offerQuery_onlyOffers _ _
  | report =>
    simp only [State.askAgain]; split
    · exact offerReport_onlyOffers _
    · exact giveUp_onlyOffers _ _

theorem walkList_onlyOffers (ks : List WaitKey) (s : State) : OnlyOffers s (State.walkList ks s) := by
  induction ks generalizing s with
  | nil => exact .refl s
  | cons k ks ih =>
    unfold State.walkList
    split
    · dsimp only
      split
      · exact askAgain_onlyOffers s k
      · exact (askAgain_onlyOffers s k).trans (ih _)
    · exact ih s

/-- R79: a walk asks the waiting owners to offer again, and does nothing else. -/
theorem walk_onlyOffers (s : State) : OnlyOffers s s.walk := walkList_onlyOffers _ s

theorem removeLoop_onlyOffers (ok : QFrame → Bool) (fuel : Nat) (s : State) :
    OnlyOffers s (State.removeLoop ok fuel s) := by
  induction fuel generalizing s with
  | zero => exact .refl s
  | succ n ih =>
    unfold State.removeLoop
    split
    · exact .refl s
    · exact ((setQueue_onlyOffers _ _).trans (walk_onlyOffers _)).trans (ih _)

/-- R80: a removal. -/
theorem askRemoval_onlyOffers (s : State) (ok : QFrame → Bool) : OnlyOffers s (s.askRemoval ok) :=
  (setQueue_onlyOffers _ _).trans (removeLoop_onlyOffers _ _ _)

/-- R80: a conversion. -/
theorem askConversion_onlyOffers (s : State) (x : Item) (lead : Nat) : OnlyOffers s (s.askConversion x lead) :=
  (setQueue_onlyOffers _ _).trans (removeLoop_onlyOffers _ _ _)

end Sys2Proof.Machine
end

