-- ==== Sys2Proof/Laws/Queue.lean ====
section
/-! SUPPORT. What becomes of the transmit queue and the waiting list: what an offer does to them, said once, and that walks, removals and
conversions are made of offers and removals alone. -/

namespace Sys2Proof.Machine

/-! ### The three ways an offer is merged or replaces (R76, R77) -/

/-- One frame of a queue, not under transmission, put in place of another that was not either. -/
def Edited (q q' : List QFrame) (f g : QFrame) : Prop :=
  (∃ a b, q = a ++ f :: b ∧ q' = a ++ g :: b) ∧ f.underTx = false ∧ g.underTx = false

theorem Edited.cons {q q' : List QFrame} {f g : QFrame} (e : QFrame) (h : Edited q q' f g) : Edited (e :: q) (e :: q') f g := by
  obtain ⟨⟨a, b, rfl, rfl⟩, h2⟩ := h
  exact ⟨⟨e :: a, b, rfl, rfl⟩, h2⟩

theorem mergeSight_some {o : Owner} {m : SightMsg} : ∀ {q q' : List QFrame} {left : List OwnSample}, mergeSight o m q = some (q', left) →
    ∃ f n, f.payload = .sight n ∧ n.item = m.item ∧ left = m.samples.drop (frameSamples - n.samples.length) ∧
      Edited q q' f { f with
        payload := .sight { n with
          samples := n.samples ++ m.samples.take (frameSamples - n.samples.length)
          takeover := n.takeover || m.takeover, again := n.again || m.again }
        owner := o.joined f.owner }
  | [], _, _, h => by simp [mergeSight] at h
  | f :: q, q', left, h => by
    unfold mergeSight at h
    split at h
    · next n hn =>
      split at h
      · next hc =>
        cases h
        exact ⟨f, n, hn, hc.1, rfl, ⟨[], q, rfl, rfl⟩, hc.2, hc.2⟩
      · obtain ⟨⟨q1, l1⟩, h1, h2⟩ := Option.map_eq_some_iff.1 h
        cases h2
        obtain ⟨g, n, hn, hi, hl, he⟩ := mergeSight_some h1
        exact ⟨g, n, hn, hi, hl, he.cons f⟩
    · obtain ⟨⟨q1, l1⟩, h1, h2⟩ := Option.map_eq_some_iff.1 h
      cases h2
      obtain ⟨g, n, hn, hi, hl, he⟩ := mergeSight_some h1
      exact ⟨g, n, hn, hi, hl, he.cons f⟩

theorem mergeSight_none {o : Owner} {m : SightMsg} : ∀ {q : List QFrame}, mergeSight o m q = none →
    ∀ f ∈ q, ∀ n, f.payload = .sight n → n.item = m.item → f.underTx = true
  | [], _, f, hf => by simp at hf
  | g :: q, h, f, hf => by
    intro n hn hi
    unfold mergeSight at h
    rcases List.mem_cons.1 hf with rfl | hf
    · simp only [hn] at h
      split at h
      · cases h
      · next hc => simpa [hi] using hc
    · split at h
      · split at h
        · cases h
        · exact mergeSight_none (Option.map_eq_none_iff.1 h) f hf n hn hi
      · exact mergeSight_none (Option.map_eq_none_iff.1 h) f hf n hn hi

theorem mergeJoin_some {o : Owner} {m : JoinMsg} : ∀ {q q' : List QFrame} {left : List OwnSample}, mergeJoin o m q = some (q', left) →
    ∃ f n, f.payload = .join n ∧ n.item = m.item ∧ n.lead = m.lead ∧ n.samples.length < frameSamples ∧
      left = m.samples.drop (frameSamples - n.samples.length) ∧
      Edited q q' f { f with
        payload := .join { n with samples := n.samples ++ m.samples.take (frameSamples - n.samples.length) }
        owner := o.joined f.owner }
  | [], _, _, h => by simp [mergeJoin] at h
  | f :: q, q', left, h => by
    unfold mergeJoin at h
    split at h
    · next p hp =>
      cases h
      obtain ⟨g, n, hn, hi, hl, hr, hs, he⟩ := mergeJoin_some (q' := p.1) (left := p.2) hp
      exact ⟨g, n, hn, hi, hl, hr, hs, he.cons f⟩
    · split at h
      · next n hn =>
        split at h
        · next hc =>
          cases h
          simp only [joinRoom, hn, Bool.and_eq_true, beq_iff_eq, Bool.not_eq_true', decide_eq_true_eq] at hc
          exact ⟨f, n, hn, hc.1.1.1, hc.1.1.2, hc.2, rfl, ⟨[], q, rfl, rfl⟩, hc.1.2, hc.1.2⟩
        · cases h
      · cases h

theorem replaceDecide_some {o : Owner} {m : DecideMsg} : ∀ {q q' : List QFrame}, replaceDecide o m q = some q' →
    ∃ f n, f.payload = .decision n ∧ n.item = m.item ∧
      Edited q q' f { f with payload := .decision m, owner := o, losses := 0 }
  | [], _, h => by simp [replaceDecide] at h
  | f :: q, q', h => by
    unfold replaceDecide at h
    split at h
    · next n hn =>
      split at h
      · next hc =>
        cases h
        exact ⟨f, n, hn, hc.1, ⟨[], q, rfl, rfl⟩, hc.2, hc.2⟩
      · obtain ⟨q1, h1, h2⟩ := Option.map_eq_some_iff.1 h
        cases h2
        obtain ⟨g, n, hn, hi, he⟩ := replaceDecide_some h1
        exact ⟨g, n, hn, hi, he.cons f⟩
    · obtain ⟨q1, h1, h2⟩ := Option.map_eq_some_iff.1 h
      cases h2
      obtain ⟨g, n, hn, hi, he⟩ := replaceDecide_some h1
      exact ⟨g, n, hn, hi, he.cons f⟩

theorem replaceDecide_none {o : Owner} {m : DecideMsg} : ∀ {q : List QFrame}, replaceDecide o m q = none →
    ∀ f ∈ q, ∀ n, f.payload = .decision n → n.item = m.item → f.underTx = true
  | [], _, f, hf => by simp at hf
  | g :: q, h, f, hf => by
    intro n hn hi
    unfold replaceDecide at h
    rcases List.mem_cons.1 hf with rfl | hf
    · simp only [hn] at h
      split at h
      · cases h
      · next hc => simpa [hi] using hc
    · split at h
      · split at h
        · cases h
        · exact replaceDecide_none (Option.map_eq_none_iff.1 h) f hf n hn hi
      · exact replaceDecide_none (Option.map_eq_none_iff.1 h) f hf n hn hi

theorem takeOldestJoin_some : ∀ {q q' : List QFrame} {m : JoinMsg} {o : Owner}, takeOldestJoin q = some (m, o, q') →
    ∃ a f b, q = a ++ f :: b ∧ q' = a ++ b ∧ f.payload = .join m ∧ f.owner = o ∧ f.underTx = false
  | [], _, _, _, h => by simp [takeOldestJoin] at h
  | f :: q, q', m, o, h => by
    unfold takeOldestJoin at h
    split at h
    · next n hn =>
      split at h
      · obtain ⟨⟨m1, o1, q1⟩, h1, h2⟩ := Option.map_eq_some_iff.1 h
        cases h2
        obtain ⟨a, g, b, rfl, rfl, hg⟩ := takeOldestJoin_some h1
        exact ⟨f :: a, g, b, rfl, rfl, hg⟩
      · next hu =>
        cases h
        exact ⟨[], f, q, rfl, rfl, hn, rfl, by simpa using hu⟩
    · obtain ⟨⟨m1, o1, q1⟩, h1, h2⟩ := Option.map_eq_some_iff.1 h
      cases h2
      obtain ⟨a, g, b, rfl, rfl, hg⟩ := takeOldestJoin_some h1
      exact ⟨f :: a, g, b, rfl, rfl, hg⟩

/-! ### The judgement of an offer (R75 to R78) -/

/-- An offer taken into a queued frame (R75 case 1): a DEFER or RELEASE leaves the queue as it was; a SIGHT, a JOIN or a DECIDE changes
one frame of its own kind and item. -/
theorem judgeOffer_into {o : Owner} {p : Payload} {q q' : List QFrame} {left : List OwnSample}
    (h : judgeOffer o p q = .into q' left) :
    (q' = q ∧ left = [] ∧ ∃ f ∈ q, f.payload = p ∧ f.owner = o ∧ f.underTx = false) ∨
    (∃ f n m, p = .sight m ∧ f.payload = .sight n ∧ n.item = m.item ∧
      left = m.samples.drop (frameSamples - n.samples.length) ∧
      Edited q q' f { f with
        payload := .sight { n with
          samples := n.samples ++ m.samples.take (frameSamples - n.samples.length)
          takeover := n.takeover || m.takeover, again := n.again || m.again }
        owner := o.joined f.owner }) ∨
    (∃ f n m, p = .join m ∧ f.payload = .join n ∧ n.item = m.item ∧ n.lead = m.lead ∧ n.samples.length < frameSamples ∧
      left = m.samples.drop (frameSamples - n.samples.length) ∧
      Edited q q' f { f with
        payload := .join { n with samples := n.samples ++ m.samples.take (frameSamples - n.samples.length) }
        owner := o.joined f.owner }) ∨
    (∃ f n m, p = .decision m ∧ f.payload = .decision n ∧ n.item = m.item ∧ left = [] ∧
      Edited q q' f { f with payload := p, owner := o, losses := 0 }) := by
  unfold judgeOffer at h
  cases hm : mergeOrReplace o p q with
  | none =>
    simp only [hm] at h
    split at h
    · cases h
    · split at h
      · split at h <;> cases h
      · split at h
        · cases h
        · split at h <;> cases h
  | some t =>
    simp only [hm] at h
    obtain ⟨q1, l1⟩ := t
    cases h
    have absorbed (hp : p.urgent = true) (hm : (if q.any (absorbs o p) then some (q, ([] : List OwnSample)) else none) =
        some (q1, l1)) : q1 = q ∧ l1 = [] ∧ ∃ f ∈ q, f.payload = p ∧ f.owner = o ∧ f.underTx = false := by
      split at hm
      · next ha =>
        cases hm
        obtain ⟨f, hf, ha⟩ := List.any_eq_true.1 ha
        simp only [absorbs, Bool.and_eq_true, beq_iff_eq, Bool.not_eq_true'] at ha
        exact ⟨rfl, rfl, f, hf, ha.1.1, ha.1.2, ha.2⟩
      · cases hm
    cases p with
    | sight m =>
      obtain ⟨f, n, hn, hi, hl, he⟩ := mergeSight_some hm
      exact .inr (.inl ⟨f, n, m, rfl, hn, hi, hl, he⟩)
    | join m =>
      obtain ⟨f, n, hn, hi, hl, hr, hs, he⟩ := mergeJoin_some hm
      exact .inr (.inr (.inl ⟨f, n, m, rfl, hn, hi, hl, hr, hs, he⟩))
    | decision m =>
      obtain ⟨q1, h1, h2⟩ := Option.map_eq_some_iff.1 hm
      cases h2
      obtain ⟨f, n, hn, hi, he⟩ := replaceDecide_some h1
      exact .inr (.inr (.inr ⟨f, n, m, rfl, hn, hi, rfl, he⟩))
    | defer lane => exact .inl (absorbed rfl hm)
    | release lane => exact .inl (absorbed rfl hm)
    | claim lane => cases hm
    | query a b c => cases hm
    | report => cases hm

/-- An offer that takes a position (R75 cases 3 and 4, R78): it stands at the end of the queue; no frame of the queue is its item's SIGHT
or DECIDE; an urgent one finds fewer than 8 frames, a normal one fewer than 8 of which fewer than 6 normal, or displaces a JOIN that is
not under transmission. -/
theorem judgeOffer_placed {o : Owner} {p : Payload} {q q' : List QFrame} {d : Option (JoinMsg × Owner)}
    (h : judgeOffer o p q = .placed q' d) :
    (∀ f ∈ q, ∀ m n, p = .sight m → f.payload = .sight n → n.item ≠ m.item) ∧
    (∀ f ∈ q, ∀ m n, p = .decision m → f.payload = .decision n → n.item ≠ m.item) ∧
    ((d = none ∧ q' = q ++ [QFrame.fresh o p] ∧ q.length < queueSize ∧ (p.urgent = false → normalCount q < normalShare)) ∨
      ∃ a f b m, p.urgent = false ∧ d = some (m, f.owner) ∧ q = a ++ f :: b ∧ q' = a ++ b ++ [QFrame.fresh o p] ∧
        f.payload = .join m ∧ f.underTx = false) := by
  unfold judgeOffer at h
  cases hm : mergeOrReplace o p q with
  | some t => simp only [hm] at h; cases h
  | none =>
    simp only [hm] at h
    split at h
    · cases h
    · next hb =>
      have hb' : ∀ f ∈ q, barredBy p f = false := by simpa [List.any_eq_true] using hb
      refine ⟨?_, ?_, ?_⟩
      · rintro f hf m n rfl hn hi
        have hu := mergeSight_none hm f hf n hn hi
        have := hb' f hf
        simp [barredBy, hu, hn, hi] at this
      · rintro f hf m n rfl hn hi
        have hu := replaceDecide_none (Option.map_eq_none_iff.1 hm) f hf n hn hi
        have := hb' f hf
        simp [barredBy, hu, hn, hi] at this
      · split at h
        · next hu =>
          split at h
          · next hl =>
            cases h
            exact .inl ⟨rfl, rfl, hl, fun hn => by rw [hu] at hn; cases hn⟩
          · cases h
        · next hu =>
          split at h
          · next hl =>
            cases h
            exact .inl ⟨rfl, rfl, hl.1, fun _ => hl.2⟩
          · split at h
            · next t ht =>
              obtain ⟨m, o1, q1⟩ := t
              cases h
              obtain ⟨a, f, b, rfl, rfl, hp, rfl, hx⟩ := takeOldestJoin_some ht
              exact .inr ⟨a, f, b, m, by simpa using hu, rfl, rfl, rfl, hp, hx⟩
            · cases h

/-- A refused offer finds the queue full for it, or its item's frame under transmission (R75 cases 2 and 3). -/
theorem judgeOffer_refused {o : Owner} {p : Payload} {q : List QFrame} (h : judgeOffer o p q = .refused) :
    q.any (barredBy p) = true ∨ (p.urgent = true ∧ queueSize ≤ q.length) ∨
      (p.urgent = false ∧ (queueSize ≤ q.length ∨ normalShare ≤ normalCount q)) := by
  unfold judgeOffer at h
  cases hm : mergeOrReplace o p q with
  | some t => simp only [hm] at h; cases h
  | none =>
    simp only [hm] at h
    split at h
    · next hb => exact .inl hb
    · split at h
      · next hu =>
        split at h
        · cases h
        · next hl => exact .inr (.inl ⟨hu, by omega⟩)
      · next hu =>
        split at h
        · cases h
        · next hl => exact .inr (.inr ⟨by simpa using hu, by omega⟩)

end Sys2Proof.Machine
end

