-- ==== Sys2Proof/Laws/Moves.lean ====
section
/-! SUPPORT. Walks, removals and conversions as runs of offers and removals: the laws by which an invariant of the queue, or of the waiting
list, passes through them. -/

namespace Sys2Proof.Machine

/-! ### Which frames an owner offers for a waiting entry -/

/-- The offers that answer a waiting entry (R79): its owner, its kind, its item, and samples that a frame can hold (R76, R98); a CLAIM only
of a side that is ASKING with none transmitted (R34). -/
def Fits (claims : PerSide Claim) : WaitKey → Owner → Payload → Prop
  | .claim sd, o, p => o = .side sd ∧ (∃ lane, p = .claim lane) ∧ (claims.get sd).state = .asking ∧ (claims.get sd).sent = false
  | .defer sd, o, p => o = .side sd ∧ ∃ lane, p = .defer lane
  | .release sd, o, p => o = .side sd ∧ ∃ lane, p = .release lane
  | .sight x, o, p => o = .record x ∧ ∃ m, p = .sight m ∧ m.item = x ∧ m.samples.length ≤ frameSamples
  | .join x, o, p => o = .record x ∧ ∃ m, p = .join m ∧ m.item = x ∧ 1 ≤ m.samples.length ∧ m.samples.length ≤ frameSamples
  | .decision x, o, p => o = .record x ∧ ∃ m, p = .decision m ∧ m.item = x
  | .query k, o, p => o = .slot k ∧ ∃ receiver tag item, p = .query receiver tag item
  | .report, o, p => o = .reportUnit ∧ p = .report

/-- A run of offers that are `P` and of removals of frames that are `rm` and not under transmission. -/
inductive QMoves (P : Owner → Payload → Prop) (rm : QFrame → Bool) : List QFrame → List QFrame → Prop
  | refl (q : List QFrame) : QMoves P rm q q
  | into {q q1 q2 : List QFrame} {o : Owner} {p : Payload} {left : List OwnSample} :
      QMoves P rm q q1 → P o p → judgeOffer o p q1 = .into q2 left → QMoves P rm q q2
  | placed {q q1 q2 : List QFrame} {o : Owner} {p : Payload} {d : Option (JoinMsg × Owner)} :
      QMoves P rm q q1 → P o p → judgeOffer o p q1 = .placed q2 d → QMoves P rm q q2
  | drop {q q1 q2 : List QFrame} : QMoves P rm q q1 → dropFirst rm q1 = some q2 → QMoves P rm q q2

theorem QMoves.trans {P : Owner → Payload → Prop} {rm : QFrame → Bool} {q q1 q2 : List QFrame} (h : QMoves P rm q q1)
    (k : QMoves P rm q1 q2) : QMoves P rm q q2 := by
  induction k with
  | refl => exact h
  | into _ hp hj ih => exact .into ih hp hj
  | placed _ hp hj ih => exact .placed ih hp hj
  | drop _ hd ih => exact .drop ih hd

theorem QMoves.mono {P P' : Owner → Payload → Prop} {rm : QFrame → Bool} {q q1 : List QFrame} (h : QMoves P rm q q1)
    (hp : ∀ o p, P o p → P' o p) : QMoves P' rm q q1 := by
  induction h with
  | refl => exact .refl _
  | into _ h hj ih => exact .into ih (hp _ _ h) hj
  | placed _ h hj ih => exact .placed ih (hp _ _ h) hj
  | drop _ hd ih => exact .drop ih hd

/-- What a removal takes out of the queue (R80). -/
theorem dropFirst_some {ok : QFrame → Bool} : ∀ {q q' : List QFrame}, dropFirst ok q = some q' →
    ∃ a f b, q = a ++ f :: b ∧ q' = a ++ b ∧ ok f = true ∧ f.underTx = false
  | [], _, h => by simp [dropFirst] at h
  | f :: q, q', h => by
    unfold dropFirst at h
    split at h
    · next hc =>
      cases h
      simp only [Bool.and_eq_true, Bool.not_eq_true'] at hc
      exact ⟨[], f, q, rfl, rfl, hc.1, hc.2⟩
    · obtain ⟨q1, h1, h2⟩ := Option.map_eq_some_iff.1 h
      cases h2
      obtain ⟨a, g, b, rfl, rfl, hg⟩ := dropFirst_some h1
      exact ⟨f :: a, g, b, rfl, rfl, hg⟩

theorem dropFirst_none {ok : QFrame → Bool} : ∀ {q : List QFrame}, dropFirst ok q = none →
    ∀ f ∈ q, ok f = true → f.underTx = true
  | [], _, f, hf => by simp at hf
  | g :: q, h, f, hf => by
    intro hk
    unfold dropFirst at h
    split at h
    · cases h
    · next hc =>
      rcases List.mem_cons.1 hf with rfl | hf
      · simpa [hk] using hc
      · exact dropFirst_none (Option.map_eq_none_iff.1 h) f hf hk

/-! ### What leaves the line's queue as it was -/

@[simp] theorem flagSamples_line (s : State) (x : Item) (ok : SentFlag → Bool) (dest : SentFlag) (cs : List OwnSample) :
    (s.flagSamples x ok dest cs).line = s.line := by
  unfold State.flagSamples; split <;> rfl

@[simp] theorem settleSamples_line (s : State) (x : Item) (dest : SentFlag) (cs : List OwnSample) :
    (s.settleSamples x dest cs).line = s.line := by
  unfold State.settleSamples; split <;> rfl

@[simp] theorem loseJoin_line (s : State) (d : Option (JoinMsg × Owner)) : (s.loseJoin d).line = s.line := by
  unfold State.loseJoin
  split
  · rfl
  · dsimp only; split <;> simp

@[simp] theorem enterWaiting_queue (s : State) (k : WaitKey) : (s.enterWaiting k).line.queue = s.line.queue := by
  unfold State.enterWaiting; split <;> rfl

/-! ### Offers -/

section Offers
variable {P : Owner → Payload → Prop} {rm : QFrame → Bool}

theorem offer_moves {s : State} {key : Option WaitKey} {o : Owner} {p : Payload} (h : P o p) :
    QMoves P rm s.line.queue (s.offer key o p).1.line.queue := by
  unfold State.offer
  cases hj : judgeOffer o p s.line.queue with
  | into q left => cases key <;> exact .into (.refl _) h hj
  | placed q d => cases key <;> (simp only [loseJoin_line]; exact .placed (.refl _) h hj)
  | refused => cases key <;> (simp only [enterWaiting_queue]; exact .refl _)

/-- An offer takes its waiting entry off, or enters it; no other entry changes (R79). -/
theorem offer_waiting {s : State} {k : WaitKey} {o : Owner} {p : Payload} :
    ((s.offer (some k) o p).2 ≠ .refused ∧ (s.offer (some k) o p).1.line.waiting = s.line.waiting.filter (· ≠ k)) ∨
    ((s.offer (some k) o p).2 = .refused ∧ (s.offer (some k) o p).1.line.waiting =
      if k ∈ s.line.waiting then s.line.waiting else s.line.waiting ++ [k]) := by
  unfold State.offer
  cases hj : judgeOffer o p s.line.queue with
  | into q left => exact .inl ⟨by simp, by simp⟩
  | placed q d => exact .inl ⟨by simp, by simp⟩
  | refused =>
    refine .inr ⟨by simp, ?_⟩
    simp only [State.enterWaiting]
    split <;> rfl

theorem offer_waiting_sub {s : State} {k : WaitKey} {o : Owner} {p : Payload} (hk : k ∈ s.line.waiting) :
    ∀ e ∈ (s.offer (some k) o p).1.line.waiting, e ∈ s.line.waiting := by
  intro e he
  rcases offer_waiting (s := s) (k := k) (o := o) (p := p) with ⟨-, h⟩ | ⟨-, h⟩
  · rw [h] at he; exact (List.mem_filter.1 he).1
  · rw [h, if_pos hk] at he; exact he

theorem offerSight_fits {s : State} {r : Record} (h : ∀ o p, Fits s.claims (.sight r.item) o p → P o p) :
    QMoves P rm s.line.queue (s.offerSight r).1.line.queue := by
  unfold State.offerSight
  have hm := offer_moves (s := s) (rm := rm) (key := some (.sight r.item)) (o := .record r.item)
    (p := .sight (sightOf r false false ((s.unsentOwn r).take frameSamples)))
    (h _ _ ⟨rfl, _, rfl, rfl, by simp [sightOf]⟩)
  dsimp only
  split <;> exact hm

theorem offerRepeatSight_fits {s : State} {r : Record} (h : ∀ o p, Fits s.claims (.sight r.item) o p → P o p) :
    QMoves P rm s.line.queue (s.offerRepeatSight r).1.line.queue :=
  offer_moves (h _ _ ⟨rfl, _, rfl, rfl, by simp [sightOf]⟩)

theorem offerTakeover_fits {s : State} {r : Record} (h : ∀ o p, Fits s.claims (.sight r.item) o p → P o p) :
    QMoves P rm s.line.queue (s.offerTakeover r).1.line.queue := by
  unfold State.offerTakeover
  have hm := offer_moves (s := s) (rm := rm) (key := some (.sight r.item)) (o := .record r.item)
    (p := .sight (sightOf r true false (s.strongestOwn r)))
    (h _ _ ⟨rfl, _, rfl, rfl, by simp [sightOf, State.strongestOwn]⟩)
  dsimp only
  split
  · rw [flagSamples_line]; exact hm
  · rw [flagSamples_line]; exact hm
  · exact hm

theorem offerJoinOnce_fits {s : State} {x : Item} {o : State × OfferResult}
    (h : ∀ o p, Fits s.claims (.join x) o p → P o p) (ho : s.offerJoinOnce x = some o) :
    QMoves P rm s.line.queue o.1.line.queue ∧ (.join x ∈ s.line.waiting → ∀ e ∈ o.1.line.waiting, e ∈ s.line.waiting) := by
  unfold State.offerJoinOnce at ho
  split at ho
  · cases ho
  · split at ho
    · split at ho
      · cases ho
      · next c cs hcs =>
        have hl : (c :: cs).length ≤ frameSamples := by rw [← hcs]; exact List.length_take_le _ _
        dsimp only at ho
        split at ho <;> cases ho <;> (try simp only [flagSamples_line]) <;>
          exact ⟨offer_moves (h _ _ ⟨rfl, _, rfl, rfl, by simp, hl⟩), fun hk => offer_waiting_sub hk⟩
    · cases ho

theorem offerJoinsFuel_fits {x : Item} (fuel : Nat) : ∀ {s : State} {used : Bool},
    (∀ o p, Fits s.claims (.join x) o p → P o p) →
    QMoves P rm s.line.queue (State.offerJoinsFuel x fuel s used).1.line.queue := by
  induction fuel with
  | zero => intro s used _; exact .refl _
  | succ n ih =>
    intro s used h
    unfold State.offerJoinsFuel
    split
    · exact .refl _
    · next t ht => exact (offerJoinOnce_fits h ht).1
    · next t ht =>
      exact (offerJoinOnce_fits h ht).1.trans (ih (by rw [(offerJoinOnce_onlyOffers ht).claims]; exact h))
    · next t _ ht =>
      exact (offerJoinOnce_fits h ht).1.trans (ih (by rw [(offerJoinOnce_onlyOffers ht).claims]; exact h))

theorem offerJoins_fits {s : State} {x : Item} (h : ∀ o p, Fits s.claims (.join x) o p → P o p) :
    QMoves P rm s.line.queue (s.offerJoins x).line.queue := by
  unfold State.offerJoins; split
  · exact .refl _
  · exact offerJoinsFuel_fits _ h

theorem offerDecision_fits {s : State} {x : Item} {d : Decision} (h : ∀ o p, Fits s.claims (.decision x) o p → P o p) :
    QMoves P rm s.line.queue (s.offerDecision x d).1.line.queue := by
  unfold State.offerDecision
  have hm := offer_moves (s := s) (rm := rm) (key := some (.decision x)) (o := .record x)
    (p := .decision { item := x, decision := d, again := false }) (h _ _ ⟨rfl, _, rfl, rfl⟩)
  dsimp only
  split <;> exact hm

theorem offerRepeatDecide_fits {s : State} {x : Item} {d : Decision} (h : ∀ o p, Fits s.claims (.decision x) o p → P o p) :
    QMoves P rm s.line.queue (s.offerRepeatDecide x d).1.line.queue := offer_moves (h _ _ ⟨rfl, _, rfl, rfl⟩)

theorem offerQuery_fits {s : State} {k : BitVec 2} (h : ∀ o p, Fits s.claims (.query k) o p → P o p) :
    QMoves P rm s.line.queue (s.offerQuery k).1.line.queue := by
  unfold State.offerQuery; split
  · exact offer_moves (h _ _ ⟨rfl, _, _, _, rfl⟩)
  · exact .refl _

theorem offerReport_fits {s : State} (h : ∀ o p, Fits s.claims .report o p → P o p) :
    QMoves P rm s.line.queue s.offerReport.1.line.queue := offer_moves (P := P) (h _ _ ⟨rfl, rfl⟩)

/-- An owner asked again makes offers for its own entry alone (R79). -/
theorem askAgain_fits {s : State} {k : WaitKey} (h : ∀ o p, Fits s.claims k o p → P o p) :
    QMoves P rm s.line.queue (s.askAgain k).1.line.queue := by
  cases k with
  | claim sd =>
    simp only [State.askAgain]; split
    · next hc => exact offer_moves (h _ _ ⟨rfl, ⟨_, rfl⟩, hc⟩)
    · exact .refl _
  | defer sd => exact offer_moves (h _ _ ⟨rfl, _, rfl⟩)
  | release sd => exact offer_moves (h _ _ ⟨rfl, _, rfl⟩)
  | sight x =>
    simp only [State.askAgain]
    split
    · next r hr =>
      have hx := record?_item hr
      subst hx
      split
      · exact offerSight_fits h
      · exact offerRepeatSight_fits h
      · exact offerTakeover_fits h
      · exact .refl _
    · exact .refl _
  | join x =>
    simp only [State.askAgain]; split
    · exact .refl _
    · exact offerJoinsFuel_fits _ h
  | decision x =>
    simp only [State.askAgain]
    split
    · split
      · split
        · split
          · exact offerDecision_fits h
          · exact .refl _
        · exact .refl _
      · exact offerRepeatDecide_fits h
      · exact .refl _
    · exact .refl _
  | query q => exact offerQuery_fits h
  | report =>
    simp only [State.askAgain]; split
    · exact offerReport_fits h
    · exact .refl _

end Offers

/-! ### The waiting list during a walk -/

theorem giveUp_sub (s : State) (k : WaitKey) : ∀ e ∈ (s.giveUp k).line.waiting, e ∈ s.line.waiting := fun e he => by
  simp only [State.giveUp_line, List.mem_filter] at he; exact he.1

theorem askAgain_waiting {s : State} {k : WaitKey} (hk : k ∈ s.line.waiting) :
    ∀ e ∈ (s.askAgain k).1.line.waiting, e ∈ s.line.waiting := by
  have joins : ∀ (x : Item) (fuel : Nat) (s : State) (used : Bool), .join x ∈ s.line.waiting → ∀ e ∈
      (State.offerJoinsFuel x fuel s used).1.line.waiting, e ∈ s.line.waiting ∨ e = .join x := by
    intro x fuel
    have once : ∀ {s : State} {o : State × OfferResult}, s.offerJoinOnce x = some o →
        ∀ e ∈ o.1.line.waiting, e ∈ s.line.waiting ∨ e = .join x := by
      intro s o ho e he
      unfold State.offerJoinOnce at ho
      split at ho
      · cases ho
      · split at ho
        · split at ho
          · cases ho
          · dsimp only at ho
            split at ho <;> cases ho <;> (try simp only [flagSamples_line] at he) <;>
              (rcases offer_waiting with ⟨-, h⟩ | ⟨-, h⟩ <;> rw [h] at he
               · exact .inl (List.mem_filter.1 he).1
               · split at he
                 · exact .inl he
                 · simpa using he)
        · cases ho
    have all : ∀ (fuel : Nat) (s : State) (used : Bool), ∀ e ∈ (State.offerJoinsFuel x fuel s used).1.line.waiting,
        e ∈ s.line.waiting ∨ e = .join x := by
      intro fuel
      induction fuel with
      | zero => intro s used e he; exact .inl he
      | succ n ih =>
        intro s used e he
        unfold State.offerJoinsFuel at he
        split at he
        · exact .inl he
        · next t ht => exact once ht e he
        · next t ht => exact (ih t true e he).elim (once ht e) .inr
        · next t _ ht => exact (ih t used e he).elim (once ht e) .inr
    intro s used _; exact all fuel s used
  cases k with
  | claim sd =>
    simp only [State.askAgain]; split
    · exact offer_waiting_sub hk
    · exact giveUp_sub _ _
  | defer sd => exact offer_waiting_sub hk
  | release sd => exact offer_waiting_sub hk
  | sight x =>
    simp only [State.askAgain]
    split
    · next r hr =>
      have hx := record?_item hr
      subst hx
      split
      · unfold State.offerSight; dsimp only; split <;> exact offer_waiting_sub hk
      · exact offer_waiting_sub hk
      · unfold State.offerTakeover; dsimp only
        split <;> (try simp only [flagSamples_line]) <;> exact offer_waiting_sub hk
      · exact giveUp_sub _ _
    · exact giveUp_sub _ _
  | join x =>
    simp only [State.askAgain]; split
    · exact giveUp_sub _ _
    · intro e he
      rcases joins x listSize s false hk e he with h | rfl
      · exact h
      · exact hk
  | decision x =>
    simp only [State.askAgain]
    split
    · split
      · split
        · split
          · unfold State.offerDecision; dsimp only; split <;> exact offer_waiting_sub hk
          · exact giveUp_sub _ _
        · exact giveUp_sub _ _
      · exact offer_waiting_sub hk
      · exact giveUp_sub _ _
    · exact giveUp_sub _ _
  | query q =>
    simp only [State.askAgain, State.offerQuery]; split
    · exact offer_waiting_sub hk
    · exact giveUp_sub _ _
  | report =>
    simp only [State.askAgain]; split
    · exact offer_waiting_sub (o := .reportUnit) (p := .report) hk
    · exact giveUp_sub _ _

/-- The offers of a walk: for entries that were waiting, with the claims as they were. -/
def WalkOffers (s : State) (o : Owner) (p : Payload) : Prop := ∃ k ∈ s.line.waiting, Fits s.claims k o p

theorem walkList_moves {rm : QFrame → Bool} : ∀ (ks : List WaitKey) (s : State),
    QMoves (WalkOffers s) rm s.line.queue (State.walkList ks s).line.queue ∧
      ∀ e ∈ (State.walkList ks s).line.waiting, e ∈ s.line.waiting
  | [], s => ⟨.refl _, fun _ h => h⟩
  | k :: ks, s => by
    unfold State.walkList
    split
    · next hk =>
      have h1 : QMoves (WalkOffers s) rm s.line.queue (s.askAgain k).1.line.queue := askAgain_fits fun o p hf => ⟨k, hk, hf⟩
      have h2 := askAgain_waiting hk
      dsimp only
      split
      · exact ⟨h1, h2⟩
      · obtain ⟨h3, h4⟩ := walkList_moves (rm := rm) ks (s.askAgain k).1
        refine ⟨h1.trans (h3.mono ?_), fun e he => h2 e (h4 e he)⟩
        rintro o p ⟨k', hk', hf⟩
        rw [(askAgain_onlyOffers s k).claims] at hf
        exact ⟨k', h2 k' hk', hf⟩
    · exact walkList_moves ks s

/-- R79: a walk offers for entries that were waiting, and enters none that was not. -/
theorem walk_moves {rm : QFrame → Bool} (s : State) :
    QMoves (WalkOffers s) rm s.line.queue s.walk.line.queue ∧ ∀ e ∈ s.walk.line.waiting, e ∈ s.line.waiting :=
  walkList_moves _ s

/-- R80: a removal takes out frames of its kind, each followed by a walk. -/
theorem removeLoop_moves {ok : QFrame → Bool} : ∀ (fuel : Nat) (s : State),
    QMoves (WalkOffers s) ok s.line.queue (State.removeLoop ok fuel s).line.queue ∧
      ∀ e ∈ (State.removeLoop ok fuel s).line.waiting, e ∈ s.line.waiting
  | 0, s => ⟨.refl _, fun _ h => h⟩
  | fuel + 1, s => by
    unfold State.removeLoop
    split
    · exact ⟨.refl _, fun _ h => h⟩
    · next q hq =>
      obtain ⟨h1, h2⟩ := walk_moves (rm := ok) (s.setQueue q)
      obtain ⟨h3, h4⟩ := removeLoop_moves (ok := ok) fuel (s.setQueue q).walk
      refine ⟨((QMoves.drop (.refl _) hq).trans (h1.mono ?_)).trans (h3.mono ?_), fun e he => h2 e (h4 e he)⟩
      · rintro o p ⟨k, hk, hf⟩; exact ⟨k, hk, hf⟩
      · rintro o p ⟨k, hk, hf⟩
        rw [(walk_onlyOffers _).claims] at hf
        exact ⟨k, h2 k hk, hf⟩

end Sys2Proof.Machine
end

