-- ==== Sys2Proof/Laws/Sides.lean ====
section
/-! SUPPORT. What the Coil Controller, the Lane Claim Unit and the Sweep Scheduler of one side leave as it was: everything but that
side's three records and what offers change. -/

namespace Sys2Proof.Machine

/-- The state with everything blanked that a side's blocks may change. -/
def State.offSides (s : State) : State :=
  { s.offLine with coils := State.reset.coils, claims := State.reset.claims, sweeps := State.reset.sweeps }

/-- From `s` to `t` only the three records of side `sd` and what offers change may differ. -/
structure OnlySide (sd : Side) (s t : State) : Prop where
  offSides : t.offSides = s.offSides
  records  : ∀ x, (t.record? x).map Record.bare = (s.record? x).map Record.bare
  length   : t.table.length = s.table.length
  others   : ∀ sd', sd' ≠ sd → t.coils.get sd' = s.coils.get sd' ∧ t.claims.get sd' = s.claims.get sd' ∧
    t.sweeps.get sd' = s.sweeps.get sd'

theorem OnlySide.refl (sd : Side) (s : State) : OnlySide sd s s := ⟨rfl, fun _ => rfl, rfl, fun _ _ => ⟨rfl, rfl, rfl⟩⟩

theorem OnlySide.trans {sd : Side} {s t u : State} (h : OnlySide sd s t) (k : OnlySide sd t u) : OnlySide sd s u :=
  ⟨k.offSides.trans h.offSides, fun x => (k.records x).trans (h.records x), k.length.trans h.length, fun sd' ne =>
    ⟨(k.others sd' ne).1.trans (h.others sd' ne).1, (k.others sd' ne).2.1.trans (h.others sd' ne).2.1,
      (k.others sd' ne).2.2.trans (h.others sd' ne).2.2⟩⟩

theorem OnlyOffers.side {s t : State} (h : OnlyOffers s t) (sd : Side) : OnlySide sd s t :=
  ⟨by simp only [State.offSides, h.offLine], h.records, h.length, fun _ _ => ⟨by rw [h.coils], by rw [h.claims], by rw [h.sweeps]⟩⟩

section Fields
variable {sd : Side} {s t : State} (h : OnlySide sd s t)
include h
theorem OnlySide.pending : t.pending = s.pending := by
  have e := congrArg State.pending h.offSides; exact e
theorem OnlySide.sys : t.sys = s.sys := by
  have e := congrArg State.sys h.offSides; exact e
theorem OnlySide.time : t.time = s.time := by
  have e := congrArg State.time h.offSides; exact e
theorem OnlySide.pins : t.pins = s.pins := by
  have e := congrArg State.pins h.offSides; exact e
theorem OnlySide.directory : t.directory = s.directory := by
  have e := congrArg State.directory h.offSides; exact e
theorem OnlySide.cache : t.cache = s.cache := by
  have e := congrArg State.cache h.offSides; exact e
theorem OnlySide.queries : t.queries = s.queries := by
  have e := congrArg State.queries h.offSides; exact e
theorem OnlySide.hall : t.hall = s.hall := by
  have e := congrArg State.hall h.offSides; exact e
theorem OnlySide.lamps : t.lamps = s.lamps := by
  have e := congrArg State.lamps h.offSides; exact e
theorem OnlySide.sounder : t.sounder = s.sounder := by
  have e := congrArg State.sounder h.offSides; exact e
theorem OnlySide.phase : t.line.phase = s.line.phase := by
  have e := congrArg (fun u => u.line.phase) h.offSides; exact e
theorem OnlySide.backoff : t.line.backoff = s.line.backoff := by
  have e := congrArg (fun u => u.line.backoff) h.offSides; exact e
theorem OnlySide.clear : t.report.clear = s.report.clear := by
  have e := congrArg (fun u => u.report.clear) h.offSides; exact e
theorem OnlySide.carried : t.report.carried = s.report.carried := by
  have e := congrArg (fun u => u.report.carried) h.offSides; exact e
theorem OnlySide.counter {k : CounterName} (hk : k ≠ .samplesLost) :
    counterAt t.report.counters k = counterAt s.report.counters k := by
  have e := congrArg (fun u => counterAt u.report.counters k) h.offSides
  cases k <;> first | exact e | exact absurd rfl hk
theorem OnlySide.facesEnd (sd' : Side) : t.facesEnd sd' = s.facesEnd sd' := by
  cases sd' <;> simp [State.facesEnd, State.number, h.sys]
end Fields

theorem setCoils_onlySide (s : State) (sd : Side) (u : CoilUnit) : OnlySide sd s (s.setCoils sd u) :=
  ⟨rfl, fun _ => rfl, rfl, fun _ ne => ⟨PerSide.get_set_of_ne _ _ ne, rfl, rfl⟩⟩

theorem setClaim_onlySide (s : State) (sd : Side) (c : Claim) : OnlySide sd s (s.setClaim sd c) :=
  ⟨rfl, fun _ => rfl, rfl, fun _ ne => ⟨rfl, PerSide.get_set_of_ne _ _ ne, rfl⟩⟩

theorem setSweep_onlySide (s : State) (sd : Side) (w : Sweep) : OnlySide sd s (s.setSweep sd w) :=
  ⟨rfl, fun _ => rfl, rfl, fun _ ne => ⟨rfl, rfl, PerSide.get_set_of_ne _ _ ne⟩⟩

/-! ### Coil Controller -/

theorem setCoil_onlySide (s : State) (sd : Side) (k : CoilNumber) (c : Coil) : OnlySide sd s (s.setCoil sd k c) :=
  setCoils_onlySide s sd _

theorem activate_onlySide (s : State) (sd : Side) (k : CoilNumber) : OnlySide sd s (s.activate sd k) := setCoils_onlySide s sd _

theorem cutRound_onlySide (s : State) (sd : Side) : OnlySide sd s (s.cutRound sd) := setSweep_onlySide s sd _

theorem drain_onlySide (s : State) (sd : Side) (k : CoilNumber) : OnlySide sd s (s.drain sd k) := by
  unfold State.drain; dsimp only; split
  · exact (setCoils_onlySide _ _ _).trans (cutRound_onlySide _ _)
  · exact setCoils_onlySide _ _ _

theorem drainEnergised_onlySide (s : State) (sd : Side) : OnlySide sd s (s.drainEnergised sd) := by
  unfold State.drainEnergised; split
  · exact drain_onlySide _ _ _
  · exact .refl _ _

theorem storeQ_onlySide (s : State) (sd : Side) (k : CoilNumber) (q : Nat) : OnlySide sd s (s.storeQ sd k q) :=
  setCoil_onlySide _ _ _ _

/-! ### Lane Claim Unit -/

theorem takeRequest_onlySide (s : State) (sd : Side) : OnlySide sd s (s.takeRequest sd).1 := by
  unfold State.takeRequest; dsimp only; split
  · exact setClaim_onlySide _ _ _
  · exact (setClaim_onlySide _ _ _).trans ((offer_onlyOffers _ _ _ _).side sd)

theorem requestLane_onlySide (s : State) (sd : Side) : OnlySide sd s (s.requestLane sd).1 := by
  unfold State.requestLane; dsimp only; split
  · exact takeRequest_onlySide _ _
  all_goals exact setClaim_onlySide _ _ _

theorem becomeFree_onlySide (s : State) (sd : Side) : OnlySide sd s (s.becomeFree sd).1 := by
  unfold State.becomeFree; dsimp only; split
  · exact (setClaim_onlySide _ _ _).trans (takeRequest_onlySide _ _)
  · exact setClaim_onlySide _ _ _

theorem endHold_onlySide (s : State) (sd : Side) : OnlySide sd s (s.endHold sd) := by
  unfold State.endHold; dsimp only
  split
  · split
    · exact setClaim_onlySide _ _ _
    · exact (setClaim_onlySide _ _ _).trans (drainEnergised_onlySide _ _)
  · exact .refl _ _

theorem claimClash_onlySide (s : State) (sd : Side) : OnlySide sd s (s.claimClash sd) := by
  unfold State.claimClash; dsimp only
  split
  · exact (endHold_onlySide _ _).trans (setClaim_onlySide _ _ _)
  · exact .refl _ _

theorem giveUpLane_onlySide (s : State) (sd : Side) : OnlySide sd s (s.giveUpLane sd).1 := by
  unfold State.giveUpLane; dsimp only
  have h (c : Claim) : OnlySide sd s ((((s.giveUp (.defer sd)).offerRelease sd).1).setClaim sd c) :=
    (((giveUp_onlyOffers _ _).trans (offer_onlyOffers _ _ _ _)).side sd).trans (setClaim_onlySide _ _ _)
  split
  · split
    · split
      · exact setClaim_onlySide _ _ _
      · exact (setClaim_onlySide _ _ _).trans (becomeFree_onlySide _ _)
    · split
      · exact (h _).trans (becomeFree_onlySide _ _)
      · exact h _
  · exact .refl _ _

theorem yieldTo_onlySide (s : State) (sd : Side) (cause : RestCause) (rest : Nat) :
    OnlySide sd s (s.yieldTo sd cause rest) :=
  (setClaim_onlySide _ _ _).trans (((giveUp_onlyOffers _ _).trans (askRemoval_onlyOffers _ _)).side sd)

theorem deferPartner_onlySide (s : State) (sd : Side) : OnlySide sd s (s.deferPartner sd) :=
  (setClaim_onlySide _ _ _).trans ((offer_onlyOffers _ _ _ _).side sd)

theorem giveUpThenFree_onlySide (s : State) (sd : Side) (k : WaitKey) : OnlySide sd s ((s.giveUp k).becomeFree sd).1 :=
  ((giveUp_onlyOffers _ _).side sd).trans (becomeFree_onlySide _ _)

theorem partnerClaim_onlySide (s : State) (sd : Side) : OnlySide sd s (s.partnerClaim sd) := by
  unfold State.partnerClaim; dsimp only
  split
  · exact .refl _ _
  · split
    · exact deferPartner_onlySide _ _
    · exact yieldTo_onlySide _ _ _ _
  · exact deferPartner_onlySide _ _
  · exact deferPartner_onlySide _ _
  · exact setClaim_onlySide _ _ _
  · exact setClaim_onlySide _ _ _
  · exact giveUpThenFree_onlySide _ _ _
  · exact .refl _ _

theorem partnerDefer_onlySide (s : State) (sd : Side) (hold : Nat) : OnlySide sd s (s.partnerDefer sd hold) := by
  unfold State.partnerDefer; dsimp only
  split
  · exact (((setClaim_onlySide _ _ _).trans ((giveUp_onlyOffers _ _).side sd)).trans (yieldTo_onlySide _ _ _ _)).trans
      ((askRemoval_onlyOffers _ _).side sd)
  all_goals exact .refl _ _

theorem partnerRelease_onlySide (s : State) (sd : Side) : OnlySide sd s (s.partnerRelease sd) := by
  unfold State.partnerRelease
  split
  · exact .refl _ _
  · exact giveUpThenFree_onlySide _ _ _
  all_goals exact .refl _ _

theorem releaseSettled_onlySide (s : State) (sd : Side) : OnlySide sd s (s.releaseSettled sd) := by
  unfold State.releaseSettled; dsimp only
  split
  · split
    · exact setClaim_onlySide _ _ _
    · exact .refl _ _
  · split
    · exact setClaim_onlySide _ _ _
    · exact .refl _ _
  all_goals exact .refl _ _

theorem claimTransmitted_onlySide (s : State) (sd : Side) : OnlySide sd s (s.claimTransmitted sd) := by
  unfold State.claimTransmitted; dsimp only
  split
  · exact setClaim_onlySide _ _ _
  · exact .refl _ _

/-! ### Sweep Scheduler -/

theorem startGap_onlySide (s : State) (sd : Side) : OnlySide sd s (s.startGap sd) := setSweep_onlySide _ _ _

theorem reachFrom_onlySide (sd : Side) (ks : List CoilNumber) (pos : Nat) (s : State) :
    OnlySide sd s (State.reachFrom sd ks pos s).1 := by
  induction ks generalizing pos s with
  | nil => exact setSweep_onlySide _ _ _
  | cons k ks ih =>
    unfold State.reachFrom
    split
    · exact ih _ _
    · dsimp only
      split
      · exact setSweep_onlySide _ _ _
      · split
        · exact (setSweep_onlySide _ _ _).trans (activate_onlySide _ _ _)
        · split
          · exact setSweep_onlySide _ _ _
          · split
            · exact setSweep_onlySide _ _ _
            · exact setSweep_onlySide _ _ _

theorem reachHere_onlySide (s : State) (sd : Side) : OnlySide sd s (s.reachHere sd).1 := reachFrom_onlySide _ _ _ _

theorem enterReleasing_onlySide (s : State) (sd : Side) : OnlySide sd s (s.enterReleasing sd) := setSweep_onlySide _ _ _

theorem beginList_onlySide (s : State) (sd : Side) : OnlySide sd s (s.beginList sd) := setSweep_onlySide _ _ _

theorem beginSweep_onlySide (s : State) (sd : Side) : OnlySide sd s (s.beginSweep sd) := by
  unfold State.beginSweep; dsimp only
  split
  · exact (setSweep_onlySide _ _ _).trans (startGap_onlySide _ _)
  · have h : OnlySide sd s ((s.setSweep sd { s.sweeps.get sd with state := .claiming, gap := none }).requestLane sd).1 :=
      (setSweep_onlySide _ _ _).trans (requestLane_onlySide _ _)
    split
    · have h' := (h.trans (beginList_onlySide _ _)).trans (reachHere_onlySide _ _)
      split
      · exact (h'.trans (enterReleasing_onlySide _ _)).trans (endHold_onlySide _ _)
      · exact h'
    · exact h

theorem restTold_onlySide (s : State) (sd : Side) : OnlySide sd s (s.restTold sd) := by
  unfold State.restTold; dsimp only
  have h := giveUpLane_onlySide s sd
  have h' : OnlySide sd s (if (s.giveUpLane sd).2 = true ∧ ((s.giveUpLane sd).1.sweeps.get sd).state = .claiming then
      (((s.giveUpLane sd).1.beginList sd).reachHere sd).1 else (s.giveUpLane sd).1) := by
    split
    · exact (h.trans (beginList_onlySide _ _)).trans (reachHere_onlySide _ _)
    · exact h
  generalize hu : (if (s.giveUpLane sd).2 = true ∧ ((s.giveUpLane sd).1.sweeps.get sd).state = .claiming then
      (((s.giveUpLane sd).1.beginList sd).reachHere sd).1 else (s.giveUpLane sd).1) = u at h' ⊢
  split
  · split
    · exact (h'.trans (setSweep_onlySide _ _ _)).trans (beginSweep_onlySide _ _)
    · exact (h'.trans (setSweep_onlySide _ _ _)).trans (startGap_onlySide _ _)
  · exact h'

theorem endSweep_onlySide (s : State) (sd : Side) (reported : Bool) : OnlySide sd s (s.endSweep sd reported) := by
  unfold State.endSweep; dsimp only
  have h : OnlySide sd s (if reported = true then (s.enterReleasing sd).endHold sd else s.enterReleasing sd) := by
    split
    · exact (enterReleasing_onlySide _ _).trans (endHold_onlySide _ _)
    · exact enterReleasing_onlySide _ _
  generalize (if reported = true then (s.enterReleasing sd).endHold sd else s.enterReleasing sd) = u at h ⊢
  split
  · exact h.trans (restTold_onlySide _ _)
  · exact h

theorem reach_onlySide (s : State) (sd : Side) : OnlySide sd s (s.reach sd) := by
  unfold State.reach; dsimp only
  split
  · exact (reachHere_onlySide _ _).trans (endSweep_onlySide _ _ _)
  · exact reachHere_onlySide _ _

theorem moveOn_onlySide (s : State) (sd : Side) : OnlySide sd s (s.moveOn sd) := by
  unfold State.moveOn; dsimp only
  split
  · split
    · exact endSweep_onlySide _ _ _
    · exact (setSweep_onlySide _ _ _).trans (reach_onlySide _ _)
  · exact .refl _ _

theorem grant_onlySide (s : State) (sd : Side) : OnlySide sd s (s.grant sd) := by
  unfold State.grant
  split
  · exact (beginList_onlySide _ _).trans (reach_onlySide _ _)
  · exact .refl _ _

theorem startRound_onlySide (s : State) (sd : Side) (k : CoilNumber) (q repeats back : Nat) :
    OnlySide sd s (s.startRound sd k q repeats back) := by
  unfold State.startRound; dsimp only
  split
  · exact setSweep_onlySide _ _ _
  · have h := (storeQ_onlySide s sd k back).trans (drain_onlySide _ sd k)
    split
    · exact h.trans (moveOn_onlySide _ _)
    · exact h.trans (endSweep_onlySide _ _ _)

theorem weighRound_onlySide (s : State) (sd : Side) (k : CoilNumber) (r : Round) (last : Bool) :
    OnlySide sd s (s.weighRound sd k r last) := by
  unfold State.weighRound; dsimp only
  split
  · exact (setSweep_onlySide _ _ _).trans (startRound_onlySide _ _ _ _ _ _)
  · exact (((setSweep_onlySide _ _ _).trans (storeQ_onlySide _ _ _ _)).trans (drain_onlySide _ _ _)).trans (moveOn_onlySide _ _)

theorem restartNow_onlySide (s : State) (sd : Side) : OnlySide sd s (s.restartNow sd) := by
  unfold State.restartNow; dsimp only
  split
  · split
    · split
      · exact (setSweep_onlySide _ _ _).trans (startRound_onlySide _ _ _ _ _ _)
      · exact setSweep_onlySide _ _ _
    · exact ((setSweep_onlySide _ _ _).trans (drain_onlySide _ _ _)).trans (reach_onlySide _ _)
  · exact (setSweep_onlySide _ _ _).trans (reach_onlySide _ _)

theorem restart_onlySide (s : State) (sd : Side) : OnlySide sd s (s.restart sd) := by
  unfold State.restart; dsimp only
  split
  · exact setSweep_onlySide _ _ _
  · exact restartNow_onlySide _ _

theorem priorityTrigger_onlySide (s : State) (sd : Side) : OnlySide sd s (s.priorityTrigger sd) := by
  unfold State.priorityTrigger; dsimp only
  split
  · split
    · exact (setSweep_onlySide _ _ _).trans (beginSweep_onlySide _ _)
    · exact setSweep_onlySide _ _ _
    · exact setSweep_onlySide _ _ _
    · split
      · exact .refl _ _
      · split
        · exact setSweep_onlySide _ _ _
        · exact restart_onlySide _ _
  · exact .refl _ _

theorem activity_onlySide (s : State) (sd : Side) : OnlySide sd s (s.activity sd) := setSweep_onlySide _ _ _

theorem holdExhausted_onlySide (s : State) (sd : Side) : OnlySide sd s (s.holdExhausted sd) := by
  unfold State.holdExhausted; dsimp only
  split
  · split
    · split
      · exact setSweep_onlySide _ _ _
      · exact endSweep_onlySide _ _ _
    · exact endSweep_onlySide _ _ _
  · exact .refl _ _

theorem startSide_onlySide (s : State) (sd : Side) : OnlySide sd s (s.startSide sd) := by
  unfold State.startSide
  split
  · exact (setSweep_onlySide _ _ _).trans (beginSweep_onlySide _ _)
  · exact .refl _ _

/-! ### Commands of one side -/

theorem abandonSweep_onlySide (s : State) (sd : Side) : OnlySide sd s (s.abandonSweep sd) := by
  unfold State.abandonSweep; split
  · exact endSweep_onlySide _ _ _
  · exact .refl _ _

theorem goodRamp_onlySide (s : State) (sd : Side) (k : CoilNumber) : OnlySide sd s (s.goodRamp sd k) := by
  unfold State.goodRamp; dsimp only
  split
  · split
    · exact ((setCoils_onlySide _ _ _).trans (drain_onlySide _ _ _)).trans (endSweep_onlySide _ _ _)
    · exact (setCoils_onlySide _ _ _).trans (startRound_onlySide _ _ _ _ _ _)
  · exact setCoils_onlySide _ _ _

theorem rampEnds_onlySide (s : State) (sd : Side) (level : Byte) : OnlySide sd s (s.rampEnds sd level) := by
  unfold State.rampEnds; dsimp only; split
  · have h := setCoils_onlySide s sd { s.coils.get sd with ramp := none }
    split
    · split
      · exact h.trans ((setCoils_onlySide _ _ _).trans (moveOn_onlySide _ _))
      · split
        · exact h.trans (((drain_onlySide _ _ _).trans (abandonSweep_onlySide _ _)).trans (claimClash_onlySide _ _))
        · exact h.trans (goodRamp_onlySide _ _ _)
    · exact h
  · exact .refl _ _

theorem afterLoss_onlySide (s : State) (sd : Side) (stopping : Bool) : OnlySide sd s (s.afterLoss sd stopping) := by
  unfold State.afterLoss; dsimp only; split
  · exact restartNow_onlySide _ _
  · exact moveOn_onlySide _ _

theorem liveEnds_onlySide (s : State) (sd : Side) : OnlySide sd s (s.liveEnds sd) := by
  unfold State.liveEnds; dsimp only; split
  · split
    · split
      · split
        · split
          · exact (setCoils_onlySide _ _ _).trans (setSweep_onlySide _ _ _)
          · exact ((setCoils_onlySide _ _ _).trans (cutRound_onlySide _ _)).trans (afterLoss_onlySide _ _ _)
        · exact (setCoils_onlySide _ _ _).trans (moveOn_onlySide _ _)
      · exact setCoils_onlySide _ _ _
    · exact .refl _ _
  · exact .refl _ _

theorem driveLost_onlySide (s : State) (sd : Side) (k : CoilNumber) : OnlySide sd s (s.driveLost sd k) := by
  unfold State.driveLost; dsimp only; split
  · exact ((setCoils_onlySide _ _ _).trans (cutRound_onlySide _ _)).trans (afterLoss_onlySide _ _ _)
  · exact .refl _ _

theorem tellRest_onlySide (s : State) (sd : Side) : OnlySide sd s (s.tellRest sd) := by
  unfold State.tellRest; split
  · exact restTold_onlySide _ _
  · exact .refl _ _

theorem resume_onlySide (s : State) (sd : Side) (cause : SweepWait) : OnlySide sd s (s.resume sd cause) := by
  unfold State.resume; dsimp only; split
  · exact reach_onlySide _ _
  · exact .refl _ _

theorem drainEnds_onlySide (s : State) (sd : Side) (k : CoilNumber) : OnlySide sd s (s.drainEnds sd k) := by
  unfold State.drainEnds; dsimp only; split
  · split
    · have h := (setCoil_onlySide s sd k { s.coil sd k with state := .idle, drain := none }).trans (tellRest_onlySide _ sd)
      split
      · exact h.trans (resume_onlySide _ _ _)
      · exact h
    · exact setCoil_onlySide _ _ _ _
  · exact .refl _ _

theorem cutWaitEnds_onlySide (s : State) (sd : Side) : OnlySide sd s (s.cutWaitEnds sd) := by
  unfold State.cutWaitEnds; dsimp only; split
  · exact ((setCoils_onlySide _ _ _).trans (tellRest_onlySide _ _)).trans (resume_onlySide _ _ _)
  · exact .refl _ _

theorem retestEnds_onlySide (s : State) (sd : Side) (k : CoilNumber) : OnlySide sd s (s.retestEnds sd k) := by
  unfold State.retestEnds; dsimp only; split
  · exact setCoil_onlySide _ _ _ _
  · exact .refl _ _

theorem claimWaitEnds_onlySide (s : State) (sd : Side) : OnlySide sd s (s.claimWaitEnds sd) := by
  unfold State.claimWaitEnds; dsimp only; split
  · split
    · exact (setClaim_onlySide _ _ _).trans (grant_onlySide _ _)
    · exact setClaim_onlySide _ _ _
  · exact .refl _ _

theorem holdTimerEnds_onlySide (s : State) (sd : Side) : OnlySide sd s (s.holdTimerEnds sd) := by
  unfold State.holdTimerEnds; dsimp only; split
  · split
    · exact ((setClaim_onlySide _ _ _).trans (endHold_onlySide _ _)).trans (holdExhausted_onlySide _ _)
    · exact setClaim_onlySide _ _ _
  · exact .refl _ _

theorem restEnds_onlySide (s : State) (sd : Side) : OnlySide sd s (s.restEnds sd) := by
  unfold State.restEnds; dsimp only; split
  · split
    case h_5 =>
      have h := giveUpThenFree_onlySide s sd (.release sd)
      split
      · exact h.trans (grant_onlySide _ _)
      · exact h
    all_goals exact setClaim_onlySide _ _ _
  · exact .refl _ _

theorem gapEnds_onlySide (s : State) (sd : Side) : OnlySide sd s (s.gapEnds sd) := by
  unfold State.gapEnds; dsimp only; split
  · split
    · exact (setSweep_onlySide _ _ _).trans (beginSweep_onlySide _ _)
    · exact setSweep_onlySide _ _ _
  · exact .refl _ _

theorem dozes_onlySide (s : State) (sd : Side) : OnlySide sd s (s.dozes sd) := by
  unfold State.dozes; dsimp only; split
  · exact setSweep_onlySide _ _ _
  · exact .refl _ _

theorem beamSettles_onlySide (s : State) (sd : Side) (bm : Beam) : OnlySide sd s (s.beamSettles sd bm) := by
  unfold State.beamSettles; dsimp only; split
  · split
    · exact ((setSweep_onlySide _ _ _).trans (activity_onlySide _ _)).trans (priorityTrigger_onlySide _ _)
    · exact setSweep_onlySide _ _ _
  · exact .refl _ _

end Sys2Proof.Machine
end

