-- ==== Sys2Proof/Laws/Verdicts.lean ====
section
/-! SUPPORT. What the Issue Status Unit's and the Verdict Unit's shared operations leave as it was, and what an offered decision does. -/

namespace Sys2Proof.Machine

/-! ### What query slots change -/

/-- What a record keeps when slots are taken and freed: what it keeps under offers, but for the query slot field. -/
def RecState.unslotted : RecState → RecState
  | .sole _ => .sole false
  | .lead l => .lead { l with owed := none, slot := none }
  | .joint y p => .joint y p
  | .closed d t => .closed d t

def Record.unslotted (r : Record) : Record :=
  { r with samples := r.samples.map fun p => { p with flag := .unsent }, state := r.state.unslotted }

theorem Record.unslotted_of_bare {r r' : Record} (h : r'.bare = r.bare) : r'.unslotted = r.unslotted := by
  have e : ∀ r : Record, r.unslotted = { r.bare with state := r.bare.state.unslotted } := fun r => by
    obtain ⟨i, c, lv, m, cr, sm, st⟩ := r
    cases st <;> rfl
  rw [e, e, h]

/-- The state with everything blanked that offers and query slots may change. -/
def State.offQueries (s : State) : State := { s.offLine with queries := Queries.reset }

/-- From `s` to `t` only offers were made and query slots taken and freed. -/
structure OnlyQueries (s t : State) : Prop where
  offQueries : t.offQueries = s.offQueries
  records    : ∀ x, (t.record? x).map Record.unslotted = (s.record? x).map Record.unslotted
  length     : t.table.length = s.table.length

theorem OnlyQueries.refl (s : State) : OnlyQueries s s := ⟨rfl, fun _ => rfl, rfl⟩

theorem OnlyQueries.trans {s t u : State} (h : OnlyQueries s t) (k : OnlyQueries t u) : OnlyQueries s u :=
  ⟨k.offQueries.trans h.offQueries, fun x => (k.records x).trans (h.records x), k.length.trans h.length⟩

theorem OnlyOffers.queryFree {s t : State} (h : OnlyOffers s t) : OnlyQueries s t :=
  ⟨by simp only [State.offQueries, h.offLine], fun x => by
    have := h.records x
    cases ht : t.record? x <;> cases hs : s.record? x <;> simp_all
    exact Record.unslotted_of_bare this, h.length⟩

section Fields
variable {s t : State} (h : OnlyQueries s t)
include h
theorem OnlyQueries.pending : t.pending = s.pending := by
  have e := congrArg State.pending h.offQueries; exact e
theorem OnlyQueries.sys : t.sys = s.sys := by
  have e := congrArg State.sys h.offQueries; exact e
theorem OnlyQueries.time : t.time = s.time := by
  have e := congrArg State.time h.offQueries; exact e
theorem OnlyQueries.pins : t.pins = s.pins := by
  have e := congrArg State.pins h.offQueries; exact e
theorem OnlyQueries.coils : t.coils = s.coils := by
  have e := congrArg State.coils h.offQueries; exact e
theorem OnlyQueries.claims : t.claims = s.claims := by
  have e := congrArg State.claims h.offQueries; exact e
theorem OnlyQueries.sweeps : t.sweeps = s.sweeps := by
  have e := congrArg State.sweeps h.offQueries; exact e
theorem OnlyQueries.directory : t.directory = s.directory := by
  have e := congrArg State.directory h.offQueries; exact e
theorem OnlyQueries.cache : t.cache = s.cache := by
  have e := congrArg State.cache h.offQueries; exact e
theorem OnlyQueries.hall : t.hall = s.hall := by
  have e := congrArg State.hall h.offQueries; exact e
theorem OnlyQueries.lamps : t.lamps = s.lamps := by
  have e := congrArg State.lamps h.offQueries; exact e
theorem OnlyQueries.sounder : t.sounder = s.sounder := by
  have e := congrArg State.sounder h.offQueries; exact e
theorem OnlyQueries.phase : t.line.phase = s.line.phase := by
  have e := congrArg (fun u => u.line.phase) h.offQueries; exact e
theorem OnlyQueries.backoff : t.line.backoff = s.line.backoff := by
  have e := congrArg (fun u => u.line.backoff) h.offQueries; exact e
theorem OnlyQueries.clear : t.report.clear = s.report.clear := by
  have e := congrArg (fun u => u.report.clear) h.offQueries; exact e
theorem OnlyQueries.carried : t.report.carried = s.report.carried := by
  have e := congrArg (fun u => u.report.carried) h.offQueries; exact e
theorem OnlyQueries.counter {k : CounterName} (hk : k ≠ .samplesLost) :
    counterAt t.report.counters k = counterAt s.report.counters k := by
  have e := congrArg (fun u => counterAt u.report.counters k) h.offQueries
  cases k <;> first | exact e | exact absurd rfl hk
end Fields

/-- A LEAD record stays LEAD, with every field but the query slot, the owed DECIDE and the sent flags as it was. -/
theorem OnlyQueries.lead {s t : State} (h : OnlyQueries s t) {x : Item} {r : Record} {l : Lead} (hl : s.lead? x = some (r, l)) :
    ∃ r' l', t.lead? x = some (r', l') ∧ { l' with owed := none, slot := none } = { l with owed := none, slot := none } ∧
      r'.unslotted = r.unslotted := by
  obtain ⟨hr, hs⟩ := lead?_eq_some.1 hl
  have := h.records x
  rw [hr] at this
  cases ht : t.record? x with
  | none => simp [ht] at this
  | some r' =>
    have hu : r'.unslotted = r.unslotted := by simpa [ht] using this
    have hst : r'.state.unslotted = r.state.unslotted := congrArg Record.state hu
    rw [hs] at hst
    cases hs' : r'.state with
    | lead l' =>
      refine ⟨r', l', lead?_eq_some.2 ⟨ht, hs'⟩, ?_, hu⟩
      simpa [hs', RecState.unslotted] using hst
    | sole _ => simp [hs', RecState.unslotted] at hst
    | joint _ _ => simp [hs', RecState.unslotted] at hst
    | closed _ _ => simp [hs', RecState.unslotted] at hst

/-- Under offers the query slot field too stays. -/
theorem OnlyOffers.lead {s t : State} (h : OnlyOffers s t) {x : Item} {r : Record} {l : Lead} (hl : s.lead? x = some (r, l)) :
    ∃ r' l', t.lead? x = some (r', l') ∧ { l' with owed := none } = { l with owed := none } ∧ r'.bare = r.bare := by
  obtain ⟨hr, hs⟩ := lead?_eq_some.1 hl
  obtain ⟨r', hr', hb⟩ := h.record_exists hr
  have hst : r'.state.bare = r.state.bare := congrArg Record.state hb
  rw [hs] at hst
  cases hs' : r'.state with
  | lead l' => exact ⟨r', l', lead?_eq_some.2 ⟨hr', hs'⟩, by simpa [hs', RecState.bare] using hst, hb⟩
  | sole _ => simp [hs', RecState.bare] at hst
  | joint _ _ => simp [hs', RecState.bare] at hst
  | closed _ _ => simp [hs', RecState.bare] at hst

theorem setQueries_onlyQueries (s : State) (q : Queries) : OnlyQueries s (s.setQueries q) := ⟨rfl, fun _ => rfl, rfl⟩

theorem putRecord_onlyQueries {s : State} {r r' : Record} (h : s.record? r'.item = some r) (hb : r'.unslotted = r.unslotted) :
    OnlyQueries s (s.putRecord r') := by
  refine ⟨rfl, fun x => ?_, by simp [State.putRecord]⟩
  rw [record?_putRecord h]
  split
  · next hx => subst hx; simp [h, hb]
  · rfl

theorem setSlotField_onlyQueries (s : State) (x : Item) (k : Option (BitVec 2)) : OnlyQueries s (s.setSlotField x k) := by
  unfold State.setSlotField
  split
  · next r l h =>
    obtain ⟨hr, hs⟩ := lead?_eq_some.1 h
    refine putRecord_onlyQueries (r := r) (by rw [← record?_item hr] at hr; exact hr) ?_
    simp [Record.unslotted, RecState.unslotted, hs]
  · exact .refl s

theorem takeSlot_onlyQueries (s : State) (k : BitVec 2) (x : Item) : OnlyQueries s (s.takeSlot k x) :=
  ((setQueries_onlyQueries _ _).trans (setSlotField_onlyQueries _ _ _)).trans (offerQuery_onlyOffers _ _).queryFree

theorem freeSlot_onlyQueries (s : State) (k : BitVec 2) : OnlyQueries s (s.freeSlot k) := by
  unfold State.freeSlot
  split
  · exact .refl s
  · next u _ =>
    have h := ((giveUp_onlyOffers s (.query k)).trans (askRemoval_onlyOffers _ (ofSlot k))).queryFree.trans
      (setSlotField_onlyQueries _ u.item none)
    dsimp only
    split
    · exact h.trans (setQueries_onlyQueries _ _)
    · exact ((h.trans (setQueries_onlyQueries _ _)).trans (setQueries_onlyQueries _ _)).trans (takeSlot_onlyQueries _ _ _)

theorem endQuery_onlyQueries (s : State) (x : Item) (slot : Option (BitVec 2)) : OnlyQueries s (s.endQuery x slot) := by
  unfold State.endQuery; split
  · exact freeSlot_onlyQueries _ _
  · exact setQueries_onlyQueries _ _

theorem actOnStatus_onlyQueries (s : State) (x : Item) (slot : Option (BitVec 2)) (o : IssueStatus) :
    OnlyQueries s (s.actOnStatus x slot o) := by
  unfold State.actOnStatus; split
  · split
    · exact .refl s
    · split
      · exact takeSlot_onlyQueries _ _ _
      · exact setQueries_onlyQueries _ _
  · exact endQuery_onlyQueries _ _ _

/-- A slot freed with no record waiting becomes FREE with its sequence advanced (R134). -/
theorem freeSlot_alone {s : State} {k : BitVec 2} {u : SlotUse} (hu : (s.queries.slots.get k).use = some u)
    (hw : s.queries.wait = []) :
    s.freeSlot k = (((s.giveUp (.query k)).askRemoval (ofSlot k)).setSlotField u.item none).setQueries
      { slots := s.queries.slots.set k { seq := (s.queries.slots.get k).seq + 1, use := none }, wait := [] } := by
  have hq : (((s.giveUp (.query k)).askRemoval (ofSlot k)).setSlotField u.item none).queries = s.queries := by
    have h1 := (askRemoval_onlyOffers (s.giveUp (.query k)) (ofSlot k)).queries
    unfold State.setSlotField
    split <;> simpa using h1
  simp only [State.freeSlot, hu, hq, State.setQueries_queries, hw]

/-! ### A decision is offered (R153, R155, R156) -/

/-- Under offers and freed slots the sample times stand, and with them the dwell. -/
theorem dwellOf_times {now : Clock} {ps qs : List Sample} (h : ps.map Sample.time = qs.map Sample.time) :
    dwellOf now ps = dwellOf now qs := by
  have key : ∀ (ps qs : List Sample) (b c : Sample), b.time = c.time → ps.map Sample.time = qs.map Sample.time →
      (oldestFrom now b ps).time = (oldestFrom now c qs).time := by
    intro ps
    induction ps with
    | nil =>
      intro qs b c hb hm
      cases qs with
      | nil => exact hb
      | cons q qs => simp at hm
    | cons p ps ih =>
      intro qs b c hb hm
      cases qs with
      | nil => simp at hm
      | cons q qs =>
        simp only [List.map_cons, List.cons.injEq] at hm
        simp only [oldestFrom]
        apply ih _ _ _ _ hm.2
        rw [hb, hm.1]
        split
        · exact hm.1
        · exact hb
  unfold dwellOf originOf
  cases ps with
  | nil =>
    cases qs with
    | nil => rfl
    | cons q qs => simp at h
  | cons p ps =>
    cases qs with
    | nil => simp at h
    | cons q qs =>
      simp only [List.map_cons, List.cons.injEq] at h
      simp only [key ps qs p q h.1 h.2]

theorem lead?_putLead {s : State} {r : Record} {l l' : Lead} {x : Item} (h : s.lead? x = some (r, l)) :
    (s.putLead r l').lead? x = some ({ r with state := .lead l' }, l') := by
  obtain ⟨hr, hs⟩ := lead?_eq_some.1 h
  have hx := record?_item hr
  subst hx
  refine lead?_eq_some.2 ⟨?_, rfl⟩
  exact (record?_putRecord (r' := { r with state := .lead l' }) hr r.item).trans (if_pos rfl)

/-- What offering a DECIDE of a LEAD record does: the frame is in the queue, or it waits and is owed; the record keeps the rest. -/
theorem offerDecision_lead {s : State} {x : Item} {r : Record} {l : Lead} (d : Decision) (h : s.lead? x = some (r, l)) :
    ∃ r' l', (s.offerDecision x d).1.lead? x = some (r', l') ∧ { l' with owed := none } = { l with owed := none } ∧
      r'.bare = r.bare ∧
      ((l'.owed = none ∧ ∃ f ∈ (s.offerDecision x d).1.line.queue, f.payload = .decision ⟨x, d, false⟩ ∧ f.owner = .record x) ∨
        (l'.owed = some d ∧ .decision x ∈ (s.offerDecision x d).1.line.waiting)) := by
  have ho := offer_onlyOffers s (some (.decision x)) (.record x) (.decision { item := x, decision := d, again := false })
  obtain ⟨r1, l1, h1, hl1, hb1⟩ := ho.lead h
  have e : (s.offerDecision x d).1 = (s.offer (some (.decision x)) (.record x) (.decision ⟨x, d, false⟩)).1.putLead r1
      { l1 with owed := if (s.offer (some (.decision x)) (.record x) (.decision ⟨x, d, false⟩)).2 = .refused
        then some d else none } := by
    unfold State.offerDecision
    simp only [h1]
  rw [e]
  refine ⟨_, _, lead?_putLead h1, hl1, ?_, ?_⟩
  · rw [← hb1]
    obtain ⟨-, hs1⟩ := lead?_eq_some.1 h1
    simp [Record.bare, RecState.bare, hs1]
  · simp only [State.putLead_line]
    unfold State.offer
    cases hj : judgeOffer (.record x) (.decision ⟨x, d, false⟩) s.line.queue with
    | into q left =>
      left
      simp only [reduceCtorEq, if_false, true_and, State.giveUp_line, State.setQueue_line]
      rcases judgeOffer_into hj with ⟨rfl, -, f, hf, hp, ho, -⟩ | ⟨_, _, _, hp, _⟩ | ⟨_, _, _, hp, _⟩ | ⟨f, n, m, hp, -, -, -, he⟩
      · exact ⟨f, hf, hp, ho⟩
      · cases hp
      · cases hp
      · obtain ⟨⟨a, b, -, rfl⟩, -⟩ := he
        exact ⟨_, List.mem_append_right _ (List.mem_cons_self ..), rfl, rfl⟩
    | placed q d' =>
      left
      simp only [reduceCtorEq, if_false, true_and, loseJoin_line, State.giveUp_line, State.setQueue_line]
      obtain ⟨-, -, ⟨-, rfl, -⟩ | ⟨a, f, b, m, -, -, -, rfl, -⟩⟩ := judgeOffer_placed hj <;>
        exact ⟨_, List.mem_append_right _ (List.mem_singleton.2 rfl), rfl, rfl⟩
    | refused =>
      right
      simp only [if_true, true_and, State.enterWaiting]
      split
      · assumption
      · simp

/-- A final decision offered (R153): the record is OPEN with the decision kept, and its DECIDE is queued, or waits and is owed. -/
theorem offerFinal_spec {s : State} {x : Item} {r : Record} {l : Lead} (d : Decision) (h : s.lead? x = some (r, l)) :
    ∃ r' l', (s.offerFinal x d).lead? x = some (r', l') ∧
      { l' with owed := none } = { l with owed := none, stage := .openStage, final := some d } ∧
      r'.samples.map (fun p => { p with flag := .unsent }) = r.samples.map (fun p => { p with flag := .unsent }) ∧
      ((∃ f ∈ (s.offerFinal x d).line.queue, f.payload = .decision ⟨x, d, false⟩ ∧ f.owner = .record x) ∨
        (.decision x ∈ (s.offerFinal x d).line.waiting ∧ l'.owed = some d)) := by
  have h1 := lead?_putLead (l' := { l with stage := .openStage, final := some d }) h
  obtain ⟨r', l', h2, hl, hb, hq⟩ := offerDecision_lead d h1
  have e : s.offerFinal x d = ((s.putLead r { l with stage := .openStage, final := some d }).offerDecision x d).1 := by
    unfold State.offerFinal; simp only [h]
  rw [e]
  refine ⟨r', l', h2, hl, congrArg Record.samples hb, ?_⟩
  rcases hq with ⟨-, hf⟩ | ⟨ho, hw⟩
  · exact .inl hf
  · exact .inr ⟨hw, ho⟩

end Sys2Proof.Machine
end

