-- ==== Sys2Proof/Laws/Closed.lean ====
section
/-! SUPPORT. How a property of the state passes through the shared operations: the elementary changes they are made of, and one lemma for
each operation, saying that a property which those changes keep is kept by the operation. -/

namespace Sys2Proof.Machine

/-- A payload whose sample list is of a size that its kind allows (R76, R98). -/
def Payload.sized (p : Payload) : Bool := (QFrame.fresh .noRecord p).sized

theorem QFrame.sized_eq (f : QFrame) : f.sized = f.payload.sized := rfl

/-- A frame put in place of another with its class, its item limits and its place under transmission kept (R80). -/
structure Alike (f g : QFrame) : Prop where
  underTx : g.underTx = f.underTx
  urgent  : g.urgent = f.urgent
  sight   : g.sightItem = none ∨ g.sightItem = f.sightItem
  decide  : g.decideItem = f.decideItem
  sized   : f.sized = true → g.sized = true

/-- The elementary changes that the shared operations on the line, on records, notices, slots, lamps and reports are made of, each kept
by the property `I`. None touches a side's coils, claim or sweep. -/
structure Closed (I : State → Prop) : Prop where
  queries  : ∀ {s : State} (q : Queries), I s → I (s.setQueries q)
  sounder  : ∀ {s : State} (u : Sounder), I s → I (s.setSounder u)
  hall     : ∀ {s : State} (h : Hall), I s → I { s with hall := h }
  pins     : ∀ {s : State} (p : Pins), I s → I { s with pins := p }
  waiting  : ∀ {s : State} (w : List WaitKey), I s → I (s.setWaiting w)
  phase    : ∀ {s : State} (p : LinePhase), s.line.phase.isSending = false → p.isSending = false → I s → I (s.setPhase p)
  into     : ∀ {s : State} {o : Owner} {p : Payload} {q : List QFrame} {left : List OwnSample}, p.sized = true →
    judgeOffer o p s.line.queue = .into q left → I s → I (s.setQueue q)
  placed   : ∀ {s : State} {o : Owner} {p : Payload} {q : List QFrame} {d : Option (JoinMsg × Owner)}, p.sized = true →
    judgeOffer o p s.line.queue = .placed q d → I s → I (s.setQueue q)
  drop     : ∀ {s : State} {ok : QFrame → Bool} {q : List QFrame}, dropFirst ok s.line.queue = some q → I s → I (s.setQueue q)
  alike    : ∀ {s : State} (g : QFrame → QFrame), (∀ f, Alike f (g f)) → I s → I (s.setQueue (s.line.queue.map g))
  count    : ∀ {s : State} (k : CounterName) (n : Nat), I s → I (s.count k n)
  request  : ∀ {s : State} (r : ReportRequest) (c : Bool), I s → I (s.setReport { s.report with request := r, clear := c })
  carried  : ∀ {s : State}, I s → I s.reportSent
  put      : ∀ {s : State} {r r0 : Record}, s.record? r.item = some r0 → r.samples.length ≤ max r0.samples.length listSize →
    I s → I (s.putRecord r)
  free     : ∀ {s : State} (x : Item), I s → I (s.setTable (replaceRecord x none s.table))
  create   : ∀ {s : State} {r : Record} {i : Nat}, s.record? r.item = none → s.table[i]? = some none → r.samples.length ≤ 1 →
    I s → I ((s.setTable (s.table.set i (some r))).setDirectory (dirRemove r.item s.directory))
  entry    : ∀ {s : State} {x : Item} (lead : Nat), s.record? x = none → I s → I (s.setDirectory (dirPut x lead s.time.clock s.directory))
  refresh  : ∀ {s : State} {x : Item} {e : DirEntry} (lead : Nat), dirEntry x s.directory = some e → I s →
    I (s.setDirectory (dirPut x lead s.time.clock s.directory))
  remove   : ∀ {s : State} (x : Item), I s → I (s.setDirectory (dirRemove x s.directory))
  notice   : ∀ {s : State} (st : NoticeStatus) (x : Item), I s → I (s.setCache (enterNotice st s.cache x))
  lamp     : ∀ {s : State} (sd : Side) (l : Lamp), ((s.lamps.get sd).Sound → l.Sound) → I s → I (s.setLamp sd l)

/-- A property that also survives any change of a side's coils, claim or sweep. -/
structure ClosedSides (I : State → Prop) : Prop extends Closed I where
  coils    : ∀ {s : State} (c : PerSide CoilUnit), I s → I { s with coils := c }
  claims   : ∀ {s : State} (c : PerSide Claim), I s → I { s with claims := c }
  sweeps   : ∀ {s : State} (w : PerSide Sweep), I s → I { s with sweeps := w }

/-! ### Offers, walks, removals -/

section Line
variable {I : State → Prop} (C : Closed I)
include C

theorem Closed.giveUp {s : State} (k : WaitKey) (h : I s) : I (s.giveUp k) := C.waiting _ h

theorem Closed.enterWaiting {s : State} (k : WaitKey) (h : I s) : I (s.enterWaiting k) := by
  unfold State.enterWaiting; split
  · exact h
  · exact C.waiting _ h

/-- Storing a record that was read from the table, its samples as many as before. -/
theorem Closed.putSame {s : State} {r r0 : Record} (hr : s.record? r.item = some r0) (hl : r.samples.length = r0.samples.length)
    (h : I s) : I (s.putRecord r) := C.put hr (by omega) h

theorem Closed.flagSamples {s : State} (x : Item) (ok : SentFlag → Bool) (dest : SentFlag) (cs : List OwnSample) (h : I s) :
    I (s.flagSamples x ok dest cs) := by
  unfold State.flagSamples
  split
  · next r hr =>
    have hx := record?_item hr
    exact C.putSame (r0 := r) (by simpa [hx] using hr) (flagAll_length ..) h
  · exact h

theorem Closed.settleSamples {s : State} (x : Item) (dest : SentFlag) (cs : List OwnSample) (h : I s) :
    I (s.settleSamples x dest cs) := by
  unfold State.settleSamples
  split
  · next r hr =>
    have hx := record?_item hr
    exact C.putSame (r0 := r) (by simpa [hx] using hr) (settleFlags_length ..) h
  · exact h

theorem Closed.loseJoin {s : State} (d : Option (JoinMsg × Owner)) (h : I s) : I (s.loseJoin d) := by
  unfold State.loseJoin
  split
  · exact h
  · dsimp only; split
    · exact C.settleSamples _ _ _ (C.count _ _ h)
    · exact C.count _ _ h

theorem Closed.offer {s : State} (key : Option WaitKey) (o : Owner) {p : Payload} (hp : p.sized = true) (h : I s) :
    I (s.offer key o p).1 := by
  unfold State.offer
  cases hj : judgeOffer o p s.line.queue with
  | into q left =>
    cases key with
    | none => exact C.into hp hj h
    | some k => exact C.giveUp _ (C.into hp hj h)
  | placed q d =>
    cases key with
    | none => exact C.loseJoin _ (C.placed hp hj h)
    | some k => exact C.loseJoin _ (C.giveUp _ (C.placed hp hj h))
  | refused =>
    cases key with
    | none => exact h
    | some k => exact C.enterWaiting _ h

omit C in
theorem sized_sight {m : SightMsg} (h : m.samples.length ≤ frameSamples) : (Payload.sight m).sized = true := by
  simpa [Payload.sized, QFrame.fresh, QFrame.sized] using h

omit C in
theorem sized_join {m : JoinMsg} (h1 : 1 ≤ m.samples.length) (h2 : m.samples.length ≤ frameSamples) : (Payload.join m).sized = true := by
  simp [Payload.sized, QFrame.fresh, QFrame.sized]; omega

omit C in
/-- A record stored after an offer, read before it. -/
theorem record?_after {s t : State} (ho : OnlyOffers s t) {r : Record} (hr : s.record? r.item = some r) :
    ∃ r0, t.record? r.item = some r0 ∧ r0.samples.length = r.samples.length := by
  obtain ⟨r0, h0, hb⟩ := ho.record_exists hr
  exact ⟨r0, h0, by simpa [Record.bare] using congrArg (fun r => r.samples.length) hb⟩

theorem Closed.offerSight {s : State} {r : Record} (hr : s.record? r.item = some r) (h : I s) : I (s.offerSight r).1 := by
  unfold State.offerSight
  have hs : (Payload.sight (sightOf r false false ((s.unsentOwn r).take frameSamples))).sized = true :=
    sized_sight (by simp [sightOf])
  have ho := C.offer (some (.sight r.item)) (.record r.item) hs h
  obtain ⟨r0, h0, hl⟩ := record?_after (offer_onlyOffers s (some (.sight r.item)) (.record r.item)
    (.sight (sightOf r false false ((s.unsentOwn r).take frameSamples)))) hr
  dsimp only
  split
  · exact C.putSame (r0 := r0) h0 (by rw [hl]; exact flagAll_length ..) ho
  · exact C.putSame (r0 := r0) h0 (by rw [hl]; exact flagAll_length ..) ho
  · exact C.putSame (r0 := r0) h0 hl.symm ho

theorem Closed.offerRepeatSight {s : State} (r : Record) (h : I s) : I (s.offerRepeatSight r).1 :=
  C.offer _ _ (sized_sight (by simp [sightOf])) h

theorem Closed.offerTakeover {s : State} (r : Record) (h : I s) : I (s.offerTakeover r).1 := by
  unfold State.offerTakeover
  have ho := C.offer (s := s) (some (.sight r.item)) (.record r.item) (p := .sight (sightOf r true false (s.strongestOwn r)))
    (sized_sight (by simp [sightOf, State.strongestOwn])) h
  dsimp only
  split
  · exact C.flagSamples _ _ _ _ ho
  · exact C.flagSamples _ _ _ _ ho
  · exact ho

theorem Closed.offerJoinOnce {s : State} {x : Item} {o : State × OfferResult} (ho : s.offerJoinOnce x = some o) (h : I s) : I o.1 := by
  unfold State.offerJoinOnce at ho
  split at ho
  · cases ho
  · split at ho
    · split at ho
      · cases ho
      · next c cs hcs =>
        have hl : (c :: cs).length ≤ frameSamples := by rw [← hcs]; exact List.length_take_le _ _
        dsimp only at ho
        split at ho <;> cases ho
        · exact C.flagSamples _ _ _ _ (C.offer _ _ (sized_join (by simp) hl) h)
        · exact C.flagSamples _ _ _ _ (C.offer _ _ (sized_join (by simp) hl) h)
        · exact C.offer _ _ (sized_join (by simp) hl) h
    · cases ho

theorem Closed.offerJoinsFuel (x : Item) (fuel : Nat) : ∀ {s : State} {used : Bool}, I s →
    I (State.offerJoinsFuel x fuel s used).1 := by
  induction fuel with
  | zero => intro s used h; exact h
  | succ n ih =>
    intro s used h
    unfold State.offerJoinsFuel
    split
    · exact h
    · next t ht => exact C.offerJoinOnce ht h
    · next t ht => exact ih (C.offerJoinOnce ht h)
    · next t _ ht => exact ih (C.offerJoinOnce ht h)

theorem Closed.offerJoins {s : State} (x : Item) (h : I s) : I (s.offerJoins x) := by
  unfold State.offerJoins; split
  · exact h
  · exact C.offerJoinsFuel _ _ h

theorem Closed.putLead {s : State} {x : Item} {r : Record} {l : Lead} (hl : s.lead? x = some (r, l)) (l' : Lead) (h : I s) :
    I (s.putLead r l') := by
  obtain ⟨hr, -⟩ := lead?_eq_some.1 hl
  have hx := record?_item hr
  exact C.putSame (r := { r with state := .lead l' }) (r0 := r) (by simpa [hx] using hr) rfl h

theorem Closed.offerDecision {s : State} (x : Item) (d : Decision) (h : I s) : I (s.offerDecision x d).1 := by
  unfold State.offerDecision
  have ho := C.offer (s := s) (some (.decision x)) (.record x) (p := .decision { item := x, decision := d, again := false }) rfl h
  dsimp only
  split
  · next hl => exact C.putLead hl _ ho
  · exact ho

theorem Closed.offerRepeatDecide {s : State} (x : Item) (d : Decision) (h : I s) : I (s.offerRepeatDecide x d).1 := C.offer _ _ rfl h

theorem Closed.offerQuery {s : State} (k : BitVec 2) (h : I s) : I (s.offerQuery k).1 := by
  unfold State.offerQuery; split
  · exact C.offer _ _ rfl h
  · exact C.giveUp _ h

theorem Closed.offerReport {s : State} (h : I s) : I s.offerReport.1 := by
  unfold State.offerReport
  exact C.request (s := (s.offer (some .report) .reportUnit .report).1) _ _ (C.offer _ _ rfl h)

theorem Closed.askAgain {s : State} (k : WaitKey) (h : I s) : I (s.askAgain k).1 := by
  cases k with
  | claim sd =>
    simp only [State.askAgain]; split
    · exact C.offer _ _ rfl h
    · exact C.giveUp _ h
  | defer sd => exact C.offer _ _ rfl h
  | release sd => exact C.offer _ _ rfl h
  | sight x =>
    simp only [State.askAgain]
    split
    · next r hr =>
      have hx := record?_item hr
      subst hx
      split
      · exact C.offerSight hr h
      · exact C.offerRepeatSight r h
      · exact C.offerTakeover r h
      · exact C.giveUp _ h
    · exact C.giveUp _ h
  | join x =>
    simp only [State.askAgain]; split
    · exact C.giveUp _ h
    · exact C.offerJoinsFuel _ _ h
  | decision x =>
    simp only [State.askAgain]
    split
    · next r hr =>
      split
      · next l hl =>
        split
        · split
          · exact C.offerDecision _ _ h
          · exact C.giveUp _ (C.putLead (lead?_eq_some.2 ⟨hr, hl⟩) _ h)
        · exact C.giveUp _ h
      · exact C.offerRepeatDecide _ _ h
      · exact C.giveUp _ h
    · exact C.giveUp _ h
  | query q => exact C.offerQuery q h
  | report =>
    simp only [State.askAgain]; split
    · exact C.offerReport h
    · exact C.giveUp _ h

theorem Closed.walkList : ∀ (ks : List WaitKey) {s : State}, I s → I (State.walkList ks s)
  | [], _, h => h
  | k :: ks, s, h => by
    unfold State.walkList
    split
    · dsimp only
      split
      · exact C.askAgain k h
      · exact Closed.walkList ks (C.askAgain k h)
    · exact Closed.walkList ks h

theorem Closed.walk {s : State} (h : I s) : I s.walk := C.walkList _ h

theorem Closed.removeLoop (ok : QFrame → Bool) : ∀ (fuel : Nat) {s : State}, I s → I (State.removeLoop ok fuel s)
  | 0, _, h => h
  | fuel + 1, s, h => by
    unfold State.removeLoop
    split
    · exact h
    · next q hq => exact Closed.removeLoop ok fuel (C.walk (C.drop hq h))

omit C in
theorem Alike.refl (f : QFrame) : Alike f f := ⟨rfl, rfl, .inr rfl, rfl, id⟩

theorem Closed.holdRemoval {s : State} (ok : QFrame → Bool) (h : I s) : I (s.setQueue (holdRemoval ok s.line.queue)) :=
  C.alike _ (fun f => by
    show Alike f (if _ then _ else _)
    split
    · exact ⟨rfl, rfl, .inr rfl, rfl, id⟩
    · exact .refl f) h

theorem Closed.askRemoval {s : State} (ok : QFrame → Bool) (h : I s) : I (s.askRemoval ok) := C.removeLoop _ _ (C.holdRemoval ok h)

omit C in
/-- A SIGHT with samples turned into a JOIN (R80). -/
theorem convertFrame_alike {lead : Nat} {f : QFrame} (h : sightEmpty f = false) : Alike f (convertFrame lead f) := by
  unfold convertFrame
  split
  · next m hm =>
    refine ⟨rfl, by simp [QFrame.urgent, Payload.urgent, hm], .inl rfl, by simp [QFrame.decideItem, hm], fun hs => ?_⟩
    simp only [QFrame.sized, hm, decide_eq_true_eq] at hs
    simp only [sightEmpty, hm, List.isEmpty_eq_false_iff] at h
    have := List.length_pos_of_ne_nil h
    simp [QFrame.sized]; omega
  · exact .refl f

theorem Closed.askConversion {s : State} (x : Item) (lead : Nat) (h : I s) : I (s.askConversion x lead) :=
  C.removeLoop _ _ (C.alike _ (fun f => by
    show Alike f (if _ then _ else _)
    split
    · split
      · exact ⟨rfl, rfl, .inr rfl, rfl, id⟩
      · split
        · exact .refl f
        · next hs => exact convertFrame_alike (by simpa using hs)
    · exact .refl f) h)

theorem Closed.orphan {s : State} (x : Item) (h : I s) : I (s.setQueue (orphan x s.line.queue)) :=
  C.alike _ (fun f => by
    show Alike f (if _ then _ else _)
    split
    · exact ⟨rfl, rfl, .inr rfl, rfl, id⟩
    · exact .refl f) h

theorem Closed.freeRecord {s : State} (x : Item) (h : I s) : I (s.freeRecord x) :=
  C.orphan (s := (((s.setTable (replaceRecord x none s.table)).giveUp (.sight x)).giveUp (.join x)).giveUp (.decision x)) x
    (C.giveUp _ (C.giveUp _ (C.giveUp _ (C.free x h))))

end Line

/-! ### Coils, claims and sweeps -/

section Sides
variable {I : State → Prop} (C : ClosedSides I)
include C

theorem ClosedSides.setCoils {s : State} (sd : Side) (u : CoilUnit) (h : I s) : I (s.setCoils sd u) := C.coils _ h
theorem ClosedSides.setClaim {s : State} (sd : Side) (c : Claim) (h : I s) : I (s.setClaim sd c) := C.claims _ h
theorem ClosedSides.setSweep {s : State} (sd : Side) (w : Sweep) (h : I s) : I (s.setSweep sd w) := C.sweeps _ h

theorem ClosedSides.drain {s : State} (sd : Side) (k : CoilNumber) (h : I s) : I (s.drain sd k) := by
  unfold State.drain; dsimp only; split
  · exact C.setSweep _ _ (C.setCoils _ _ h)
  · exact C.setCoils _ _ h

theorem ClosedSides.drainEnergised {s : State} (sd : Side) (h : I s) : I (s.drainEnergised sd) := by
  unfold State.drainEnergised; split
  · exact C.drain _ _ h
  · exact h

theorem ClosedSides.takeRequest {s : State} (sd : Side) (h : I s) : I (s.takeRequest sd).1 := by
  unfold State.takeRequest; dsimp only; split
  · exact C.setClaim _ _ h
  · exact C.offer _ _ rfl (C.setClaim _ _ h)

theorem ClosedSides.requestLane {s : State} (sd : Side) (h : I s) : I (s.requestLane sd).1 := by
  unfold State.requestLane; dsimp only; split
  · exact C.takeRequest _ h
  all_goals exact C.setClaim _ _ h

theorem ClosedSides.becomeFree {s : State} (sd : Side) (h : I s) : I (s.becomeFree sd).1 := by
  unfold State.becomeFree; dsimp only; split
  · exact C.takeRequest _ (C.setClaim _ _ h)
  · exact C.setClaim _ _ h

theorem ClosedSides.endHold {s : State} (sd : Side) (h : I s) : I (s.endHold sd) := by
  unfold State.endHold; dsimp only; split
  · split
    · exact C.setClaim _ _ h
    · exact C.drainEnergised _ (C.setClaim _ _ h)
  · exact h

theorem ClosedSides.claimClash {s : State} (sd : Side) (h : I s) : I (s.claimClash sd) := by
  unfold State.claimClash; dsimp only; split
  · exact C.setClaim _ _ (C.endHold _ h)
  · exact h

theorem ClosedSides.giveUpLane {s : State} (sd : Side) (h : I s) : I (s.giveUpLane sd).1 := by
  unfold State.giveUpLane; dsimp only; split
  · split
    · split
      · exact C.setClaim _ _ h
      · exact C.becomeFree _ (C.setClaim _ _ h)
    · have h1 := C.setClaim sd { s.claims.get sd with
        state := afterRelease (s.claims.get sd), clash := false, deferredPartner := false, hold := none, rest := none }
        (C.offer (some (.release sd)) (.side sd) (p := .release ((s.giveUp (.defer sd)).lane sd)) rfl (C.giveUp (.defer sd) h))
      split
      · exact C.becomeFree _ h1
      · exact h1
  · exact h

theorem ClosedSides.yieldTo {s : State} (sd : Side) (cause : RestCause) (rest : Nat) (h : I s) : I (s.yieldTo sd cause rest) :=
  C.askRemoval _ (C.giveUp _ (C.setClaim _ _ h))

theorem ClosedSides.deferPartner {s : State} (sd : Side) (h : I s) : I (s.deferPartner sd) := C.offer _ _ rfl (C.setClaim _ _ h)

theorem ClosedSides.partnerClaim {s : State} (sd : Side) (h : I s) : I (s.partnerClaim sd) := by
  unfold State.partnerClaim; dsimp only
  split
  · exact h
  · split
    · exact C.deferPartner _ h
    · exact C.yieldTo _ _ _ h
  · exact C.deferPartner _ h
  · exact C.deferPartner _ h
  · exact C.setClaim _ _ h
  · exact C.setClaim _ _ h
  · exact C.becomeFree _ (C.giveUp _ h)
  · exact h

theorem ClosedSides.partnerDefer {s : State} (sd : Side) (hold : Nat) (h : I s) : I (s.partnerDefer sd hold) := by
  unfold State.partnerDefer; dsimp only
  split
  · exact C.askRemoval _ (C.yieldTo _ _ _ (C.giveUp _ (C.setClaim _ _ h)))
  all_goals exact h

theorem ClosedSides.partnerRelease {s : State} (sd : Side) (h : I s) : I (s.partnerRelease sd) := by
  unfold State.partnerRelease
  split
  · exact h
  · exact C.becomeFree _ (C.giveUp _ h)
  all_goals exact h

theorem ClosedSides.releaseSettled {s : State} (sd : Side) (h : I s) : I (s.releaseSettled sd) := by
  unfold State.releaseSettled; dsimp only
  split
  · split
    · exact C.setClaim _ _ h
    · exact h
  · split
    · exact C.setClaim _ _ h
    · exact h
  all_goals exact h

theorem ClosedSides.claimTransmitted {s : State} (sd : Side) (h : I s) : I (s.claimTransmitted sd) := by
  unfold State.claimTransmitted; dsimp only; split
  · exact C.setClaim _ _ h
  · exact h

theorem ClosedSides.reachFrom (sd : Side) : ∀ (ks : List CoilNumber) (pos : Nat) {s : State}, I s → I (State.reachFrom sd ks pos s).1
  | [], _, _, h => C.setSweep _ _ h
  | k :: ks, pos, s, h => by
    unfold State.reachFrom
    split
    · exact ClosedSides.reachFrom sd ks _ h
    · dsimp only
      split
      · exact C.setSweep _ _ h
      · split
        · exact C.setCoils _ _ (C.setSweep _ _ h)
        · split
          · exact C.setSweep _ _ h
          · split
            · exact C.setSweep _ _ h
            · exact C.setSweep _ _ h

theorem ClosedSides.reachHere {s : State} (sd : Side) (h : I s) : I (s.reachHere sd).1 := C.reachFrom _ _ _ h

theorem ClosedSides.beginList {s : State} (sd : Side) (h : I s) : I (s.beginList sd) := C.setSweep _ _ h
theorem ClosedSides.enterReleasing {s : State} (sd : Side) (h : I s) : I (s.enterReleasing sd) := C.setSweep _ _ h

theorem ClosedSides.beginSweep {s : State} (sd : Side) (h : I s) : I (s.beginSweep sd) := by
  unfold State.beginSweep; dsimp only
  split
  · exact C.setSweep _ _ (C.setSweep _ _ h)
  · have h1 := C.requestLane sd (C.setSweep sd { s.sweeps.get sd with state := .claiming, gap := none } h)
    split
    · have h2 := C.reachHere sd (C.beginList sd h1)
      split
      · exact C.endHold _ (C.setSweep _ _ h2)
      · exact h2
    · exact h1

theorem ClosedSides.restTold {s : State} (sd : Side) (h : I s) : I (s.restTold sd) := by
  unfold State.restTold; dsimp only
  have h1 := C.giveUpLane sd h
  have h2 : I (if (s.giveUpLane sd).2 = true ∧ ((s.giveUpLane sd).1.sweeps.get sd).state = .claiming then
      (((s.giveUpLane sd).1.beginList sd).reachHere sd).1 else (s.giveUpLane sd).1) := by
    split
    · exact C.reachHere _ (C.beginList _ h1)
    · exact h1
  generalize (if (s.giveUpLane sd).2 = true ∧ ((s.giveUpLane sd).1.sweeps.get sd).state = .claiming then
      (((s.giveUpLane sd).1.beginList sd).reachHere sd).1 else (s.giveUpLane sd).1) = u at h2 ⊢
  split
  · split
    · exact C.beginSweep _ (C.setSweep _ _ h2)
    · exact C.setSweep _ _ (C.setSweep _ _ h2)
  · exact h2

theorem ClosedSides.endSweep {s : State} (sd : Side) (reported : Bool) (h : I s) : I (s.endSweep sd reported) := by
  unfold State.endSweep; dsimp only
  have h1 : I (if reported = true then (s.enterReleasing sd).endHold sd else s.enterReleasing sd) := by
    split
    · exact C.endHold _ (C.setSweep _ _ h)
    · exact C.setSweep _ _ h
  generalize (if reported = true then (s.enterReleasing sd).endHold sd else s.enterReleasing sd) = u at h1 ⊢
  split
  · exact C.restTold _ h1
  · exact h1

theorem ClosedSides.reach {s : State} (sd : Side) (h : I s) : I (s.reach sd) := by
  unfold State.reach; dsimp only; split
  · exact C.endSweep _ _ (C.reachHere _ h)
  · exact C.reachHere _ h

theorem ClosedSides.moveOn {s : State} (sd : Side) (h : I s) : I (s.moveOn sd) := by
  unfold State.moveOn; dsimp only; split
  · split
    · exact C.endSweep _ _ h
    · exact C.reach _ (C.setSweep _ _ h)
  · exact h

theorem ClosedSides.grant {s : State} (sd : Side) (h : I s) : I (s.grant sd) := by
  unfold State.grant; split
  · exact C.reach _ (C.setSweep _ _ h)
  · exact h

theorem ClosedSides.startRound {s : State} (sd : Side) (k : CoilNumber) (q repeats back : Nat) (h : I s) :
    I (s.startRound sd k q repeats back) := by
  unfold State.startRound; dsimp only; split
  · exact C.setSweep _ _ h
  · have h1 := C.drain sd k (C.setCoils sd _ h : I (s.storeQ sd k back))
    split
    · exact C.moveOn _ h1
    · exact C.endSweep _ _ h1

theorem ClosedSides.weighRound {s : State} (sd : Side) (k : CoilNumber) (r : Round) (last : Bool) (h : I s) :
    I (s.weighRound sd k r last) := by
  unfold State.weighRound; dsimp only; split
  · exact C.startRound _ _ _ _ _ (C.setSweep _ _ h)
  · exact C.moveOn _ (C.drain _ _ (C.setCoils _ _ (C.setSweep _ _ h)))

theorem ClosedSides.restartNow {s : State} (sd : Side) (h : I s) : I (s.restartNow sd) := by
  unfold State.restartNow; dsimp only; split
  · split
    · split
      · exact C.startRound _ _ _ _ _ (C.setSweep _ _ h)
      · exact C.setSweep _ _ h
    · exact C.reach _ (C.drain _ _ (C.setSweep _ _ h))
  · exact C.reach _ (C.setSweep _ _ h)

theorem ClosedSides.restart {s : State} (sd : Side) (h : I s) : I (s.restart sd) := by
  unfold State.restart; dsimp only; split
  · exact C.setSweep _ _ h
  · exact C.restartNow _ h

theorem ClosedSides.priorityTrigger {s : State} (sd : Side) (h : I s) : I (s.priorityTrigger sd) := by
  unfold State.priorityTrigger; dsimp only; split
  · split
    · exact C.beginSweep _ (C.setSweep _ _ h)
    · exact C.setSweep _ _ h
    · exact C.setSweep _ _ h
    · split
      · exact h
      · split
        · exact C.setSweep _ _ h
        · exact C.restart _ h
  · exact h

theorem ClosedSides.provisionalTriggers {s : State} (laneA : Nat) (laneB : Option Nat) (h : I s) : I (s.provisionalTriggers laneA laneB) := by
  have one : ∀ {t : State} (sd : Side), I t → I (if t.lane sd = laneA ∨ some (t.lane sd) = laneB then t.priorityTrigger sd else t) := by
    intro t sd h; split
    · exact C.priorityTrigger _ h
    · exact h
  exact one .R (one .L h)

theorem ClosedSides.holdExhausted {s : State} (sd : Side) (h : I s) : I (s.holdExhausted sd) := by
  unfold State.holdExhausted; dsimp only; split
  · split
    · split
      · exact C.setSweep _ _ h
      · exact C.endSweep _ _ h
    · exact C.endSweep _ _ h
  · exact h

theorem ClosedSides.startSide {s : State} (sd : Side) (h : I s) : I (s.startSide sd) := by
  unfold State.startSide; split
  · exact C.beginSweep _ (C.setSweep _ _ h)
  · exact h

end Sides

end Sys2Proof.Machine
end

