-- ==== Sys2Proof/Laws/Frames.lean ====
section
/-! SUPPORT. What the shared operations at a frame's end and at an attempt's end do. -/

namespace Sys2Proof.Machine

/-- The Lane Claim Unit of an inner-lane side takes the claim frames of its partner for its lane (R33). -/
theorem claimSide_of {v : State} {sd : Side} (he : v.facesEnd sd = false) :
    v.claimSide (v.partner sd) (v.lane sd) = some sd := by
  cases sd with
  | L => simp [State.claimSide, he]
  | R =>
    have : (v.lane .L == v.lane .R) = false := by simp [State.lane, sideLane]
    simp [State.claimSide, this, he]

theorem toPartner_of {v : State} {sd : Side} {sender : Address} {lane : Byte} (he : v.facesEnd sd = false)
    (hl : lane.toNat = v.lane sd) (hs : sender.toNat = v.partner sd) (act : State → Side → State) :
    v.toPartner sender lane act = act v sd := by
  simp [State.toPartner, hl, hs, claimSide_of he]

/-- A frame of another K16 that passes the checks is handed on, and the line is at an idle moment (R82 to R84). -/
theorem takeFrame_k16 {v : State} {sender : Address} {stamp : Clock} {b : Body} (h : v.HearsK16 sender stamp) (hk : fromK16 b = true)
    (hz : sizeAllowed b = true) (act : Clock → State → State) (fault : State → State) :
    v.takeFrame sender b act fault = act stamp (v.setPhase (.idle 0)) := by
  obtain ⟨h1, h2, h3, h4⟩ := h
  have h4' : sender.toNat ≠ v.number := h4
  simp [State.takeFrame, h1, h2, hz, State.senderOk, hk, h3, State.number]
  intro h; exact absurd h h4

/-- A frame of a desk that passes the checks is handed on, and the line is at an idle moment (R82 to R84). -/
theorem takeFrame_desk {v : State} {sender : Address} {stamp : Clock} {b : Body} (h : v.HearsDesk sender stamp) (hk : fromK16 b = false)
    (hz : sizeAllowed b = true) (act : Clock → State → State) (fault : State → State) :
    v.takeFrame sender b act fault = act stamp (v.setPhase (.idle 0)) := by
  obtain ⟨h1, h2, h3⟩ := h
  simp [State.takeFrame, h1, h2, hz, State.senderOk, hk, h3]

@[simp] theorem lane_setPhase (v : State) (p : LinePhase) (sd : Side) : (v.setPhase p).lane sd = v.lane sd := by cases sd <;> rfl
@[simp] theorem partner_setPhase (v : State) (p : LinePhase) (sd : Side) : (v.setPhase p).partner sd = v.partner sd := by cases sd <;> rfl

/-- The partner is deferred: the mark is set, and a DEFER is queued or waits (R37, R40). -/
theorem deferPartner_spec (u : State) (sd : Side) : (u.deferPartner sd).claims.get sd = { u.claims.get sd with deferredPartner := true } ∧
    (u.deferPartner sd).sweeps = u.sweeps ∧ (u.deferPartner sd).coils = u.coils ∧
    ((∃ f ∈ (u.deferPartner sd).line.queue, f.payload = .defer (u.lane sd) ∧ f.owner = .side sd) ∨ (.defer sd) ∈ (u.deferPartner sd).line.waiting) := by
  have ho := offer_onlyOffers (u.setClaim sd { u.claims.get sd with deferredPartner := true }) (some (.defer sd)) (.side sd) (.defer ((u.setClaim sd { u.claims.get sd with deferredPartner := true }).lane sd))
  refine ⟨?_, ?_, ?_, ?_⟩
  · have := ho.claims; unfold State.deferPartner State.offerDefer; rw [this]; simp
  · exact ho.sweeps
  · exact ho.coils
  · unfold State.deferPartner State.offerDefer
    set u1 := u.setClaim sd { u.claims.get sd with deferredPartner := true }
    have hl : u1.lane sd = u.lane sd := by cases sd <;> rfl
    rw [hl]
    unfold State.offer
    dsimp only
    cases hj : judgeOffer (.side sd) (.defer (u.lane sd)) u1.line.queue with
    | into q left =>
      left
      simp only [judgeOffer, mergeOrReplace] at hj
      split at hj
      · rename_i t ht
        split at ht
        · rename_i ha
          cases ht
          simp at hj
          obtain ⟨f, hf, ha⟩ := List.any_eq_true.1 ha
          simp [absorbs] at ha
          exact ⟨f, by rw [← hj.1]; exact hf, ha.1.1, ha.1.2⟩
        · cases ht
      · split at hj
        · cases hj
        · split at hj
          · split at hj <;> cases hj
          · rename_i h; simp [Payload.urgent] at h
    | placed q d =>
      left
      simp only [judgeOffer, mergeOrReplace] at hj
      split at hj
      · cases hj
      · split at hj
        · cases hj
        · split at hj
          · split at hj
            · injection hj with h1 h2
              subst h1 h2
              simp [State.loseJoin, QFrame.fresh]
            · cases hj
          · rename_i h; simp [Payload.urgent] at h
    | refused =>
      right
      simp [State.enterWaiting]
      split
      · assumption
      · simp

/-- The frame under transmission, where it is the only one. -/
theorem sentFrame_of {before behind : List QFrame} {f : QFrame} (h : ∀ g ∈ before, g.underTx = false) (hf : f.underTx = true) :
    sentFrame (before ++ f :: behind) = some f := by
  simp only [sentFrame]
  rw [List.find?_append]
  have : List.find? QFrame.underTx before = none := by
    rw [List.find?_eq_none]; intro g hg; simp [h g hg]
  simp [this, hf]

theorem withoutSent_of {before behind : List QFrame} {f : QFrame} (h : ∀ g ∈ before, g.underTx = false) (hf : f.underTx = true) :
    withoutSent (before ++ f :: behind) = before ++ behind := by
  induction before with
  | nil => simp [withoutSent, hf]
  | cons a l ih => simp [withoutSent, h a (by simp)]; exact ih (fun g hg => h g (by simp [hg]))

theorem backToWaiting_of {before behind : List QFrame} {f : QFrame} (h : ∀ g ∈ before, g.underTx = false) (hf : f.underTx = true) :
    backToWaiting (before ++ f :: behind) = before ++ { f with underTx := false, losses := f.losses + 1 } :: behind := by
  induction before with
  | nil => simp [backToWaiting, hf]
  | cons a l ih => simp [backToWaiting, h a (by simp)]; exact ih (fun g hg => h g (by simp [hg]))

/-- A walk with nothing waiting does nothing. -/
theorem walk_empty {s : State} (h : s.line.waiting = []) : s.walk = s := by simp [State.walk, h, State.walkList]

/-- What is offered afresh after a drop changes what offers change. -/
theorem afterDropped_only (s : State) (f : QFrame) : OnlyOffers s (s.afterDropped f) := by
  unfold State.afterDropped
  split
  · split
    · exact offer_onlyOffers _ _ _ _
    · exact .refl _
  · split
    · next r hr =>
      split
      · next hs => exact offerSight_onlyOffers (by rw [record?_item hr]; exact hr) hs
      · split
        · exact (offerTakeover_onlyOffers _ _).trans (offerJoins_onlyOffers _ _)
        · exact .refl _
      · exact .refl _
      · exact .refl _
    · exact .refl _
  · exact offerJoins_onlyOffers _ _
  · split
    · split
      · exact offerQuery_onlyOffers _ _
      · exact .refl _
    · exact .refl _
  · split
    · split
      · exact offerDecision_onlyOffers _ _ _
      · exact .refl _
    · exact .refl _
  · exact .refl _

/-- A completion (R73): the frame leaves, its owner acts, the waiting owners are asked, and then the new offers are made. -/
theorem complete_eq {v : State} {att : Attempt} {before behind : List QFrame} {f : QFrame} (hsend : v.Sends att before f behind) (h0 : att.left = 0) :
    v.transmitCompletes = ((((({ v with line := { v.line with phase := .idle 0, backoff := false, queue := before ++ behind } }).frameSent f).1).walk).afterSent f
      (({ v with line := { v.line with phase := .idle 0, backoff := false, queue := before ++ behind } }).frameSent f).2) := by
  obtain ⟨hph, hq, hbe, hf⟩ := hsend
  have hsf : sentFrame v.line.queue = some f := by rw [hq]; exact sentFrame_of hbe hf
  simp only [State.transmitCompletes, hph, h0, if_true, State.complete, hsf]
  rw [hq, withoutSent_of hbe hf]
  rfl

end Sys2Proof.Machine
end

