-- ==== Sys2Proof/Laws/ClosedRecords.lean ====
section
/-! SUPPORT. How a property of the state passes through the operations on records, notices, query slots, lamps and reports. -/

namespace Sys2Proof.Machine

section Records
variable {I : State → Prop} (C : Closed I)
include C

theorem Closed.putRecState {s : State} {x : Item} {r : Record} (hr : s.record? x = some r) (st : RecState) (h : I s) :
    I (s.putRecState r st) := by
  have hx := record?_item hr
  exact C.putSame (r := { r with state := st }) (r0 := r) (by simpa [hx] using hr) rfl h

theorem Closed.putMark {s : State} {x : Item} {r : Record} (hr : s.record? x = some r) (m : IssueMark) (h : I s) :
    I (s.putRecord { r with mark := m }) := by
  have hx := record?_item hr
  exact C.putSame (r := { r with mark := m }) (r0 := r) (by simpa [hx] using hr) rfl h

/-! ### Query slots and notices -/

theorem Closed.setSlotField {s : State} (x : Item) (k : Option (BitVec 2)) (h : I s) : I (s.setSlotField x k) := by
  unfold State.setSlotField; split
  · next hl => exact C.putLead hl _ h
  · exact h

theorem Closed.takeSlot {s : State} (k : BitVec 2) (x : Item) (h : I s) : I (s.takeSlot k x) :=
  C.offerQuery _ (C.setSlotField _ _ (C.queries _ h))

theorem Closed.freeSlot {s : State} (k : BitVec 2) (h : I s) : I (s.freeSlot k) := by
  unfold State.freeSlot
  split
  · exact h
  · next u _ =>
    have h1 := C.setSlotField u.item none (C.askRemoval (ofSlot k) (C.giveUp (.query k) h))
    dsimp only
    split
    · exact C.queries _ h1
    · exact C.takeSlot _ _ (C.queries _ (C.queries _ h1))

theorem Closed.endQuery {s : State} (x : Item) (slot : Option (BitVec 2)) (h : I s) : I (s.endQuery x slot) := by
  unfold State.endQuery; split
  · exact C.freeSlot _ h
  · exact C.queries _ h

theorem Closed.actOnStatus {s : State} (x : Item) (slot : Option (BitVec 2)) (o : IssueStatus) (h : I s) :
    I (s.actOnStatus x slot o) := by
  unfold State.actOnStatus; split
  · split
    · exact h
    · split
      · exact C.takeSlot _ _ h
      · exact C.queries _ h
  · exact C.endQuery _ _ h

/-! ### Verdicts -/

theorem Closed.offerFinal {s : State} (x : Item) (d : Decision) (h : I s) : I (s.offerFinal x d) := by
  unfold State.offerFinal; split
  · next hl => exact C.offerDecision _ _ (C.putLead hl _ h)
  · exact h

theorem Closed.holdRecord {s : State} (x : Item) (a : Nat) (b : Option Nat) (e : ClassEntry) (h : I s) : I (s.holdRecord x a b e) := by
  unfold State.holdRecord; split
  · next hl => exact C.putLead hl _ h
  · exact h

theorem Closed.finalEvaluation {s : State} (x : Item) (h : I s) : I (s.finalEvaluation x) := by
  unfold State.finalEvaluation
  split
  · next r l _ =>
    split
    · split
      · exact C.offerFinal _ _ h
      · next e _ =>
        dsimp only
        have h1 : I (if holdLimit e = 0 then s else s.actOnStatus x l.slot (s.issueStatusOf r)) := by
          split
          · exact h
          · exact C.actOnStatus _ _ _ h
        split
        · exact C.offerFinal _ _ h1
        · exact C.holdRecord _ _ _ _ h1
    · exact h
  · exact h

theorem Closed.reEvaluateHeld {s : State} (x : Item) (answer : Option IssueStatus) (h : I s) : I (s.reEvaluateHeld x answer) := by
  unfold State.reEvaluateHeld
  split
  · next r l _ =>
    split
    · dsimp only
      have h1 := C.actOnStatus x l.slot (withAnswer answer (s.issueStatusOf r)) h
      split
      · exact h1
      · split
        · exact C.offerFinal _ _ h1
        · exact h1
    · exact h
    · exact h
  · exact h

theorem Closed.provisionalCheck {s : State} (x : Item) (h : I s) : I (s.provisionalCheck x) := by
  unfold State.provisionalCheck
  split
  · next hl =>
    split
    · split
      · split
        · exact C.offerDecision _ _ (C.putLead hl _ h)
        · exact h
      · exact h
    · exact h
  · exact h

theorem Closed.reEvaluateProvisional {s : State} (x : Item) (h : I s) : I (s.reEvaluateProvisional x) := by
  unfold State.reEvaluateProvisional
  split
  · next hl =>
    split
    · dsimp only
      split
      · split
        · exact h
        · exact C.offerDecision _ _ (C.putLead hl _ h)
      · exact C.offerDecision _ _ (C.putLead hl _ h)
    · exact h
  · exact h

theorem Closed.noticeTold {s : State} (x : Item) (h : I s) : I (s.noticeTold x) := by
  unfold State.noticeTold
  split
  · split
    · exact C.reEvaluateHeld _ _ h
    · exact C.reEvaluateProvisional _ h
    · exact h
  · exact h

theorem Closed.sampleAdded {s : State} (x : Item) (before : Nat) (h : I s) : I (s.sampleAdded x before) := by
  unfold State.sampleAdded
  split
  · next r l hl =>
    have h1 := C.putLead hl { l with quiet := some (ms s.sys.cfg.quiet) } h
    dsimp only
    split
    · exact C.reEvaluateHeld _ _ h1
    · split
      · exact C.finalEvaluation _ (C.provisionalCheck _ h1)
      · exact C.provisionalCheck _ h1
    · split
      · exact C.finalEvaluation _ (C.provisionalCheck _ h1)
      · exact C.provisionalCheck _ h1
  · exact h

theorem Closed.contextCreated {s : State} (x : Item) (evaluate : Bool) (h : I s) : I (s.contextCreated x evaluate) := by
  unfold State.contextCreated
  split
  · split
    · exact C.finalEvaluation _ h
    · exact h
  · exact h

theorem Closed.holdExpired {s : State} (x : Item) (h : I s) : I (s.holdExpired x) := by
  unfold State.holdExpired
  split
  · next r l _ =>
    split
    · dsimp only
      refine C.offerFinal _ _ (C.endQuery _ _ ?_)
      split
      · exact C.count _ _ h
      · exact h
    · exact h
    · exact h
  · exact h

/-! ### Passage records -/

omit C in
theorem offerToList_length (floor : Nat) (now : Clock) (p : Sample) (l : List Sample) :
    (offerToList floor now p l).samples.length ≤ max l.length listSize := by
  unfold offerToList
  split
  · simp; omega
  · dsimp only
    split
    · split <;> simp
    · simp

theorem Closed.addSample {s : State} (x : Item) (p : Sample) (h : I s) : I (s.addSample x p).1 := by
  unfold State.addSample
  split
  · exact h
  · next r hr =>
    have hx := record?_item hr
    dsimp only
    have h1 := C.count (s := s.putRecord { r with samples := (offerToList s.sys.cfg.noiseFloor s.time.clock p r.samples).samples })
      .samplesLost (offerToList s.sys.cfg.noiseFloor s.time.clock p r.samples).lost
      (C.put (r0 := r) (by simpa [hx] using hr) (offerToList_length ..) h)
    split
    · exact C.sampleAdded _ _ h1
    · exact h1

theorem Closed.addHeard {s : State} (x : Item) (p : Sample) (h : I s) : I (s.addHeard x p) := by
  unfold State.addHeard; split
  · exact h
  · split
    · exact h
    · exact C.addSample _ _ h

theorem Closed.addAllHeard {s : State} (x : Item) (ps : List Sample) (h : I s) : I (s.addAllHeard x ps) := by
  unfold State.addAllHeard
  induction ps generalizing s with
  | nil => exact h
  | cons p ps ih => exact ih (C.addHeard x p h)

omit C in
theorem freePosition_some {t : List (Option Record)} {i : Nat} (h : freePosition t = some i) : t[i]? = some none := by
  unfold freePosition at h
  dsimp only at h
  split at h
  · next hl =>
    cases h
    have := List.findIdx_getElem (w := hl)
    rw [List.getElem?_eq_getElem hl]
    simpa [Option.isNone_iff_eq_none] using this
  · cases h

/-- Room is made for a record: at most one record of another item is freed (R96). -/
theorem Closed.roomForRecord {s t : State} {i : Nat} {x : Item} (ht : s.roomForRecord = some (t, i)) (hx : s.record? x = none)
    (h : I s) : I t ∧ t.record? x = none ∧ t.table[i]? = some none ∧ t.directory = s.directory ∧ t.number = s.number := by
  unfold State.roomForRecord at ht
  split at ht
  · next j hj =>
    cases ht
    exact ⟨h, hx, freePosition_some hj, rfl, rfl⟩
  · split at ht
    · next r _ _ =>
      dsimp only at ht
      obtain ⟨j, hj, he⟩ := Option.map_eq_some_iff.1 ht
      cases he
      refine ⟨C.freeRecord _ h, ?_, freePosition_some hj, rfl, rfl⟩
      have : ∀ tb, findRecord x tb = none → findRecord x (replaceRecord r.item none tb) = none := by
        intro tb
        induction tb with
        | nil => intro _; rfl
        | cons e tb ih =>
          intro hf
          cases e with
          | none => simp only [findRecord] at hf; simp [findRecord, ih hf]
          | some a =>
            by_cases ha : a.item = x
            · simp [findRecord, ha] at hf
            · simp only [findRecord, ha, if_false] at hf
              by_cases hb : a.item = r.item
              · simp [findRecord, hb, ih hf]
              · simp [findRecord, hb, ha, ih hf]
      exact this _ hx
    · cases ht

omit C in
theorem findRecord_set {t : List (Option Record)} {i : Nat} {r : Record} (h : findRecord r.item t = none) (hi : t[i]? = some none) :
    findRecord r.item (t.set i (some r)) = some r := by
  induction t generalizing i with
  | nil => simp at hi
  | cons e t ih =>
    cases i with
    | zero => simp [findRecord]
    | succ i =>
      cases e with
      | none => simpa [findRecord] using ih (by simpa [findRecord] using h) (by simpa using hi)
      | some a =>
        by_cases ha : a.item = r.item
        · simp [findRecord, ha] at h
        · simpa [findRecord, ha] using ih (by simpa [findRecord, ha] using h) (by simpa using hi)

omit C in
theorem dirRemove_absent {x : Item} {d : List DirEntry} (h : dirEntry x d = none) : dirRemove x d = d := by
  simp only [dirEntry, List.find?_eq_none] at h
  simp only [dirRemove, List.filter_eq_self]
  intro e he; simpa using h e he

theorem Closed.localNew {s : State} {r : Reply} (p : Sample) (hx : s.record? r.item = none) (h : I s) : I (s.localNew r p) := by
  unfold State.localNew
  dsimp only
  split
  · next t i ht =>
    obtain ⟨h1, hx1, hi, hd, -⟩ := C.roomForRecord ht hx h
    split
    · next e _ =>
      exact C.offerJoins _ (C.create (r := newRecord s.time.clock r p (.joint e.lead (some s.patience))) hx1 hi (by simp [newRecord]) h1)
    · next he =>
      refine C.offerSight (s := t.setTable (t.table.set i (some (newRecord s.time.clock r p (.sole false))))) (findRecord_set hx1 hi) ?_
      have hc := C.create (r := newRecord s.time.clock r p (.sole false)) hx1 hi (by simp [newRecord]) h1
      rw [show dirRemove (newRecord s.time.clock r p (.sole false)).item t.directory = t.directory from
        dirRemove_absent (by rw [hd]; exact he)] at hc
      exact hc
  · split
    · next e _ =>
      have h1 := C.offer (s := s) none .noRecord (p := .join { item := r.item, lead := e.lead, samples := [p.content] })
        (sized_join (by simp) (by simp [frameSamples])) h
      split
      · exact C.count _ _ h1
      · exact h1
    · exact C.count _ _ h

theorem Closed.localKnown {s : State} {rec0 : Record} {r : Reply} (p : Sample) (hr : s.record? r.item = some rec0) (h : I s) :
    I (s.localKnown rec0 r p) := by
  unfold State.localKnown
  dsimp only
  have hm := C.putMark hr r.mark h
  split
  · have h1 := C.addSample r.item p hm
    split
    · split
      · next r1 hr1 =>
        have hx1 := record?_item hr1
        exact C.offerSight (by rw [hx1]; exact hr1) h1
      · exact h1
    · exact h1
  · exact C.addSample _ _ hm
  · split
    · exact C.offerJoins _ (C.addSample _ _ hm)
    · exact C.addSample _ _ hm
  · exact C.putRecState hr _ h

theorem Closed.localSample {s : State} (sd : Side) (k : CoilNumber) (r : Reply) (h : I s) : I (s.localSample sd k r) := by
  unfold State.localSample
  dsimp only
  split
  · next hr => exact C.localKnown _ hr h
  · next hr => exact C.localNew _ hr h

theorem Closed.soleToJoint {s : State} {x : Item} {r : Record} (hr : s.record? x = some r) (lead : Nat) (h : I s) :
    I (s.soleToJoint r lead) :=
  C.offerJoins _ (C.askConversion _ _ (C.giveUp _ (C.putRecState hr _ h)))

theorem Closed.yieldLead {s : State} {x : Item} {r : Record} (hr : s.record? x = some r) (l : Lead) (lead : Nat) (h : I s) :
    I (s.yieldLead r l lead) := by
  have hx := record?_item hr
  exact C.offerJoins _ (C.askRemoval _ (C.endQuery _ _ (C.askRemoval _ (C.giveUp _ (C.giveUp _
    (C.putSame (r := { r with samples := unsendOwn s.number r.samples, state := .joint lead (some s.patience) }) (r0 := r)
      (by simpa [hx] using hr) (by simp [unsendOwn]) h))))))

theorem Closed.contested {s : State} {x : Item} {r : Record} (hr : s.record? x = some r) (l : Lead) (y : Nat) (again : Bool) (h : I s) :
    I (s.contested r l y again) := by
  unfold State.contested; split
  · exact C.yieldLead hr _ _ h
  · split
    · exact h
    · exact C.offerRepeatSight _ h

theorem Closed.takeMark {s : State} (x : Item) (m : IssueMark) (h : I s) : I (s.takeMark x m) := by
  unfold State.takeMark; split
  · next hr => exact C.putMark hr _ h
  · exact h

theorem Closed.rejoin {s : State} {x : Item} {r : Record} (hr : s.record? x = some r) (y : Nat) (h : I s) : I (s.rejoin r y) := by
  have hx := record?_item hr
  exact C.offerJoins _ (C.askRemoval _ (C.giveUp _ (C.putSame (r := { r with
    samples := settleFlags s.number .unsent (sightSamples r.item s.line.queue) r.samples, state := .joint y (some s.patience) })
      (r0 := r) (by simpa [hx] using hr) (settleFlags_length ..) h)))

theorem Closed.heardSight {s : State} (y : Nat) (stamp : Clock) (b : SightBody) (h : I s) : I (s.heardSight y stamp b) := by
  unfold State.heardSight
  dsimp only
  split
  · next hn => exact C.entry _ hn h
  · next r hr =>
    split
    · exact C.addAllHeard _ _ (C.takeMark _ _ (C.soleToJoint hr _ h))
    · exact C.addAllHeard _ _ (C.takeMark _ _ (C.contested hr _ _ _ h))
    · exact C.addAllHeard _ _ (C.takeMark _ _ (C.rejoin hr _ h))
    · split
      · exact h
      · exact C.offerRepeatDecide _ _ h

theorem Closed.heardJoin {s : State} (y : Nat) (stamp : Clock) (b : JoinBody) (h : I s) : I (s.heardJoin y stamp b) := by
  unfold State.heardJoin
  dsimp only
  split
  · exact h
  · split
    · next hn =>
      unfold dirJoin
      split
      · next he => exact C.refresh _ he h
      · exact C.entry _ hn h
    · next r hr =>
      split
      · refine C.addAllHeard _ _ ?_
        split
        · exact h
        · exact C.soleToJoint hr _ h
      · refine C.addAllHeard _ _ ?_
        split
        · exact h
        · exact C.contested hr _ _ _ h
      · exact C.addAllHeard _ _ h
      · exact h

theorem Closed.closeBy {s : State} {x : Item} {r : Record} (hr : s.record? x = some r) (d : Decision) (h : I s) : I (s.closeBy r d) := by
  unfold State.closeBy
  have h1 := C.giveUp (.decision r.item) (C.giveUp (.join r.item) (C.giveUp (.sight r.item) (C.putRecState hr (.closed d s.time.clock) h)))
  dsimp only
  split
  · exact C.askRemoval _ h1
  · exact C.askRemoval _ h1
  · exact C.askRemoval _ (C.endQuery _ _ (C.askRemoval _ h1))
  · exact h

theorem Closed.passageDecide {s : State} (b : DecideBody) (h : I s) : I (s.passageDecide b) := by
  unfold State.passageDecide
  dsimp only
  split
  · split
    · next hr => exact C.closeBy hr _ h
    · exact C.remove _ h
  · unfold dirRefresh
    split
    · next he => exact C.refresh _ he h
    · exact h

theorem Closed.becomeLead {s : State} (x : Item) (h : I s) : I (s.becomeLead x) := by
  unfold State.becomeLead; split
  · next hr => exact C.giveUp _ (C.giveUp _ (C.putRecState hr _ h))
  · exact h

theorem Closed.sightSent {s : State} (x : Item) (m : SightMsg) (h : I s) : I (s.sightSent x m).1 := by
  unfold State.sightSent
  split
  · split
    · exact C.becomeLead _ (C.settleSamples _ _ _ h)
    · exact C.settleSamples _ _ _ h
    · split
      · exact C.becomeLead _ (C.settleSamples _ _ _ h)
      · exact C.settleSamples _ _ _ h
    · exact h
  · exact h

theorem Closed.decisionSent {s : State} (x : Item) (m : DecideMsg) (h : I s) : I (s.decisionSent x m) := by
  unfold State.decisionSent
  split
  · next r l hl =>
    have hr := (lead?_eq_some.1 hl).1
    split
    · exact h
    · split
      · exact C.giveUp _ (C.giveUp _ (C.putRecState hr _ h))
      · split
        · exact C.putLead hl _ h
        · exact h
  · exact h

theorem Closed.freeSole {s : State} (r : Record) (h : I s) : I (s.freeSole r) := C.askRemoval _ (C.count _ _ (C.freeRecord _ h))

theorem Closed.solePatience {s : State} (r : Record) (h : I s) : I (s.solePatience r) := by
  unfold State.solePatience; split
  · exact C.holdRemoval _ h
  · exact C.freeSole _ h

/-! ### Lamps, sounder and reports -/

omit C in
theorem dropHolder_sub (x : Item) (hs : List Holder) : (dropHolder x hs).Sublist hs := List.filter_sublist

omit C in
theorem Lamp.removeHolder_sound {l : Lamp} (x : Item) (h : l.Sound) : (l.removeHolder x).Sound := by
  obtain ⟨h1, h2, h3⟩ := h
  unfold Lamp.removeHolder
  split
  · refine ⟨le_trans (dropHolder_sub x _).length_le h1, ((dropHolder_sub x _).map _).nodup h2, ?_⟩
    cases hs : l.state with
    | dark => rw [hs] at h3; simp [LampState.settle, show l.holders = [] from h3, dropHolder]
    | flashing lit left =>
      simp only [LampState.settle]
      cases hd : dropHolder x l.holders with
      | nil => simp
      | cons a b => simp
    | steady left => simp [LampState.settle]
  · exact ⟨h1, h2, h3⟩

omit C in
theorem Lamp.addHolder_sound {l : Lamp} (x : Item) (patience : Nat) (h : l.Sound) : (l.addHolder x patience).Sound := by
  obtain ⟨h1, h2, -⟩ := h
  have key : ∀ rest : List Holder, rest.Sublist l.holders → rest.length < holderLimit → (∀ e ∈ rest, e.item ≠ x) →
      (rest ++ [{ item := x, left := patience }] : List Holder).length ≤ holderLimit ∧
      ((rest ++ [{ item := x, left := patience }] : List Holder).map Holder.item).Nodup := by
    intro rest hs hl hx
    refine ⟨by simp; omega, ?_⟩
    simp only [List.map_append, List.map_cons, List.map_nil]
    rw [List.nodup_append]
    refine ⟨(hs.map _).nodup h2, by simp, ?_⟩
    intro a ha b hb
    obtain ⟨e, he, rfl⟩ := List.mem_map.1 ha
    rw [List.mem_singleton.1 hb]
    exact hx e he
  have : (putHolder x patience l.holders).length ≤ holderLimit ∧ ((putHolder x patience l.holders).map Holder.item).Nodup := by
    unfold putHolder
    dsimp only
    split
    · next ha =>
      obtain ⟨e, he, hex⟩ := List.any_eq_true.1 ha
      refine key _ (dropHolder_sub x _) ?_ ?_
      · refine lt_of_lt_of_le (List.length_filter_lt_length_iff_exists.2 ⟨e, he, by simpa using hex⟩) h1
      · intro e he; simpa [dropHolder] using (List.mem_filter.1 he).2
    · next ha =>
      have ha' : ∀ e ∈ l.holders, e.item ≠ x := by simpa using ha
      split
      · next hl =>
        refine key _ (List.drop_sublist _ _) (by simp [holderLimit] at *; omega) fun e he => ha' e (List.mem_of_mem_drop he)
      · next hl => exact key _ (List.Sublist.refl _) (by omega) ha'
  refine ⟨this.1, this.2, ?_⟩
  have hne : putHolder x patience l.holders ≠ [] := by simp [putHolder]
  cases hs : l.state <;> simp [Lamp.addHolder, hs, LampState.provoke, LampState.flashStart, hne]

theorem Closed.lampDecide {s : State} (sd : Side) (x : Item) (v : Verdict) (named : Bool) (h : I s) : I (s.lampDecide sd x v named) := by
  unfold State.lampDecide
  dsimp only
  split
  · split
    · exact C.lamp _ _ (Lamp.addHolder_sound _ _) h
    · exact h
  iterate 4 exact C.lamp _ _ (Lamp.removeHolder_sound _) h
  · refine C.lamp _ _ (fun hl => ?_) h
    split
    · obtain ⟨h1, h2, -⟩ := Lamp.removeHolder_sound x hl
      exact ⟨h1, h2, trivial⟩
    · exact Lamp.removeHolder_sound _ hl

theorem Closed.alarmDecide {s : State} (x : Item) (v : Verdict) (laneA : Nat) (laneB : Option Nat) (again : Bool) (h : I s) :
    I (s.alarmDecide x v laneA laneB again) := by
  unfold State.alarmDecide
  split
  · exact h
  · dsimp only
    have h1 := C.lampDecide .R x v (s.names .R laneA laneB) (C.lampDecide .L x v (s.names .L laneA laneB) h)
    split
    · exact C.sounder _ h1
    · exact h1

theorem Closed.countDecision {s : State} (v : Verdict) (again : Bool) (h : I s) : I (s.countDecision v again) := by
  unfold State.countDecision
  split
  · exact h
  · split
    · exact C.count _ _ h
    · exact C.count _ _ h
    · exact C.count _ _ (C.count _ _ h)
    · exact C.count _ _ (C.count _ _ h)
    · exact C.count _ _ h
    · exact h

theorem Closed.takePoll {s : State} (clear : Bool) (h : I s) : I (s.takePoll clear) := by
  unfold State.takePoll
  split
  · exact C.offerReport (C.request s.report.request clear h)
  · exact C.request s.report.request _ h
  · exact C.request s.report.request _ h

/-! ### An attempt's end -/

theorem Closed.afterDropped {s : State} (f : QFrame) (h : I s) : I (s.afterDropped f) := by
  unfold State.afterDropped
  split
  · split
    · exact C.offer _ _ rfl h
    · exact h
  · split
    · next r hr =>
      split
      · exact C.offerSight (by rw [record?_item hr]; exact hr) h
      · split
        · exact C.offerJoins _ (C.offerTakeover _ h)
        · exact h
      · exact h
      · exact h
    · exact h
  · exact C.offerJoins _ h
  · split
    · split
      · exact C.offerQuery _ h
      · exact h
    · exact h
  · split
    · split
      · exact C.offerDecision _ _ h
      · exact h
    · exact h
  · exact h

theorem Closed.carryOut {s : State} (f : QFrame) (h : I s) : I (s.carryOut f) := by
  unfold State.carryOut
  split
  · exact h
  · split
    · exact C.freeSole _ h
    · exact C.removeLoop _ _ h
  · refine C.removeLoop _ _ (C.alike _ (fun g => ?_) h)
    split
    · next hg => exact convertFrame_alike (by simp at hg; exact hg.2)
    · exact .refl g

end Records

section Sides
variable {I : State → Prop} (C : ClosedSides I)
include C

theorem ClosedSides.frameSent {s : State} (f : QFrame) (h : I s) : I (s.frameSent f).1 := by
  unfold State.frameSent
  split
  · exact C.claimTransmitted _ h
  · exact C.releaseSettled _ h
  · exact C.sightSent _ _ h
  · exact C.settleSamples _ _ _ h
  · dsimp only
    refine C.countDecision _ _ (C.alarmDecide _ _ _ _ _ ?_)
    split
    · exact C.decisionSent _ _ h
    · exact h
  · exact C.carried h
  · exact h

theorem ClosedSides.afterSent {s : State} (f : QFrame) (ctx : Option Bool) (h : I s) : I (s.afterSent f ctx) := by
  unfold State.afterSent
  split
  · split
    · exact C.contextCreated _ _ h
    · exact h
  · split
    · exact C.provisionalTriggers _ _ h
    · exact h
  · exact h

theorem ClosedSides.frameDropped {s : State} (f : QFrame) (h : I s) : I (s.frameDropped f) := by
  unfold State.frameDropped
  split
  · exact C.freeSole _ h
  · split
    · exact C.releaseSettled _ h
    · exact C.settleSamples _ _ _ h
    · exact C.settleSamples _ _ _ h
    · exact C.request _ _ h
    · exact h

end Sides

end Sys2Proof.Machine
end

