-- ==== Sys2Proof/Laws/Exec.lean ====
section
/-! SUPPORT. What `exec` answers on each command: the one operation it runs, on the state at the command's moment. -/

namespace Sys2Proof.Machine

theorem exec_fullReset (after : Nat) (s : State) :
    exec (.fullReset after) s = .next { State.reset with pins := s.pins, pending := s.pending } := rfl

theorem exec_startUp (after : Nat) (straps : StationNumber) (s : State) :
    exec (.startUp after straps) s = .next ((s.advance after).startUp straps) := rfl

theorem exec_readAttemptFail (after : Nat) (s : State) :
    exec (.readAttemptFail after) s = .next (s.advance after).readFails := rfl

theorem exec_retryWaitEnd (after : Nat) (s : State) :
    exec (.retryWaitEnd after) s = .next (s.advance after).retryEnds := rfl

theorem exec_readAttemptComplete (after : Nat) (image : List Byte) (s : State) :
    exec (.readAttemptComplete after image) s = .next ((s.advance after).readCompletes image) := rfl

theorem exec_startupIdleGap (after : Nat) (s : State) :
    exec (.startupIdleGap after) s = .next (s.advance after).listen := rfl

theorem exec_secondsTick (after : Nat) (s : State) :
    exec (.secondsTick after) s = .next (s.advance after).tick := rfl

theorem exec_noticeExpiry (after : Nat) (s : State) :
    exec (.noticeExpiry after) s = .next (s.advance after).expireCache := rfl

theorem exec_rampEnd (after : Nat) (side : Side) (level : Byte) (s : State) :
    exec (.rampEnd after side level) s = .next ((s.advance after).rampEnds side level) := rfl

theorem exec_liveLimit (after : Nat) (side : Side) (s : State) :
    exec (.liveLimit after side) s = .next ((s.advance after).liveEnds side) := rfl

theorem exec_driveLoss (after : Nat) (side : Side) (coil : CoilNumber) (s : State) :
    exec (.driveLoss after side coil) s = .next ((s.advance after).driveLost side coil) := rfl

theorem exec_drainEnd (after : Nat) (side : Side) (coil : CoilNumber) (s : State) :
    exec (.drainEnd after side coil) s = .next ((s.advance after).drainEnds side coil) := rfl

theorem exec_cutWaitEnd (after : Nat) (side : Side) (s : State) :
    exec (.cutWaitEnd after side) s = .next ((s.advance after).cutWaitEnds side) := rfl

theorem exec_retestEnd (after : Nat) (side : Side) (coil : CoilNumber) (s : State) :
    exec (.retestEnd after side coil) s = .next ((s.advance after).retestEnds side coil) := rfl

theorem exec_claimWaitEnd (after : Nat) (side : Side) (s : State) :
    exec (.claimWaitEnd after side) s = .next ((s.advance after).claimWaitEnds side) := rfl

theorem exec_claimHoldTimerEnd (after : Nat) (side : Side) (s : State) :
    exec (.claimHoldTimerEnd after side) s = .next ((s.advance after).holdTimerEnds side) := rfl

theorem exec_restTimerEnd (after : Nat) (side : Side) (s : State) :
    exec (.restTimerEnd after side) s = .next ((s.advance after).restEnds side) := rfl

theorem exec_heardClaim (after : Nat) (sender : Address) (lane : Byte) (s : State) :
    exec (.heardClaim after sender lane) s =
      .next ((s.advance after).takeFrame sender (.claimBody lane)
        (fun _ t => t.toPartner sender lane State.partnerClaim) ignored) := rfl

theorem exec_heardDefer (after : Nat) (sender : Address) (body : DeferBody) (s : State) :
    exec (.heardDefer after sender body) s =
      .next ((s.advance after).takeFrame sender (.deferBody body)
        (fun _ t => t.toPartner sender body.lane fun u sd => u.partnerDefer sd body.hold.toNat) ignored) := rfl

theorem exec_heardRelease (after : Nat) (sender : Address) (lane : Byte) (s : State) :
    exec (.heardRelease after sender lane) s =
      .next ((s.advance after).takeFrame sender (.releaseBody lane)
        (fun _ t => t.toPartner sender lane State.partnerRelease) ignored) := rfl

theorem exec_gapEnd (after : Nat) (side : Side) (s : State) :
    exec (.gapEnd after side) s = .next ((s.advance after).gapEnds side) := rfl

theorem exec_slotEnd (after : Nat) (side : Side) (outcome : SlotOutcome) (s : State) :
    exec (.slotEnd after side outcome) s = .next ((s.advance after).slotEnds side outcome) := rfl

theorem exec_dozeTimerEnd (after : Nat) (side : Side) (s : State) :
    exec (.dozeTimerEnd after side) s = .next ((s.advance after).dozes side) := rfl

theorem exec_beamInputChange (after : Nat) (side : Side) (beam : Beam) (broken : Bool) (s : State) :
    exec (.beamInputChange after side beam broken) s = .next ((s.advance after).beamChanges side beam broken) := rfl

theorem exec_beamDebounceEnd (after : Nat) (side : Side) (beam : Beam) (s : State) :
    exec (.beamDebounceEnd after side beam) s = .next ((s.advance after).beamSettles side beam) := rfl

theorem exec_attemptStart (after : Nat) (s : State) :
    exec (.attemptStart after) s = .next (s.advance after).attemptStarts := rfl

theorem exec_contentionLost (after : Nat) (s : State) :
    exec (.contentionLost after) s = .next (s.advance after).contentionLost := rfl

theorem exec_transmitComplete (after : Nat) (s : State) :
    exec (.transmitComplete after) s = .next (s.advance after).transmitCompletes := rfl

theorem exec_badFrame (after : Nat) (raw : RawFrame) (s : State) :
    exec (.badFrame after raw) s = .next ((s.advance after).badFrameEnds raw) := rfl

theorem exec_heardSight (after : Nat) (sender : Address) (body : SightBody) (s : State) :
    exec (.heardSight after sender body) s =
      .next ((s.advance after).takeFrame sender (.sightBody body)
        (fun stamp t => t.heardSight sender.toNat stamp body) ignored) := rfl

theorem exec_heardJoin (after : Nat) (sender : Address) (body : JoinBody) (s : State) :
    exec (.heardJoin after sender body) s =
      .next ((s.advance after).takeFrame sender (.joinBody body)
        (fun stamp t => t.heardJoin sender.toNat stamp body) ignored) := rfl

theorem exec_heardDecide (after : Nat) (sender : Address) (body : DecideBody) (s : State) :
    exec (.heardDecide after sender body) s =
      .next ((s.advance after).takeFrame sender (.decideBody body) (fun _ t => t.takeDecide body) ignored) := rfl

theorem exec_heardQuery (after : Nat) (sender : Address) (body : QueryBody) (s : State) :
    exec (.heardQuery after sender body) s =
      .next ((s.advance after).takeFrame sender (.queryBody body) (fun _ t => t) ignored) := rfl

theorem exec_heardReport (after : Nat) (sender : Address) (body : ReportBody) (s : State) :
    exec (.heardReport after sender body) s =
      .next ((s.advance after).takeFrame sender (.reportBody body) (fun _ t => t) ignored) := rfl

theorem exec_solePatienceEnd (after : Nat) (item : Item) (s : State) :
    exec (.solePatienceEnd after item) s = .next ((s.advance after).soleExpires item) := rfl

theorem exec_patienceTimerEnd (after : Nat) (item : Item) (s : State) :
    exec (.patienceTimerEnd after item) s = .next ((s.advance after).patienceEnds item) := rfl

theorem exec_directoryExpiry (after : Nat) (item : Item) (s : State) :
    exec (.directoryExpiry after item) s = .next ((s.advance after).directoryExpires item) := rfl

theorem exec_closeHoldEnd (after : Nat) (item : Item) (s : State) :
    exec (.closeHoldEnd after item) s = .next ((s.advance after).closeExpires item) := rfl

theorem exec_heardIssue (after : Nat) (sender : Address) (items : List Item) (s : State) :
    exec (.heardIssue after sender items) s =
      .next ((s.advance after).takeFrame sender (.issueBody items) (fun _ t => t.takeNotices .issued items) ignored) := rfl

theorem exec_heardReturn (after : Nat) (sender : Address) (items : List Item) (s : State) :
    exec (.heardReturn after sender items) s =
      .next ((s.advance after).takeFrame sender (.returnBody items) (fun _ t => t.takeNotices .returned items) ignored) := rfl

theorem exec_heardAnswer (after : Nat) (sender : Address) (body : AnswerBody) (s : State) :
    exec (.heardAnswer after sender body) s =
      .next ((s.advance after).takeFrame sender (.answerBody body)
        (fun _ t => if body.receiver.toNat = t.number then t.takeAnswer body else t) ignored) := rfl

theorem exec_quietTimerEnd (after : Nat) (item : Item) (s : State) :
    exec (.quietTimerEnd after item) s = .next ((s.advance after).quietEnds item) := rfl

theorem exec_dwellReached (after : Nat) (item : Item) (s : State) :
    exec (.dwellReached after item) s = .next ((s.advance after).dwellReached item) := rfl

theorem exec_holdTimerEnd (after : Nat) (item : Item) (s : State) :
    exec (.holdTimerEnd after item) s = .next ((s.advance after).holdEnds item) := rfl

theorem exec_hallLevelInputChange (after : Nat) (value : BitVec 2) (s : State) :
    exec (.hallLevelInputChange after value) s = .next ((s.advance after).hallChanges value) := rfl

theorem exec_hallLevelDebounceEnd (after : Nat) (s : State) :
    exec (.hallLevelDebounceEnd after) s = .next (s.advance after).hallSettles := rfl

theorem exec_lampHoldEnd (after : Nat) (side : Side) (s : State) :
    exec (.lampHoldEnd after side) s = .next ((s.advance after).lampHoldEnds side) := rfl

theorem exec_holderExpiry (after : Nat) (side : Side) (item : Item) (s : State) :
    exec (.holderExpiry after side item) s = .next ((s.advance after).holderExpires side item) := rfl

theorem exec_flashPhaseEnd (after : Nat) (side : Side) (s : State) :
    exec (.flashPhaseEnd after side) s = .next ((s.advance after).flashEnds side) := rfl

theorem exec_cadenceTimerEnd (after : Nat) (s : State) :
    exec (.cadenceTimerEnd after) s = .next (s.advance after).cadenceEnds := rfl

theorem exec_heardPoll (after : Nat) (sender : Address) (body : PollBody) (s : State) :
    exec (.heardPoll after sender body) s =
      .next ((s.advance after).takeFrame sender (.pollBody body)
        (fun _ t => if t.polled body.target then t.takePoll body.clear else t) fun t => t.pollInFault sender body) := rfl

theorem exec_heardClearHall (after : Nat) (sender : Address) (s : State) :
    exec (.heardClearHall after sender) s =
      .next ((s.advance after).takeFrame sender .clearHallBody (fun _ t => t.hallClear) ignored) := rfl

theorem exec_sofStamp (after : Nat) (s : State) :
    exec (.sofStamp after) s = .next (s.advance after).frameBegins := rfl

end Sys2Proof.Machine
end

