-- ==== Sys2Proof/Laws/Kept.lean ====
section
/-! SUPPORT. How a property of the state passes through every command: what it must survive, and that each command's meaning, and with it
each step, then keeps it. -/

namespace Sys2Proof.Machine

/-- A property that survives every elementary change of the shared operations, and the changes that one command alone makes. -/
structure Kept (I : State → Prop) : Prop extends ClosedSides I where
  elapse : ∀ {s : State} (d : Nat), I s → I (s.elapse d)
  time   : ∀ {s : State} (t : Time), I s → I { s with time := t }
  adopt  : ∀ {s : State} (y : Sys) (t : Time), s.sys.phase ≠ .ended → I s → I { s with sys := y, time := t }
  expire : ∀ {s : State} (lifetime : Nat), I s → I (s.setCache (expireNotices lifetime s.cache))
  age    : ∀ {s : State}, I s → I (s.setCache (ageNotices s.cache))
  clear  : ∀ {s : State}, s.line.phase.isSending = false → I s → I s.hallClear
  start  : ∀ {s : State} (f : QFrame) (a : Attempt), s.line.phase.isSending = false → I s →
    I { s with line := { s.line with phase := .sending a, queue := startFrame f s.line.queue } }
  fill   : ∀ {s : State}, I s → I (s.setReport { s.report with carried := s.report.counters })
  finish : ∀ {s : State} (p : LinePhase) (b : Bool), s.line.phase.isSending = true → p.isSending = false → I s →
    I { s with line := { s.line with phase := p, backoff := b, queue := withoutSent s.line.queue } }
  lose   : ∀ {s : State} (p : LinePhase) (b : Bool), s.line.phase.isSending = true → p.isSending = false → I s →
    I { s with line := { s.line with phase := p, backoff := b, queue := backToWaiting s.line.queue } }

variable {I : State → Prop} (K : Kept I)
include K

/-! ### Frames -/

theorem Kept.takeFrame {s : State} {sender : Address} {b : Body} {act : Clock → State → State} {fault : State → State}
    (ha : ∀ stamp {t : State}, t.line.phase.isSending = false → I t → I (act stamp t)) (hf : ∀ {t : State}, I t → I (fault t))
    (h : I s) : I (s.takeFrame sender b act fault) := by
  unfold State.takeFrame
  split
  · next stamp hp =>
    have h1 : I (s.setPhase (.idle 0)) := K.phase _ (by rw [hp]; rfl) rfl h
    dsimp only
    split
    · split
      · exact ha _ rfl h1
      · exact K.count _ _ h1
    · exact hf h1
    · exact h1
  all_goals exact h

omit K in
theorem Kept.toPartner {s : State} {sender : Address} {lane : Byte} {act : State → Side → State}
    (ha : ∀ (sd : Side) {t : State}, I t → I (act t sd)) (h : I s) : I (s.toPartner sender lane act) := by
  unfold State.toPartner; split
  · exact ha _ h
  · exact h

theorem Kept.advance {s : State} (us : Nat) (h : I s) : I (s.advance us) := K.elapse _ h

/-! ### Start-up and time base -/

theorem Kept.sys {s : State} (y : Sys) (hp : s.sys.phase ≠ .ended) (h : I s) : I { s with sys := y } := K.adopt y s.time hp h

theorem Kept.enterRunning {s : State} (c : Config) (hp : s.sys.phase ≠ .ended) (h : I s) : I (s.enterRunning c) := by
  have h1 : I { s with
      sys := { s.sys with run := .running, phase := .ended, cfg := c }
      time := { clock := 0, subMs := 0, seconds := 0, secondTimer := some secondTime }
      coils := ⟨s.coils.left.withQ c.initialQ, s.coils.right.withQ c.initialQ⟩
      hall := { s.hall with timer := some hallStableTime } } :=
    K.hall { s.hall with timer := some hallStableTime }
      (K.coils ⟨s.coils.left.withQ c.initialQ, s.coils.right.withQ c.initialQ⟩ (K.adopt _ _ hp h))
  exact K.toClosedSides.startSide .R (K.toClosedSides.startSide .L h1)

theorem Kept.takeImage {s : State} (image : List Byte) (hp : s.sys.phase ≠ .ended) (h : I s) : I (s.takeImage image) := by
  unfold State.takeImage; split
  · dsimp only; split
    · exact K.enterRunning _ hp h
    · exact K.sys (s := { s with sys := { s.sys with cfg := configFrom image } }) _ hp (K.sys _ hp h)
  · exact K.sys _ hp h

theorem Kept.startUp {s : State} (straps : StationNumber) (h : I s) : I (s.startUp straps) := by
  unfold State.startUp; split
  · next hp => exact K.sys _ (by rw [hp]; exact nofun) h
  · exact h

theorem Kept.readFails {s : State} (h : I s) : I s.readFails := by
  unfold State.readFails
  split
  · next hp =>
    split
    · exact K.sys _ (by rw [hp]; exact nofun) h
    · exact K.sys _ (by rw [hp]; exact nofun) h
  all_goals exact h

theorem Kept.retryEnds {s : State} (h : I s) : I s.retryEnds := by
  unfold State.retryEnds
  split
  · next hp =>
    split
    · exact K.sys _ (by rw [hp]; exact nofun) h
    · exact h
  all_goals exact h

theorem Kept.readCompletes {s : State} (image : List Byte) (h : I s) : I (s.readCompletes image) := by
  unfold State.readCompletes
  split
  · next hp =>
    split
    · exact K.takeImage _ (by rw [hp]; exact nofun) h
    · exact h
  all_goals exact h

theorem Kept.listen {s : State} (h : I s) : I s.listen := by
  unfold State.listen; split
  · next hc => exact K.phase _ (by rw [hc.2]; rfl) rfl h
  · exact h

theorem Kept.tick {s : State} (h : I s) : I s.tick := by
  unfold State.tick; split
  · exact K.time { s.time with seconds := s.time.seconds + 1, secondTimer := some secondTime }
      (K.expire (lifetimeSeconds s.sys.cfg) (K.age h))
  · exact h

/-! ### Coils, claims and sweeps -/

theorem Kept.rampEnds {s : State} (sd : Side) (level : Byte) (h : I s) : I (s.rampEnds sd level) := by
  have C := K.toClosedSides
  unfold State.rampEnds; dsimp only
  split
  · have h1 := C.setCoils sd { s.coils.get sd with ramp := none } h
    split
    · split
      · exact C.moveOn _ (C.setCoils _ _ h1)
      · split
        · refine C.claimClash _ ?_
          unfold State.abandonSweep; split
          · exact C.endSweep _ _ (C.drain _ _ h1)
          · exact C.drain _ _ h1
        · unfold State.goodRamp; dsimp only
          split
          · split
            · exact C.endSweep _ _ (C.drain _ _ (C.setCoils _ _ h1))
            · exact C.startRound _ _ _ _ _ (C.setCoils _ _ h1)
          · exact C.setCoils _ _ h1
    · exact h1
  · exact h

theorem Kept.afterLoss {s : State} (sd : Side) (stopping : Bool) (h : I s) : I (s.afterLoss sd stopping) := by
  have C := K.toClosedSides
  unfold State.afterLoss; dsimp only; split
  · exact C.restartNow _ h
  · exact C.moveOn _ h

theorem Kept.liveEnds {s : State} (sd : Side) (h : I s) : I (s.liveEnds sd) := by
  have C := K.toClosedSides
  unfold State.liveEnds; dsimp only
  split
  · split
    · split
      · next k _ =>
        have h1 := C.setCoils sd ((s.coils.get sd).drained (ms s.sys.cfg.drainTime) k) h
        split
        · split
          · exact C.setSweep _ _ h1
          · exact K.afterLoss _ _ (C.setSweep _ _ h1)
        · exact C.moveOn _ h1
      · exact C.setCoils _ _ h
    · exact h
  · exact h

theorem Kept.driveLost {s : State} (sd : Side) (k : CoilNumber) (h : I s) : I (s.driveLost sd k) := by
  have C := K.toClosedSides
  unfold State.driveLost; dsimp only
  split
  · exact K.afterLoss _ _ (C.setSweep _ _ (C.setCoils _ _ h))
  · exact h

theorem Kept.tellRest {s : State} (sd : Side) (h : I s) : I (s.tellRest sd) := by
  unfold State.tellRest; split
  · exact K.toClosedSides.restTold _ h
  · exact h

theorem Kept.resume {s : State} (sd : Side) (cause : SweepWait) (h : I s) : I (s.resume sd cause) := by
  unfold State.resume; dsimp only; split
  · exact K.toClosedSides.reach _ h
  · exact h

theorem Kept.drainEnds {s : State} (sd : Side) (k : CoilNumber) (h : I s) : I (s.drainEnds sd k) := by
  have C := K.toClosedSides
  unfold State.drainEnds; dsimp only
  split
  · split
    · have h1 := K.tellRest sd (C.setCoils sd _ h : I (s.setCoil sd k { s.coil sd k with state := .idle, drain := none }))
      split
      · exact K.resume _ _ h1
      · exact h1
    · exact C.setCoils _ _ h
  · exact h

theorem Kept.cutWaitEnds {s : State} (sd : Side) (h : I s) : I (s.cutWaitEnds sd) := by
  unfold State.cutWaitEnds; dsimp only; split
  · exact K.resume _ _ (K.tellRest _ (K.toClosedSides.setCoils _ _ h))
  · exact h

theorem Kept.retestEnds {s : State} (sd : Side) (k : CoilNumber) (h : I s) : I (s.retestEnds sd k) := by
  unfold State.retestEnds; dsimp only; split
  · exact K.toClosedSides.setCoils _ _ h
  · exact h

theorem Kept.claimWaitEnds {s : State} (sd : Side) (h : I s) : I (s.claimWaitEnds sd) := by
  have C := K.toClosedSides
  unfold State.claimWaitEnds; dsimp only; split
  · split
    · exact C.grant _ (C.setClaim _ _ h)
    · exact C.setClaim _ _ h
  · exact h

theorem Kept.holdTimerEnds {s : State} (sd : Side) (h : I s) : I (s.holdTimerEnds sd) := by
  have C := K.toClosedSides
  unfold State.holdTimerEnds; dsimp only; split
  · split
    · exact C.holdExhausted _ (C.endHold _ (C.setClaim _ _ h))
    · exact C.setClaim _ _ h
  · exact h

theorem Kept.restEnds {s : State} (sd : Side) (h : I s) : I (s.restEnds sd) := by
  have C := K.toClosedSides
  unfold State.restEnds; dsimp only; split
  · have h1 := C.becomeFree sd (C.giveUp (.release sd) h)
    split
    case h_5 =>
      split
      · exact C.grant _ h1
      · exact h1
    all_goals exact C.setClaim _ _ h
  · exact h

theorem Kept.gapEnds {s : State} (sd : Side) (h : I s) : I (s.gapEnds sd) := by
  have C := K.toClosedSides
  unfold State.gapEnds; dsimp only; split
  · split
    · exact C.beginSweep _ (C.setSweep _ _ h)
    · exact C.setSweep _ _ h
  · exact h

theorem Kept.afterSlot {s : State} (sd : Side) (k : CoilNumber) (r : Round) (h : I s) : I (s.afterSlot sd k r) := by
  have C := K.toClosedSides
  unfold State.afterSlot; dsimp only
  have h1 := C.setSweep sd { s.sweeps.get sd with round := none } h
  split
  · split
    · exact C.endSweep _ _ (C.drain _ _ h1)
    · exact C.restartNow _ h1
  · split
    · exact C.weighRound _ _ _ _ h
    · split
      · exact C.moveOn _ h1
      · exact C.setSweep _ _ h

theorem Kept.slotEnds {s : State} (sd : Side) (o : SlotOutcome) (h : I s) : I (s.slotEnds sd o) := by
  unfold State.slotEnds; dsimp only
  split
  · split
    · refine K.afterSlot _ _ _ ?_
      cases o with
      | single r => exact K.toClosedSides.localSample _ _ _ (K.toClosedSides.setSweep _ _ h)
      | empty => exact h
      | collided => exact h
    · exact h
  · exact h

theorem Kept.beamChanges {s : State} (sd : Side) (bm : Beam) (broken : Bool) (h : I s) : I (s.beamChanges sd bm broken) := by
  unfold State.beamChanges; dsimp only
  split
  · exact h
  · split
    · exact K.toClosedSides.setSweep _ _ (K.pins _ h)
    · exact K.pins _ h

theorem Kept.beamSettles {s : State} (sd : Side) (bm : Beam) (h : I s) : I (s.beamSettles sd bm) := by
  have C := K.toClosedSides
  unfold State.beamSettles; dsimp only
  split
  · split
    · exact C.priorityTrigger _ (C.setSweep _ _ (C.setSweep _ _ h))
    · exact C.setSweep _ _ h
  · exact h

/-! ### The line -/

theorem Kept.attemptStarts {s : State} (h : I s) : I s.attemptStarts := by
  unfold State.attemptStarts
  split
  · next f hf =>
    have hp : s.line.phase.isSending = false := by
      unfold State.attemptHead at hf
      split at hf
      · next hp => rw [hp]; rfl
      all_goals cases hf
    unfold State.startAttempt; dsimp only
    have h1 := K.start f { frame := s.fillFrame f, bytes := frameBytes (s.fillFrame f), left := attemptTime (frameBytes (s.fillFrame f))
                           stamp := s.time.clock } hp h
    split
    · exact K.fill h1
    all_goals exact h1
  · exact h

omit K in
theorem sentFrame_none {q : List QFrame} (h : sentFrame q = none) : withoutSent q = q := by
  simp only [sentFrame, List.find?_eq_none] at h
  induction q with
  | nil => rfl
  | cons f q ih =>
    have hf : f.underTx = false := by simpa using h f (by simp)
    simp [withoutSent, hf, ih fun g hg => h g (by simp [hg])]

theorem Kept.loseContention {s : State} (stamp : Clock) (hp : s.line.phase.isSending = true) (h : I s) : I (s.loseContention stamp) := by
  have C := K.toClosedSides
  unfold State.loseContention; dsimp only
  have hw := K.finish (.receiving stamp) true hp rfl h
  split
  · split
    · exact C.afterDropped _ (C.walk (C.frameDropped _ (C.count _ _ hw)))
    · exact C.carryOut _ (K.lose (s := s) (.receiving stamp) true hp rfl h)
  · next hn =>
    rw [sentFrame_none hn] at hw
    exact hw

theorem Kept.contentionLost {s : State} (h : I s) : I s.contentionLost := by
  unfold State.contentionLost
  split
  · next hp => split
               · exact K.loseContention _ (by rw [hp]; rfl) h
               · exact h
  all_goals exact h

theorem Kept.transmitCompletes {s : State} (h : I s) : I s.transmitCompletes := by
  have C := K.toClosedSides
  unfold State.transmitCompletes
  split
  · next hp =>
    split
    · unfold State.complete; dsimp only
      have hw := K.finish (.idle 0) false (by rw [hp]; rfl) rfl h
      split
      · exact C.afterSent _ _ (C.walk (C.frameSent _ hw))
      · next hn =>
        rw [sentFrame_none hn] at hw
        exact hw
    · exact h
  all_goals exact h

theorem Kept.badFrameEnds {s : State} (raw : RawFrame) (h : I s) : I (s.badFrameEnds raw) := by
  unfold State.badFrameEnds
  split
  · next hp =>
    split
    · exact K.count _ _ (K.phase _ (by rw [hp]; rfl) rfl h)
    · exact h
  all_goals exact h

theorem Kept.frameBegins {s : State} (h : I s) : I s.frameBegins := by
  unfold State.frameBegins
  split
  · next hp => exact K.phase _ (by rw [hp]; rfl) rfl h
  all_goals exact h

/-! ### Records, notices, verdicts, lamps -/

theorem Kept.takeDecide {s : State} (b : DecideBody) (h : I s) : I (s.takeDecide b) := by
  have C := K.toClosedSides
  unfold State.takeDecide; dsimp only
  split
  · exact C.provisionalTriggers _ _ (C.alarmDecide _ _ _ _ _ (C.passageDecide _ h))
  · exact C.alarmDecide _ _ _ _ _ (C.passageDecide _ h)

theorem Kept.soleExpires {s : State} (x : Item) (h : I s) : I (s.soleExpires x) := by
  unfold State.soleExpires
  split
  · split
    · split
      · exact K.toClosedSides.solePatience _ h
      · exact h
    all_goals exact h
  · exact h

theorem Kept.patienceEnds {s : State} (x : Item) (h : I s) : I (s.patienceEnds x) := by
  have C := K.toClosedSides
  unfold State.patienceEnds
  split
  · next hr =>
    split
    · split
      · exact C.offerTakeover _ (C.putRecState hr _ h)
      · exact h
    all_goals exact h
  · exact h

theorem Kept.directoryExpires {s : State} (x : Item) (h : I s) : I (s.directoryExpires x) := by
  unfold State.directoryExpires
  split
  · split
    · exact K.remove _ h
    · exact h
  · exact h

theorem Kept.closeExpires {s : State} (x : Item) (h : I s) : I (s.closeExpires x) := by
  unfold State.closeExpires
  split
  · split
    · split
      · exact K.toClosedSides.freeRecord _ h
      · exact h
    all_goals exact h
  · exact h

theorem Kept.takeNotices {s : State} (st : NoticeStatus) (items : List Item) (h : I s) : I (s.takeNotices st items) := by
  unfold State.takeNotices
  have h1 : ∀ (items : List Item) {t : State}, I t → I (t.setCache (items.foldl (enterNotice st) t.cache)) := by
    intro items
    induction items with
    | nil => intro t h; exact h
    | cons x xs ih => intro t h; exact ih (K.notice st x h)
  have h2 : ∀ (xs : List Item) {t : State}, I t → I (xs.foldl State.noticeTold t) := by
    intro xs
    induction xs with
    | nil => intro t h; exact h
    | cons x xs ih => intro t h; exact ih (K.toClosedSides.noticeTold x h)
  exact h2 _ (h1 _ h)

theorem Kept.takeAnswer {s : State} (b : AnswerBody) (h : I s) : I (s.takeAnswer b) := by
  have C := K.toClosedSides
  unfold State.takeAnswer
  split
  · dsimp only
    refine C.reEvaluateHeld _ _ ?_
    split
    · exact C.notice _ _ (C.freeSlot _ h)
    · exact C.freeSlot _ h
  · exact C.count _ _ h

theorem Kept.quietEnds {s : State} (x : Item) (h : I s) : I (s.quietEnds x) := by
  unfold State.quietEnds
  split
  · next hl =>
    split
    · exact K.toClosedSides.finalEvaluation _ (K.toClosedSides.putLead hl _ h)
    · exact h
  · exact h

theorem Kept.dwellReached {s : State} (x : Item) (h : I s) : I (s.dwellReached x) := by
  unfold State.dwellReached
  split
  · split
    · exact K.toClosedSides.finalEvaluation _ h
    · exact h
  · exact h

theorem Kept.holdEnds {s : State} (x : Item) (h : I s) : I (s.holdEnds x) := by
  unfold State.holdEnds
  split
  · split
    · split
      · exact K.toClosedSides.holdExpired _ h
      · exact h
    all_goals exact h
  · exact h

theorem Kept.hallChanges {s : State} (value : BitVec 2) (h : I s) : I (s.hallChanges value) := by
  unfold State.hallChanges; dsimp only
  split
  · exact h
  · split
    · exact K.hall { s.hall with timer := some hallStableTime } (K.pins { s.pins with hall := value } h)
    · exact K.pins _ h

theorem Kept.lampHoldEnds {s : State} (sd : Side) (h : I s) : I (s.lampHoldEnds sd) := by
  unfold State.lampHoldEnds
  split
  · next left hl =>
    split
    · refine K.lamp _ _ (fun hs => ?_) h
      obtain ⟨h1, h2, -⟩ := hs
      unfold Lamp.holdEnd
      rw [hl]
      refine ⟨h1, h2, ?_⟩
      cases hh : (s.lamps.get sd).holders <;> simp [LampState.afterHold, LampState.flashStart]
    · exact h
  all_goals exact h

theorem Kept.holderExpires {s : State} (sd : Side) (x : Item) (h : I s) : I (s.holderExpires sd x) := by
  unfold State.holderExpires; dsimp only; split
  · exact K.lamp _ _ (Lamp.removeHolder_sound _) h
  · exact h

theorem Kept.flashEnds {s : State} (sd : Side) (h : I s) : I (s.flashEnds sd) := by
  unfold State.flashEnds
  split
  · next lit left hl =>
    split
    · refine K.lamp _ _ (fun hs => ?_) h
      obtain ⟨h1, h2, h3⟩ := hs
      unfold Lamp.phaseEnd
      rw [hl] at h3 ⊢
      exact ⟨h1, h2, h3⟩
    · exact h
  all_goals exact h

theorem Kept.cadenceEnds {s : State} (h : I s) : I s.cadenceEnds := by
  unfold State.cadenceEnds; split
  · exact K.sounder _ h
  · exact h

/-! ### Every command -/

/-- Every command answers a next state and keeps the property, if FULL_RESET does. -/
theorem Kept.exec {s : State} (c : Instr) (hr : ∀ a, c = .fullReset a → I { State.reset with pins := s.pins, pending := s.pending })
    (h : I s) : ∃ t, exec c s = .next t ∧ I t := by
  have C := K.toClosedSides
  have ha := K.advance (Instr.after c) h
  cases c with
  | fullReset a => exact ⟨_, rfl, hr a rfl⟩
  | startUp a n => exact ⟨_, rfl, K.startUp n ha⟩
  | readAttemptFail a => exact ⟨_, rfl, K.readFails ha⟩
  | retryWaitEnd a => exact ⟨_, rfl, K.retryEnds ha⟩
  | readAttemptComplete a bs => exact ⟨_, rfl, K.readCompletes bs ha⟩
  | startupIdleGap a => exact ⟨_, rfl, K.listen ha⟩
  | secondsTick a => exact ⟨_, rfl, K.tick ha⟩
  | noticeExpiry a => exact ⟨_, rfl, K.expire _ ha⟩
  | rampEnd a sd v => exact ⟨_, rfl, K.rampEnds sd v ha⟩
  | liveLimit a sd => exact ⟨_, rfl, K.liveEnds sd ha⟩
  | driveLoss a sd k => exact ⟨_, rfl, K.driveLost sd k ha⟩
  | drainEnd a sd k => exact ⟨_, rfl, K.drainEnds sd k ha⟩
  | cutWaitEnd a sd => exact ⟨_, rfl, K.cutWaitEnds sd ha⟩
  | retestEnd a sd k => exact ⟨_, rfl, K.retestEnds sd k ha⟩
  | claimWaitEnd a sd => exact ⟨_, rfl, K.claimWaitEnds sd ha⟩
  | claimHoldTimerEnd a sd => exact ⟨_, rfl, K.holdTimerEnds sd ha⟩
  | restTimerEnd a sd => exact ⟨_, rfl, K.restEnds sd ha⟩
  | heardClaim a y l => exact ⟨_, rfl, K.takeFrame (fun _ _ _ h => Kept.toPartner (fun sd _ h => C.partnerClaim sd h) h) id ha⟩
  | heardDefer a y b => exact ⟨_, rfl, K.takeFrame (fun _ _ _ h => Kept.toPartner (fun sd _ h => C.partnerDefer sd _ h) h) id ha⟩
  | heardRelease a y l => exact ⟨_, rfl, K.takeFrame (fun _ _ _ h => Kept.toPartner (fun sd _ h => C.partnerRelease sd h) h) id ha⟩
  | gapEnd a sd => exact ⟨_, rfl, K.gapEnds sd ha⟩
  | slotEnd a sd o => exact ⟨_, rfl, K.slotEnds sd o ha⟩
  | dozeTimerEnd a sd =>
    refine ⟨_, rfl, ?_⟩
    show I ((s.advance a).dozes sd)
    unfold State.dozes; dsimp only; split
    · exact C.setSweep _ _ ha
    · exact ha
  | beamInputChange a sd bm br => exact ⟨_, rfl, K.beamChanges sd bm br ha⟩
  | beamDebounceEnd a sd bm => exact ⟨_, rfl, K.beamSettles sd bm ha⟩
  | attemptStart a => exact ⟨_, rfl, K.attemptStarts ha⟩
  | contentionLost a => exact ⟨_, rfl, K.contentionLost ha⟩
  | transmitComplete a => exact ⟨_, rfl, K.transmitCompletes ha⟩
  | badFrame a raw => exact ⟨_, rfl, K.badFrameEnds raw ha⟩
  | heardSight a y b => exact ⟨_, rfl, K.takeFrame (fun _ _ _ h => C.heardSight _ _ _ h) id ha⟩
  | heardJoin a y b => exact ⟨_, rfl, K.takeFrame (fun _ _ _ h => C.heardJoin _ _ _ h) id ha⟩
  | heardDecide a y b => exact ⟨_, rfl, K.takeFrame (fun _ _ _ h => K.takeDecide _ h) id ha⟩
  | heardQuery a y b => exact ⟨_, rfl, K.takeFrame (fun _ _ _ h => h) id ha⟩
  | heardReport a y b => exact ⟨_, rfl, K.takeFrame (fun _ _ _ h => h) id ha⟩
  | solePatienceEnd a x => exact ⟨_, rfl, K.soleExpires x ha⟩
  | patienceTimerEnd a x => exact ⟨_, rfl, K.patienceEnds x ha⟩
  | directoryExpiry a x => exact ⟨_, rfl, K.directoryExpires x ha⟩
  | closeHoldEnd a x => exact ⟨_, rfl, K.closeExpires x ha⟩
  | heardIssue a y xs => exact ⟨_, rfl, K.takeFrame (fun _ _ _ h => K.takeNotices _ _ h) id ha⟩
  | heardReturn a y xs => exact ⟨_, rfl, K.takeFrame (fun _ _ _ h => K.takeNotices _ _ h) id ha⟩
  | heardAnswer a y b =>
    refine ⟨_, rfl, K.takeFrame (fun _ _ _ h => ?_) id ha⟩
    split
    · exact K.takeAnswer _ h
    · exact h
  | quietTimerEnd a x => exact ⟨_, rfl, K.quietEnds x ha⟩
  | dwellReached a x => exact ⟨_, rfl, K.dwellReached x ha⟩
  | holdTimerEnd a x => exact ⟨_, rfl, K.holdEnds x ha⟩
  | hallLevelInputChange a v => exact ⟨_, rfl, K.hallChanges v ha⟩
  | hallLevelDebounceEnd a =>
    refine ⟨_, rfl, ?_⟩
    show I (s.advance a).hallSettles
    unfold State.hallSettles; split
    · exact K.hall _ ha
    · exact ha
  | lampHoldEnd a sd => exact ⟨_, rfl, K.lampHoldEnds sd ha⟩
  | holderExpiry a sd x => exact ⟨_, rfl, K.holderExpires sd x ha⟩
  | flashPhaseEnd a sd => exact ⟨_, rfl, K.flashEnds sd ha⟩
  | cadenceTimerEnd a => exact ⟨_, rfl, K.cadenceEnds ha⟩
  | heardPoll a y b =>
    refine ⟨_, rfl, K.takeFrame (fun _ _ _ h => ?_) (fun h => ?_) ha⟩
    · split
      · exact C.takePoll _ h
      · exact h
    · unfold State.pollInFault; split
      · exact C.takePoll _ h
      · exact h
  | heardClearHall a y => exact ⟨_, rfl, K.takeFrame (fun _ _ hp h => K.clear hp h) id ha⟩
  | sofStamp a => exact ⟨_, rfl, K.frameBegins ha⟩

/-- Every step keeps the property, if FULL_RESET does and the queue of commands has no part in it. -/
theorem Kept.step {s t : State} (hr : ∀ {s : State}, I { State.reset with pins := s.pins, pending := s.pending })
    (hp : ∀ {s : State} (q : List Instr), I s → I { s with pending := q }) (h : I s) (hs : step s = .next t) : I t := by
  unfold Sys2Proof.Machine.step at hs
  split at hs
  · cases hs; exact K.advance _ h
  · next c cs _ =>
    obtain ⟨u, hu, hi⟩ := K.exec c (fun _ _ => hr (s := { s with pending := cs })) (hp cs h)
    rw [hu] at hs
    cases hs
    exact hi

end Sys2Proof.Machine
end

