-- ==== Sys2Proof/Laws/Sound.lean ====
section
/-! SUPPORT. Which parts of the state the predicates on claim frames, query slots and decisions read: a command that leaves those parts as
they were keeps the predicate. -/

namespace Sys2Proof.Machine

/-! ### Owners of merged frames (R76) -/

@[simp] theorem Owner.joined_record (x : Item) (was : Owner) : (Owner.record x).joined was = .record x := rfl
@[simp] theorem Owner.joined_noRecord (was : Owner) : Owner.noRecord.joined was = was := rfl

/-! ### The lead fields depend on the table alone -/

theorem record?_congr {s t : State} (h : t.table = s.table) (x : Item) : t.record? x = s.record? x := by simp [State.record?, h]
theorem lead?_congr {s t : State} (h : t.table = s.table) (x : Item) : t.lead? x = s.lead? x := by simp [State.lead?, record?_congr h]
theorem positionOf_congr {s t : State} (h : t.table = s.table) (x : Item) : t.positionOf x = s.positionOf x := by
  simp [State.positionOf, h]
theorem lane_congr {s t : State} (h : t.sys = s.sys) (sd : Side) : t.lane sd = s.lane sd := by simp [State.lane, State.number, h]
theorem facesEnd_congr {s t : State} (h : t.sys = s.sys) (sd : Side) : t.facesEnd sd = s.facesEnd sd := by
  cases sd <;> simp [State.facesEnd, State.number, h]

/-! ### The predicates -/

theorem State.ClaimFramesSound.congr {s t : State} (h : s.ClaimFramesSound) (sys : t.sys = s.sys) (queue : t.line.queue = s.line.queue)
    (waiting : t.line.waiting = s.line.waiting) (claims : t.claims = s.claims) : t.ClaimFramesSound := by
  intro sd
  have frames (p : Payload) : t.sideFrames sd p = s.sideFrames sd p := by simp [State.sideFrames, queue]
  have out : t.releaseOut sd = s.releaseOut sd := by simp [State.releaseOut, frames, lane_congr sys, waiting]
  rw [out, facesEnd_congr sys, lane_congr sys, queue, waiting, claims, frames, frames, frames]
  exact h sd

theorem State.QuerySlotsSound.congr {s t : State} (h : s.QuerySlotsSound) (table : t.table = s.table) (queries : t.queries = s.queries) :
    t.QuerySlotsSound := by
  simp only [State.QuerySlotsSound, queries, lead?_congr table, positionOf_congr table] at h ⊢
  exact h

theorem State.DecisionsKept.congr {s t : State} (h : s.DecisionsKept) (table : t.table = s.table) (queue : t.line.queue = s.line.queue) :
    t.DecisionsKept := by
  simp only [State.DecisionsKept, queue, lead?_congr table] at h ⊢
  exact h

/-- No two WAITING slots serve one item (R131). -/
theorem State.QuerySlotsSound.slot_unique {s : State} (h : s.QuerySlotsSound) {j k : BitVec 2} {u v : SlotUse}
    (hj : (s.queries.slots.get j).use = some u) (hk : (s.queries.slots.get k).use = some v) (hx : u.item = v.item) : j = k := by
  obtain ⟨-, r, l, -, -, -, -, h1, h2, -⟩ := h.1 j u hj
  obtain ⟨-, r', l', -, -, -, -, h3, h4, -⟩ := h.1 k v hk
  rw [hx, h3] at h1
  cases h1
  rw [h4] at h2
  exact (Option.some.inj h2).symm

end Sys2Proof.Machine
end

