-- ==== Sys2Proof/Laws/Sweeps.lean ====
section
/-! SUPPORT. What the shared operations of a side's coils, claim and sweep can do, said once for each. -/

namespace Sys2Proof.Machine

/-! ### Coils -/

theorem mem_allCoils (k : CoilNumber) : k ∈ allCoils := by
  rcases coilNumber_cases k with rfl | rfl | rfl | rfl <;> simp [allCoils]

theorem coilIn_of_unique {u : CoilUnit} {c : CoilState} {k : CoilNumber} (h : (u.coils.get k).state = c)
    (hu : ∀ j, (u.coils.get j).state = c → j = k) : u.coilIn c = some k := by
  unfold CoilUnit.coilIn
  cases hf : List.find? (fun k => (u.coils.get k).state == c) allCoils with
  | none => have := List.find?_eq_none.1 hf k (mem_allCoils k); simp [h] at this
  | some j => have := List.find?_some hf; rw [hu j (by simpa using this)]

theorem energisedCoil_of_unique {u : CoilUnit} {k : CoilNumber} (h : (u.coils.get k).state.energised = true)
    (hu : ∀ j, (u.coils.get j).state.energised = true → j = k) : u.energisedCoil = some k := by
  unfold CoilUnit.energisedCoil
  cases hf : List.find? (fun k => (u.coils.get k).state.energised) allCoils with
  | none => have := List.find?_eq_none.1 hf k (mem_allCoils k); simp [h] at this
  | some j => have := List.find?_some hf; rw [hu j this]

theorem energisedCoil_eq_none {u : CoilUnit} : u.energisedCoil = none ↔ ∀ j, (u.coils.get j).state.energised = false := by
  unfold CoilUnit.energisedCoil
  rw [List.find?_eq_none]
  exact ⟨fun h j => by simpa using h j (mem_allCoils j), fun h j _ => by simp [h j]⟩

/-- A side is at rest exactly when no coil has a field and no cut wait runs (R26). -/
theorem atRest_iff {u : CoilUnit} :
    u.atRest = true ↔ (∀ j, (u.coils.get j).state.hasField = false) ∧ u.cutWait = none := by
  unfold CoilUnit.atRest
  have h : (allCoils.any fun k => (u.coils.get k).state.hasField) = false ↔ ∀ j, (u.coils.get j).state.hasField = false := by
    rw [List.any_eq_false]
    exact ⟨fun h j => by simpa using h j (mem_allCoils j), fun h j _ => by simp [h j]⟩
  simp [h, Option.isNone_iff_eq_none]

/-- What a drain does: a LIVE or RAMPING coil becomes DRAINING with the drain timer started and its own timer stopped, any other coil
is left as it was (R23). -/
theorem CoilUnit.drained_spec (u : CoilUnit) (d : Nat) (k : CoilNumber) :
    ((u.coils.get k).state.energised = false ∧ u.drained d k = u) ∨
    ((u.coils.get k).state = .live ∧ u.drained d k =
      { u with coils := u.coils.set k { u.coils.get k with state := .draining, drain := some d }, live := none }) ∨
    ((u.coils.get k).state = .ramping ∧ u.drained d k =
      { u with coils := u.coils.set k { u.coils.get k with state := .draining, drain := some d }, ramp := none }) := by
  cases h : (u.coils.get k).state <;> simp [CoilUnit.drained, h, CoilState.energised]

theorem drainEnergised_none {s : State} {sd : Side} (h : ∀ j, ((s.coils.get sd).coils.get j).state.energised = false) :
    s.drainEnergised sd = s := by
  simp [State.drainEnergised, energisedCoil_eq_none.2 h]

@[simp] theorem facesEnd_setCoils (s : State) (sd sd' : Side) (u : CoilUnit) : (s.setCoils sd u).facesEnd sd' = s.facesEnd sd' := by
  cases sd' <;> rfl
@[simp] theorem facesEnd_setClaim (s : State) (sd sd' : Side) (c : Claim) : (s.setClaim sd c).facesEnd sd' = s.facesEnd sd' := by
  cases sd' <;> rfl
@[simp] theorem facesEnd_setSweep (s : State) (sd sd' : Side) (w : Sweep) : (s.setSweep sd w).facesEnd sd' = s.facesEnd sd' := by
  cases sd' <;> rfl
@[simp] theorem facesEnd_setPhase (s : State) (sd : Side) (p : LinePhase) : (s.setPhase p).facesEnd sd = s.facesEnd sd := by
  cases sd <;> rfl
@[simp] theorem facesEnd_setQueue (s : State) (sd : Side) (q : List QFrame) : (s.setQueue q).facesEnd sd = s.facesEnd sd := by
  cases sd <;> rfl
@[simp] theorem facesEnd_setWaiting (s : State) (sd : Side) (w : List WaitKey) : (s.setWaiting w).facesEnd sd = s.facesEnd sd := by
  cases sd <;> rfl
@[simp] theorem facesEnd_giveUp (s : State) (sd : Side) (k : WaitKey) : (s.giveUp k).facesEnd sd = s.facesEnd sd := by
  cases sd <;> rfl

/-! ### Reaching a position -/

/-- Reaching positions moves the position and the wait alone, or activates a coil that may be activated and then does not end the
sweep (R53). -/
theorem reachFrom_spec (sd : Side) : ∀ (l : List CoilNumber) (pos : Nat) (s : State), ∃ pos' wait,
    (State.reachFrom sd l pos s).1 = s.setSweep sd { s.sweeps.get sd with position := pos', wait := wait } ∨
    ((State.reachFrom sd l pos s).2 = false ∧ ∃ k, s.mayActivate sd k = true ∧
      (State.reachFrom sd l pos s).1 = (s.setSweep sd { s.sweeps.get sd with position := pos', wait := wait }).activate sd k)
  | [], pos, s => ⟨pos, .none, .inl rfl⟩
  | k :: ks, pos, s => by
    unfold State.reachFrom
    dsimp only
    split
    · exact reachFrom_spec sd ks (pos + 1) s
    · split
      · exact ⟨_, _, .inl rfl⟩
      · split
        · rename_i h; exact ⟨pos, .none, .inr ⟨rfl, k, h, rfl⟩⟩
        · split
          · exact ⟨_, _, .inl rfl⟩
          · split
            · exact ⟨_, _, .inl rfl⟩
            · exact ⟨_, _, .inl rfl⟩

theorem reachHere_spec (s : State) (sd : Side) : ∃ pos' wait,
    (s.reachHere sd).1 = s.setSweep sd { s.sweeps.get sd with position := pos', wait := wait } ∨
    ((s.reachHere sd).2 = false ∧ ∃ k, s.mayActivate sd k = true ∧
      (s.reachHere sd).1 = (s.setSweep sd { s.sweeps.get sd with position := pos', wait := wait }).activate sd k) :=
  reachFrom_spec sd _ _ s

/-- A list that is a prefix of FAULTED coils ends the sweep (R53). -/
theorem reachFrom_head {sd : Side} {k : CoilNumber} {ks : List CoilNumber} {pos : Nat} {s : State}
    (hr : s.rampCheckFails sd k = false) (h : s.mayActivate sd k = true) :
    State.reachFrom sd (k :: ks) pos s =
      ((s.setSweep sd { s.sweeps.get sd with position := pos, wait := .none }).activate sd k, false) := by
  have hi : (s.coil sd k).state = .idle := by
    simp only [State.mayActivate, Bool.and_eq_true, beq_iff_eq] at h; exact h.1.1.1
  simp [State.reachFrom, hi, hr, h]

theorem mayActivate_iff {s : State} {sd : Side} {k : CoilNumber} : s.mayActivate sd k = true ↔
    (s.coil sd k).state = .idle ∧ (∀ j, ((s.coils.get sd).coils.get j).state.energised = false) ∧
      (s.facesEnd sd = true ∨ (s.claims.get sd).state = .holding) ∧ (s.coils.get sd).cutWait = none := by
  simp only [State.mayActivate, Bool.and_eq_true, beq_iff_eq, Bool.or_eq_true, Option.isNone_iff_eq_none,
    energisedCoil_eq_none]
  tauto

/-! ### The end of a sweep on a side that is not at rest -/

theorem endHold_coils {s : State} {sd : Side} (h : ∀ j, ((s.coils.get sd).coils.get j).state.energised = false) :
    s.endHold sd = if (s.claims.get sd).state = .holding
      then s.setClaim sd { s.claims.get sd with state := .resting .closing } else s := by
  unfold State.endHold
  dsimp only
  split
  · split
    · rfl
    · exact drainEnergised_none h
  · rfl

/-- The end of a sweep with no coil energised, on a side not at rest: RELEASING, and with a report the end of the hold (R59). -/
theorem endSweep_busy {s : State} {sd : Side} (reported : Bool) (hr : s.atRest sd = false)
    (h : ∀ j, ((s.coils.get sd).coils.get j).state.energised = false) :
    s.endSweep sd reported = if reported ∧ (s.claims.get sd).state = .holding
      then (s.enterReleasing sd).setClaim sd { s.claims.get sd with state := .resting .closing } else s.enterReleasing sd := by
  have h1 : ∀ t : State, t.coils = s.coils → t.atRest sd = false := fun t ht => by
    simp only [State.atRest, ht] at hr ⊢; exact hr
  have e : (s.enterReleasing sd).endHold sd = if (s.claims.get sd).state = .holding
      then (s.enterReleasing sd).setClaim sd { s.claims.get sd with state := .resting .closing } else s.enterReleasing sd :=
    endHold_coils (s := s.enterReleasing sd) h
  unfold State.endSweep
  dsimp only
  cases reported with
  | false => simp [h1 (s.enterReleasing sd) rfl]
  | true =>
    simp only [if_true, true_and, e]
    by_cases hc : (s.claims.get sd).state = .holding
    · simp [hc, h1 ((s.enterReleasing sd).setClaim sd { s.claims.get sd with state := .resting .closing }) rfl]
    · simp [hc, h1 (s.enterReleasing sd) rfl]

/-- What a Scheduler's move leaves when the side has no coil energised and is not at rest: every coil that is not IDLE, the cut wait, the
live timer, under a cut wait the ramp timer too, and no round where none was in progress. -/
structure Moved (sd : Side) (s t : State) : Prop where
  coil    : ∀ k, (s.coil sd k).state ≠ .idle → t.coil sd k = s.coil sd k
  cutWait : (t.coils.get sd).cutWait = (s.coils.get sd).cutWait
  live    : (t.coils.get sd).live = (s.coils.get sd).live
  ramp    : (s.coils.get sd).cutWait ≠ none → (t.coils.get sd).ramp = (s.coils.get sd).ramp
  round   : (s.sweeps.get sd).round = none → (t.sweeps.get sd).round = none

theorem Moved.of_eq {sd : Side} {s t : State} (hc : t.coils = s.coils)
    (hr : (s.sweeps.get sd).round = none → (t.sweeps.get sd).round = none) : Moved sd s t :=
  ⟨fun k _ => by simp [State.coil, hc], by rw [hc], by rw [hc], fun _ => by rw [hc], hr⟩

theorem Moved.trans {sd : Side} {s t u : State} (hc : t.coils = s.coils)
    (hr : (s.sweeps.get sd).round = none → (t.sweeps.get sd).round = none) (h : Moved sd t u) : Moved sd s u := by
  refine ⟨fun k hk => ?_, ?_, ?_, fun hw => ?_, fun h0 => h.round (hr h0)⟩
  · rw [h.coil k (by simpa [State.coil, hc] using hk)]; simp [State.coil, hc]
  · rw [h.cutWait, hc]
  · rw [h.live, hc]
  · rw [h.ramp (by rw [hc]; exact hw), hc]

theorem endSweep_moved {s : State} {sd : Side} (reported : Bool) (hr : s.atRest sd = false)
    (h : ∀ j, ((s.coils.get sd).coils.get j).state.energised = false) : Moved sd s (s.endSweep sd reported) := by
  rw [endSweep_busy reported hr h]
  split <;> exact Moved.of_eq rfl (fun _ => by simp [State.enterReleasing])

theorem reach_moved {s : State} {sd : Side} (hr : s.atRest sd = false)
    (h : ∀ j, ((s.coils.get sd).coils.get j).state.energised = false) : Moved sd s (s.reach sd) := by
  unfold State.reach
  obtain ⟨pos, wait, e | ⟨e2, k, hk, e⟩⟩ := reachHere_spec s sd
  · have hc : (s.reachHere sd).1.coils = s.coils := by rw [e]; rfl
    have hn : (s.sweeps.get sd).round = none → ((s.reachHere sd).1.sweeps.get sd).round = none := fun h0 => by rw [e]; simp [h0]
    dsimp only
    split
    · refine Moved.trans hc hn (endSweep_moved true ?_ ?_)
      · simpa [State.atRest, hc] using hr
      · rw [hc]; exact h
    · exact Moved.of_eq hc hn
  · obtain ⟨hi, -, -, hw⟩ := mayActivate_iff.1 hk
    simp only [e2, Bool.false_eq_true, if_false, e]
    refine ⟨fun j hj => ?_, by simp [State.activate], by simp [State.activate], fun hw' => absurd hw hw', fun h0 => by
      simp [State.activate, h0]⟩
    have hjk : j ≠ k := fun hjk => hj (hjk ▸ hi)
    simp [State.coil, State.activate, Quad.get_set_of_ne _ _ hjk]

theorem moveOn_moved {s : State} {sd : Side} (hr : s.atRest sd = false)
    (h : ∀ j, ((s.coils.get sd).coils.get j).state.energised = false) : Moved sd s (s.moveOn sd) := by
  unfold State.moveOn
  dsimp only
  split
  · split
    · exact endSweep_moved false hr h
    · exact Moved.trans (t := s.setSweep sd { s.sweeps.get sd with position := (s.sweeps.get sd).position + 1 }) rfl
        (fun h0 => by simp [h0]) (reach_moved hr h)
  · exact Moved.of_eq rfl fun h0 => h0

theorem restartNow_moved {s : State} {sd : Side} (hr : s.atRest sd = false)
    (h : ∀ j, ((s.coils.get sd).coils.get j).state.energised = false) : Moved sd s (s.restartNow sd) := by
  unfold State.restartNow
  simp only [energisedCoil_eq_none.2 h]
  exact Moved.trans (t := s.setSweep sd { s.sweeps.get sd with
    list := allCoils, full := true, position := 0, repeats := 0, wait := .none, round := none }) rfl (fun _ => by simp)
    (reach_moved hr h)

/-! ### Claim frames that find room -/

/-- A CLAIM offered to a queue with room takes a position, and its waiting entry goes (R74, R75). -/
theorem offerClaim_room {s : State} {sd : Side} (h : s.line.queue.length < queueSize)
    (hn : normalCount s.line.queue < normalShare) :
    s.offerClaim sd =
      ((s.setQueue (s.line.queue ++ [QFrame.fresh (.side sd) (.claim (s.lane sd))])).giveUp (.claim sd), .taken) := by
  have hb : (s.line.queue.any (barredBy (.claim (s.lane sd)))) = false := by simp [List.any_eq_false, barredBy]
  simp [State.offerClaim, State.offer, judgeOffer, mergeOrReplace, hb, Payload.urgent, h, hn, State.loseJoin]

/-- A RELEASE that no queued frame takes in, offered to a queue with room, takes a position (R75, R77). -/
theorem offerRelease_room {s : State} {sd : Side} (h : s.line.queue.length < queueSize)
    (hm : ∀ f ∈ s.line.queue, f.payload ≠ .release (s.lane sd)) :
    s.offerRelease sd =
      ((s.setQueue (s.line.queue ++ [QFrame.fresh (.side sd) (.release (s.lane sd))])).giveUp (.release sd), .taken) := by
  have hb : (s.line.queue.any (barredBy (.release (s.lane sd)))) = false := by simp [List.any_eq_false, barredBy]
  have ha : (s.line.queue.any (absorbs (.side sd) (.release (s.lane sd)))) = false := by
    rw [List.any_eq_false]
    intro f hf
    simp [absorbs, hm f hf]
  simp [State.offerRelease, State.offer, judgeOffer, mergeOrReplace, ha, hb, Payload.urgent, h, State.loseJoin]

end Sys2Proof.Machine
end

