-- ==== Sys2Proof/Tests/Slice0.lean ====
section
/-! SUPPORT. Tests by evaluation. First, ill-formed operands are refused; then values that the manual states (its worked cases and
tables); then, for each statement with hypotheses, states and operands that meet them, one line for each clause. -/

-- One theorem at a time: checked side by side, their stacks together pass the memory limit.
set_option Elab.async false

namespace Sys2Proof.Tests
open Sys2Proof Sys2Proof.Machine

/-! ### Well-formed operands (R8, R87) -/

def wire : WireSample := ⟨100, .L, 0, 0⟩
def sightOf (n : Nat) : SightBody := ⟨7, 0, .notIssued, 0, false, false, List.replicate n wire⟩
def joinOf (n : Nat) : JoinBody := ⟨7, 2, List.replicate n wire⟩

theorem test_image_of_97_bytes_is_ill_formed : (Instr.readAttemptComplete 0 (List.replicate 97 0)).wellFormed = false := by decide
theorem test_image_of_98_bytes_is_well_formed : (Instr.readAttemptComplete 0 (List.replicate 98 0)).wellFormed = true := by decide
theorem test_sight_sizes : (Instr.heardSight 0 2 (sightOf 0)).wellFormed = true ∧ (Instr.heardSight 0 2 (sightOf 4)).wellFormed = true ∧
    (Instr.heardSight 0 2 (sightOf 5)).wellFormed = false := by decide
theorem test_join_sizes : (Instr.heardJoin 0 2 (joinOf 0)).wellFormed = false ∧ (Instr.heardJoin 0 2 (joinOf 1)).wellFormed = true ∧
    (Instr.heardJoin 0 2 (joinOf 5)).wellFormed = false := by decide
theorem test_notice_sizes : (Instr.heardIssue 0 16 []).wellFormed = false ∧
    (Instr.heardIssue 0 16 (List.replicate 8 7)).wellFormed = true ∧ (Instr.heardIssue 0 16 (List.replicate 9 7)).wellFormed = false ∧
    (Instr.heardReturn 0 16 []).wellFormed = false ∧ (Instr.heardReturn 0 16 (List.replicate 9 7)).wellFormed = false := by decide

/-! ### Clamping (the cases of R11) -/

/-- An image with every mark set and one byte given. -/
def imageWith (k : Nat) (b : Byte) : List Byte := ((3 : Byte) :: 255 :: 255 :: 255 :: List.replicate 94 0).set k b

theorem test_clamped_lists : [3, 5, 6, 12, 0, 200].map (fun b => (configFrom (imageWith 18 b)).initialQ) = [4, 4, 8, 16, 1, 16] ∧
    [3, 0].map (fun b => (configFrom (imageWith 20 b)).sweepLength) = [4, 1] := by decide +kernel
theorem test_clamped_codes : (configFrom (imageWith 21 7)).order = .interleaved ∧ (configFrom (imageWith 4 2)).fittedL = true ∧
    (configFrom (imageWith 4 0)).fittedL = false := by decide +kernel
theorem test_clamped_ranges : (configFrom (imageWith 6 15)).registry = 16 ∧ (configFrom (imageWith 6 32)).registry = 31 ∧
    (configFrom (imageWith 11 30)).quiet = 40 ∧ (configFrom (imageWith 28 0)).soundRepeats = 1 ∧
    (configFrom (imageWith 7 200)).noiseFloor = 63 ∧ (configFrom (imageWith 13 2)).closeHold = 500 := by decide +kernel

/-! ### Frames (R68, R69, R85 to R88) -/

/-- The generator of R69 on nine bytes; the expected value is the customary check value of this CRC. -/
theorem test_crc : crc16 [0x31, 0x32, 0x33, 0x34, 0x35, 0x36, 0x37, 0x38, 0x39] = 0x29B1 := by decide +kernel
/-- A sample's three bytes written out from R88: side R, coil 2, age 0x123. -/
theorem test_sample_bytes : sampleBytes ⟨200, .R, 2, 0x123⟩ = [200, 0xC1, 0x23] := by decide
/-- A CLAIM for lane 1 by station 1, from R69 and R87. -/
theorem test_claim_covered : coveredBytes ⟨1, .claimBody 1⟩ = [32, 1, 1, 1] := by decide
/-- Section 11.5: a REPORT is 29 bytes long and its attempt ends 320 µs after its start. -/
theorem test_report_length : (frameBytes ⟨2, .reportBody ⟨.running, false, false, 0, 0, 0, 0, ⟨0, 0, 0, 0, 0, 0, 0, 0⟩⟩⟩).length = 29 ∧
    attemptTime (List.replicate 29 (0 : Byte)) = 320 := by decide +kernel
/-- The table of section 5.8. -/
theorem test_ages_across_the_wrap : [65470, 60, 65000, 61000].map (fun t => (ageOf 120 t).toNat) = [186, 60, 656, 4095] := by decide

/-! ### Estimation (sections 7.4, 7.6, 7.7) -/

def sampled (station : Nat) (sd : Side) (k : CoilNumber) (a : Byte) (t : Clock) : Sample := ⟨station, sd, k, a, t, .sent⟩
def workedList : List Sample := [sampled 1 .R 0 174 1000, sampled 2 .L 1 144 1012, sampled 1 .L 0 54 1006, sampled 1 .R 2 164 1190,
  sampled 2 .L 3 194 1204, sampled 2 .L 0 34 1210]
def ambiguousList : List Sample := [sampled 1 .R 0 124 500, sampled 2 .R 0 114 504, sampled 2 .L 1 104 508, sampled 1 .R 2 144 560,
  sampled 3 .L 3 174 570]
def row3 : Config := { Config.unadopted with n := 3, registry := 30, classLimit := 4 }

theorem test_worked_case : estimate row3 1360 workedList = ⟨true, 2, none, .outbound⟩ ∧
    estimate { row3 with threshold := 190 } 1360 workedList = ⟨true, 2, none, .undetermined⟩ := by decide +kernel
theorem test_ambiguous_lanes : estimate { row3 with n := 4 } 700 ambiguousList = ⟨true, 2, some 3, .outbound⟩ := by decide +kernel
theorem test_zero_weights : estimate row3 700 [sampled 1 .R 0 24 500] = ⟨false, 0, none, .undetermined⟩ := by decide +kernel
theorem test_across_the_wrap : originOf 40 [sampled 1 .R 0 99 65500, sampled 1 .R 0 99 65530, sampled 1 .R 0 99 10,
    sampled 1 .R 0 99 30, sampled 1 .R 0 99 41] = some 65500 ∧
    [65500, 65530, 10, 30, 41].map (relativeTime 65500) = [0, 30, 46, 66, 77] := by decide
theorem test_half_up : centroid 0 0 [sampled 1 .R 0 2 0, sampled 1 .R 0 2 3] = 2 ∧
    centroid 0 0 [sampled 1 .R 0 3 1, sampled 1 .R 0 1 2] = 1 ∧ centroid 0 0 [sampled 1 .R 0 3 2, sampled 1 .R 0 2 3] = 2 ∧
    centroid 0 0 [sampled 1 .R 0 2 2, sampled 1 .R 0 3 3] = 3 := by decide

/-! ### Sent flags (the table of R91) -/

/-- What became of a frame reaches an UNSENT sample and a SENT one, and a QUEUED one before either. -/
theorem test_settled_flags : [SentFlag.unsent, .queued, .sent].map (fun e =>
      (settleFlags 1 .unsent [⟨.L, 0, 200, 1000⟩] [⟨1, .L, 0, 200, 1000, .sent⟩, ⟨1, .L, 0, 200, 1000, e⟩]).map Sample.flag) =
      [[.unsent, .unsent], [.sent, .unsent], [.unsent, .sent]] ∧
    (settleFlags 1 .sent [⟨.L, 0, 200, 1000⟩] [⟨1, .L, 0, 200, 1000, .unsent⟩]).map Sample.flag = [.sent] := by decide

/-! ### Hold limits (R142) and notices (R125) -/

def asking (v : Byte) (g : Granularity) : ClassEntry := ⟨true, .lending, 0, .alarm, false, v, g⟩

theorem test_hold_limits : holdLimit (asking 100 .coarse) = 807 ∧ holdLimit (asking 40 .coarse) = 327 ∧ holdLimit (asking 0 .fine) = 0 := by
  decide
theorem test_items_a_b_a : [1, 2, 1].foldl (enterNotice .issued) [] = [⟨2, .issued, 0⟩, ⟨1, .issued, 0⟩] := by decide

/-! ### Small states -/

/-- Station 1 of a row of three in RUNNING, its line idle: side L faces inner lane 1, side R inner lane 2. -/
def base : State := { State.reset with
  sys := { run := .running, phase := .ended, station := 1, cfg := { row3 with classes := List.replicate 32 (asking 100 .coarse) } }
  time := { clock := 1000, subMs := 0, seconds := 0, secondTimer := some 1000000 }
  line := { Line.reset with phase := .idle 50 } }
/-- The same row's station 0, whose side L faces end lane 0. -/
def endBase : State := { base with sys := { base.sys with station := 0 } }
/-- At the end of a frame stamped at 990. -/
def heard (s : State) : State := s.setPhase (.receiving 990)
def now (s : State) : State := s.advance 0
def starting (p : StartPhase) : State := { State.reset with sys := { State.reset.sys with phase := p, station := 1 } }
def faulty : State := { State.reset with sys := { State.reset.sys with run := .configFault, phase := .ended, station := 1 } }

def coilIn (st : CoilState) : Coil := { Coil.reset with state := st }
def unitWith (k : CoilNumber) (c : Coil) : CoilUnit := { CoilUnit.reset with coils := CoilUnit.reset.coils.set k c }
def holding (left : Nat) : Claim := { Claim.reset with state := .holding, hold := some left, request := false }
def claimIn (st : ClaimState) : Claim := { Claim.reset with state := st }
def sweepingAt (l : List CoilNumber) (p : Nat) (r : Option Round) : Sweep :=
  { Sweep.reset with state := .sweeping, list := l, position := p, round := r, doze := some 30000000 }
def roundOf (q ended empties singles collided slot : Nat) : Round := ⟨q, ended, empties, singles, collided, slot, false, false⟩
def leftSide (s : State) (u : CoilUnit) (c : Claim) (w : Sweep) : State := ((s.setCoils .L u).setClaim .L c).setSweep .L w

def fresh : Lead :=
  { stage := .openStage, provSent := false, slot := none, quiet := some 150000, provMade := false, provLanes := none, final := none
    owed := none }
def recordIn (st : RecState) (ps : List Sample) : Record :=
  { item := 7, code := 0, level := 0, mark := .notIssued, created := 1000, samples := ps, state := st }
def withRecord (s : State) (r : Record) : State := s.setTable (s.table.set 0 (some r))
def decided (v : Verdict) (r : Reason) (a : Nat) : Decision := ⟨v, r, a, none⟩
def frameOf (p : Payload) (o : Owner) : QFrame := ⟨p, o, 0, true, .none⟩
def attemptOf (left : Nat) : Attempt := ⟨⟨1, .claimBody 1⟩, frameBytes ⟨1, .claimBody 1⟩, left, 1000⟩
/-- The station sends `f`, alone in its queue, `left` µs before its frame's end. -/
def sending (s : State) (f : QFrame) (left : Nat) : State := (s.setPhase (.sending (attemptOf left))).setQueue [f]
/-- What `exec` makes of a command, if it answers a next state. -/
def after (c : Instr) (s : State) : Option State :=
  match exec c s with
  | .next t => some t
  | _ => none

/-! ### Worked sequences of chapters 2 and 4 -/

def liveUnit (k : CoilNumber) (q live : Nat) : CoilUnit :=
  { unitWith k { coilIn .live with q := q } with live := some live }
/-- Side L in a hold that began `t` ms ago, at the last slot of a round on coil `k` that has been LIVE for `live` ms. -/
def roundEnd (k : CoilNumber) (l : List CoilNumber) (p : Nat) (t live q e n c repeats : Nat) : State :=
  leftSide { base with sys := { base.sys with cfg := { base.sys.cfg with rampTime := 6, repeatLimit := 2 } } }
    (liveUnit k q (live * 1000)) (holding (60000 - t * 1000)) { sweepingAt l p (some (roundOf q (q - 1) e n c 0)) with repeats := repeats }
def leftSweep (o : Option State) : Option Sweep := o.map (·.sweeps.left)
def leftQ (o : Option State) (k : CoilNumber) : Option Nat := o.map fun s => (s.coil .L k).q

/-- Section 4.11 at 10 ms: E 1, S 2, C 5 of Q 8, the last slot COLLIDED, is followed by a repeat round of 16 slots. -/
theorem test_round_is_repeated : (leftSweep (after (.slotEnd 0 .L .collided) (roundEnd 2 [2, 3, 0, 1] 0 10 4 8 1 2 4 0))).map
    (fun w => (w.repeats, w.round)) = some (1, some (roundOf 16 0 0 0 0 500)) := by decide +kernel
/-- Section 4.11 at 26 ms: E 4 of Q 4 halves the stored Q. -/
theorem test_stored_q_halves : leftQ (after (.slotEnd 0 .L .empty) (roundEnd 3 [2, 3, 0, 1] 1 26 2 4 3 0 0 0)) 3 = some 2 := by decide +kernel
/-- Section 4.11 at 52 ms: the hold check refuses the repeat; the stored Q doubles, the sweep ends and the claim is CLOSING. -/
theorem test_hold_check_refuses : (after (.slotEnd 0 .L .collided) (roundEnd 1 [2, 3, 0, 1] 3 52 6 8 0 3 4 1)).map
    (fun s => ((s.coil .L 1).q, s.sweeps.left.state, s.claims.left.state)) = some (16, .releasing, .resting .closing) := by decide +kernel
/-- Section 4.11: the list from start coil 3. -/
theorem test_next_list : orderedList .interleaved 4 3 = [3, 2, 1, 0] := by decide
/-- Section 2.11 at 10.2 ms: a level of 238 is a field clash. -/
theorem test_field_clash : (after (.rampEnd 0 .L 238) (leftSide base { unitWith 3 (coilIn .ramping) with ramp := some 0 } (holding 49800)
    (sweepingAt [1, 0, 3, 2] 2 none))).map (fun s => ((s.coil .L 3).state, (s.coil .L 3).q, s.claims.left.clash, s.sweeps.left.state)) =
    some (.draining, 4, true, .releasing) := by decide +kernel

/-! ### Statements' hypotheses are met: start-up and time -/

def image2 : List Byte := (2 : Byte) :: (List.replicate 95 (0 : Byte) ++ [0, 2])
def image1 : List Byte := (1 : Byte) :: (List.replicate 95 (0 : Byte) ++ [0, 1])
/-- Mark 0 present, side L not fitted. -/
def imageNoL : List Byte := (2 : Byte) :: 1 :: (List.replicate 94 (0 : Byte) ++ [0, 3])

theorem witness_TimePassesNoDueMomentAndTheClockCounts :
    (base.sys.run = .running ∧ base.time.subMs < 1000) ∧ faulty.sys.run ≠ .running := by decide +kernel

theorem witness_StartUpReadsInAtMostThreeAttempts :
    (now State.reset).sys.phase = .resetHeld ∧ ((now (starting (.reading 2))).sys.phase = .reading 2 ∧ 2 < 3) ∧
    (now (starting (.reading 3))).sys.phase = .reading 3 ∧ (now (starting (.retryWait 2 0))).sys.phase = .retryWait 2 0 ∧
    ((now faulty).sys.run ≠ .starting ∧ (now faulty).line.phase = .deaf) := by decide +kernel

theorem witness_ImageSumDecidesTheRead : (now (starting (.reading 3))).sys.phase = .reading 3 ∧
    ((List.replicate 98 (255 : Byte)).length = 98 ∧ ((List.replicate 98 (255 : Byte)).take 96 |>.map BitVec.toNat).sum % 65536 ≠
      ((List.replicate 98 (255 : Byte)).getD 96 0).toNat * 256 + ((List.replicate 98 (255 : Byte)).getD 97 0).toNat) ∧
    (image1.length = 98 ∧ ((image1.take 96).map BitVec.toNat).sum % 65536 = (image1.getD 96 0).toNat * 256 + (image1.getD 97 0).toNat ∧
      ¬ (2 ≤ (configFrom image1).n)) ∧
    (image2.length = 98 ∧ ((image2.take 96).map BitVec.toNat).sum % 65536 = (image2.getD 96 0).toNat * 256 + (image2.getD 97 0).toNat ∧
      2 ≤ (configFrom image2).n ∧ (configFrom image2).n ≤ 16 ∧ (now (starting (.reading 3))).sys.station.toNat < (configFrom image2).n ∧
      (configFrom image2).driveMin < (configFrom image2).driveMax) := by decide +kernel

theorem witness_EntryToRunningStartsEveryBlock :
    (now (starting (.reading 1))).sys.phase = .reading 1 ∧
    (image2.length = 98 ∧ imageSum image2 = imageCheck image2 ∧
      checksPass (configFrom image2) (now (starting (.reading 1))).sys.station = true) ∧
    ((now (starting (.reading 1))).coils = State.reset.coils ∧ (now (starting (.reading 1))).claims = State.reset.claims ∧
      (now (starting (.reading 1))).sweeps = State.reset.sweeps ∧ (now (starting (.reading 1))).line = State.reset.line) ∧
    (fitted (configFrom image2) .L = true ∧ fitted (configFrom image2) .R = true ∧ fitted (configFrom imageNoL) .L = false ∧
      imageSum imageNoL = imageCheck imageNoL ∧ checksPass (configFrom imageNoL) 1 = true) ∧
    (after (.readAttemptComplete 0 image2) (starting (.reading 1))).map (fun t => (t.facesEnd .L, t.facesEnd .R)) = some (false, true) := by
  decide +kernel

theorem witness_EveryImageGivesValuesInRange : (∀ k, k < 24 → markSet image2 k = false) ∧
    ((imageWith 18 6).getD (1 + 13 / 8) 0).getLsbD (13 % 8) = true ∧ ((imageWith 20 3).getD (1 + 15 / 8) 0).getLsbD (15 % 8) = true := by
  decide +kernel

/-! ### Coils -/

def energisedAt (s : State) (k : CoilNumber) : Prop := ∀ j, (s.coils.left.coils.get j).state.energised = true → j = k

def rampEndIn (s : State) (q left : Nat) (exhausted : Bool) : State :=
  leftSide s { unitWith 0 { coilIn .ramping with q := q } with ramp := some 0 } (holding left)
    { sweepingAt [0, 1, 2, 3] 0 none with exhausted := exhausted }
def rampEndAt (c : Claim) : State :=
  leftSide base { unitWith 0 (coilIn .ramping) with ramp := some 0 } c (sweepingAt [0, 1, 2, 3] 0 none)
/-- After the first round's refusal by the hold check, or by the live check, and on an end lane after an exhausted hold. -/
theorem witness_RampEndJudgesTheFieldLevel_refused :
    (∀ p ∈ [(base, 4, 1000, false), (base, 100, 59000, false), (endBase, 4, 1000, true)],
      (now (rampEndIn p.1 p.2.1 p.2.2.1 p.2.2.2)).coils.left.ramp = some 0 ∧
      ((now (rampEndIn p.1 p.2.1 p.2.2.1 p.2.2.2)).coils.left.coils.get 0).state = .ramping ∧
      ((now (rampEndIn p.1 p.2.1 p.2.2.1 p.2.2.2)).coils.left.coils.get 0).q = p.2.1 ∧
      energisedAt (now (rampEndIn p.1 p.2.1 p.2.2.1 p.2.2.2)) 0 ∧
      (now (rampEndIn p.1 p.2.1 p.2.2.1 p.2.2.2)).sweeps.left.state = .sweeping ∧
      (now (rampEndIn p.1 p.2.1 p.2.2.1 p.2.2.2)).sweeps.left.exhausted = p.2.2.2 ∧
      (now (rampEndIn p.1 p.2.1 p.2.2.1 p.2.2.2)).claims.left = holding p.2.2.1 ∧
      (now (rampEndIn p.1 p.2.1 p.2.2.1 p.2.2.2)).sweeps.left.list[(now (rampEndIn p.1 p.2.1 p.2.2.1 p.2.2.2)).sweeps.left.position + 1]? =
        some 1 ∧
      ((now (rampEndIn p.1 p.2.1 p.2.2.1 p.2.2.2)).coils.left.coils.get 1).state = .idle ∧
      ((now (rampEndIn p.1 p.2.1 p.2.2.1 p.2.2.2)).coils.left.coils.get 1).q = 4 ∧
      (now (rampEndIn p.1 p.2.1 p.2.2.1 p.2.2.2)).coils.left.cutWait = none) ∧
    ((now base).facesEnd .L = false ∧ (now endBase).facesEnd .L = true ∧
      60000 < (60000 - 1000) + 4 * 500 + (now base).sys.cfg.drainTime * 1000 ∧
      40000 < 100 * 500 ∧ (60000 - 59000) + 100 * 500 + (now base).sys.cfg.drainTime * 1000 ≤ 60000 ∧
      (60000 - 59000) + (now base).sys.cfg.rampTime * 1000 + 4 * 500 + (now base).sys.cfg.drainTime * 1000 ≤ 60000) := by
  unfold energisedAt; decide +kernel
theorem witness_RampEndJudgesTheFieldLevel :
    ((now (rampEndAt (holding 3000))).coils.left.ramp = some 0 ∧ (now (rampEndAt (holding 3000))).sweeps.left.state = .sweeping ∧
      (now (rampEndAt (holding 3000))).sweeps.left.exhausted = false ∧
      ((now (rampEndAt (holding 3000))).coils.left.coils.get 0).state = .ramping) ∧ energisedAt (now (rampEndAt (holding 3000))) 0 ∧
    ((95 : Byte).toNat < (now (rampEndAt (holding 3000))).sys.cfg.driveMin) ∧
    ((now (rampEndAt (holding 3000))).sys.cfg.driveMax < (225 : Byte).toNat ∧ (now (rampEndAt (holding 3000))).claims.left.state = .holding) ∧
    ((now (rampEndAt (holding 3000))).sys.cfg.driveMin ≤ (96 : Byte).toNat ∧
      (224 : Byte).toNat ≤ (now (rampEndAt (holding 3000))).sys.cfg.driveMax ∧
      ((now (rampEndAt (holding 3000))).coils.left.coils.get 0).q * 500 ≤ 40000 ∧
      (now (rampEndAt (holding 3000))).claims.left.hold = some 3000 ∧
      (60000 - 3000) + ((now (rampEndAt (holding 3000))).coils.left.coils.get 0).q * 500 +
        (now (rampEndAt (holding 3000))).sys.cfg.drainTime * 1000 ≤ 60000) := by
  unfold energisedAt; decide +kernel

def liveAt : State := leftSide base (liveUnit 0 4 40000) (holding 9000) (sweepingAt [0, 1, 2, 3] 0 (some (roundOf 4 1 1 0 0 200)))
def liveAtSlotEnd : State := leftSide base (liveUnit 0 4 40000) (holding 9000) (sweepingAt [0, 1, 2, 3] 0 (some (roundOf 4 1 1 0 0 0)))
theorem witness_LivePeriodEndsAtLimitOrDriveLoss : ((now liveAt).coils.left.coils.get 1).state ≠ .live ∧
    (∀ s ∈ [liveAt, liveAtSlotEnd], energisedAt (now s) 0 ∧ ((now s).coils.left.coils.get 0).state = .live ∧
      (now s).coils.left.live = some 40000) ∧
    (now liveAt).sweeps.left.round = some (roundOf 4 1 1 0 0 200) ∧ (now liveAtSlotEnd).sweeps.left.round = some (roundOf 4 1 1 0 0 0) := by
  unfold energisedAt; decide +kernel

def twoDrains : CoilUnit := { CoilUnit.reset with
  coils := ⟨{ coilIn .draining with drain := some 0 }, { coilIn .draining with drain := some 500 }, Coil.reset, Coil.reset⟩, cutWait := some 0 }
def retestAt (st : CoilState) : State := base.setCoils .L (unitWith 3 { coilIn st with retest := some 0 })
theorem witness_DrainCutWaitAndRetestExpire :
    ((1 : CoilNumber) ≠ 0 ∧ ((now (base.setCoils .L twoDrains)).coils.left.coils.get 1).state.hasField = true ∧
      (now (base.setCoils .L twoDrains)).sweeps.left.wait = .none ∧
      ((now (base.setCoils .L twoDrains)).coils.left.coils.get 0).drain = some 0 ∧
      ((now (base.setCoils .L twoDrains)).coils.left.coils.get 0).state = .draining ∧
      (now (base.setCoils .L twoDrains)).coils.left.cutWait = some 0) ∧
    (((now (retestAt .faulted)).coils.left.coils.get 3).retest = some 0 ∧ ((now (retestAt .faulted)).coils.left.coils.get 3).state = .faulted) ∧
    (((now (retestAt .idle)).coils.left.coils.get 3).retest = some 0 ∧
      ((now (retestAt .idle)).coils.left.coils.get 3).state ≠ .faulted) := by decide +kernel

/-- Side L, its Scheduler waiting at coil 1 of its list. -/
def waitingAt (left : Nat) (st : CoilState) (cut : Timer) (wt : SweepWait) : State :=
  leftSide base { unitWith 1 { coilIn st with drain := some 0 } with cutWait := cut } (holding left)
    { sweepingAt [1, 0, 3, 2] 0 none with wait := wt }
theorem witness_DrainCutWaitAndRetestExpire_resumes :
    (∀ p ∈ [(20000, CoilState.draining, (none : Timer), SweepWait.drain), (20000, .draining, some 700, .drain), (20000, .idle, some 0, .cutWait),
        (20000, .draining, some 0, .cutWait), (1000, .draining, some 700, .drain), (1000, .draining, some 0, .cutWait)],
      (now (waitingAt p.1 p.2.1 p.2.2.1 p.2.2.2)).claims.left = holding p.1 ∧
      (now (waitingAt p.1 p.2.1 p.2.2.1 p.2.2.2)).sweeps.left = { sweepingAt [1, 0, 3, 2] 0 none with wait := p.2.2.2 } ∧
      (now (waitingAt p.1 p.2.1 p.2.2.1 p.2.2.2)).coils.left.cutWait = p.2.2.1 ∧
      ((now (waitingAt p.1 p.2.1 p.2.2.1 p.2.2.2)).coils.left.coils.get 1).state = p.2.1 ∧
      ((now (waitingAt p.1 p.2.1 p.2.2.1 p.2.2.2)).coils.left.coils.get 1).drain = some 0 ∧
      ∀ j, ((now (waitingAt p.1 p.2.1 p.2.2.1 p.2.2.2)).coils.left.coils.get j).state.energised = false) ∧
    ((now base).facesEnd .L = false ∧
      (60000 - 20000) + (now base).sys.cfg.rampTime * 1000 + 4 * 500 + (now base).sys.cfg.drainTime * 1000 ≤ 60000 ∧
      60000 < (60000 - 1000) + (now base).sys.cfg.rampTime * 1000 + 4 * 500 + (now base).sys.cfg.drainTime * 1000) := by decide +kernel

def lastDrain : CoilUnit := unitWith 2 { coilIn .draining with drain := some 0 }
def lastCut : CoilUnit := { CoilUnit.reset with cutWait := some 0 }
def closingClaim (clash deferred request : Bool) : Claim :=
  { claimIn (.resting .closing) with clash := clash, deferredPartner := deferred, request := request }
def releasing (priority : Bool) : Sweep := { Sweep.reset with state := .releasing, priority := priority }
/-- The side comes to rest by a drain and by a cut wait, facing an inner lane and an end lane, for each of the claims and sweeps named. -/
theorem witness_RestInClosingGivesUpTheLane :
    (∀ s ∈ [base, endBase], ∀ p ∈ [(closingClaim false true false, releasing false), (closingClaim true false true, releasing false),
        (closingClaim false false true, { Sweep.reset with state := .claiming }), (closingClaim false false false, releasing true)],
      (((now (leftSide s lastDrain p.1 p.2)).coils.left.coils.get 2).drain = some 0 ∧
        ((now (leftSide s lastDrain p.1 p.2)).coils.left.coils.get 2).state = .draining ∧
        (∀ j, j ≠ 2 → ((now (leftSide s lastDrain p.1 p.2)).coils.left.coils.get j).state.hasField = false) ∧
        (now (leftSide s lastDrain p.1 p.2)).coils.left.cutWait = none) ∧
      ((now (leftSide s lastCut p.1 p.2)).coils.left.cutWait = some 0 ∧
        ∀ j, ((now (leftSide s lastCut p.1 p.2)).coils.left.coils.get j).state.hasField = false) ∧
      (∀ u ∈ [lastDrain, lastCut], (now (leftSide s u p.1 p.2)).claims.left = p.1 ∧ (now (leftSide s u p.1 p.2)).sweeps.left = p.2 ∧
        (now (leftSide s u p.1 p.2)).line.queue = [])) ∧
    ((now base).facesEnd .L = false ∧ (now endBase).facesEnd .L = true) ∧
    orderedList (now endBase).sys.cfg.order (sweepLengthOf (now endBase).sys.cfg .active) 0 = 0 :: [1, 2, 3] ∧
    (∃ k, (lastDrain.coils.get k).state ≠ .faulted) := by decide +kernel

/-! ### Claims -/

def granted (st : SweepState) : State :=
  leftSide base CoilUnit.reset { claimIn .asking with sent := true, request := true, wait := some 0 } { Sweep.reset with state := st }
def holdEnd (s : State) : State := leftSide s (liveUnit 1 4 2000) (holding 0) (sweepingAt [1, 0, 3, 2] 0 (some (roundOf 4 2 2 0 0 300)))
def holdEndDraining : State :=
  leftSide endBase (unitWith 1 { coilIn .draining with drain := some 500 }) (holding 0) { sweepingAt [1, 0, 3, 2] 0 none with wait := .drain }
def holdEndReleasing : State := leftSide endBase CoilUnit.reset (holding 0) (releasing false)
def holdEndClosing : State := base.setClaim .L { claimIn (.resting .closing) with hold := some 0 }
theorem witness_ClaimWaitAndHoldTimersExpire :
    ((now (granted .waiting)).claims.left.wait = some 0 ∧ (now (granted .waiting)).claims.left.state = .asking ∧
      (now (granted .waiting)).sweeps.left.state ≠ .claiming) ∧
    ((now (granted .claiming)).claims.left.wait = some 0 ∧ (now (granted .claiming)).claims.left.state = .asking ∧
      (now (granted .claiming)).sweeps.left.state = .claiming ∧ (now (granted .claiming)).facesEnd .L = false ∧
      (now (granted .claiming)).sweeps.left.priority = false ∧
      orderedList (now (granted .claiming)).sys.cfg.order (sweepLengthOf (now (granted .claiming)).sys.cfg
        (now (granted .claiming)).sweeps.left.mode) (now (granted .claiming)).sweeps.left.c0 = 0 :: [1, 2, 3] ∧
      ((now (granted .claiming)).coils.left.coils.get 0).state = .idle ∧
      (∀ j, ((now (granted .claiming)).coils.left.coils.get j).state.energised = false) ∧ (now (granted .claiming)).coils.left.cutWait = none ∧
      (now (granted .claiming)).sys.cfg.rampTime * 1000 + ((now (granted .claiming)).coils.left.coils.get 0).q * 500 +
        (now (granted .claiming)).sys.cfg.drainTime * 1000 ≤ 60000) ∧
    (∀ s ∈ [base, endBase], (now (holdEnd s)).claims.left.hold = some 0 ∧ (now (holdEnd s)).claims.left.state = .holding ∧
      (now (holdEnd s)).sweeps.left.state = .sweeping ∧ ((now (holdEnd s)).coils.left.coils.get 1).state = .live ∧
      energisedAt (now (holdEnd s)) 1) ∧
    ((now (holdEnd base)).facesEnd .L = false ∧ (now (holdEnd endBase)).facesEnd .L = true ∧ (now holdEndDraining).facesEnd .L = true ∧
      (now holdEndReleasing).facesEnd .L = true) ∧
    ((now holdEndDraining).claims.left.hold = some 0 ∧ (now holdEndDraining).claims.left.state = .holding ∧
      (now holdEndDraining).sweeps.left.state = .sweeping ∧ (now holdEndDraining).sweeps.left.round = none ∧
      (∀ j, ((now holdEndDraining).coils.left.coils.get j).state.energised = false) ∧
      ((now holdEndDraining).coils.left.coils.get 1).state = .draining) ∧
    ((now holdEndReleasing).claims.left.hold = some 0 ∧ (now holdEndReleasing).claims.left.state = .holding ∧
      (now holdEndReleasing).sweeps.left.state ≠ .sweeping) ∧
    ((now holdEndClosing).claims.left.hold = some 0 ∧ (now holdEndClosing).claims.left.state ≠ .holding) := by
  unfold energisedAt; decide +kernel

def restEnd (request : Bool) : State := base.setClaim .L { claimIn (.resting .yielded) with rest := some 0, request := request }
def endRestOver : State :=
  leftSide endBase CoilUnit.reset { claimIn (.resting .backOff) with rest := some 0, request := true } { Sweep.reset with state := .claiming }
theorem witness_RestTimerEndsTheRest :
    ((now (restEnd false)).claims.left.rest = some 0 ∧ (now (restEnd false)).claims.left.state = .resting .yielded ∧
      RestCause.yielded ≠ .closing ∧ (now (restEnd false)).claims.left.request = false) ∧
    ((now (restEnd true)).claims.left.rest = some 0 ∧ (now (restEnd true)).claims.left.state = .resting .yielded ∧
      (now (restEnd true)).claims.left.request = true ∧ (now (restEnd true)).facesEnd .L = false ∧ (now (restEnd true)).NormalRoom) ∧
    ((now endRestOver).claims.left.rest = some 0 ∧ (now endRestOver).claims.left.state = .resting .backOff ∧
      (now endRestOver).claims.left.request = true ∧ (now endRestOver).facesEnd .L = true ∧ (now endRestOver).sweeps.left.state = .claiming ∧
      orderedList (now endRestOver).sys.cfg.order (sweepLengthOf (now endRestOver).sys.cfg (now endRestOver).sweeps.left.mode)
        (now endRestOver).sweeps.left.c0 = 0 :: [1, 2, 3] ∧ ((now endRestOver).coils.left.coils.get 0).state = .idle ∧
      (∀ j, ((now endRestOver).coils.left.coils.get j).state.energised = false) ∧ (now endRestOver).coils.left.cutWait = none) := by
  unfold State.NormalRoom; decide +kernel

/-- Side L of station 1, whose partner is station 0, hears a frame about lane 1 in claim state `st`. -/
def claimHeard (st : ClaimState) (sent : Bool) : State := heard (base.setClaim .L { claimIn st with sent := sent })
theorem witness_PartnersClaimByClaimState :
    (∀ st ∈ [ClaimState.free, .resting .backOff, .asking, .holding, .resting .closing, .resting .yielded, .resting .deferred, .resting .gap],
      ∀ sent, (now (claimHeard st sent)).HearsK16 0 990 ∧ (1 : Byte).toNat = (now (claimHeard st sent)).lane .L ∧
        (0 : Address).toNat = (now (claimHeard st sent)).partner .L ∧ (now (claimHeard st sent)).facesEnd .L = false ∧
        (now (claimHeard st sent)).claims.left.state = st ∧ (now (claimHeard st sent)).claims.left.sent = sent ∧
        (now (claimHeard st sent)).claims.left.request = false ∧ (now (claimHeard st sent)).line.queue.length ≤ 8) := by
  unfold State.HearsK16; decide +kernel

/-- The same with the sweep request pending, for the cases of both statements in which the side asks at once. -/
theorem witness_PartnersClaimByClaimState_pending : ∀ cause ∈ [RestCause.gap, .yielded, .deferred, .backOff],
    (now (heard (base.setClaim .L { claimIn (.resting cause) with request := true }))).HearsK16 0 990 ∧
    (now (heard (base.setClaim .L { claimIn (.resting cause) with request := true }))).NormalRoom ∧
    (now (heard (base.setClaim .L { claimIn (.resting cause) with request := true }))).claims.left =
      { claimIn (.resting cause) with request := true } ∧
    (now (heard (base.setClaim .L { claimIn (.resting cause) with request := true }))).facesEnd .L = false := by
  unfold State.HearsK16 State.NormalRoom; decide +kernel

theorem witness_PartnersDeferAndReleaseByClaimState :
    (∀ st ∈ [ClaimState.free, .asking, .holding, .resting .closing, .resting .gap],
      (now (claimHeard st false)).HearsK16 0 990 ∧ (1 : Byte).toNat = (now (claimHeard st false)).lane .L ∧
        (0 : Address).toNat = (now (claimHeard st false)).partner .L ∧ (now (claimHeard st false)).facesEnd .L = false ∧
        (now (claimHeard st false)).claims.left.state = st ∧ (now (claimHeard st false)).claims.left.request = false ∧
        (now (claimHeard st false)).line.queue.length ≤ 8 ∧ (now (claimHeard st false)).line.waiting = []) := by
  unfold State.HearsK16; decide +kernel

/-! ### Sweeps and rounds -/

theorem witness_CoilListsFollowTheSweepOrder : (∀ L ∈ [1, 2, 4], L ∈ [1, 2, 4] ∧ L - 1 < L) ∧
    ((base.setSweep .L { Sweep.reset with priority := true }).sweeps.get .L).priority = true := by decide +kernel

def gapOver (s : State) (u : CoilUnit) (st : ClaimState) : State := leftSide s u (claimIn st) { Sweep.reset with gap := some 0 }
def allFaulted : CoilUnit := { CoilUnit.reset with coils := CoilUnit.reset.coils.map fun c => { c with state := .faulted } }
theorem witness_GapEndBeginsASweep :
    ((now (gapOver base allFaulted .free)).sweeps.left.gap = some 0 ∧ (now (gapOver base allFaulted .free)).sweeps.left.state = .waiting ∧
      (now (gapOver base allFaulted .free)).sweeps.left.priority = false ∧
      (∀ k ∈ [0, 1, 2, 3], ((now (gapOver base allFaulted .free)).coils.left.coils.get k).state = .faulted)) ∧
    ((now (gapOver base CoilUnit.reset .free)).sweeps.left.gap = some 0 ∧
      orderedList (now (gapOver base CoilUnit.reset .free)).sys.cfg.order
        (sweepLengthOf (now (gapOver base CoilUnit.reset .free)).sys.cfg (now (gapOver base CoilUnit.reset .free)).sweeps.left.mode)
        (now (gapOver base CoilUnit.reset .free)).sweeps.left.c0 = [0, 1, 2, 3] ∧
      ((now (gapOver base CoilUnit.reset .free)).coils.left.coils.get 0).state ≠ .faulted ∧
      (now (gapOver base CoilUnit.reset .free)).facesEnd .L = false ∧ (now (gapOver base CoilUnit.reset .free)).claims.left.state = .free ∧
      (now (gapOver base CoilUnit.reset .free)).NormalRoom) ∧
    ((now (gapOver base CoilUnit.reset (.resting .gap))).sweeps.left.gap = some 0 ∧
      (now (gapOver base CoilUnit.reset (.resting .gap))).claims.left.state = .resting .gap) ∧
    ((now (gapOver endBase CoilUnit.reset .free)).sweeps.left.gap = some 0 ∧ (now (gapOver endBase CoilUnit.reset .free)).facesEnd .L = true ∧
      (now (gapOver endBase CoilUnit.reset .free)).claims.left.state = .free ∧
      ((now (gapOver endBase CoilUnit.reset .free)).coils.left.coils.get 0).state = .idle ∧
      (∀ j, ((now (gapOver endBase CoilUnit.reset .free)).coils.left.coils.get j).state.energised = false) ∧
      (now (gapOver endBase CoilUnit.reset .free)).coils.left.cutWait = none) := by
  unfold State.NormalRoom; decide +kernel

def beamAt (w : Sweep) (broken : Bool) : State :=
  { base.setSweep .L { w with beams := ⟨⟨false, some 0⟩, ⟨false, none⟩⟩ } with
    pins := { beamsBroken := ⟨⟨broken, false⟩, ⟨false, false⟩⟩, hall := 0 } }
def unfittedL : State := { base with sys := { base.sys with cfg := { base.sys.cfg with fittedL := false } } }
theorem witness_DozeBeamsAndHallLevelAreDebounced :
    (now (base.setSweep .L { Sweep.reset with doze := some 0 })).sweeps.left.doze = some 0 ∧
    (((now base).pins.beamsBroken.get .L).get .inner ≠ true ∧ (now base).sys.run = .running ∧ fitted (now base).sys.cfg .L = true) ∧
    (((now unfittedL).pins.beamsBroken.get .L).get .inner ≠ true ∧ fitted (now unfittedL).sys.cfg .L = false) ∧
    (((now (beamAt Sweep.reset false)).sweeps.left.beams.get .inner).timer = some 0 ∧
      ((now (beamAt Sweep.reset false)).pins.beamsBroken.get .L).get .inner = false) ∧
    ((now base).pins.hall ≠ 3 ∧ (now faulty).pins.hall ≠ 3 ∧ (now faulty).sys.run ≠ .running) ∧
    (now { base with hall := { level := 0, timer := some 0 } }).hall.timer = some 0 := by decide +kernel

/-- Side L with a beam about to be taken as broken. -/
def breaking (s : State) (u : CoilUnit) (c : Claim) (w : Sweep) : State :=
  { leftSide s u c { w with beams := ⟨⟨false, some 0⟩, ⟨false, none⟩⟩ } with
    pins := { beamsBroken := ⟨⟨true, false⟩, ⟨false, false⟩⟩, hall := 0 } }
def ordinary (r : Option Round) : Sweep := sweepingAt [2, 3, 0, 1] 1 r
def rampingUnit (k : CoilNumber) : CoilUnit := { unitWith k (coilIn .ramping) with ramp := some 900 }
def decideBody (v : Verdict) (a b : Byte) (again : Bool) : DecideBody := ⟨7, v, .none, a, b, again⟩
def decideFrame (v : Verdict) (a : Nat) (again : Bool) : QFrame := frameOf (.decision ⟨7, ⟨v, .none, a, none⟩, again⟩) (.record 7)
theorem witness_PriorityTriggersActBySweepState :
    (∀ p ∈ [(allFaulted, claimIn .free, Sweep.reset), (CoilUnit.reset, claimIn .free, Sweep.reset),
        (CoilUnit.reset, claimIn (.resting .gap), Sweep.reset), (CoilUnit.reset, claimIn .asking, { Sweep.reset with state := .claiming }),
        (CoilUnit.reset, closingClaim true false false, releasing false),
        (CoilUnit.reset, holding 9000, { ordinary none with exhausted := true }),
        (CoilUnit.reset, holding 9000, { ordinary none with full := true }), (liveUnit 3 4 900, holding 9000, ordinary (some (roundOf 4 1 1 0 0 300))),
        (liveUnit 0 4 38000, holding 3000, ordinary none), (rampingUnit 0, holding 9000, ordinary none),
        (CoilUnit.reset, holding 5000, ordinary none), (liveUnit 1 4 900, holding 5000, ordinary none), (rampingUnit 1, holding 5000, ordinary none),
        (unitWith 0 { coilIn .draining with drain := some 500 }, holding 5000, { ordinary none with wait := .drain })],
      ∀ s ∈ [base, endBase],
        ((now (breaking s p.1 p.2.1 p.2.2)).sweeps.left.beams.get .inner) = ⟨false, some 0⟩ ∧
        ((now (breaking s p.1 p.2.1 p.2.2)).pins.beamsBroken.get .L).get .inner = true ∧
        (now (breaking s p.1 p.2.1 p.2.2)).sys.run = .running ∧ fitted (now (breaking s p.1 p.2.1 p.2.2)).sys.cfg .L = true ∧
        (now (breaking s p.1 p.2.1 p.2.2)).coils.left = p.1 ∧ (now (breaking s p.1 p.2.1 p.2.2)).claims.left = p.2.1 ∧
        { (now (breaking s p.1 p.2.1 p.2.2)).sweeps.left with beams := p.2.2.beams } = p.2.2) ∧
    (∀ k, (allFaulted.coils.get k).state = .faulted) ∧
    ((now base).facesEnd .L = false ∧ (now endBase).facesEnd .L = true ∧
      (60000 - 3000) + 4 * 500 + (now base).sys.cfg.drainTime * 1000 ≤ 60000 ∧ 38000 + 4 * 500 ≤ 40000 ∧
      (60000 - 5000) + (now base).sys.cfg.rampTime * 1000 + 4 * 500 + (now base).sys.cfg.drainTime * 1000 ≤ 60000) ∧
    ((now (heard (base.setSweep .L (ordinary none)))).HearsK16 2 990 ∧
      (now (heard (base.setSweep .L (ordinary none)))).lane .L = (decideBody .provisional 2 1 false).laneB.toNat) ∧
    ((now (sending (base.setSweep .L (ordinary none)) (decideFrame .provisional 1 false) 0)).Sends (attemptOf 0) []
        (decideFrame .provisional 1 false) [] ∧
      (now (sending (base.setSweep .L (ordinary none)) (decideFrame .provisional 1 false) 0)).lane .L = 1) ∧
    (now (leftSide base (liveUnit 3 4 900) (holding 9000) (ordinary (some { roundOf 4 1 1 0 0 0 with stopping := true })))).sweeps.left =
      ordinary (some { roundOf 4 1 1 0 0 0 with stopping := true }) := by
  unfold State.HearsK16 State.Sends; decide +kernel

/-- The state of `roundEnd`, with `q` slots of which `n` have ended and `c` were COLLIDED, 1 ms into the hold. -/
def slotOver (q n c live : Nat) : State := leftSide base (liveUnit 0 q live) (holding 59000) (sweepingAt [0, 1, 2, 3] 0 (some (roundOf q n (n - c) 0 c 0)))
/-- The round of `slotOver`, its coil drained already by the live limit. -/
def slotCut : State :=
  leftSide base (unitWith 0 { coilIn .draining with drain := some 1000 }) (holding 20000)
    (sweepingAt [0, 1, 2, 3] 0 (some { roundOf 4 3 3 0 0 0 with cut := true }))
theorem witness_SlotEndTalliesAndEndsTheRound :
    (∀ s ∈ [slotOver 4 2 1 6000, slotOver 4 3 2 6000, slotOver 4 3 1 6000, slotOver 4 3 2 40000, slotCut],
      (now s).sweeps.left.list[(now s).sweeps.left.position]? = some 0 ∧ (now s).sweeps.left.state = .sweeping ∧
      (now s).sweeps.left.exhausted = false ∧ (now s).sweeps.left.repeats < (now s).sys.cfg.repeatLimit ∧ 1 ≤ (now s).sys.cfg.drainTime) ∧
    ((now (slotOver 4 2 1 6000)).sweeps.left.round = some (roundOf 4 2 1 0 1 0) ∧ 2 + 1 < 4) ∧
    ((now (slotOver 4 3 2 6000)).sweeps.left.round = some (roundOf 4 3 1 0 2 0) ∧ 4 ≤ 3 + 1 ∧ 4 < 2 * (2 + 1) ∧
      (now (slotOver 4 3 2 6000)).coils.left.live.getD 0 + 2 * 4 * 500 ≤ 40000 ∧ (now (slotOver 4 3 2 6000)).claims.left.hold = some 59000 ∧
      (60000 - 59000) + 2 * 4 * 500 + (now (slotOver 4 3 2 6000)).sys.cfg.drainTime * 1000 ≤ 60000) ∧
    (∀ s ∈ [slotOver 4 3 1 6000, slotOver 4 3 2 40000], ((now s).coils.left.coils.get 0).state = .live ∧ energisedAt (now s) 0) ∧
    ((now (slotOver 4 3 1 6000)).sweeps.left.round = some (roundOf 4 3 2 0 1 0) ∧ ¬ 4 < 2 * (1 + 1)) ∧
    ((now (slotOver 4 3 2 40000)).sweeps.left.round = some (roundOf 4 3 1 0 2 0) ∧
      ¬ (now (slotOver 4 3 2 40000)).coils.left.live.getD 0 < 40000) ∧
    ((now slotCut).sweeps.left.round = some { roundOf 4 3 3 0 0 0 with cut := true } ∧
      ((now slotCut).coils.left.coils.get 0).state = .draining ∧ ∀ j, ((now slotCut).coils.left.coils.get j).state.energised = false) := by
  unfold energisedAt; decide +kernel

def inSlot : State := slotOver 4 2 1 6000
/-- 48 records, of other items than 7: the one at position 3 as given, the others as given. -/
def fullTable (one others : RecState) : State := inSlot.setTable ((List.range 48).map fun i =>
  some { recordIn (if i = 3 then one else others) [] with item := BitVec.ofNat 40 (100 + i) })
def closedAt (t : Clock) : RecState := .closed (decided .clear .none 1) t
theorem witness_SingleReplyForANewItemIsTaken :
    (∀ s ∈ [inSlot, inSlot.setDirectory [⟨7, 2, 900⟩], fullTable (closedAt 900) (.sole true), fullTable (.sole true) (.sole true),
        (fullTable (.sole true) (.sole true)).setDirectory [⟨7, 2, 900⟩]],
      (now s).sweeps.left.round = some (roundOf 4 2 1 0 1 0) ∧ (now s).sweeps.left.list[(now s).sweeps.left.position]? = some 0 ∧ 2 + 1 < 4 ∧
      (now s).record? 7 = none ∧ (now s).NormalRoom ∧ (now s).line.queue = [] ∧ (now s).line.waiting = [] ∧ (now s).sys.run = .running) ∧
    (∀ e ∈ (now inSlot).directory, e.item ≠ 7) ∧
    ((now (inSlot.setDirectory [⟨7, 2, 900⟩])).directory.find? (fun e => e.item == 7) = some ⟨7, 2, 900⟩) ∧
    (0 < (now inSlot).table.length ∧ (now inSlot).table[0]? = some none ∧
      (now (inSlot.setDirectory [⟨7, 2, 900⟩])).table[0]? = some none) ∧
    ((∀ e ∈ (now (fullTable (closedAt 900) (.sole true))).table, e ≠ none) ∧
      (now (fullTable (closedAt 900) (.sole true))).table = (now (fullTable (closedAt 900) (.sole true))).table.take 3 ++
        some { recordIn (closedAt 900) [] with item := 103 } :: (now (fullTable (closedAt 900) (.sole true))).table.drop 4 ∧
      ∀ e ∈ (now (fullTable (closedAt 900) (.sole true))).table.take 3 ++ (now (fullTable (closedAt 900) (.sole true))).table.drop 4,
        e.map Record.state = some (.sole true)) ∧
    (∀ e ∈ (now (fullTable (.sole true) (.sole true))).table, e.map Record.state = some (.sole true)) := by
  unfold State.NormalRoom; decide +kernel

/-- A reply of strength `n` that its list would weigh. -/
def replyOf (n : Byte) : Reply := ⟨7, 0, .issued, 0, n⟩
/-- Sixteen samples, of which the second and the third are the weakest, of one time. -/
def sixteen : List Sample := [sampled 2 .R 0 100 990, sampled 2 .R 1 50 980, sampled 2 .R 2 50 980] ++ List.replicate 13 (sampled 2 .R 3 100 990)
theorem witness_SingleReplyForAKnownItemIsTaken :
    (∀ r ∈ [recordIn (.sole true) [], recordIn (.sole false) [sampled 1 .L 0 200 1000], recordIn (.lead fresh) [], recordIn (.joint 2 none) [],
        recordIn (closedAt 900) [], recordIn (.sole true) sixteen, recordIn (.sole false) sixteen, recordIn (.lead fresh) sixteen,
        recordIn (.joint 2 none) sixteen],
      (now (withRecord inSlot r)).sweeps.left.round = some (roundOf 4 2 1 0 1 0) ∧
      (now (withRecord inSlot r)).sweeps.left.list[(now (withRecord inSlot r)).sweeps.left.position]? = some 0 ∧ 2 + 1 < 4 ∧
      (now (withRecord inSlot r)).record? 7 = some r ∧ (now (withRecord inSlot r)).NormalRoom ∧ (now (withRecord inSlot r)).line.queue = [] ∧
      (now (withRecord inSlot r)).line.waiting = [] ∧ (now (withRecord inSlot r)).sys.run = .running ∧
      (now (withRecord inSlot r)).report.counters.samplesLost ≤ 65535) ∧
    (∀ q ∈ sampled 1 .L 0 200 1000 :: sixteen, q.station = 1 → q.flag ≠ .unsent) ∧
    (sixteen.length = 16 ∧ sixteen = [sampled 2 .R 0 100 990] ++ sampled 2 .R 1 50 980 :: sixteen.drop 2 ∧
      (sampled 2 .R 1 50 980).strength.toNat - row3.noiseFloor < (sampled 2 .R 0 100 990).strength.toNat - row3.noiseFloor ∧
      ∀ q ∈ sixteen.drop 2, (50 : Byte).toNat - row3.noiseFloor < q.strength.toNat - row3.noiseFloor ∨
        (50 : Byte).toNat - row3.noiseFloor = q.strength.toNat - row3.noiseFloor ∧ ((1000 : Clock) - q.time).toNat ≤ ((1000 : Clock) - 980).toNat) ∧
    ((50 : Byte).toNat - row3.noiseFloor < (replyOf 51).strength.toNat - row3.noiseFloor ∧
      ¬ (50 : Byte).toNat - row3.noiseFloor < (replyOf 50).strength.toNat - row3.noiseFloor) := by
  unfold State.NormalRoom; decide +kernel

/-! ### The Gate Line -/

def queued (s : State) (f : QFrame) : State := s.setQueue [{ f with underTx := false }]
def deferIn (c : Claim) : State := queued (base.setClaim .L c) (frameOf (.defer 1) (.side .L))
theorem witness_AttemptStartsAfterTheAccessDelay :
    (∀ p ∈ [(.sight ⟨7, 0, .notIssued, 0, false, false, [⟨.L, 0, 200, 1000⟩]⟩), (.join ⟨7, 2, [⟨.L, 0, 200, 1000⟩]⟩),
        (.decision ⟨7, decided .clear .none 1, false⟩), (.claim 1), (.release 1), (.query 30 9 7), Payload.report],
      (now (queued base (frameOf p (.side .L)))).line.phase = .idle 50 ∧ (now (queued base (frameOf p (.side .L)))).sys.run = .running ∧
      headOf (now (queued base (frameOf p (.side .L)))).line.queue = some ⟨p, .side .L, 0, false, .none⟩ ∧
      (now (queued base (frameOf p (.side .L)))).line.backoff = false ∧ 50 ≤ 50 ∧ 50 % 10 = 0) ∧
    ((now ((queued base (frameOf .report .reportUnit)).setPhase (.idle 49))).line.phase = .idle 49 ∧
      headOf (now ((queued base (frameOf .report .reportUnit)).setPhase (.idle 49))).line.queue =
        some ⟨.report, .reportUnit, 0, false, .none⟩ ∧ 49 < 50) ∧
    (∀ c ∈ [holding 41000, claimIn .asking, { claimIn .asking with sent := true }, { claimIn (.resting .closing) with hold := some 7100 },
        claimIn (.resting .closing), claimIn .free, claimIn (.resting .gap)],
      (now (deferIn c)).line.phase = .idle 50 ∧ headOf (now (deferIn c)).line.queue = some ⟨.defer 1, .side .L, 0, false, .none⟩ ∧
      (⟨.defer 1, .side .L, 0, false, .none⟩ : QFrame).urgent = true ∧ (now (deferIn c)).claims.left = c) := by decide +kernel

/-- Bit 2 of the preamble, sent as 1, is on the line 2 µs after the start of an attempt of 100 µs. -/
def lostAt (losses : Nat) (p : Payload) (o : Owner) : State := sending base { frameOf p o with losses := losses } 98
def withAsked (f : QFrame) (r : PendingRequest) (losses : Nat) : QFrame := { f with asked := r, losses := losses }
/-- The station loses contention with frame `f`, alone in its queue. -/
def losing (s : State) (f : QFrame) : State := sending s f 98
def queryIn (tag : Nat) : State := losing { base with queries := { Queries.reset with slots := Queries.reset.slots.set 2 ⟨1, some ⟨7, 0, 9⟩⟩ } }
  (withAsked (frameOf (.query 30 tag 7) (.slot 2)) .none 15)
def joinMsg : JoinMsg := ⟨7, 2, [⟨.L, 0, 200, 1000⟩]⟩
def queuedSample : Sample := { sampled 1 .L 0 200 1000 with flag := .queued }
def joinOwner : State := withRecord base (recordIn (.joint 2 (some 5000)) [queuedSample])
theorem witness_ContentionLossCountsAndDrops :
    (∀ n ∈ [14, 15], (now (lostAt n .report .reportUnit)).Sends (attemptOf 98) [] { frameOf .report .reportUnit with losses := n } [] ∧
      (now (lostAt n .report .reportUnit)).sys.run = .running ∧ (now (lostAt n .report .reportUnit)).line.waiting = []) ∧
    (attemptOf 98).bitNow = some true ∧ 14 + 1 < 16 ∧ 16 ≤ 15 + 1 ∧
    (∀ f ∈ [withAsked (frameOf (.claim 1) (.side .L)) .remove 14, withAsked (frameOf (.sight ⟨7, 0, .notIssued, 0, false, false, []⟩) (.record 7))
        (.convert 2) 14, withAsked (frameOf (.sight ⟨7, 0, .notIssued, 0, false, false, [⟨.L, 0, 200, 1000⟩]⟩) (.record 7)) (.convert 2) 14],
      (now (losing base f)).Sends (attemptOf 98) [] f [] ∧ (now (losing base f)).line.waiting = []) ∧
    ((now (losing base (withAsked (frameOf (.join joinMsg) .noRecord) .none 15))).Sends (attemptOf 98) []
        (withAsked (frameOf (.join joinMsg) .noRecord) .none 15) [] ∧
      (now (losing joinOwner (withAsked (frameOf (.join joinMsg) (.record 7)) .none 15))).Sends (attemptOf 98) []
        (withAsked (frameOf (.join joinMsg) (.record 7)) .none 15) [] ∧
      (now (losing joinOwner (withAsked (frameOf (.join joinMsg) (.record 7)) .none 15))).record? 7 =
        some (recordIn (.joint 2 (some 5000)) [queuedSample]) ∧
      queuedSample = ⟨(now joinOwner).sys.station.toNat, queuedSample.side, queuedSample.coil, queuedSample.strength, queuedSample.time, .queued⟩ ∧
      (now joinOwner).line.waiting = []) ∧
    ∀ tag ∈ [9, 8], (now (queryIn tag)).Sends (attemptOf 98) [] (withAsked (frameOf (.query 30 tag 7) (.slot 2)) .none 15) [] ∧
      ((now (queryIn tag)).queries.slots.get 2).use = some ⟨7, 0, 9⟩ ∧ (now (queryIn tag)).line.waiting = [] := by
  unfold State.Sends; decide +kernel

def soleSight (takeover : Bool) (r : PendingRequest) : QFrame :=
  withAsked (frameOf (.sight ⟨7, 0, .notIssued, 0, takeover, false, [⟨.L, 0, 200, 1000⟩]⟩) (.record 7)) r 15
def droppedDecide (v : Verdict) (again : Bool) : QFrame := withAsked (frameOf (.decision ⟨7, ⟨v, .none, 1, none⟩, again⟩) (.record 7)) .none 15
/-- A frame alone in the queue is dropped, its owner in each of the states that the statement names. -/
theorem witness_ContentionLossCountsAndDrops_owners :
    (∀ p ∈ [(base.setClaim .L (claimIn .asking), withAsked (frameOf (.claim 1) (.side .L)) .none 15),
        (base.setClaim .L (claimIn (.resting .gap)), withAsked (frameOf (.release 1) (.side .L)) .none 15),
        (base.setClaim .L (claimIn (.resting .backOff)), withAsked (frameOf (.release 1) (.side .L)) .none 15),
        (withRecord base (recordIn (.sole false) [queuedSample]), soleSight false .none),
        (withRecord base (recordIn (.sole false) [queuedSample]), soleSight false .remove),
        (withRecord base (recordIn (.joint 2 none) [queuedSample]), soleSight true .none),
        (withRecord base (recordIn (.lead { fresh with final := some ⟨.alarm, .none, 1, none⟩ }) [queuedSample]), droppedDecide .alarm false),
        (withRecord base (recordIn (.lead { fresh with provMade := true }) [queuedSample]), droppedDecide .provisional false)],
      (now (losing p.1 p.2)).Sends (attemptOf 98) [] p.2 [] ∧ (now (losing p.1 p.2)).line.waiting = [] ∧
      (now (losing p.1 p.2)).sys.run = .running ∧ (now (losing p.1 p.2)).claims = p.1.claims ∧
      (now (losing p.1 p.2)).record? 7 = p.1.record? 7) ∧
    ((now base).lane .L = 1 ∧ (claimIn .asking).sent = false ∧ (claimIn (.resting .gap)).rest = none ∧ queuedSample.station = 1 ∧
      (now base).sys.station.toNat = 1) := by
  unfold State.Sends; decide +kernel

def claimSent (st : ClaimState) (p : Payload) : State := sending (base.setClaim .L (claimIn st)) (frameOf p (.side .L)) 0
theorem witness_CompletionsTellTheirOwners :
    (∀ st ∈ [ClaimState.asking, .free], (now (claimSent st (.claim 1))).Sends (attemptOf 0) [] (frameOf (.claim 1) (.side .L)) [] ∧
      (attemptOf 0).left = 0 ∧ (now (claimSent st (.claim 1))).claims.left.state = st) ∧
    (∀ st ∈ [ClaimState.resting .gap, .resting .backOff],
      (now (claimSent st (.release 1))).Sends (attemptOf 0) [] (frameOf (.release 1) (.side .L)) [] ∧
      (now (claimSent st (.release 1))).claims.left.rest = none ∧ (now (claimSent st (.release 1))).claims.left.state = st) ∧
    (∀ f ∈ [frameOf (.defer 1) (.side .L), frameOf (.query 30 9 7) (.slot 2), frameOf (.join joinMsg) .noRecord, frameOf (.join joinMsg) (.record 7)],
      (now (sending joinOwner f 0)).Sends (attemptOf 0) [] f [] ∧ (now (sending joinOwner f 0)).line.waiting = []) ∧
    ((now (sending joinOwner (frameOf (.join joinMsg) (.record 7)) 0)).record? 7 = some (recordIn (.joint 2 (some 5000)) [queuedSample]) ∧
      [queuedSample] = [] ++ queuedSample :: [] ∧ queuedSample.flag = .queued ∧ queuedSample.station = (now joinOwner).sys.station.toNat ∧
      joinMsg.samples = [⟨queuedSample.side, queuedSample.coil, queuedSample.strength, queuedSample.time⟩]) := by
  unfold State.Sends; decide +kernel

def idleFrame (p : Payload) (o : Owner) : QFrame := { frameOf p o with underTx := false }
def queryFrames (n : Nat) : List QFrame := (List.range n).map fun i => idleFrame (.query 30 i (BitVec.ofNat 40 (200 + i))) (.slot 0)
/-- A DEFER ends on the line, ahead of the frames `q`; the owners `w` wait. -/
def deferEnds (s : State) (q : List QFrame) (w : List WaitKey) : State :=
  ((s.setPhase (.sending (attemptOf 0))).setQueue (frameOf (.defer 1) (.side .L) :: q)).setWaiting w
def polled (f : QFrame) : State := heard (joinOwner.setQueue (queryFrames 5 ++ [f]))
theorem witness_FullQueueDisplacesAJoinAndAsksInOrder :
    (∀ f ∈ [idleFrame (.join joinMsg) .noRecord, idleFrame (.join joinMsg) (.record 7), idleFrame (.claim 1) (.side .L)],
      (now (polled f)).HearsDesk 16 990 ∧ (now (polled f)).report.request = .none ∧ ¬ (now (polled f)).NormalRoom ∧
      (now (polled f)).line.queue = queryFrames 5 ++ f :: [] ∧ (∀ g ∈ queryFrames 5, isJoin g = false) ∧
      (now (polled f)).line.waiting = [] ∧ (now (polled f)).record? 7 = some (recordIn (.joint 2 (some 5000)) [queuedSample])) ∧
    (isJoin (idleFrame (.claim 1) (.side .L)) = false ∧ (idleFrame (.join joinMsg) .noRecord).underTx = false) ∧
    (∀ p ∈ [([], [.claim .L, .release .L]), ([idleFrame (.defer 1) (.side .L)], [.defer .L, .release .L]),
        (queryFrames 5, [WaitKey.claim .L]), (queryFrames 6, [.report, .claim .L])],
      (now (deferEnds (base.setClaim .L (claimIn .asking)) p.1 p.2)).Sends (attemptOf 0) [] (frameOf (.defer 1) (.side .L)) p.1 ∧
      (now (deferEnds (base.setClaim .L (claimIn .asking)) p.1 p.2)).line.waiting = p.2 ∧
      (now (deferEnds (base.setClaim .L (claimIn .asking)) p.1 p.2)).claims.left = claimIn .asking) ∧
    ((now base).lane .L = 1 ∧ (WaitKey.claim .L).urgent = false ∧ (queryFrames 5).length < 8 ∧ normalCount (queryFrames 5) < 6 ∧
      6 ≤ normalCount (queryFrames 6) ∧ (now (deferEnds (base.setReport { base.report with request := .owed }) [] [])).report.request = .owed) := by
  unfold State.Sends State.HearsDesk State.NormalRoom; decide +kernel

def sightMsg (takeover : Bool) : SightMsg := ⟨7, 0, .notIssued, 0, takeover, false, [⟨.L, 0, 200, 1000⟩]⟩
def sightSending (st : RecState) (takeover : Bool) : State :=
  sending (withRecord base (recordIn st [sampled 1 .L 0 200 1000])) (frameOf (.sight (sightMsg takeover)) (.record 7)) 0
theorem witness_SightCompletionMakesTheLead :
    ((now (sightSending (.sole false) false)).Sends (attemptOf 0) [] (frameOf (.sight (sightMsg false)) (.record 7)) [] ∧
      (now (sightSending (.sole false) false)).record? 7 = some (recordIn (.sole false) [sampled 1 .L 0 200 1000]) ∧
      dwellOf (now (sightSending (.sole false) false)).time.clock [sampled 1 .L 0 200 1000] <
        (now (sightSending (.sole false) false)).sys.cfg.maxDwell) ∧
    ((now (sightSending (.joint 2 none) true)).Sends (attemptOf 0) [] (frameOf (.sight (sightMsg true)) (.record 7)) [] ∧
      (now (sightSending (.joint 2 none) true)).record? 7 = some (recordIn (.joint 2 none) [sampled 1 .L 0 200 1000])) := by
  unfold State.Sends; decide +kernel

def decideSending (v : Verdict) (l : Lead) : State :=
  sending (withRecord base (recordIn (.lead l) [sampled 1 .L 0 200 1000])) (frameOf (.decision ⟨7, decided v .none 1, false⟩) (.record 7)) 0
theorem witness_DecideCompletionClosesAndCounts : ∀ v ∈ [Verdict.clear, .alarm, .inbound, .linger, .provisional, .withdraw],
    (now (decideSending v fresh)).Sends (attemptOf 0) [] (frameOf (.decision ⟨7, decided v .none 1, false⟩) (.record 7)) [] ∧
    (now (decideSending v fresh)).lead? 7 = some (recordIn (.lead fresh) [sampled 1 .L 0 200 1000], fresh) ∧
    (now (decideSending v fresh)).sys.run = .running := by
  unfold State.Sends; decide +kernel

theorem witness_FramesAreStampedDiscardedOrIgnored :
    (now base).line.phase = .idle 50 ∧
    ((now (heard base)).line.phase = .receiving 990 ∧ (now (heard base)).sys.run = .running ∧
      checkRaw ⟨[85, 32, 0, 1, 1, 0, 0], false, false⟩ = none) ∧
    (sizeAllowed (.claimBody 1) = true ∧ kindCode (.claimBody 1) < 64 ∧ (now (heard base)).sys.cfg.n ≤ (3 : Address).toNat) ∧
    (¬ kindCode .clearHallBody < 64 ∧ sizeAllowed .clearHallBody = true ∧ (15 : Address).toNat < 16) ∧
    ((now (heard faulty)).line.phase = .receiving 990 ∧ (now (heard faulty)).sys.run = .configFault) ∧
    ((now (heard base)).HearsK16 2 990 ∧ (now (heard base)).HearsDesk 16 990 ∧ (2 : Byte).toNat ≠ (now (heard base)).sys.station.toNat ∧
      (2 : Byte) ≠ 255) := by
  unfold State.HearsK16 State.HearsDesk; decide +kernel

theorem witness_ReceivedBytesGiveBackTheFrame : sizeAllowed (.sightBody (sightOf 4)) = true ∧ sizeAllowed (.joinBody (joinOf 1)) = true ∧
    sizeAllowed (.issueBody (List.replicate 8 7)) = true := by decide

/-! ### Passage records -/

def heardWith (st : RecState) : State := heard (withRecord base (recordIn st [sampled 1 .L 0 200 1000]))
def withEntry (s : State) (x : Item) : State := s.setDirectory [⟨x, 2, 1000⟩]
def sightFrame (ps : List OwnSample) : QFrame := idleFrame (.sight ⟨7, 0, .notIssued, 0, false, false, ps⟩) (.record 7)
theorem witness_HeardSightNamesTheLead :
    ((now (heard base)).HearsK16 2 990 ∧ (sightOf 4).samples.length ≤ 4 ∧ (now (heard base)).record? (sightOf 4).item = none) ∧
    ((now (heardWith (.sole false))).HearsK16 2 990 ∧
      (now (heardWith (.sole false))).record? 7 = some (recordIn (.sole false) [sampled 1 .L 0 200 1000])) ∧
    ∀ ps ∈ [[], [(⟨.L, 0, 200, 1000⟩ : OwnSample)]],
      (now ((heardWith (.sole false)).setQueue [sightFrame ps])).HearsK16 2 990 ∧
      (now ((heardWith (.sole false)).setQueue [sightFrame ps])).line.queue = [] ++ sightFrame ps :: [] ∧
      (now ((heardWith (.sole false)).setQueue [sightFrame ps])).record? 7 = some (recordIn (.sole false) [sampled 1 .L 0 200 1000]) ∧
      (now ((heardWith (.sole false)).setQueue [sightFrame ps])).line.waiting = [] ∧ (sampled 1 .L 0 200 1000).flag ≠ .unsent := by
  unfold State.HearsK16; decide +kernel

def decidedLead : Lead := { fresh with final := some (decided .clear .issuedMark 1) }
theorem witness_HeardSightAtADecidingRecord : (sightOf 0).samples = [] ∧ { sightOf 0 with again := true }.again = true ∧
    { sightOf 1 with again := true }.samples = [wire] ∧
    (∀ st ∈ [RecState.lead fresh, .lead { fresh with provSent := true }, .joint 2 (some 5000), .closed (decided .clear .issuedMark 1) 900,
        .lead decidedLead],
      (now (heardWith st)).HearsK16 0 990 ∧ (now (heardWith st)).HearsK16 2 990 ∧
      (now (heardWith st)).record? 7 = some (recordIn st [sampled 1 .L 0 200 1000]) ∧ (now (heardWith st)).line.queue = [] ∧
      (now (heardWith st)).line.waiting = [] ∧ (now (heardWith st)).report.counters.samplesLost ≤ 65535) ∧
    ((0 : Address).toNat < (now (heardWith (.lead fresh))).sys.station.toNat ∧ fresh.provSent = false) ∧
    ((now (heardWith (.lead fresh))).sys.station.toNat ≤ (2 : Address).toNat ∧ decidedLead.final ≠ none ∧ decidedLead.stage = .openStage) ∧
    ∀ e ∈ [sampled 1 .L 0 200 1000], ¬ (e.station = (2 : Address).toNat ∧ e.side = wire.side ∧ e.coil = wire.coil ∧ e.strength = wire.strength) := by
  unfold State.HearsK16; decide +kernel

theorem witness_HeardJoinIsTakenByTheRecord : ((now (heard base)).HearsK16 0 990 ∧ 1 ≤ (joinOf 1).samples.length ∧ (joinOf 4).samples.length ≤ 4) ∧
    (now (heard base)).sys.cfg.n ≤ ({ joinOf 1 with lead := 3 }).lead.toNat ∧ (joinOf 1).lead.toNat = (2 : Address).toNat ∧
    ((joinOf 1).lead.toNat < (now (heard base)).sys.cfg.n ∧ (joinOf 1).lead.toNat ≠ (0 : Address).toNat ∧
      (now (heard base)).record? 7 = none ∧ ((now (heard base)).directory.filter fun e => e.item ≠ 7).length = (now (heard base)).directory.length) ∧
    ((now (withEntry (heard base) 7)).record? 7 = none ∧
      (now (withEntry (heard base) 7)).directory.find? (fun e => e.item == 7) = some ⟨7, 2, 1000⟩) ∧
    (∀ st ∈ [RecState.closed (decided .clear .issuedMark 1) 900, .sole false, .joint 2 none, .lead fresh, .lead decidedLead],
      (now (heardWith st)).HearsK16 0 990 ∧ (now (heardWith st)).HearsK16 2 990 ∧
      (now (heardWith st)).record? 7 = some (recordIn st [sampled 1 .L 0 200 1000]) ∧
      (now (heardWith st)).report.counters.samplesLost ≤ 65535) ∧
    (({ joinOf 1 with lead := 1 }).lead.toNat = (now (heard base)).sys.station.toNat ∧
      ({ joinOf 1 with lead := 0 }).lead.toNat < (now (heard base)).sys.station.toNat ∧
      (now (heard base)).sys.station.toNat < (joinOf 1).lead.toNat ∧ (joinOf 1).samples = [wire]) ∧
    ∀ e ∈ [sampled 1 .L 0 200 1000], ¬ (e.station = (0 : Address).toNat ∧ e.side = wire.side ∧ e.coil = wire.coil ∧ e.strength = wire.strength) := by
  unfold State.HearsK16; decide +kernel

theorem witness_HeardDecideClosesThePassage :
    ((now (heardWith (.joint 2 none))).HearsK16 2 990 ∧ (decideBody .alarm 1 255 false).verdict ∈ [Verdict.clear, .alarm, .inbound, .linger] ∧
      (now (heardWith (.joint 2 none))).record? 7 = some (recordIn (.joint 2 none) [sampled 1 .L 0 200 1000])) ∧
    (now (heardWith (.closed (decided .clear .none 1) 900))).record? 7 =
      some (recordIn (.closed (decided .clear .none 1) 900) [sampled 1 .L 0 200 1000]) ∧
    ((now (withEntry (heard base) 7)).HearsK16 2 990 ∧ (now (withEntry (heard base) 7)).record? 7 = none) ∧
    (now (withEntry (heard base) 7)).directory.find? (fun e => e.item == 7) = some ⟨7, 2, 1000⟩ ∧
    (∀ v ∈ [Verdict.provisional, .withdraw], (decideBody v 1 255 false).verdict ∈ [Verdict.provisional, .withdraw]) ∧
    (now (heardWith (.joint 2 none))).directory.find? (fun e => e.item == 7) = none := by
  unfold State.HearsK16; decide +kernel

def recordAt (st : RecState) (created : Clock) : State := withRecord base { recordIn st [sampled 1 .L 0 200 1000] with created := created }
theorem witness_PassageExpiriesFreeOrTakeOver :
    ((now (base.setDirectory [⟨7, 2, 1000 - 5560⟩])).directory.find? (fun e => e.item == 7) = some ⟨7, 2, 1000 - 5560⟩ ∧
      (now base).sys.cfg.maxDwell + 2560 ≤ ((now base).time.clock - (1000 - 5560)).toNat) ∧
    ((now (recordAt (.closed (decided .clear .none 1) (1000 - 2000)) 0)).record? 7 = some
        { recordIn (.closed (decided .clear .none 1) (1000 - 2000)) [sampled 1 .L 0 200 1000] with created := 0 } ∧
      (now base).sys.cfg.closeHold ≤ ((now base).time.clock - (1000 - 2000)).toNat) ∧
    ((now (recordAt (.sole true) (1000 - 5560))).record? 7 = some
        { recordIn (.sole true) [sampled 1 .L 0 200 1000] with created := 1000 - 5560 } ∧
      (now (recordAt (.sole true) (1000 - 5560))).sys.run = .running ∧ (now (recordAt (.sole true) (1000 - 5560))).line.queue = [] ∧
      (now (recordAt (.sole true) (1000 - 5560))).line.waiting = []) ∧
    ((now (recordAt (.joint 2 (some 0)) 1000)).record? 7 = some (recordIn (.joint 2 (some 0)) [sampled 1 .L 0 200 1000]) ∧
      (now (recordAt (.joint 2 (some 0)) 1000)).NormalRoom ∧ (now (recordAt (.joint 2 (some 0)) 1000)).line.queue = []) ∧
    ((now (sending (recordAt (.sole false) (1000 - 5560)) (frameOf (.sight (sightMsg false)) (.record 7)) 50)).Sends (attemptOf 50) []
        (frameOf (.sight (sightMsg false)) (.record 7)) [] ∧
      (now (sending (recordAt (.sole false) (1000 - 5560)) (frameOf (.sight (sightMsg false)) (.record 7)) 50)).record? 7 =
        some { recordIn (.sole false) [sampled 1 .L 0 200 1000] with created := 1000 - 5560 }) := by
  unfold State.NormalRoom State.Sends; decide +kernel

/-! ### Estimation -/

theorem witness_LanesAAndBHaveTheGreatestScores :
    2 ≤ row3.n ∧ (estimate row3 1360 workedList).signal = true ∧ (estimate { row3 with n := 4 } 700 ambiguousList).signal = true ∧
      workedList.length ≤ 16 ∧ (estimate row3 700 [sampled 1 .R 0 24 500]).signal = false := by
  decide +kernel
theorem witness_OriginIsTheOldestSample : workedList ≠ [] := by decide
theorem witness_CentroidRoundsTheWeightedMeanHalfUp : 0 < totalWeight 24 workedList ∧
    (0 < (sampled 1 .R 0 174 1000).weight 24 ∧ ∀ q ∈ [sampled 1 .R 0 174 1000, sampled 1 .R 1 24 1010],
      0 < q.weight 24 → q = sampled 1 .R 0 174 1000) := by decide
theorem witness_DirectionComparesTheCentroids :
    ((estimate row3 1360 workedList).signal = true ∧ originOf 1360 workedList = some 1000 ∧ 1 ≤ row3.threshold ∧
      0 < totalWeight row3.noiseFloor (workedList.filter fun p => p.lane = 2 ∧ (p.coil = 0 ∨ p.coil = 1)) ∧
      0 < totalWeight row3.noiseFloor (workedList.filter fun p => p.lane = 2 ∧ (p.coil = 2 ∨ p.coil = 3))) ∧
    ((estimate row3 1360 [sampled 1 .R 0 174 1000]).signal = true ∧ originOf 1360 [sampled 1 .R 0 174 1000] = some 1000 ∧
      totalWeight row3.noiseFloor ([sampled 1 .R 0 174 1000].filter fun p => p.lane = 2 ∧ (p.coil = 2 ∨ p.coil = 3)) = 0) := by
  decide +kernel

/-! ### Issue status -/

/-- Station 1's LEAD record of item 7, in state `l`, with the samples of the worked case; code 1 is a reference class. -/
def leadState (l : Lead) (code : Byte) (mark : IssueMark) (clock : Clock) : State :=
  withRecord { base with
      sys := { base.sys with cfg := { base.sys.cfg with classes := base.sys.cfg.classes.set 1 { asking 0 .fine with kind := .reference } } }
      time := { base.time with clock := clock } }
    { recordIn (.lead l) workedList with code := code, mark := mark }
def provisionalLead : Lead := { fresh with stage := .provisional, provMade := true, provLanes := some (2, none) }
def heldLead (left : Nat) (slot : Option (BitVec 2)) : Lead :=
  { fresh with stage := .held 1 none (asking 100 .coarse) left, slot := slot, quiet := none }
def slotTwo : Queries := { Queries.reset with slots := Queries.reset.slots.set 2 ⟨1, some ⟨7, 0, 9⟩⟩ }
theorem witness_NoticesEnterTheCacheAndAreTold :
    ((now (heard base)).HearsDesk 16 990 ∧ 1 ≤ [(7 : Item)].length ∧ (List.replicate 8 (7 : Item)).length ≤ 8 ∧
      (now (heard base)).cache.length ≤ 512 ∧ (now (heard base)).lead? 7 = none) ∧
    (∀ l ∈ [fresh, heldLead 5000 none, heldLead 5000 (some 2), provisionalLead], ∀ code ∈ [0, 1], ∀ mark ∈ [IssueMark.notIssued, .issued],
      (now (heard { leadState l code mark 1360 with queries := slotTwo })).HearsDesk 16 990 ∧
      (now (heard { leadState l code mark 1360 with queries := slotTwo })).lead? 7 =
        some ({ recordIn (.lead l) workedList with code := code, mark := mark }, l) ∧
      (now (heard { leadState l code mark 1360 with queries := slotTwo })).queries = slotTwo ∧ slotTwo.slots.get 2 = ⟨1, some ⟨7, 0, 9⟩⟩) ∧
    (provisionalLead.final = none ∧ provisionalLead.provLanes = some (2, none)) ∧
    (resultChecks (now (leadState fresh 0 .issued 1360)).sys.cfg 0 0 0 (estimate (now (leadState fresh 0 .issued 1360)).sys.cfg 1360 workedList) =
        .toIssue (asking 100 .coarse) ∧
      resultChecks (now (leadState fresh 1 .issued 1360)).sys.cfg 0 1 0 (estimate (now (leadState fresh 1 .issued 1360)).sys.cfg 1360 workedList) =
        .decided ⟨.alarm, .reference, 2, none⟩) := by
  unfold State.HearsDesk; decide +kernel

def tickDue : State := { base with time := { base.time with secondTimer := some 0 }, cache := [⟨7, .issued, 7199⟩, ⟨8, .returned, 0⟩] }
theorem witness_SecondsTickAgesAndExpiresNotices :
    ((now tickDue).cache.Pairwise fun e f => f.age ≤ e.age) ∧ (now tickDue).time.secondTimer = some 0 := by decide +kernel

/-- The record of item 7 is HELD and served by slot 2, whose sequence number is 1. -/
def askingState (left : Nat) (mark : IssueMark) (cache : List Notice) : State :=
  { withRecord base { recordIn (.lead (heldLead left (some 2))) [sampled 1 .L 0 200 1000] with mark := mark } with
    queries := slotTwo, cache := cache }
def answerBody (st : AnswerStatus) (error : Bool) : AnswerBody := ⟨1, 9, 7, st, error⟩
theorem witness_MatchingAnswerSettlesTheHeldRecord :
    (∀ mark ∈ [IssueMark.notIssued, .issued], ∀ c ∈ [[], [⟨7, .returned, 3⟩]],
      (now (heard (askingState 5000 mark c))).HearsDesk 16 990 ∧ (now (heard (askingState 5000 mark c))).queries.wait = [] ∧
      (now (heard (askingState 5000 mark c))).queries.slots.get 2 = ⟨1, some ⟨7, 0, 9⟩⟩ ∧
      (now (heard (askingState 5000 mark c))).lead? 7 = some
        ({ recordIn (.lead (heldLead 5000 (some 2))) [sampled 1 .L 0 200 1000] with mark := mark }, heldLead 5000 (some 2)) ∧
      ((now (heard (askingState 5000 mark c))).cache.find? fun n => n.item == 7) = c.head?) ∧
    (answerBody .issued false).receiver.toNat = (now (heard base)).sys.station.toNat ∧ (answerBody .issued false).tag.toNat < 16 ∧
    (2 : BitVec 2) = BitVec.ofNat 2 ((answerBody .issued false).tag.toNat / 4) := by
  unfold State.HearsDesk; decide +kernel

theorem witness_AnswersThatMatchNoSlotAreDiscarded : (now (heard base)).HearsDesk 16 990 ∧
    (answerBody .issued false).receiver.toNat = (now (heard base)).sys.station.toNat ∧ 16 ≤ ({ answerBody .issued false with tag := 16 }).tag.toNat ∧
    ((now (heard base)).queries.slots.get (BitVec.ofNat 2 ((answerBody .issued false).tag.toNat / 4))).use = none ∧
    ((now (heard (askingState 5000 .notIssued []))).HearsDesk 16 990 ∧
      ((now (heard (askingState 5000 .notIssued []))).queries.slots.get (BitVec.ofNat 2 (8 / 4))).use = some ⟨7, 0, 9⟩ ∧ 9 ≠ 8) := by
  unfold State.HearsDesk; decide +kernel

/-! ### Verdicts -/

def undecidedState (code : Byte) (clock : Clock) : State :=
  withRecord { base with time := { base.time with clock := clock } }
    { recordIn (.lead { fresh with quiet := some 0 }) workedList with code := code }
/-- The class checks meet every case of their table: the class entries, hall levels and tag levels of each line. -/
theorem witness_ChecksAndIssueStatusFollowTheirTables :
    (16 ≤ 30 ∧ 30 ≤ 30) ∧ (estimate row3 700 []).signal = false ∧
    ((estimate row3 1360 workedList).signal = true ∧ (estimate row3 1360 workedList).direction = .outbound ∧
      row3.classLimit ≤ (4 : Byte).toNat ∧ (3 : Byte).toNat < row3.classLimit ∧ row3.classes[3]? = some ClassEntry.absent ∧
      ClassEntry.absent.present = false) ∧
    ((asking 0 .fine).present = true ∧ { asking 0 .fine with kind := .restricted, level := 1 }.level.toNat < (2 : BitVec 2).toNat ∧
      (2 : BitVec 2).toNat ≤ { asking 0 .fine with kind := .openClass, level := 2 }.level.toNat) := by decide +kernel

/-- The record of `undecidedState` with a mark and a cache, at a registry address, in a class of a hold value and an unknown policy. -/
def issueState (mark : IssueMark) (cache : List Notice) (registry : Nat) (hold : Byte) : State :=
  withRecord { undecidedState 0 4000 with
      cache := cache
      sys := { base.sys with cfg := { row3 with registry := registry, classes := List.replicate 32 (asking hold .fine) } } }
    { recordIn (.lead { fresh with quiet := some 0 }) workedList with mark := mark }
def waitsForASlot (n : Nat) : State :=
  { undecidedState 0 4000 with
    queries := { Queries.reset with slots := ⟨⟨0, some ⟨9, 1, 0⟩⟩, ⟨3, if n = 4 then some ⟨10, 2, 7⟩ else none⟩,
      ⟨1, some ⟨11, 3, 9⟩⟩, ⟨0, some ⟨12, 4, 12⟩⟩⟩ } }
theorem witness_FinalEvaluationDecidesOrHolds :
    (∀ code ∈ [0, 4], (now (undecidedState code 4000)).lead? 7 = some
        ({ recordIn (.lead { fresh with quiet := some 0 }) workedList with code := code }, { fresh with quiet := some 0 }) ∧
      (now (undecidedState code 4000)).sys.cfg.maxDwell ≤ dwellOf (now (undecidedState code 4000)).time.clock workedList) ∧
    resultChecks (now (undecidedState 4 4000)).sys.cfg (now (undecidedState 4 4000)).hall.level 4 0
      (estimate (now (undecidedState 4 4000)).sys.cfg 4000 workedList) = .decided ⟨.alarm, .classUnknown, 2, none⟩ ∧
    (∀ p ∈ [(IssueMark.issued, [], 30, (0 : Byte), IssueStatus.byMark), (.notIssued, [⟨7, .issued, 3⟩], 30, 0, .byNotice),
        (.notIssued, [], 31, 0, .unissued), (.issued, [⟨7, .returned, 3⟩], 30, 0, .returned), (.notIssued, [], 30, 0, .ask),
        (.notIssued, [], 30, 100, .ask)],
      (now (issueState p.1 p.2.1 p.2.2.1 p.2.2.2.1)).lead? 7 =
        some ({ recordIn (.lead { fresh with quiet := some 0 }) workedList with mark := p.1 }, { fresh with quiet := some 0 }) ∧
      resultChecks (now (issueState p.1 p.2.1 p.2.2.1 p.2.2.2.1)).sys.cfg 0 0 0
        (estimate (now (issueState p.1 p.2.1 p.2.2.1 p.2.2.2.1)).sys.cfg 4000 workedList) = .toIssue (asking p.2.2.2.1 .fine) ∧
      issueStatus p.1 (((now (issueState p.1 p.2.1 p.2.2.1 p.2.2.2.1)).cache.find? fun n => n.item == 7).map Notice.status)
        (now (issueState p.1 p.2.1 p.2.2.1 p.2.2.2.1)).sys.cfg.registry = p.2.2.2.2) ∧
    (∀ n ∈ [3, 4], (now (waitsForASlot n)).table[0]? =
        some (some { recordIn (.lead { fresh with quiet := some 0 }) workedList with code := 0 }) ∧ (7 : Item) ∉ (now (waitsForASlot n)).queries.wait) ∧
    (((now (waitsForASlot 3)).queries.slots.get 1) = ⟨3, none⟩ ∧ ((now (waitsForASlot 3)).queries.slots.get 0).use ≠ none ∧
      ∀ j, ((now (waitsForASlot 4)).queries.slots.get j).use ≠ none) ∧
    ((now (askingState 5000 .notIssued [])).lead? 7 = some
      (recordIn (.lead (heldLead 5000 (some 2))) [sampled 1 .L 0 200 1000], heldLead 5000 (some 2))) := by decide +kernel

/-- A heard JOIN's sample of strength 150 at side L, coil `k`, taken `age` ms before its stamp. -/
def joined (k : CoilNumber) (age : BitVec 12) : JoinBody := ⟨7, 1, [⟨150, .L, k, age⟩]⟩
def joinedSample (k : CoilNumber) (t : Clock) : Sample := sampled 2 .L k 150 t
/-- The record of `leadState`, in a row whose classes may ask for a provisional alarm. -/
def provisionalState (l : Lead) (code : Byte) (registry : Nat) (clock : Clock) (enable : Bool) : State :=
  withRecord { base with
      sys := { base.sys with cfg := { row3 with
        registry := registry, classes := (List.replicate 32 { asking 100 .coarse with provisionalEnable := enable }).set 1
          { asking 0 .fine with kind := .reference, provisionalEnable := enable } } }
      time := { base.time with clock := clock } }
    { recordIn (.lead l) workedList with code := code }
/-- In each line: the LEAD fields, code, registry address, whether the class may ask for a provisional alarm, and what the checks give. -/
theorem witness_SampleAtALeadIsJudged :
    (∀ p ∈ [(fresh, (0 : Byte), 31, true, Checked.toIssue { asking 100 .coarse with provisionalEnable := true }, IssueStatus.unissued),
        (fresh, 1, 30, true, .decided ⟨.alarm, .reference, 2, none⟩, .ask), (provisionalLead, 0, 31, true,
          .toIssue { asking 100 .coarse with provisionalEnable := true }, .unissued),
        (fresh, 0, 31, false, .toIssue { asking 100 .coarse with provisionalEnable := false }, .unissued),
        (fresh, 0, 30, true, .toIssue { asking 100 .coarse with provisionalEnable := true }, .ask),
        (heldLead 5000 (some 2), 0, 30, true, .toIssue { asking 100 .coarse with provisionalEnable := true }, .ask),
        (heldLead 5000 (some 2), 0, 31, true, .toIssue { asking 100 .coarse with provisionalEnable := true }, .unissued)],
      (now (heard (provisionalState p.1 p.2.1 p.2.2.1 1360 p.2.2.2.1))).lead? 7 =
        some ({ recordIn (.lead p.1) workedList with code := p.2.1 }, p.1) ∧
      (now (heard (provisionalState p.1 p.2.1 p.2.2.1 1360 p.2.2.2.1))).HearsK16 2 990 ∧
      resultChecks (now (heard (provisionalState p.1 p.2.1 p.2.2.1 1360 p.2.2.2.1))).sys.cfg 0 p.2.1 0
        (estimate (now (heard (provisionalState p.1 p.2.1 p.2.2.1 1360 p.2.2.2.1))).sys.cfg 1360 (workedList ++ [joinedSample 3 980])) =
        p.2.2.2.2.1 ∧
      issueStatus .notIssued (((now (heard (provisionalState p.1 p.2.1 p.2.2.1 1360 p.2.2.2.1))).cache.find? fun n => n.item == 7).map
        Notice.status) p.2.2.1 = p.2.2.2.2.2) ∧
    ((joined 3 10).lead.toNat = (now base).sys.station.toNat ∧ (now base).sys.station.toNat < (now base).sys.cfg.n ∧
      workedList.length < 16 ∧ (now base).report.counters.samplesLost ≤ 65535 ∧ (990 : Clock) - (10 : BitVec 12).setWidth 16 = 980 ∧
      ∀ q ∈ workedList, ¬ (q.station = (2 : Address).toNat ∧ q.side = .L ∧ q.coil = 3 ∧ q.strength = 150)) ∧
    (dwellOf 1360 (workedList ++ [joinedSample 3 980]) < row3.maxDwell ∧ dwellOf 1360 workedList < row3.maxDwell) ∧
    ((now (heard (provisionalState fresh 0 30 3999 true))).HearsK16 2 990 ∧ (now (provisionalState fresh 0 30 3999 true)).sys.cfg.maxDwell = 3000 ∧
      dwellOf 3999 workedList < 3000 ∧ 3000 ≤ dwellOf 3999 (workedList ++ [joinedSample 3 980])) := by
  unfold State.HearsK16; decide +kernel

/-- The record of item 8 waits for a slot behind the HELD record of item 7. -/
def handedOver : State :=
  { withRecord base (recordIn (.lead (heldLead 0 (some 2))) [sampled 1 .L 0 200 1000]) with
    table := some (recordIn (.lead (heldLead 0 (some 2))) []) :: some { recordIn (.lead (heldLead 700 none)) [] with item := 8 } :: List.replicate 46 none
    queries := { slotTwo with wait := [8] } }
theorem witness_HoldExpiryAppliesTheUnknownPolicy :
    ((now (askingState 0 .notIssued [])).lead? 7 = some
        (recordIn (.lead (heldLead 0 (some 2))) [sampled 1 .L 0 200 1000], heldLead 0 (some 2)) ∧
      (now (askingState 0 .notIssued [])).sys.run = .running ∧ (heldLead 0 (some 2)).slot = some 2 ∧
      (now (askingState 0 .notIssued [])).queries.slots.get 2 = ⟨1, some ⟨7, 0, 9⟩⟩ ∧ (now (askingState 0 .notIssued [])).queries.wait = []) ∧
    ((now (recordAt (.lead (heldLead 0 none)) 1000)).lead? 7 =
      some (recordIn (.lead (heldLead 0 none)) [sampled 1 .L 0 200 1000], heldLead 0 none)) ∧
    ((now handedOver).lead? 7 = some (recordIn (.lead (heldLead 0 (some 2))) [], heldLead 0 (some 2)) ∧
      (now handedOver).queries.wait = 8 :: [] ∧ (now handedOver).queries.slots.get 2 = ⟨1, some ⟨7, 0, 9⟩⟩ ∧
      (now handedOver).lead? 8 = some ({ recordIn (.lead (heldLead 700 none)) [] with item := 8 }, heldLead 700 none) ∧
      (now handedOver).table[1]? = some (some { recordIn (.lead (heldLead 700 none)) [] with item := 8 }) ∧
      ((now handedOver).table[0]?.map fun e => e.map Record.item) = some (some 7)) := by decide +kernel

/-! ### Lamps, sounder, reports, Hall Clear -/

def lampIn (st : LampState) (hs : List Holder) : State := base.setLamp .L { state := st, holders := hs }
def soundIn (st : SounderState) (repeats : Nat) (again : Bool) : State := base.setSounder ⟨st, repeats, again⟩
theorem witness_DecideActsOnLampsAndSounder :
    (∀ s ∈ [base, lampIn (.flashing true 1000) [⟨7, 900⟩], lampIn (.steady 1000) [⟨1, 9⟩, ⟨2, 9⟩, ⟨3, 9⟩, ⟨4, 9⟩], soundIn (.on 1000) 4 false],
      (now (heard s)).HearsK16 2 990 ∧
      (∀ v ∈ [Verdict.provisional, .alarm, .clear], (now (sending s (decideFrame v 1 false) 0)).Sends (attemptOf 0) [] (decideFrame v 1 false) [] ∧
        (now (sending s (decideFrame v 1 false) 0)).sys.run = .running) ∧
      (∀ sd ∈ [Side.L, .R], fitted (now (heard s)).sys.cfg sd = true) ∧ (now (heard s)).lane .L = 1 ∧ (now (heard s)).lane .R = 2) ∧
    ((decideBody .provisional 1 255 false).laneB = 255 ∧ (decideBody .alarm 3 2 false).laneB.toNat = 2 ∧
      (decideBody .alarm 2 255 true).again = true ∧ 1 ≠ (decideBody .alarm 3 255 false).laneA.toNat ∧
      2 ≠ (decideBody .alarm 3 255 false).laneA.toNat) := by
  unfold State.HearsK16 State.Sends; decide +kernel

theorem witness_LampAndCadenceTimersExpire :
    (now (lampIn (.steady 0) [])).lamps.left.state = .steady 0 ∧ (now (lampIn (.flashing true 0) [⟨7, 900⟩])).lamps.left.state = .flashing true 0 ∧
    ((⟨7, 0⟩ : Holder) ∈ (now (lampIn (.flashing true 9) [⟨7, 0⟩])).lamps.left.holders ∧
      (now (lampIn (.flashing true 9) [⟨7, 0⟩])).lamps.left.state = .flashing true 9) ∧
    ((⟨7, 0⟩ : Holder) ∈ (now (lampIn (.steady 9) [⟨7, 0⟩, ⟨8, 5⟩])).lamps.left.holders ∧
      (now (lampIn (.steady 9) [⟨7, 0⟩, ⟨8, 5⟩])).lamps.left.state = .steady 9) ∧
    (now (soundIn (.on 0) 4 false)).sounder.state = .on 0 ∧
    ((now (soundIn (.off 0) 2 false)).sounder.state = .off 0 ∧ 1 < (now (soundIn (.off 0) 2 false)).sounder.repeats) ∧
    ((now (soundIn (.off 0) 1 true)).sounder.state = .off 0 ∧ (now (soundIn (.off 0) 1 true)).sounder.repeats ≤ 1) ∧
    ((now (soundIn (.off 0) 1 false)).sounder.state = .off 0 ∧ (now (soundIn (.off 0) 1 false)).sounder.again = false) := by decide +kernel

theorem witness_PollDrawsOneReport :
    (∀ s ∈ [base, faulty], (now (heard s)).line.phase = .receiving 990 ∧
      ((now (heard s)).sys.run = .running ∨ (now (heard s)).sys.run = .configFault) ∧ 16 ≤ (16 : Address).toNat ∧
      (1 : Byte).toNat = (now (heard s)).sys.station.toNat ∧ (now (heard s)).report.request = .none ∧ (now (heard s)).NormalRoom) ∧
    (now (heard (base.setReport { base.report with request := .owed }))).report.request ≠ .none ∧
    ((now base).sys.run = .running ∧ (now faulty).sys.run = .configFault) ∧
    ((now (sending base (frameOf .report .reportUnit) 0)).Sends (attemptOf 0) [] (frameOf .report .reportUnit) [] ∧
      (now (sending base (frameOf .report .reportUnit) 0)).line.waiting = []) := by
  unfold State.Sends State.NormalRoom; decide +kernel

theorem witness_ClearHallEmptiesEveryBlock : (now (heard liveAt)).HearsDesk 31 990 ∧ fitted (now (heard liveAt)).sys.cfg .L = true ∧
    ((now (heard liveAt)).coil .L 0).state = .live := by
  unfold State.HearsDesk; decide +kernel

/-! ### Invariants: a state other than reset meets them, and steps on -/

def polledNow : State := { heard liveAt with pending := [.heardPoll 0 16 ⟨1, false⟩] }
theorem bothSides {P : Side → Prop} (l : P .L) (r : P .R) : ∀ sd, P sd := fun sd => by cases sd <;> assumption
/-- Side L, HOLDING, has its DEFER queued. -/
def deferring : State := deferIn { holding 9000 with deferredPartner := true }
theorem witness_EveryStepKeepsTheQueueSound : deferring.QueueSound ∧ deferring.StillUnlessRunning ∧ deferring.ClaimFramesSound := by
  refine ⟨by unfold State.QueueSound; decide +kernel, ⟨fun h => absurd rfl h, fun h => absurd rfl h⟩, bothSides ?_ ?_⟩ <;>
    (repeat' apply And.intro) <;>
    first
    | decide +kernel
    | unfold State.releaseOut; decide +kernel
    | exact fun h => absurd h (by unfold State.releaseOut; decide +kernel)
/-- The lead of `handedOver` is of item 7 or of item 8. -/
theorem handedOver_lead {x : Item} {p : Record × Lead} (h : handedOver.lead? x = some p) :
    x = 7 ∧ p.2 = heldLead 0 (some 2) ∨ x = 8 ∧ p.2 = heldLead 700 none := by
  by_cases h7 : x = 7
  · subst h7; exact .inl ⟨rfl, (congrArg Prod.snd (Option.some.inj h)).symm⟩
  · by_cases h8 : x = 8
    · subst h8; exact .inr ⟨rfl, (congrArg Prod.snd (Option.some.inj h)).symm⟩
    · have none : handedOver.record? x = none := by
        have e : ∀ n, findRecord x (List.replicate n none) = none := fun n => by
          induction n with
          | zero => rfl
          | succ n ih => exact ih
        simp only [State.record?, handedOver, findRecord, recordIn, e]
        rw [if_neg (fun h => h7 h.symm), if_neg (fun h => h8 h.symm)]
      simp [State.lead?, none] at h
theorem witness_EveryStepKeepsTheQuerySlotsSound :
    handedOver.QueueSound ∧ handedOver.ItemsApart ∧ handedOver.DecisionsKept ∧ handedOver.QuerySlotsSound := by
  refine ⟨by unfold State.QueueSound; decide +kernel, ⟨by decide +kernel, by decide, by decide, fun _ h => nomatch h⟩,
    ⟨fun x r l h => ?_, fun _ h => nomatch h⟩, fun k u h => ?_, fun x r l k h hk => ?_, by decide +kernel, fun x h => ?_⟩
  · rcases handedOver_lead h with ⟨-, e⟩ | ⟨-, e⟩ <;> obtain rfl : l = _ := e <;>
      exact ⟨fun h => absurd rfl h, fun d h => nomatch h⟩
  · have hk : k = 2 := by revert k u h; decide +kernel
    subst hk
    obtain rfl : (⟨7, 0, 9⟩ : SlotUse) = u := Option.some.inj h
    exact ⟨by decide, _, _, _, _, _, _, rfl, rfl, rfl, by decide +kernel⟩
  · rcases handedOver_lead h with ⟨rfl, e⟩ | ⟨-, e⟩ <;> obtain rfl : l = _ := e
    · obtain rfl : (2 : BitVec 2) = k := Option.some.inj hk
      exact ⟨⟨7, 0, 9⟩, by decide, rfl⟩
    · exact nomatch hk
  · obtain rfl : x = 8 := by simpa [handedOver] using h
    exact ⟨_, _, _, _, _, _, rfl, rfl, rfl⟩
theorem witness_EveryStepKeepsTheTableSound : (recordAt (.sole true) 900).TableBounded ∧ (recordAt (.sole true) 900).ItemsApart := by
  refine ⟨⟨by decide +kernel, ?_⟩, ?_⟩
  · have h : ∀ r ∈ (recordAt (.sole true) 900).table.filterMap id, r.samples.length ≤ listSize := by decide +kernel
    exact fun r hr => h r (List.mem_filterMap.mpr ⟨_, hr, rfl⟩)
  · exact ⟨by decide +kernel, by decide, by decide, fun _ h => nomatch h⟩
theorem witness_EveryStepKeepsTheCacheSound : tickDue.CacheSound := by unfold State.CacheSound; decide +kernel
theorem witness_EveryStepKeepsCountersAndLampsSound :
    polledNow.CountersBounded ∧ (lampIn (.flashing true 9) [⟨7, 4⟩]).LampsSound := by
  refine ⟨fun k => by cases k <;> decide +kernel, ?_⟩
  exact ⟨⟨by decide +kernel, by decide +kernel, by intro h; cases h⟩, by decide +kernel, by decide +kernel, rfl⟩
theorem witness_EveryStepKeepsTheFieldsGuarded : polledNow.StillUnlessRunning ∧ polledNow.FieldsGuarded := by
  refine ⟨⟨fun h => absurd rfl h, fun h => absurd rfl h⟩, fun sd => ?_⟩
  unfold CoilUnit.Sound
  cases sd
  · refine ⟨⟨by decide +kernel, by decide +kernel, by decide +kernel, ?_⟩, by decide +kernel⟩
    intro e h
    obtain rfl : e = 40000 := (Option.some.inj h).symm
    decide
  · exact ⟨⟨by decide +kernel, by decide +kernel, by decide +kernel, fun e h => nomatch h⟩, by decide +kernel⟩
theorem witness_EveryStepKeepsTheStationStillUnlessRunning : (heard faulty).StillUnlessRunning ∧ (heard faulty).sys.run ≠ .running := by
  refine ⟨⟨fun h => absurd rfl h, fun _ => ⟨rfl, rfl, rfl, fun sd => ?_, ?_⟩⟩, by decide⟩
  · cases sd <;> exact ⟨by decide +kernel, rfl, rfl, rfl, rfl, rfl, rfl⟩
  · exact ⟨by decide +kernel, rfl, rfl, rfl, rfl, rfl, rfl, by decide +kernel, by decide +kernel⟩

end Sys2Proof.Tests
end

section
/-! PROOFS. Start-up (chapter 1): how the 98 bytes of a completed read decide the run state (R9, R12). -/

namespace Sys2Proof.Machine

/-! ### The sum of R9 and the checks of R12 -/

/-- The comparison of R9 in the image's own bytes. -/
theorem imageSum_eq_imageCheck_iff (image : List Byte) : imageSum image = imageCheck image ↔
    ((image.take 96).map BitVec.toNat).sum % 65536 = (image.getD 96 0).toNat * 256 + (image.getD 97 0).toNat := Iff.rfl

theorem checksPass_iff (c : Config) (station : StationNumber) : checksPass c station = true ↔
    2 ≤ c.n ∧ c.n ≤ 16 ∧ station.toNat < c.n ∧ c.driveMin < c.driveMax := by
  simp only [checksPass, Bool.and_eq_true, decide_eq_true_eq, and_assoc]

/-- The bytes 0 to 95 of an erased memory add up to 96 times 255, which needs no reduction. -/
theorem erased_sum : ((List.replicate 96 (255 : Byte)).map BitVec.toNat).sum % 65536 = 24480 := by
  rw [List.map_replicate, List.sum_replicate]; decide

theorem imageSum_erased : imageSum (List.replicate 98 255) = 24480 := by
  rw [imageSum, List.take_replicate]; exact erased_sum

theorem imageCheck_erased : imageCheck (List.replicate 98 255) = 65535 := by decide

/-! ### A read that completes -/

section
variable {v : State} {image : List Byte}

theorem readCompletes_of_reading {n : Nat} (hp : v.sys.phase = .reading n) (hl : image.length = 98) :
    v.readCompletes image = v.takeImage image := by
  simp only [State.readCompletes, hp]; exact if_pos hl

theorem takeImage_of_wrong_sum (h : imageSum image ≠ imageCheck image) : v.takeImage image = v.enterFault := if_neg h

theorem takeImage_of_right_sum (h : imageSum image = imageCheck image) : v.takeImage image =
    if checksPass (configFrom image) v.sys.station then v.enterRunning (configFrom image)
    else ({ v with sys := { v.sys with cfg := configFrom image } }).enterFault := if_pos h

/-- Entry to RUNNING sets the run state, the phase and the values in force; the sweeps it starts touch none of them. -/
theorem enterRunning_sys (v : State) (c : Config) :
    (v.enterRunning c).sys = { run := .running, phase := .ended, station := v.sys.station, cfg := c } := by
  unfold State.enterRunning
  rw [(startSide_onlySide _ .R).sys, (startSide_onlySide _ .L).sys]

end

/-- Settles O6: the sum decides whether the values are taken, the checks of R12 then decide between CONFIG FAULT and RUNNING, and the
erased memory is an image with a wrong sum. -/
theorem imageSumDecidesTheRead : Obligations.ImageSumDecidesTheRead := by
  rintro s v a n image rfl hp
  have run {bytes : List Byte} (hl : bytes.length = 98) :
      exec (.readAttemptComplete a bytes) s = .next ((s.advance a).takeImage bytes) := by
    rw [exec_readAttemptComplete, readCompletes_of_reading hp hl]
  refine ⟨fun hl hsum => ?wrong, fun hl hsum c hc => ?right, erased_sum, ?erased⟩
  case wrong => rw [run hl, takeImage_of_wrong_sum (mt (imageSum_eq_imageCheck_iff image).1 hsum)]; rfl
  case right =>
    subst hc
    rw [run hl, takeImage_of_right_sum ((imageSum_eq_imageCheck_iff image).2 hsum)]
    constructor
    · intro unsound
      rw [if_neg (mt (checksPass_iff _ _).1 unsound)]; rfl
    · intro two sixteen station drive
      rw [if_pos ((checksPass_iff _ _).2 ⟨two, sixteen, station, drive⟩)]
      exact ⟨_, rfl, enterRunning_sys _ _⟩
  case erased =>
    have wrong : imageSum (List.replicate 98 255) ≠ imageCheck (List.replicate 98 255) := by
      rw [imageSum_erased, imageCheck_erased]; decide
    rw [run List.length_replicate, takeImage_of_wrong_sum wrong]; rfl

end Sys2Proof.Machine
end

section
/-! PROOFS. Sweeps (chapter 4): the coil list of an ordinary sweep in both orders, and of a full sweep (R50). -/

namespace Sys2Proof.Machine

/-! ### Coil lists -/

@[simp] theorem orderedList_length (o : SweepOrder) (len : Nat) (c0 : CoilNumber) : (orderedList o len c0).length = len := by
  simp [orderedList]

theorem orderedList_getElem? (o : SweepOrder) {len i : Nat} (c0 : CoilNumber) (hi : i < len) :
    (orderedList o len c0)[i]? = some (orderedCoil o len c0 i) := by
  simp [orderedList, hi]

theorem plannedList_of_priority {s : State} {sd : Side} (h : (s.sweeps.get sd).priority = true) : s.plannedList sd = allCoils :=
  if_pos h

/-- The aligned blocks of `len` coils fill the four coil numbers, so a place within the block of `c0` is a coil number. -/
theorem block_place_lt {len r : Nat} (c0 : CoilNumber) (hd : len ∣ 4) (hr : r < len) : c0.toNat / len * len + r < 4 :=
  calc c0.toNat / len * len + r
    _ < (c0.toNat / len + 1) * len := by rw [Nat.add_one_mul]; exact Nat.add_lt_add_left hr _
    _ ≤ 4 / len * len := Nat.mul_le_mul_right len (Nat.div_lt_div_of_lt_of_dvd hd c0.isLt)
    _ = 4 := Nat.div_mul_cancel hd

/-- A sequential list counts upward from `c0` modulo the block's length, within the block of `c0`. -/
theorem orderedCoil_sequential_toNat {len : Nat} (c0 : CoilNumber) (i : Nat) (hd : len ∣ 4) :
    (orderedCoil .sequential len c0 i).toNat = c0.toNat / len * len + (c0.toNat + i) % len := by
  have offset : c0.toNat - c0.toNat / len * len = c0.toNat % len := Nat.mod_eq_sub_div_mul.symm
  have hr : (c0.toNat + i) % len < len := Nat.mod_lt _ (Nat.pos_of_dvd_of_pos hd (by decide))
  rw [orderedCoil, offset, Nat.mod_add_mod, BitVec.toNat_ofNat, Nat.mod_eq_of_lt (block_place_lt c0 hd hr)]

theorem orderedCoil_sequential_block {len : Nat} (c0 : CoilNumber) (i : Nat) (hd : len ∣ 4) :
    (orderedCoil .sequential len c0 i).toNat / len = c0.toNat / len := by
  have hpos : 0 < len := Nat.pos_of_dvd_of_pos hd (by decide)
  rw [orderedCoil_sequential_toNat c0 i hd, Nat.add_comm, Nat.add_mul_div_right _ _ hpos,
    Nat.div_eq_of_lt (Nat.mod_lt _ hpos), Nat.zero_add]

theorem orderedCoil_sequential_place {len : Nat} (c0 : CoilNumber) (i : Nat) (hd : len ∣ 4) :
    (orderedCoil .sequential len c0 i).toNat % len = (c0.toNat + i) % len := by
  rw [orderedCoil_sequential_toNat c0 i hd, Nat.mul_add_mod_self_right, Nat.mod_mod]

theorem sweepLength_dvd_four {len : Nat} (h : len ∈ [1, 2, 4]) : len ∣ 4 := by
  revert len; decide

/-- Settles O17: a list's entries are the coils of its order, a sequential one stays in the block of `c0` because the block's length
divides the four coils, and a set priority mark makes the list full. -/
theorem coilListsFollowTheSweepOrder : Obligations.CoilListsFollowTheSweepOrder := by
  refine ⟨fun L c0 i hL hi => ⟨?block, ?place, ?interleaved⟩, orderedList_length, fun s sd => plannedList_of_priority⟩
  case block =>
    rw [orderedList_getElem? _ c0 hi, Option.map_some, orderedCoil_sequential_block c0 i (sweepLength_dvd_four hL)]
  case place =>
    rw [orderedList_getElem? _ c0 hi, Option.map_some, orderedCoil_sequential_place c0 i (sweepLength_dvd_four hL)]
  case interleaved => exact orderedList_getElem? .interleaved c0 hi

end Sys2Proof.Machine
end

section
/-! PROOFS. Lane and direction estimation (chapter 7): the first greatest of a list, the result of an evaluation, centroids. -/

namespace Sys2Proof.Machine

/-! ### The first greatest of a list (R117 to R119) -/

/-- `m` is the first element of `l` at which `f` is greatest. -/
def FirstGreatest {α : Type} (f : α → Nat) (l : List α) (m : α) : Prop :=
  ∃ before behind, l = before ++ m :: behind ∧ (∀ q ∈ before, f q < f m) ∧ ∀ q ∈ behind, f q ≤ f m

section
variable {α : Type} {f : α → Nat}

theorem firstGreatest_singleton (b : α) : FirstGreatest f [b] b := ⟨[], [], rfl, nofun, nofun⟩

/-- Of two elements at the front the later one stays in the search only where it is greater: the step of both of the model's searches. -/
theorem FirstGreatest.of_front {b p m : α} {l : List α} (h : FirstGreatest f ((if f b < f p then p else b) :: l) m) :
    FirstGreatest f (b :: p :: l) m := by
  obtain ⟨before, behind, hl, lower, atMost⟩ := h
  cases before with
  | nil =>
    obtain ⟨rfl, rfl⟩ := List.cons.inj hl
    split
    · next hlt => exact ⟨[b], l, rfl, by simpa using hlt, by simpa [hlt] using atMost⟩
    · next hge =>
      exact ⟨[], p :: l, rfl, nofun, List.forall_mem_cons.2 ⟨Nat.le_of_not_lt hge, by simpa [hge] using atMost⟩⟩
  | cons c before =>
    obtain ⟨rfl, rfl⟩ := List.cons.inj hl
    obtain ⟨front, lower⟩ := List.forall_mem_cons.1 lower
    have both : f b < f m ∧ f p < f m := by split at front <;> omega
    refine ⟨b :: p :: before, behind, rfl, ?_, atMost⟩
    exact List.forall_mem_cons.2 ⟨both.1, List.forall_mem_cons.2 ⟨both.2, lower⟩⟩

theorem bestLaneFrom_firstGreatest (score : Nat → Nat) (b : Nat) (lanes : List Nat) :
    FirstGreatest score (b :: lanes) (bestLaneFrom score b lanes) := by
  induction lanes generalizing b with
  | nil => exact firstGreatest_singleton b
  | cons j js ih => exact (ih _).of_front

theorem oldestFrom_firstGreatest (now : Clock) (b : Sample) (ps : List Sample) :
    FirstGreatest (fun p => elapsedAt now p.time) (b :: ps) (oldestFrom now b ps) := by
  induction ps generalizing b with
  | nil => exact firstGreatest_singleton b
  | cons p ps ih => exact (ih _).of_front

end

/-- Settles O38: the search for the oldest sample finds the first of greatest elapsed time. -/
theorem originIsTheOldestSample : Obligations.OriginIsTheOldestSample := by
  rintro now ps E rfl hne
  cases ps with
  | nil => exact absurd rfl hne
  | cons b ps =>
    obtain ⟨before, behind, hl, lower, atMost⟩ := oldestFrom_firstGreatest now b ps
    exact ⟨before, _, behind, hl, rfl, lower, atMost⟩

/-! ### The best of some lanes (R117, R118) -/

/-- `j` is the lowest-numbered of `lanes` with the greatest score. -/
def LowestBest (score : Nat → Nat) (lanes : List Nat) (j : Nat) : Prop :=
  j ∈ lanes ∧ ∀ i ∈ lanes, score i ≤ score j ∧ (i < j → score i < score j)

section
variable {score : Nat → Nat} {lanes : List Nat} {i j : Nat}

theorem FirstGreatest.lowestBest (h : FirstGreatest score lanes j) (rising : lanes.Pairwise (· < ·)) : LowestBest score lanes j := by
  obtain ⟨before, behind, rfl, lower, atMost⟩ := h
  obtain ⟨-, risingBehind, -⟩ := List.pairwise_append.1 rising
  refine ⟨by simp, fun i hi => ?_⟩
  rcases List.mem_append.1 hi with hi | hi
  · exact ⟨(lower i hi).le, fun _ => lower i hi⟩
  · rcases List.mem_cons.1 hi with rfl | hi
    · exact ⟨le_rfl, fun h => absurd h (lt_irrefl _)⟩
    · exact ⟨atMost i hi, fun h => absurd h (List.rel_of_pairwise_cons risingBehind hi).asymm⟩

theorem LowestBest.unique (hi : LowestBest score lanes i) (hj : LowestBest score lanes j) : i = j := by
  obtain ⟨le, lt⟩ := hi.2 j hj.1
  obtain ⟨ge, gt⟩ := hj.2 i hi.1
  omega

theorem bestLane_lowestBest (rising : lanes.Pairwise (· < ·)) (hne : lanes ≠ []) : LowestBest score lanes (bestLane score lanes) := by
  cases lanes with
  | nil => exact absurd rfl hne
  | cons b js => exact (bestLaneFrom_firstGreatest score b js).lowestBest rising

theorem bestLane_eq_iff (rising : lanes.Pairwise (· < ·)) (hne : lanes ≠ []) : bestLane score lanes = j ↔ LowestBest score lanes j :=
  ⟨fun h => h ▸ bestLane_lowestBest rising hne, fun h => (bestLane_lowestBest rising hne).unique h⟩

theorem secondLane_eq_some_iff {margin k : Nat} (rising : lanes.Pairwise (· < ·)) (other : ∃ i ∈ lanes, i ≠ j) :
    secondLane score margin lanes j = some k ↔
      LowestBest score (lanes.filter (· ≠ j)) k ∧ 0 < score k ∧ score j - score k < margin := by
  have hne : lanes.filter (· ≠ j) ≠ [] := by simpa using other
  rw [← bestLane_eq_iff (rising.filter _) hne]
  simp only [secondLane]
  constructor
  · intro h
    split at h
    · next ambiguous => cases h; exact ⟨rfl, ambiguous⟩
    · cases h
  · rintro ⟨rfl, ambiguous⟩
    exact if_pos ambiguous

end

/-! ### Weights and scores (R115 to R117) -/

/-- A strength is a byte, so no weight exceeds 255 (R116). -/
theorem Sample.weight_le (floor : Nat) (p : Sample) : p.weight floor ≤ 255 :=
  (Nat.sub_le _ _).trans (Nat.le_of_lt_succ p.strength.isLt)

theorem totalWeight_le (floor : Nat) (ps : List Sample) : totalWeight floor ps ≤ ps.length * 255 := by
  have h := List.sum_le_card_nsmul (ps.map (Sample.weight floor)) 255 fun w hw => by
    obtain ⟨p, -, rfl⟩ := List.mem_map.1 hw
    exact p.weight_le floor
  simpa [totalWeight] using h

theorem laneScore_le (floor : Nat) {ps : List Sample} (h : ps.length ≤ 16) (j : Nat) : laneScore floor ps j ≤ 4080 :=
  calc laneScore floor ps j
    _ ≤ (ps.filter fun p => p.lane == j).length * 255 := totalWeight_le floor _
    _ ≤ 16 * 255 := Nat.mul_le_mul_right _ ((List.length_filter_le _ _).trans h)

/-! ### The result of an evaluation (R114) -/

section
variable {c : Config} {now : Clock} {ps : List Sample}

/-- The chosen lane of R117. -/
def chosenLane (c : Config) (ps : List Sample) : Nat := bestLane (laneScore c.noiseFloor ps) (List.range (c.n + 1))

theorem chosenLane_lowestBest (c : Config) (ps : List Sample) :
    LowestBest (laneScore c.noiseFloor ps) (List.range (c.n + 1)) (chosenLane c ps) :=
  bestLane_lowestBest List.pairwise_lt_range (by simp)

theorem estimate_of_score_zero (h : laneScore c.noiseFloor ps (chosenLane c ps) = 0) :
    estimate c now ps = ⟨false, 0, none, .undetermined⟩ := if_pos h

theorem estimate_of_score_pos (h : 0 < laneScore c.noiseFloor ps (chosenLane c ps)) :
    ∃ dir b, b = secondLane (laneScore c.noiseFloor ps) c.margin (List.range (c.n + 1)) (chosenLane c ps) ∧
      estimate c now ps = ⟨true, chosenLane c ps, b, dir⟩ ∧ ∀ o, originOf now ps = some o →
        dir = faceDirection c.noiseFloor c.threshold o (ps.filter fun p => p.lane == chosenLane c ps || some p.lane == b) :=
  ⟨_, _, rfl, if_neg h.ne', fun o ho => by rw [ho]; rfl⟩

theorem estimate_signal_iff : (estimate c now ps).signal = true ↔ 0 < laneScore c.noiseFloor ps (chosenLane c ps) := by
  rcases Nat.eq_zero_or_pos (laneScore c.noiseFloor ps (chosenLane c ps)) with h | h
  · simp [estimate_of_score_zero h, h]
  · obtain ⟨dir, b, -, he, -⟩ := estimate_of_score_pos (now := now) h
    simp [he, h]

/-- Without a signal every lane scores 0, and the lowest of them is lane 0. -/
theorem estimate_laneA (c : Config) (now : Clock) (ps : List Sample) : (estimate c now ps).laneA = chosenLane c ps := by
  rcases Nat.eq_zero_or_pos (laneScore c.noiseFloor ps (chosenLane c ps)) with h | h
  · obtain ⟨-, best⟩ := chosenLane_lowestBest c ps
    have lowest := (best 0 (by simp)).2
    simp only [estimate_of_score_zero h]
    omega
  · obtain ⟨dir, b, -, he, -⟩ := estimate_of_score_pos (now := now) h
    rw [he]

theorem estimate_laneB (h : (estimate c now ps).signal = true) : (estimate c now ps).laneB =
    secondLane (laneScore c.noiseFloor ps) c.margin (List.range (c.n + 1)) (estimate c now ps).laneA := by
  obtain ⟨dir, b, hb, he, -⟩ := estimate_of_score_pos (now := now) (estimate_signal_iff.1 h)
  rw [he, hb]

theorem estimate_direction {o : Clock} (h : (estimate c now ps).signal = true) (ho : originOf now ps = some o) :
    (estimate c now ps).direction = faceDirection c.noiseFloor c.threshold o
      (ps.filter fun p => p.lane == (estimate c now ps).laneA || some p.lane == (estimate c now ps).laneB) := by
  obtain ⟨dir, b, -, he, hdir⟩ := estimate_of_score_pos (now := now) (estimate_signal_iff.1 h)
  rw [he]
  exact hdir o ho

theorem estimate_of_no_signal (h : (estimate c now ps).signal = false) : estimate c now ps = ⟨false, 0, none, .undetermined⟩ :=
  estimate_of_score_zero (Nat.eq_zero_of_not_pos fun pos => by simp [estimate_signal_iff.2 pos] at h)

theorem estimate_laneA_lowestBest (c : Config) (now : Clock) (ps : List Sample) :
    LowestBest (laneScore c.noiseFloor ps) (List.range (c.n + 1)) (estimate c now ps).laneA :=
  estimate_laneA c now ps ▸ chosenLane_lowestBest c ps

theorem estimate_laneB_eq_some_iff (hn : 2 ≤ c.n) (h : (estimate c now ps).signal = true) {j : Nat} :
    (estimate c now ps).laneB = some j ↔
      LowestBest (laneScore c.noiseFloor ps) ((List.range (c.n + 1)).filter (· ≠ (estimate c now ps).laneA)) j ∧
      0 < laneScore c.noiseFloor ps j ∧
      laneScore c.noiseFloor ps (estimate c now ps).laneA - laneScore c.noiseFloor ps j < c.margin := by
  rw [estimate_laneB h]
  refine secondLane_eq_some_iff List.pairwise_lt_range ?_
  rcases Nat.eq_zero_or_pos (estimate c now ps).laneA with zero | pos
  · exact ⟨1, List.mem_range.2 (by omega), by omega⟩
  · exact ⟨0, List.mem_range.2 (by omega), by omega⟩

end

/-- Settles O37: both lanes are the lowest of greatest score, lane B among the lanes other than lane A; a score is a sum of at most 16
weights of at most 255. -/
theorem lanesAAndBHaveTheGreatestScores : Obligations.LanesAAndBHaveTheGreatestScores := by
  rintro c now ps S e rfl hS
  -- the statement writes the lane of R115 and the weight of R116 in a sample's own fields
  obtain rfl : S = laneScore c.noiseFloor ps := hS
  obtain ⟨mem, best⟩ := estimate_laneA_lowestBest c now ps
  simp only [List.mem_range, Nat.lt_succ_iff] at mem best
  refine ⟨?signal, mem, best, fun hl => laneScore_le _ hl, fun j hn hs => ?laneB, estimate_of_no_signal⟩
  case signal =>
    rw [estimate_signal_iff, ← estimate_laneA c now ps]
    exact ⟨fun h => ⟨_, mem, h⟩, fun ⟨j, hj, pos⟩ => pos.trans_le (best j hj).1⟩
  case laneB =>
    rw [estimate_laneB_eq_some_iff hn hs]
    simp only [LowestBest, List.mem_filter, List.mem_range, Nat.lt_succ_iff, decide_eq_true_eq, and_imp]
    constructor
    · rintro ⟨⟨⟨hj, other⟩, second⟩, pos, near⟩
      exact ⟨hj, other, pos, near, second⟩
    · rintro ⟨hj, other, pos, near, second⟩
      exact ⟨⟨⟨hj, other⟩, second⟩, pos, near⟩

/-! ### Centroids (R120, R122) -/

section
variable {floor : Nat} {origin : Clock} {ps : List Sample}

theorem relativeTime_le (origin t : Clock) : relativeTime origin t ≤ 4095 := by
  unfold relativeTime
  dsimp only
  split <;> omega

/-- The sum over the samples of weight by relative time (R122). -/
def weightedTimes (floor : Nat) (origin : Clock) (ps : List Sample) : Nat :=
  (ps.map fun p => p.weight floor * relativeTime origin p.time).sum

theorem centroid_eq_div (floor : Nat) (origin : Clock) (ps : List Sample) :
    centroid floor origin ps = (weightedTimes floor origin ps + totalWeight floor ps / 2) / totalWeight floor ps := rfl

theorem weightedTimes_le (floor : Nat) (origin : Clock) (ps : List Sample) :
    weightedTimes floor origin ps ≤ totalWeight floor ps * 4095 :=
  calc weightedTimes floor origin ps
    _ ≤ (ps.map fun p => p.weight floor * 4095).sum :=
      List.sum_le_sum fun p _ => Nat.mul_le_mul_left _ (relativeTime_le origin p.time)
    _ = totalWeight floor ps * 4095 := List.sum_map_mul_right ..

/-- Samples that all have one relative time, but for those of weight 0. -/
theorem weightedTimes_of_one_time {r : Nat} (h : ∀ q ∈ ps, 0 < q.weight floor → relativeTime origin q.time = r) :
    weightedTimes floor origin ps = totalWeight floor ps * r :=
  calc weightedTimes floor origin ps
    _ = (ps.map fun q => q.weight floor * r).sum := by
      refine congrArg List.sum (List.map_congr_left fun q hq => ?_)
      rcases Nat.eq_zero_or_pos (q.weight floor) with zero | pos
      · simp [zero]
      · rw [h q hq pos]
    _ = totalWeight floor ps * r := List.sum_map_mul_right ..

/-- Adding half of the divisor before the division rounds the quotient half up. -/
theorem div_rounds_half_up {N W : Nat} (hW : 0 < W) :
    2 * N < (2 * ((N + W / 2) / W) + 1) * W ∧ 2 * ((N + W / 2) / W) * W ≤ 2 * N + W := by
  have below : (N + W / 2) / W * W ≤ N + W / 2 := Nat.div_mul_le_self ..
  have above : N + W / 2 < (N + W / 2) / W * W + W := Nat.lt_div_mul_add hW
  rw [Nat.add_mul, Nat.mul_assoc]
  omega

theorem centroid_le (h : 0 < totalWeight floor ps) : centroid floor origin ps ≤ 4095 := by
  have times := weightedTimes_le floor origin ps
  rw [centroid_eq_div, ← Nat.lt_succ_iff, Nat.div_lt_iff_lt_mul h]
  omega

theorem weightedTimes_add_half_lt (h : ps.length ≤ 16) :
    weightedTimes floor origin ps + totalWeight floor ps / 2 < 16709641 := by
  have times := weightedTimes_le floor origin ps
  have weights := totalWeight_le floor ps
  omega

theorem centroid_of_one_time {r : Nat} (h : 0 < totalWeight floor ps)
    (one : ∀ q ∈ ps, 0 < q.weight floor → relativeTime origin q.time = r) : centroid floor origin ps = r := by
  rw [centroid_eq_div, weightedTimes_of_one_time one, Nat.mul_add_div h, Nat.div_eq_of_lt (Nat.div_lt_self h Nat.one_lt_two), Nat.add_zero]

end

/-- Settles O39: half of the weight added before the division rounds half up; relative times are at most 4095, weights at most 255. -/
theorem centroidRoundsTheWeightedMeanHalfUp : Obligations.CentroidRoundsTheWeightedMeanHalfUp := by
  rintro floor origin ps W N rfl hW rfl
  obtain ⟨above, below⟩ := div_rounds_half_up (N := weightedTimes floor origin ps) hW
  refine ⟨above, below, centroid_le hW, weightedTimes_add_half_lt, fun p _ _ single => ?_⟩
  exact centroid_of_one_time hW fun q hq pos => by rw [single q hq pos]

/-! ### The direction (R121, R123) -/

section
variable {threshold ti outer : Nat}

theorem directionOf_eq_outbound_iff : directionOf threshold ti outer = .outbound ↔ ti + threshold ≤ outer := by
  unfold directionOf
  split
  · next out => exact iff_of_true rfl out
  · next out => split <;> exact iff_of_false nofun out

/-- A threshold of at least 1 keeps an index from being both OUTBOUND and INBOUND (R123). -/
theorem directionOf_eq_inbound_iff (h : 1 ≤ threshold) : directionOf threshold ti outer = .inbound ↔ outer + threshold ≤ ti := by
  unfold directionOf
  split
  · exact iff_of_false nofun (by omega)
  · split
    · next inward => exact iff_of_true rfl inward
    · next inward => exact iff_of_false nofun inward

theorem directionOf_eq_undetermined_iff :
    directionOf threshold ti outer = .undetermined ↔ outer < ti + threshold ∧ ti < outer + threshold := by
  unfold directionOf
  split
  · exact iff_of_false nofun (by omega)
  · split
    · exact iff_of_false nofun (by omega)
    · exact iff_of_true rfl (by omega)

end

theorem Sample.inner_eq_decide (p : Sample) : p.inner = decide (p.coil = 0 ∨ p.coil = 1) := by
  simp [Sample.inner, Bool.decide_or, beq_eq_decide]

/-- The coils of the other face are the other two of the four. -/
theorem Sample.not_inner_eq_decide (p : Sample) : (!p.inner) = decide (p.coil = 2 ∨ p.coil = 3) := by
  have two : ∀ k : CoilNumber, (!(k == 0 || k == 1)) = decide (k = 2 ∨ k = 3) := by decide
  exact two p.coil

/-- A face of the direction samples, taken from the list at once or from the samples of the direction lanes (R121). -/
theorem filter_face_eq {ps : List Sample} {a : Nat} {b : Option Nat} {P : Sample → Prop} [DecidablePred P] {face : Sample → Bool}
    (hface : ∀ p, face p = decide (P p)) : (ps.filter fun p => (p.lane = a ∨ some p.lane = b) ∧ P p) =
      (ps.filter fun p => p.lane == a || some p.lane == b).filter face := by
  rw [List.filter_filter]
  exact List.filter_congr fun p _ => by rw [hface]; simp [beq_eq_decide, Bool.decide_and, Bool.and_comm]

section
variable {floor threshold : Nat} {origin : Clock} {ps : List Sample}

theorem faceDirection_of_weightless
    (h : totalWeight floor (ps.filter Sample.inner) = 0 ∨ totalWeight floor (ps.filter fun p => !p.inner) = 0) :
    faceDirection floor threshold origin ps = .undetermined := if_pos h

theorem faceDirection_of_weights (hi : 0 < totalWeight floor (ps.filter Sample.inner))
    (ho : 0 < totalWeight floor (ps.filter fun p => !p.inner)) : faceDirection floor threshold origin ps =
      directionOf threshold (centroid floor origin (ps.filter Sample.inner)) (centroid floor origin (ps.filter fun p => !p.inner)) :=
  if_neg (not_or.2 ⟨hi.ne', ho.ne'⟩)

end

/-- Settles O40: the inner and the outer samples are the two faces of the direction samples, and the centroids of two faces with weight
are at most 4095. -/
theorem directionComparesTheCentroids : Obligations.DirectionComparesTheCentroids := by
  rintro c now o ps inner outer e rfl hs ho hH hinner houter
  have dir := estimate_direction hs ho
  obtain rfl := hinner.trans (filter_face_eq Sample.inner_eq_decide)
  obtain rfl := houter.trans (filter_face_eq Sample.not_inner_eq_decide)
  refine ⟨fun h => dir.trans (faceDirection_of_weightless h), fun innerPos outerPos D hD => ?_⟩
  have innerLe := centroid_le (origin := o) innerPos
  have outerLe := centroid_le (origin := o) outerPos
  rw [dir, faceDirection_of_weights innerPos outerPos, directionOf_eq_outbound_iff, directionOf_eq_inbound_iff hH,
    directionOf_eq_undetermined_iff]
  omega

end Sys2Proof.Machine
end

section
/-! PROOFS. Issue status (chapter 8): the ANSWER that matches no slot (R135, R136). -/

namespace Sys2Proof.Machine

/-! ### An ANSWER and the query slots (R135, R136) -/

/-- The three ways to miss R135: no slot has such a tag, the slot is FREE, or it WAITS for another tag or another item. -/
theorem matchingSlot_eq_none_iff {s : State} {b : AnswerBody} : s.matchingSlot b = none ↔
    16 ≤ b.tag.toNat ∨ (s.queries.slots.get (BitVec.ofNat 2 (b.tag.toNat / 4))).use = none ∨
      ∃ u, (s.queries.slots.get (BitVec.ofNat 2 (b.tag.toNat / 4))).use = some u ∧ (u.tag ≠ b.tag.toNat ∨ u.item ≠ b.item) := by
  simp only [State.matchingSlot]
  cases (s.queries.slots.get (BitVec.ofNat 2 (b.tag.toNat / 4))).use with
  | none => exact iff_of_true rfl (.inr (.inl rfl))
  | some u =>
    simp only [ite_eq_right_iff, reduceCtorEq, imp_false, Option.some.injEq, exists_eq_left', false_or, not_and_or, not_lt, ne_eq]

theorem takeAnswer_of_unmatched {s : State} {b : AnswerBody} (h : s.matchingSlot b = none) :
    s.takeAnswer b = s.count .answersMissed 1 := by
  simp only [State.takeAnswer, h]

/-- An ANSWER that a desk addresses to this station passes the checks of R82 to R84. -/
theorem exec_heardAnswer_addressed {s : State} {a : Nat} {sender : Address} {stamp : Clock} {b : AnswerBody}
    (hears : (s.advance a).HearsDesk sender stamp) (addressed : b.receiver.toNat = (s.advance a).sys.station.toNat) :
    exec (.heardAnswer a sender b) s = .next (((s.advance a).setPhase (.idle 0)).takeAnswer b) := by
  rw [exec_heardAnswer, takeFrame_desk hears rfl rfl]
  exact congrArg _ (if_pos addressed)

/-- Settles O44: the idle moment leaves the slots as they are, so the ANSWER still matches none and is only counted. -/
theorem answersThatMatchNoSlotAreDiscarded : Obligations.AnswersThatMatchNoSlotAreDiscarded := by
  rintro s v a sender stamp b rfl hears addressed unmatched
  have running : ((s.advance a).setPhase (.idle 0)).sys.run = .running := hears.1
  have noSlot : ((s.advance a).setPhase (.idle 0)).matchingSlot b = none := matchingSlot_eq_none_iff.2 unmatched
  rw [exec_heardAnswer_addressed hears addressed, takeAnswer_of_unmatched noSlot, State.count_running running]
  rfl

end Sys2Proof.Machine
end

section
/-! PROOFS. Verdicts (chapters 8 and 9): the table of issue status (R129), the steps on a result (R148), the class checks (R149). -/

namespace Sys2Proof.Machine

/-! ### The issue status (R129) -/

section
variable {entry : Option NoticeStatus} {reg : Nat}

/-- A RETURN notice decides before the mark is looked at. -/
theorem issueStatus_of_returned (mark : IssueMark) : issueStatus mark (some .returned) reg = .returned := by
  cases mark <;> rfl

theorem issueStatus_of_marked (h : entry ≠ some .returned) : issueStatus .issued entry reg = .byMark := by
  match entry, h with
  | none, _ => rfl
  | some .issued, _ => rfl

theorem issueStatus_of_registry (h : reg ≠ noRegistry) : issueStatus .notIssued none reg = .ask := if_neg h

end

/-! ### The class that a code selects (R141) -/

section
variable {c : Config} {code : Byte} {k : ClassEntry}

theorem classOf_of_limit_le (h : c.classLimit ≤ code.toNat) : classOf c code = none := if_neg h.not_gt

theorem classOf_of_entry (h : code.toNat < c.classLimit) (entry : c.classes[code.toNat]? = some k) : classOf c code = some k := by
  rw [classOf, if_pos h, List.getD_eq_getElem?_getD, entry, Option.getD_some]

end

/-! ### The class checks (R149): an unknown class, an absent one, and the check that each kind asks for -/

section
variable {c : Config} {hall level : BitVec 2} {code : Byte} {e : Estimate} {k : ClassEntry}

theorem classChecks_of_unknown (selects : classOf c code = none) :
    classChecks c hall code level e = .decided ⟨.alarm, .classUnknown, e.laneA, e.laneB⟩ := by
  rw [classChecks, selects]

theorem classChecks_of_absent (selects : classOf c code = some k) (absent : k.present = false) :
    classChecks c hall code level e = .decided ⟨.alarm, .classAbsent, e.laneA, e.laneB⟩ := by
  simp [classChecks, selects, absent]

theorem classChecks_of_lending (selects : classOf c code = some k) (present : k.present = true) (kind : k.kind = .lending) :
    classChecks c hall code level e = .toIssue k := by
  simp [classChecks, selects, present, kind]

theorem classChecks_of_reference (selects : classOf c code = some k) (present : k.present = true) (kind : k.kind = .reference) :
    classChecks c hall code level e = .decided ⟨.alarm, .reference, e.laneA, e.laneB⟩ := by
  simp [classChecks, selects, present, kind]

theorem classChecks_of_restricted (selects : classOf c code = some k) (present : k.present = true) (kind : k.kind = .restricted) :
    classChecks c hall code level e =
      if k.level < hall then .decided ⟨.alarm, .hallLevel, e.laneA, e.laneB⟩ else .toIssue k := by
  simp [classChecks, selects, present, kind]

theorem classChecks_of_openClass (selects : classOf c code = some k) (present : k.present = true) (kind : k.kind = .openClass) :
    classChecks c hall code level e =
      if level ≤ k.level ∧ hall ≤ k.level then .decided ⟨.clear, .exempt, e.laneA, e.laneB⟩ else .toIssue k := by
  simp [classChecks, selects, present, kind]

/-! ### The steps on a result (R148) -/

theorem resultChecks_of_no_signal (signal : e.signal = false) :
    resultChecks c hall code level e = .decided ⟨.linger, .noSignal, 0, none⟩ := by
  simp [resultChecks, signal]

theorem resultChecks_of_inbound (signal : e.signal = true) (dir : e.direction = .inbound) :
    resultChecks c hall code level e = .decided ⟨.inbound, .none, e.laneA, e.laneB⟩ := by
  simp [resultChecks, signal, dir]

theorem resultChecks_of_undetermined (signal : e.signal = true) (dir : e.direction = .undetermined) :
    resultChecks c hall code level e = .decided ⟨.linger, .noDirection, e.laneA, e.laneB⟩ := by
  simp [resultChecks, signal, dir]

theorem resultChecks_of_outbound (signal : e.signal = true) (dir : e.direction = .outbound) :
    resultChecks c hall code level e = classChecks c hall code level e := by
  simp [resultChecks, signal, dir]

end

/-- Settles O45: the issue status line by line of its table, then the result by its signal and direction, an OUTBOUND one by the class its
code selects and a present class by its kind. -/
theorem checksAndIssueStatusFollowTheirTables : Obligations.ChecksAndIssueStatusFollowTheirTables := by
  refine ⟨fun reg => ?known, fun reg _ le => ?ask, rfl, fun _ _ => rfl, fun c hall level code e k =>
    ⟨resultChecks_of_no_signal, fun signal => ⟨resultChecks_of_inbound signal, resultChecks_of_undetermined signal,
      fun dir limit => ?unknown, fun dir below entry => ?selected⟩⟩⟩
  case known =>
    exact ⟨issueStatus_of_marked nofun, issueStatus_of_marked nofun, issueStatus_of_returned _, rfl, issueStatus_of_returned _⟩
  case ask => exact issueStatus_of_registry (Nat.lt_succ_of_le le).ne
  case unknown => rw [resultChecks_of_outbound signal dir, classChecks_of_unknown (classOf_of_limit_le limit)]
  case selected =>
    have selects := classOf_of_entry below entry
    rw [resultChecks_of_outbound signal dir]
    refine ⟨classChecks_of_absent selects, fun present => ⟨classChecks_of_reference selects present, fun kind lower => ?hallLevel,
      fun kind tagLe hallLe => ?exempt, ?toIssue⟩⟩
    case hallLevel => rw [classChecks_of_restricted selects present kind, if_pos (BitVec.lt_def.2 lower)]
    case exempt => rw [classChecks_of_openClass selects present kind, if_pos ⟨BitVec.le_def.2 tagLe, BitVec.le_def.2 hallLe⟩]
    case toIssue =>
      rintro (kind | ⟨kind, allowed⟩ | ⟨kind, exceeds⟩)
      · exact classChecks_of_lending selects present kind
      · rw [classChecks_of_restricted selects present kind, if_neg (mt BitVec.lt_def.1 allowed.not_gt)]
      · rw [classChecks_of_openClass selects present kind, if_neg]
        rintro ⟨tagLe, hallLe⟩
        exact exceeds.elim (BitVec.le_def.1 tagLe).not_gt (BitVec.le_def.1 hallLe).not_gt

end Sys2Proof.Machine
end

section
/-! PROOFS. Invariants of one structure each: the Issue Notice Cache, the counters and the lamps. -/

namespace Sys2Proof.Machine

/-! ### The Issue Notice Cache (R124) -/

/-- What a cache must be: at most 512 entries, no two for one item, in order of age (R124). -/
def CacheFits (c : List Notice) : Prop :=
  c.length ≤ cacheSize ∧ (c.map Notice.item).Nodup ∧ c.Pairwise fun e f => f.age ≤ e.age

theorem cacheSound_iff (s : State) : s.CacheSound ↔ CacheFits s.cache := Iff.rfl

theorem CacheFits.sublist {c c' : List Notice} (h : CacheFits c) (sub : c'.Sublist c) : CacheFits c' :=
  ⟨sub.length_le.trans h.1, h.2.1.sublist (sub.map _), h.2.2.sublist sub⟩

/-- A new entry, of age 0, at the newest end of a cache that has room and no entry of the item. -/
theorem CacheFits.snoc {c : List Notice} (h : CacheFits c) (st : NoticeStatus) {x : Item} (room : c.length < cacheSize)
    (new : ∀ e ∈ c, e.item ≠ x) : CacheFits (c ++ [⟨x, st, 0⟩]) := by
  obtain ⟨-, nodup, sorted⟩ := h
  refine ⟨by simpa using room, ?_, List.pairwise_append.2 ⟨sorted, List.pairwise_singleton _ _, by simp⟩⟩
  rw [List.map_append, List.nodup_append']
  refine ⟨nodup, List.nodup_singleton _, ?_⟩
  simpa [List.disjoint_singleton] using new

theorem CacheFits.enterNotice {c : List Notice} (h : CacheFits c) (st : NoticeStatus) (x : Item) :
    CacheFits (enterNotice st c x) := by
  unfold Machine.enterNotice
  dsimp only
  split
  · next known =>
    refine (h.sublist List.filter_sublist).snoc st ?_ (by simp)
    have shorter : (c.filter fun e => e.item != x).length < c.length := by
      obtain ⟨e, he, hx⟩ := List.any_eq_true.1 known
      exact List.length_filter_lt_length_iff_exists.2 ⟨e, he, by simpa using hx⟩
    exact shorter.trans_le h.1
  · next unknown =>
    have new : ∀ e ∈ c, e.item ≠ x := by simpa using unknown
    split
    · refine (h.sublist (List.drop_sublist _ _)).snoc st ?_ fun e he => new e (List.mem_of_mem_drop he)
      have := h.1
      simp only [List.length_drop, cacheSize] at *
      omega
    · next room => exact h.snoc st (Nat.lt_of_not_le room) new

theorem CacheFits.ageNotices {c : List Notice} (h : CacheFits c) : CacheFits (ageNotices c) := by
  obtain ⟨bounded, nodup, sorted⟩ := h
  refine ⟨by simpa [Machine.ageNotices] using bounded, by simpa [Machine.ageNotices, Function.comp_def] using nodup, ?_⟩
  simpa [Machine.ageNotices, List.pairwise_map] using sorted

/-- Of all changes only a notice that enters, the tick's ageing and an expiry touch the cache. -/
theorem cacheSound_kept : Kept State.CacheSound := by
  constructor
  case toClosedSides =>
    constructor
    case toClosed =>
      constructor
      case notice => exact fun st x h => CacheFits.enterNotice h st x
      case count => exact fun k n h => by rwa [cacheSound_iff, State.count_cache]
      all_goals (intros; assumption)
    all_goals (intros; assumption)
  case expire => exact fun lifetime h => CacheFits.sublist h (List.dropWhile_sublist _)
  case age => exact fun h => CacheFits.ageNotices h
  all_goals (intros; assumption)

theorem reset_cacheSound : State.reset.CacheSound := ⟨by decide, List.nodup_nil, List.Pairwise.nil⟩

/-- Settles O55: every command's meaning is made of changes that keep the cache sound. -/
theorem everyStepKeepsTheCacheSound : Obligations.EveryStepKeepsTheCacheSound := fun _ _ h hs =>
  cacheSound_kept.step reset_cacheSound (fun _ h => h) h hs

/-! ### The counters (R167) -/

theorem CountersBounded.putCounter {c : Counters Nat} (h : ∀ k, counterAt c k ≤ 65535) (j : CounterName) (n : Nat) (k : CounterName) :
    counterAt (putCounter c j (satAdd (counterAt c j) n)) k ≤ 65535 := by
  by_cases e : k = j
  · subst e; rw [counterAt_putCounter_self]; exact Nat.min_le_left _ _
  · rw [counterAt_putCounter_of_ne _ _ e]; exact h k

theorem counterAt_minus (c d : Counters Nat) (k : CounterName) : counterAt (Counters.minus c d) k = counterAt c k - counterAt d k := by
  cases k <;> rfl

/-- Counters move by a saturating addition, or down by what a REPORT carried. -/
theorem countersBounded_kept : Kept State.CountersBounded := by
  constructor
  case toClosedSides =>
    constructor
    case toClosed =>
      constructor
      case count =>
        intro s j n h
        unfold State.count
        split
        · exact CountersBounded.putCounter h j n
        · exact h
      case carried =>
        intro s h k
        simp only [State.reportSent, State.setReport_report]
        split
        · rw [counterAt_minus]; exact (Nat.sub_le _ _).trans (h k)
        · exact h k
      all_goals (intros; assumption)
    all_goals (intros; assumption)
  all_goals (intros; assumption)

theorem reset_countersBounded : State.reset.CountersBounded := by rintro (_ | _) <;> decide

/-! ### The lamps (R160) -/

theorem Lamp.Sound.elapse {l : Lamp} (h : l.Sound) (d : Nat) : (l.elapse d).Sound := by
  obtain ⟨bounded, nodup, shown⟩ := h
  refine ⟨by simpa [Lamp.elapse] using bounded, by simpa [Lamp.elapse, Function.comp_def] using nodup, ?_⟩
  unfold Lamp.elapse LampState.elapse
  cases state : l.state <;> simp_all

theorem Lamp.reset_sound : Lamp.reset.Sound := ⟨by decide, by decide, rfl⟩

/-- A lamp changes as the Alarm Unit's own operations change it, falls dark at a reset, and its holders' timers run down. -/
theorem lampsSound_kept : Kept State.LampsSound := by
  constructor
  case toClosedSides =>
    constructor
    case toClosed =>
      constructor
      case lamp =>
        rintro s (_ | _) l keeps ⟨left, right⟩
        · exact ⟨keeps left, right⟩
        · exact ⟨left, keeps right⟩
      case count => exact fun k n h => by rwa [State.LampsSound, State.count_lamps]
      all_goals (intros; assumption)
    all_goals (intros; assumption)
  case elapse => exact fun d h => ⟨h.1.elapse d, h.2.elapse d⟩
  case clear => exact fun _ _ => ⟨Lamp.reset_sound, Lamp.reset_sound⟩
  all_goals (intros; assumption)

theorem reset_lampsSound : State.reset.LampsSound := ⟨Lamp.reset_sound, Lamp.reset_sound⟩

/-- Settles O57: every command's meaning is made of changes that keep the counters bounded and the lamps sound. -/
theorem everyStepKeepsCountersAndLampsSound : Obligations.EveryStepKeepsCountersAndLampsSound := fun _ _ hs =>
  ⟨fun h => countersBounded_kept.step reset_countersBounded (fun _ h => h) h hs,
    fun h => lampsSound_kept.step reset_lampsSound (fun _ h => h) h hs⟩

end Sys2Proof.Machine
end

section
/-! PROOFS. Invariants of one structure each: the Passage Table with the Snoop Directory, and the transmit queue. -/

namespace Sys2Proof.Machine

/-! ### The items of the table -/

theorem mem_tableItems {x : Item} {t : List (Option Record)} : x ∈ tableItems t ↔ ∃ r, some r ∈ t ∧ r.item = x := by
  simp [tableItems, Option.map_eq_some_iff]

theorem findRecord_eq_none {x : Item} {t : List (Option Record)} : findRecord x t = none ↔ x ∉ tableItems t := by
  induction t with
  | nil => simp [findRecord, tableItems]
  | cons e t ih =>
    cases e with
    | none => simpa [findRecord, tableItems] using ih
    | some r =>
      by_cases hx : r.item = x
      · simp [findRecord, tableItems, hx]
      · simpa [findRecord, tableItems, hx, Ne.symm hx] using ih

theorem mem_of_findRecord {x : Item} {t : List (Option Record)} {r : Record} (h : findRecord x t = some r) : some r ∈ t := by
  induction t with
  | nil => cases h
  | cons e t ih =>
    cases e with
    | none => exact List.mem_cons_of_mem _ (ih h)
    | some r0 =>
      by_cases hx : r0.item = x
      · rw [findRecord, if_pos hx] at h; rw [Option.some.inj h]; exact List.mem_cons_self
      · rw [findRecord, if_neg hx] at h; exact List.mem_cons_of_mem _ (ih h)

/-- Storing a record in place of its item's leaves the items as they were. -/
theorem tableItems_replace_some (r : Record) (t : List (Option Record)) : tableItems (replaceRecord r.item (some r) t) = tableItems t := by
  induction t with
  | nil => rfl
  | cons e t ih =>
    rw [replaceRecord_cons]
    cases e with
    | none => simpa [tableItems] using ih
    | some r0 =>
      by_cases hx : r0.item = r.item
      · simpa [tableItems, hx] using ih
      · simpa [tableItems, hx] using ih

theorem tableItems_replace_none_sublist (x : Item) (t : List (Option Record)) :
    (tableItems (replaceRecord x none t)).Sublist (tableItems t) := by
  induction t with
  | nil => exact .slnil
  | cons e t ih =>
    rw [replaceRecord_cons]
    cases e with
    | none => simpa [tableItems] using ih
    | some r0 =>
      by_cases hx : r0.item = x
      · simpa [tableItems, hx] using ih.cons _
      · simpa [tableItems, hx] using ih

/-- A record put in a FREE position adds its item. -/
theorem tableItems_set_perm {t : List (Option Record)} {i : Nat} (r : Record) (free : t[i]? = some none) :
    (tableItems (t.set i (some r))).Perm (r.item :: tableItems t) := by
  induction t generalizing i with
  | nil => simp at free
  | cons e t ih =>
    cases i with
    | zero =>
      obtain rfl : e = none := by simpa using free
      simp [tableItems]
    | succ i =>
      have rest := ih (i := i) (by simpa using free)
      cases e with
      | none => simpa [tableItems] using rest
      | some r0 =>
        have swap := (rest.cons r0.item).trans (.swap _ _ _)
        simpa [tableItems] using swap

theorem mem_replaceRecord {x : Item} {o e : Option Record} {t : List (Option Record)} (h : e ∈ replaceRecord x o t) : e = o ∨ e ∈ t := by
  obtain ⟨e0, he, rfl⟩ := List.mem_map.1 h
  split
  · exact .inl rfl
  · exact .inr he

theorem mem_table_of_record? {s : State} {x : Item} {r : Record} (h : s.record? x = some r) : some r ∈ s.table := mem_of_findRecord h

/-! ### The Snoop Directory (R92) -/

/-- What a directory must be: at most 64 entries, no two for one item (R92). -/
def DirectoryFits (d : List DirEntry) : Prop := d.length ≤ directorySize ∧ (directoryItems d).Nodup

theorem dirEntry_eq_none {x : Item} {d : List DirEntry} : dirEntry x d = none ↔ x ∉ directoryItems d := by
  simp [dirEntry, directoryItems]

theorem dirEntry_mem {x : Item} {d : List DirEntry} {e : DirEntry} (h : dirEntry x d = some e) : x ∈ directoryItems d := by
  by_contra hx
  rw [dirEntry_eq_none.2 hx] at h
  cases h

theorem not_mem_dirRemove (x : Item) (d : List DirEntry) : x ∉ directoryItems (dirRemove x d) := by
  simp [directoryItems, dirRemove]

theorem dirRemove_sublist (x : Item) (d : List DirEntry) : (dirRemove x d).Sublist d := List.filter_sublist

theorem DirectoryFits.sublist {d d' : List DirEntry} (h : DirectoryFits d) (sub : d'.Sublist d) : DirectoryFits d' :=
  ⟨sub.length_le.trans h.1, h.2.sublist (sub.map _)⟩

/-- Where an item's entry is put, what stays of the others leaves room and names none of them twice. -/
theorem dirPut_eq (x : Item) (lead : Nat) (now : Clock) (d : List DirEntry) : ∃ rest, dirPut x lead now d = rest ++ [⟨x, lead, now⟩] ∧
    rest.Sublist (dirRemove x d) ∧ (d.length ≤ directorySize → rest.length < directorySize) := by
  refine ⟨_, rfl, ?_, ?_⟩
  · split
    · exact List.drop_sublist _ _
    · exact List.Sublist.refl _
  · intro bounded
    have atMost : (dirRemove x d).length ≤ d.length := (dirRemove_sublist x d).length_le
    have size : directorySize = 64 := rfl
    split
    · rw [List.length_drop]; omega
    · next notFull =>
      by_cases hx : dirEntry x d = none
      · have : d.length < directorySize := by simpa [hx] using notFull
        omega
      · obtain ⟨e, he⟩ := Option.ne_none_iff_exists'.1 hx
        obtain ⟨e, hmem, heq⟩ := List.mem_map.1 (dirEntry_mem he)
        have shorter : (dirRemove x d).length < d.length :=
          List.length_filter_lt_length_iff_exists.2 ⟨e, hmem, by simpa using heq⟩
        omega

theorem DirectoryFits.dirPut {d : List DirEntry} (h : DirectoryFits d) (x : Item) (lead : Nat) (now : Clock) :
    DirectoryFits (dirPut x lead now d) := by
  obtain ⟨rest, eq, sub, room⟩ := dirPut_eq x lead now d
  have items : (directoryItems rest).Sublist (directoryItems (dirRemove x d)) := sub.map _
  have fits := h.sublist (sub.trans (dirRemove_sublist x d))
  rw [eq]
  refine ⟨by simpa using room h.1, ?_⟩
  rw [directoryItems, List.map_append, List.nodup_append']
  refine ⟨fits.2, List.nodup_singleton _, ?_⟩
  rw [List.map_singleton, List.disjoint_singleton]
  exact fun hx => not_mem_dirRemove x d (items.subset hx)

theorem mem_dirPut {x y : Item} {lead : Nat} {now : Clock} {d : List DirEntry} (h : y ∈ directoryItems (dirPut x lead now d)) :
    y = x ∨ y ∈ directoryItems d := by
  obtain ⟨rest, eq, sub, -⟩ := dirPut_eq x lead now d
  rw [eq, directoryItems, List.map_append, List.mem_append] at h
  rcases h with h | h
  · exact .inr (((sub.trans (dirRemove_sublist x d)).map _).subset h)
  · exact .inl (by simpa using h)

/-! ### Table and directory, command by command (R90, R92, R93) -/

theorem State.TableBounded.of_table {s t : State} (h : s.TableBounded) (length : t.table.length = s.table.length)
    (samples : ∀ r, some r ∈ t.table → some r ∈ s.table ∨ r.samples.length ≤ listSize) : t.TableBounded :=
  ⟨length.trans h.1, fun r hr => (samples r hr).elim (h.2 r) id⟩

theorem reset_tableBounded : State.reset.TableBounded := ⟨by decide, fun r h => by simp [State.reset] at h⟩

theorem tableBounded_kept : Kept State.TableBounded := by
  constructor
  case toClosedSides =>
    constructor
    case toClosed =>
      constructor
      case count => exact fun k n h => by rwa [State.TableBounded, State.count_table]
      case put =>
        intro s r r0 stored length h
        refine h.of_table (replaceRecord_length _ _ _) fun r' hr' => ?_
        rcases mem_replaceRecord hr' with e | old
        · obtain rfl := Option.some.inj e
          exact .inr (length.trans (max_le (h.2 _ (mem_table_of_record? stored)) le_rfl))
        · exact .inl old
      case free =>
        intro s x h
        refine h.of_table (replaceRecord_length _ _ _) fun r' hr' => ?_
        rcases mem_replaceRecord hr' with e | old
        · cases e
        · exact .inl old
      case create =>
        intro s r i _ _ one h
        refine h.of_table (List.length_set ..) fun r' hr' => ?_
        rcases List.mem_or_eq_of_mem_set hr' with old | e
        · exact .inl old
        · obtain rfl := Option.some.inj e
          exact .inr (one.trans (by decide))
      all_goals (intros; assumption)
    all_goals (intros; assumption)
  case elapse =>
    intro s d h
    refine ⟨(List.length_map _).trans h.1, fun r hr => ?_⟩
    obtain ⟨e, he, eq⟩ := List.mem_map.1 hr
    obtain ⟨r0, rfl, rfl⟩ := Option.map_eq_some_iff.1 eq
    exact h.2 r0 he
  case clear =>
    intro s _ h
    exact ⟨(List.length_map _).trans h.1, fun r hr => by simp [State.hallClear] at hr⟩
  all_goals (intros; assumption)

theorem itemsApart_iff (s : State) : s.ItemsApart ↔
    (tableItems s.table).Nodup ∧ DirectoryFits s.directory ∧ ∀ x ∈ directoryItems s.directory, x ∉ tableItems s.table := by
  simp only [State.ItemsApart, DirectoryFits, and_assoc]

theorem reset_itemsApart : State.reset.ItemsApart := ⟨by decide, by decide, by decide, nofun⟩

theorem itemsApart_kept : Kept State.ItemsApart := by
  constructor
  case toClosedSides =>
    constructor
    case toClosed =>
      constructor
      case count => exact fun k n h => by rwa [State.ItemsApart, State.count_table, State.count_directory]
      case put =>
        intro s r r0 _ _ h
        rwa [State.ItemsApart, State.putRecord_table, tableItems_replace_some]
      case free =>
        rintro s x ⟨nodup, bounded, once, apart⟩
        have sub := tableItems_replace_none_sublist x s.table
        exact ⟨nodup.sublist sub, bounded, once, fun y hy hx => apart y hy (sub.subset hx)⟩
      case create =>
        intro s r i new free _ h
        obtain ⟨nodup, directory, apart⟩ := (itemsApart_iff s).1 h
        have perm := tableItems_set_perm r free
        refine (itemsApart_iff _).2 ⟨?_, directory.sublist (dirRemove_sublist _ _), fun y hy hx => ?_⟩
        · exact perm.nodup_iff.2 (List.nodup_cons.2 ⟨findRecord_eq_none.1 new, nodup⟩)
        · rcases List.mem_cons.1 (perm.mem_iff.1 hx) with rfl | old
          · exact not_mem_dirRemove _ _ hy
          · exact apart y (((dirRemove_sublist _ _).map _).subset hy) old
      case entry =>
        intro s x lead new h
        obtain ⟨nodup, directory, apart⟩ := (itemsApart_iff s).1 h
        refine (itemsApart_iff _).2 ⟨nodup, directory.dirPut _ _ _, fun y hy => ?_⟩
        rcases mem_dirPut hy with rfl | old
        · exact findRecord_eq_none.1 new
        · exact apart y old
      case refresh =>
        intro s x e lead known h
        obtain ⟨nodup, directory, apart⟩ := (itemsApart_iff s).1 h
        refine (itemsApart_iff _).2 ⟨nodup, directory.dirPut _ _ _, fun y hy => ?_⟩
        rcases mem_dirPut hy with rfl | old
        · exact apart _ (dirEntry_mem known)
        · exact apart y old
      case remove =>
        intro s x h
        obtain ⟨nodup, directory, apart⟩ := (itemsApart_iff s).1 h
        exact (itemsApart_iff _).2 ⟨nodup, directory.sublist (dirRemove_sublist _ _), fun y hy =>
          apart y (((dirRemove_sublist _ _).map _).subset hy)⟩
      all_goals (intros; assumption)
    all_goals (intros; assumption)
  case elapse =>
    intro s d h
    have items : tableItems (s.elapse d).table = tableItems s.table := by
      simp only [State.elapse, tableItems, List.filterMap_map]
      refine List.filterMap_congr fun e _ => ?_
      cases e <;> rfl
    rwa [State.ItemsApart, items]
  case clear =>
    intro s _ _
    have empty : tableItems s.hallClear.table = [] := by simp [tableItems, State.hallClear]
    exact ⟨by rw [empty]; exact List.nodup_nil, Nat.zero_le _, List.nodup_nil, nofun⟩
  all_goals (intros; assumption)

/-- Settles O54: every command's meaning is made of changes that keep the table and the directory bounded and their items apart. -/
theorem everyStepKeepsTheTableSound : Obligations.EveryStepKeepsTheTableSound := fun _ _ bounded apart hs =>
  ⟨tableBounded_kept.step reset_tableBounded (fun _ h => h) bounded hs, itemsApart_kept.step reset_itemsApart (fun _ h => h) apart hs⟩

end Sys2Proof.Machine
end

section
/-! PROOFS. The transmit queue's limits (R70, R74, R76) under everything that may become of a queue. -/

namespace Sys2Proof.Machine

/-- What a queue must be, with at most `tx` frames under transmission: the limits of R70, R74 and R76. -/
structure QueueFits (tx : Nat) (q : List QFrame) : Prop where
  length    : q.length ≤ queueSize
  normal    : normalCount q ≤ normalShare
  sights    : (q.filterMap QFrame.sightItem).Nodup
  decisions : (q.filterMap QFrame.decideItem).Nodup
  sized     : ∀ f ∈ q, f.sized = true
  sent      : (q.filter QFrame.underTx).length ≤ tx

theorem queueSound_iff (s : State) : s.QueueSound ↔ QueueFits (if s.line.phase.isSending then 1 else 0) s.line.queue :=
  ⟨fun ⟨h1, h2, h3, h4, h5, h6⟩ => ⟨h1, h2, h3, h4, h5, h6⟩, fun ⟨h1, h2, h3, h4, h5, h6⟩ => ⟨h1, h2, h3, h4, h5, h6⟩⟩

theorem normalCount_append (q q' : List QFrame) : normalCount (q ++ q') = normalCount q + normalCount q' := by
  simp [normalCount]

theorem QueueFits.nil (tx : Nat) : QueueFits tx [] :=
  ⟨by simp, by simp [normalCount], by simp, by simp, by simp, by simp⟩

theorem QueueFits.sublist {tx : Nat} {q q' : List QFrame} (h : QueueFits tx q) (sub : q'.Sublist q) : QueueFits tx q' where
  length := sub.length_le.trans h.length
  normal := (sub.filter _).length_le.trans h.normal
  sights := h.sights.sublist (sub.filterMap _)
  decisions := h.decisions.sublist (sub.filterMap _)
  sized f hf := h.sized f (sub.subset hf)
  sent := (sub.filter _).length_le.trans h.sent

/-- The limits but that on frames under transmission depend on the payloads alone. -/
theorem QueueFits.of_payloads {tx tx' : Nat} {q q' : List QFrame} (h : QueueFits tx q)
    (same : q'.map QFrame.payload = q.map QFrame.payload) (sent : (q'.filter QFrame.underTx).length ≤ tx') : QueueFits tx' q' := by
  have length : q'.length = q.length := by simpa using congrArg List.length same
  have normal : normalCount q' = normalCount q := by
    have view (l : List QFrame) : normalCount l = ((l.map QFrame.payload).filter fun p => !p.urgent).length := by
      rw [normalCount, List.filter_map, List.length_map]; rfl
    rw [view, view, same]
  have items (g : Payload → Option Item) (l : List QFrame) : l.filterMap (fun f => g f.payload) = (l.map QFrame.payload).filterMap g := by
    rw [List.filterMap_map]; rfl
  have sights : q'.filterMap QFrame.sightItem = q.filterMap QFrame.sightItem := by
    have := items fun p => (QFrame.fresh .noRecord p).sightItem
    exact (this q').trans (same ▸ (this q).symm)
  have decisions : q'.filterMap QFrame.decideItem = q.filterMap QFrame.decideItem := by
    have := items fun p => (QFrame.fresh .noRecord p).decideItem
    exact (this q').trans (same ▸ (this q).symm)
  refine ⟨length ▸ h.length, normal ▸ h.normal, sights ▸ h.sights, decisions ▸ h.decisions, fun f hf => ?_, sent⟩
  obtain ⟨g, hg, e⟩ := List.mem_map.1 (same ▸ List.mem_map_of_mem (f := QFrame.payload) hf)
  rw [QFrame.sized_eq, ← e, ← QFrame.sized_eq]
  exact h.sized g hg

theorem forall₂_alike_sights {q q' : List QFrame} (h : List.Forall₂ Alike q q') :
    (q'.filterMap QFrame.sightItem).Sublist (q.filterMap QFrame.sightItem) := by
  induction h with
  | nil => exact .slnil
  | @cons f g q q' fg _ ih =>
    rcases fg.sight with e | e
    · rw [List.filterMap_cons_none e]
      exact ih.trans ((List.sublist_cons_self f q).filterMap _)
    · simp only [List.filterMap_cons, e]
      split
      · exact ih
      · exact ih.cons_cons _

/-- Frames put in place of others that keep class, items and place under transmission keep the limits. -/
theorem QueueFits.alike {tx : Nat} {q q' : List QFrame} (h : QueueFits tx q) (k : List.Forall₂ Alike q q') : QueueFits tx q' := by
  have counts (p : QFrame → Bool) (hp : ∀ f g, Alike f g → p g = p f) : (q'.filter p).length = (q.filter p).length := by
    clear h
    induction k with
    | nil => rfl
    | cons fg _ ih => simp only [List.filter_cons, hp _ _ fg]; split <;> simp [ih]
  have decisions : q'.filterMap QFrame.decideItem = q.filterMap QFrame.decideItem := by
    clear h counts
    induction k with
    | nil => rfl
    | cons fg _ ih => simp only [List.filterMap_cons, fg.decide, ih]
  have sized : ∀ g ∈ q', g.sized = true := by
    have old := h.sized
    clear h counts decisions
    induction k with
    | nil => exact old
    | cons fg _ ih =>
      obtain ⟨first, rest⟩ := List.forall_mem_cons.1 old
      exact List.forall_mem_cons.2 ⟨fg.sized first, ih rest⟩
  exact ⟨k.length_eq ▸ h.length, (counts _ fun f g fg => by rw [fg.urgent]).trans_le h.normal,
    h.sights.sublist (forall₂_alike_sights k), decisions ▸ h.decisions, sized, (counts _ fun f g fg => fg.underTx).trans_le h.sent⟩

theorem forall₂_alike_map (g : QFrame → QFrame) (alike : ∀ f, Alike f (g f)) (q : List QFrame) : List.Forall₂ Alike q (q.map g) :=
  List.forall₂_map_right_iff.2 (List.forall₂_same.2 fun f _ => alike f)

theorem Edited.forall₂ {q q' : List QFrame} {f g : QFrame} (e : Edited q q' f g) (fg : Alike f g) : List.Forall₂ Alike q q' := by
  obtain ⟨⟨a, b, rfl, rfl⟩, -, -⟩ := e
  have same (l : List QFrame) : List.Forall₂ Alike l l := List.forall₂_same.2 fun f _ => Alike.refl f
  exact List.rel_append (same a) (.cons fg (same b))

theorem Edited.mem {q q' : List QFrame} {f g : QFrame} (e : Edited q q' f g) : f ∈ q := by
  obtain ⟨⟨a, b, rfl, -⟩, -⟩ := e
  simp

theorem QueueFits.edited {tx : Nat} {q q' : List QFrame} {f g : QFrame} (h : QueueFits tx q) (e : Edited q q' f g)
    (urgent : g.urgent = f.urgent) (sight : g.sightItem = f.sightItem) (decide : g.decideItem = f.decideItem)
    (sized : f.sized = true → g.sized = true) : QueueFits tx q' :=
  h.alike (e.forall₂ ⟨e.2.2.trans e.2.1.symm, urgent, .inr sight, decide, sized⟩)

/-- An offer taken into a queued frame changes samples, flags and owners within the limits (R76, R77). -/
theorem QueueFits.into {tx : Nat} {q q' : List QFrame} {o : Owner} {p : Payload} {left : List OwnSample} (h : QueueFits tx q)
    (sized : p.sized = true) (into : judgeOffer o p q = .into q' left) : QueueFits tx q' := by
  have merged (a b : List OwnSample) (ha : a.length ≤ frameSamples) :
      (a ++ b.take (frameSamples - a.length)).length ≤ frameSamples := by
    rw [List.length_append, List.length_take]; omega
  rcases judgeOffer_into into with ⟨rfl, -⟩ | ⟨f, n, m, rfl, hf, item, -, e⟩ | ⟨f, n, m, rfl, hf, item, lead, room, -, e⟩ |
    ⟨f, n, m, rfl, hf, item, -, e⟩
  · exact h
  · refine h.edited e ?_ ?_ ?_ fun ok => ?_
    · simp [QFrame.urgent, Payload.urgent, hf]
    · simp [QFrame.sightItem, hf]
    · simp [QFrame.decideItem, hf]
    · simp only [QFrame.sized, hf, decide_eq_true_eq] at ok ⊢
      exact merged _ _ ok
  · refine h.edited e ?_ ?_ ?_ fun ok => ?_
    · simp [QFrame.urgent, Payload.urgent, hf]
    · simp [QFrame.sightItem, hf]
    · simp [QFrame.decideItem, hf]
    · simp only [QFrame.sized, hf, Bool.and_eq_true, decide_eq_true_eq] at ok ⊢
      exact ⟨ok.1.trans (by rw [List.length_append]; omega), merged _ _ ok.2⟩
  · refine h.edited e ?_ ?_ ?_ fun ok => ?_
    · simp [QFrame.urgent, Payload.urgent, hf]
    · simp [QFrame.sightItem, hf]
    · simp [QFrame.decideItem, hf, item]
    · simp [QFrame.sized]

theorem nodup_filterMap_singleton {α β : Type} (g : α → Option β) (a : α) : ([a].filterMap g).Nodup := by
  cases e : g a <;> simp [e]

/-- A fresh frame at the end of a queue with room for it that has no SIGHT and no DECIDE for its item. -/
theorem QueueFits.snoc {tx : Nat} {q : List QFrame} (o : Owner) {p : Payload} (h : QueueFits tx q) (sized : p.sized = true)
    (room : q.length < queueSize) (normal : p.urgent = false → normalCount q < normalShare)
    (sight : ∀ f ∈ q, ∀ m n, p = .sight m → f.payload = .sight n → n.item ≠ m.item)
    (decision : ∀ f ∈ q, ∀ m n, p = .decision m → f.payload = .decision n → n.item ≠ m.item) :
    QueueFits tx (q ++ [QFrame.fresh o p]) where
  length := by simpa using room
  normal := by
    rw [normalCount_append]
    cases urgent : p.urgent with
    | true => simpa [normalCount, QFrame.urgent, QFrame.fresh, urgent] using h.normal
    | false => simpa [normalCount, QFrame.urgent, QFrame.fresh, urgent] using normal urgent
  sights := by
    rw [List.filterMap_append]
    refine List.nodup_append'.2 ⟨h.sights, ?_, fun x hx hx' => ?_⟩
    · exact nodup_filterMap_singleton _ _
    · obtain ⟨f, hf, fx⟩ := List.mem_filterMap.1 hx
      cases p with
      | sight m =>
        obtain rfl : x = m.item := by simpa [QFrame.sightItem, QFrame.fresh] using hx'
        unfold QFrame.sightItem at fx
        split at fx
        · next n hn => exact sight f hf m n rfl hn (Option.some.inj fx)
        · cases fx
      | _ => simp [QFrame.sightItem, QFrame.fresh] at hx'
  decisions := by
    rw [List.filterMap_append]
    refine List.nodup_append'.2 ⟨h.decisions, ?_, fun x hx hx' => ?_⟩
    · exact nodup_filterMap_singleton _ _
    · obtain ⟨f, hf, fx⟩ := List.mem_filterMap.1 hx
      cases p with
      | decision m =>
        obtain rfl : x = m.item := by simpa [QFrame.decideItem, QFrame.fresh] using hx'
        unfold QFrame.decideItem at fx
        split at fx
        · next n hn => exact decision f hf m n rfl hn (Option.some.inj fx)
        · cases fx
      | _ => simp [QFrame.decideItem, QFrame.fresh] at hx'
  sized f hf := by
    rcases List.mem_append.1 hf with old | new
    · exact h.sized f old
    · rw [List.mem_singleton.1 new]; exact sized
  sent := by simpa [QFrame.fresh] using h.sent

/-- An offer that takes a position, with or without a displaced JOIN, keeps the limits (R75, R78). -/
theorem QueueFits.placed {tx : Nat} {q q' : List QFrame} {o : Owner} {p : Payload} {d : Option (JoinMsg × Owner)} (h : QueueFits tx q)
    (sized : p.sized = true) (placed : judgeOffer o p q = .placed q' d) : QueueFits tx q' := by
  obtain ⟨sight, decision, ⟨-, rfl, room, normal⟩ | ⟨a, f, b, m, notUrgent, -, rfl, rfl, hf, -⟩⟩ := judgeOffer_placed placed
  · exact h.snoc o sized room normal sight decision
  · have sub : (a ++ b).Sublist (a ++ f :: b) := (List.sublist_cons_self f b).append_left a
    have length := h.length
    have normal := h.normal
    have joinNormal : f.urgent = false := by simp [QFrame.urgent, Payload.urgent, hf]
    refine (h.sublist sub).snoc o sized ?_ (fun _ => ?_) (fun g hg => sight g (sub.subset hg)) fun g hg => decision g (sub.subset hg)
    · simp only [List.length_append, List.length_cons] at length ⊢; omega
    · simp only [normalCount, List.filter_append, List.filter_cons, joinNormal, Bool.not_false, if_true, List.length_append,
        List.length_cons] at normal ⊢
      omega

theorem dropFirst_sublist {ok : QFrame → Bool} {q q' : List QFrame} (h : dropFirst ok q = some q') : q'.Sublist q := by
  obtain ⟨a, f, b, rfl, rfl, -⟩ := dropFirst_some h
  exact (List.sublist_cons_self f b).append_left a

/-! ### The frame under transmission -/

theorem withoutSent_sublist (q : List QFrame) : (withoutSent q).Sublist q := by
  induction q with
  | nil => exact .slnil
  | cons f q ih =>
    unfold withoutSent
    split
    · exact List.sublist_cons_self f q
    · exact ih.cons_cons f

theorem withoutSent_sent (q : List QFrame) : ((withoutSent q).filter QFrame.underTx).length = (q.filter QFrame.underTx).length - 1 := by
  induction q with
  | nil => rfl
  | cons f q ih => by_cases tx : f.underTx = true <;> simp [withoutSent, tx, ih]

theorem backToWaiting_payloads (q : List QFrame) : (backToWaiting q).map QFrame.payload = q.map QFrame.payload := by
  induction q with
  | nil => rfl
  | cons f q ih => unfold backToWaiting; split <;> simp [ih]

theorem backToWaiting_sent (q : List QFrame) : ((backToWaiting q).filter QFrame.underTx).length = (q.filter QFrame.underTx).length - 1 := by
  induction q with
  | nil => rfl
  | cons f q ih => by_cases tx : f.underTx = true <;> simp [backToWaiting, tx, ih]

theorem startFrame_payloads (f : QFrame) (q : List QFrame) : (startFrame f q).map QFrame.payload = q.map QFrame.payload := by
  induction q with
  | nil => rfl
  | cons g q ih => unfold startFrame; split <;> simp [ih]

theorem startFrame_sent (f : QFrame) (q : List QFrame) :
    ((startFrame f q).filter QFrame.underTx).length ≤ (q.filter QFrame.underTx).length + 1 := by
  induction q with
  | nil => exact Nat.zero_le _
  | cons g q ih =>
    unfold startFrame
    split
    · by_cases tx : g.underTx = true <;> simp [tx]
    · by_cases tx : g.underTx = true <;> simpa [tx] using ih

/-! ### Command by command -/

theorem LinePhase.isSending_elapse (d : Nat) (p : LinePhase) : (p.elapse d).isSending = p.isSending := by cases p <;> rfl

theorem queueSound_setQueue {s : State} {q : List QFrame} (h : s.QueueSound)
    (keeps : ∀ tx, QueueFits tx s.line.queue → QueueFits tx q) : (s.setQueue q).QueueSound :=
  (queueSound_iff _).2 (keeps _ ((queueSound_iff s).1 h))

theorem reset_queueSound : State.reset.QueueSound := (queueSound_iff _).2 (.nil _)

theorem queueSound_kept : Kept State.QueueSound := by
  constructor
  case toClosedSides =>
    constructor
    case toClosed =>
      constructor
      case count => exact fun k n h => by rwa [State.QueueSound, State.count_line]
      case phase =>
        intro s p before after h
        rw [queueSound_iff] at h ⊢
        rw [before] at h
        rw [State.setPhase_line, after]
        exact h
      case into => exact fun sized e h => queueSound_setQueue h fun _ k => k.into sized e
      case placed => exact fun sized e h => queueSound_setQueue h fun _ k => k.placed sized e
      case drop => exact fun e h => queueSound_setQueue h fun _ k => k.sublist (dropFirst_sublist e)
      case alike => exact fun g alike h => queueSound_setQueue h fun _ k => k.alike (forall₂_alike_map g alike _)
      all_goals (intros; assumption)
    all_goals (intros; assumption)
  case elapse =>
    intro s d h
    rw [queueSound_iff] at h ⊢
    rwa [show (s.elapse d).line.phase = s.line.phase.elapse d from rfl, LinePhase.isSending_elapse]
  case clear => exact fun _ _ => (queueSound_iff _).2 (.nil _)
  case start =>
    intro s f a idle h
    rw [queueSound_iff, idle] at h
    refine (queueSound_iff _).2 (h.of_payloads (startFrame_payloads f _) ?_)
    exact (startFrame_sent f _).trans (Nat.succ_le_succ h.sent)
  case finish =>
    intro s p b sending after h
    rw [queueSound_iff, sending] at h
    have kept := h.sublist (withoutSent_sublist _)
    refine (queueSound_iff _).2 { kept with sent := ?_ }
    rw [withoutSent_sent]
    exact (Nat.sub_le_sub_right h.sent 1).trans (Nat.zero_le _)
  case lose =>
    intro s p b sending after h
    rw [queueSound_iff, sending] at h
    refine (queueSound_iff _).2 (h.of_payloads (backToWaiting_payloads _) ?_)
    rw [backToWaiting_sent]
    exact (Nat.sub_le_sub_right h.sent 1).trans (Nat.zero_le _)
  all_goals (intros; assumption)

end Sys2Proof.Machine
end

section
/-! PROOFS. Outside RUNNING the station stands still (R8, R14). -/

namespace Sys2Proof.Machine

/-! ### A station in RUNNING stays in it -/

/-- Start-up is over and the station is in RUNNING, with `y` for its run state, station number and values in force. -/
def State.RunsWith (y : Sys) (s : State) : Prop := s.sys = y ∧ y.phase = .ended

/-- Nothing but FULL_RESET changes the run state and the values in force once start-up has ended. -/
theorem runsWith_kept (y : Sys) : Kept (State.RunsWith y) := by
  constructor
  case toClosedSides =>
    constructor
    case toClosed =>
      constructor
      case count => exact fun k n h => by rwa [State.RunsWith, State.count_sys]
      all_goals (intros; assumption)
    all_goals (intros; assumption)
  case elapse =>
    rintro s d ⟨rfl, ended⟩
    refine ⟨?_, ended⟩
    show { s.sys with phase := s.sys.phase.elapse d } = s.sys
    rw [ended]
    exact congrArg (fun p => { s.sys with phase := p }) ended.symm
  case adopt => rintro s y' t reading ⟨rfl, ended⟩; exact absurd ended reading
  all_goals (intros; assumption)

/-! ### What standing still means -/

/-- What a station outside RUNNING is: the values of a Full Reset in every block but those of start-up, line and REPORT (R8, R14); its REPORTs
are of owners that are `O`, as the Report Unit is. -/
structure State.Still (s : State) (O : Owner → Prop) : Prop where
  clock       : s.time.clock = 0
  seconds     : s.time.seconds = 0
  secondTimer : s.time.secondTimer = none
  coil        : ∀ sd k, (s.coil sd k).state = .idle ∧ (s.coil sd k).faultMark = false ∧ (s.coil sd k).drain = none ∧
    (s.coil sd k).retest = none
  timers      : ∀ sd, (s.coils.get sd).ramp = none ∧ (s.coils.get sd).live = none ∧ (s.coils.get sd).cutWait = none
  claim       : ∀ sd, s.claims.get sd = Claim.reset
  sweep       : ∀ sd, s.sweeps.get sd = Sweep.reset
  lamp        : ∀ sd, s.lamps.get sd = Lamp.reset
  table       : ∀ e ∈ s.table, e = none
  directory   : s.directory = []
  cache       : s.cache = []
  queries     : s.queries = Queries.reset
  hall        : s.hall = ⟨0, none⟩
  sounder     : s.sounder = Sounder.reset
  counters    : s.report.counters = Counters.zero
  queue       : ∀ f ∈ s.line.queue, f.payload = .report ∧ O f.owner
  waiting     : ∀ k ∈ s.line.waiting, k = .report
  unit        : O .reportUnit

/-- Any owner will do. -/
def anyOwner (_ : Owner) : Prop := True

theorem stillUnlessRunning_iff (s : State) : s.StillUnlessRunning ↔
    (s.sys.phase ≠ .ended → s.sys.run ≠ .running) ∧ (s.sys.run ≠ .running → s.Still anyOwner) := by
  constructor
  · rintro ⟨started, still⟩
    refine ⟨started, fun off => ?_⟩
    obtain ⟨clock, seconds, secondTimer, sides, table, directory, cache, queries, hall, sounder, counters, queue, waiting⟩ := still off
    exact ⟨clock, seconds, secondTimer, fun sd => (sides sd).1, fun sd => ⟨(sides sd).2.1, (sides sd).2.2.1, (sides sd).2.2.2.1⟩,
      fun sd => (sides sd).2.2.2.2.1, fun sd => (sides sd).2.2.2.2.2.1, fun sd => (sides sd).2.2.2.2.2.2, table, directory, cache,
      queries, hall, sounder, counters, fun f hf => ⟨queue f hf, trivial⟩, waiting, trivial⟩
  · rintro ⟨started, still⟩
    refine ⟨started, fun off => ?_⟩
    have h := still off
    exact ⟨h.clock, h.seconds, h.secondTimer, fun sd => ⟨h.coil sd, (h.timers sd).1, (h.timers sd).2.1, (h.timers sd).2.2, h.claim sd,
      h.sweep sd, h.lamp sd⟩, h.table, h.directory, h.cache, h.queries, h.hall, h.sounder, h.counters, fun f hf => (h.queue f hf).1, h.waiting⟩

/-- The station is outside RUNNING and stands still. -/
def State.Off (s : State) (O : Owner → Prop) : Prop := s.sys.run ≠ .running ∧ s.Still O

theorem State.Off.sound {s : State} {O : Owner → Prop} (h : s.Off O) : s.StillUnlessRunning :=
  (stillUnlessRunning_iff s).2 ⟨fun _ => h.1, fun _ => { h.2 with queue := fun f hf => ⟨(h.2.queue f hf).1, trivial⟩, unit := trivial }⟩

theorem stillUnlessRunning_of_running {s : State} (run : s.sys.run = .running) (phase : s.sys.phase = .ended) : s.StillUnlessRunning :=
  (stillUnlessRunning_iff s).2 ⟨fun h => absurd phase h, fun h => absurd run h⟩

theorem reset_off {O : Owner → Prop} (unit : O .reportUnit) : State.reset.Off O := by
  refine ⟨nofun, ⟨rfl, rfl, rfl, ?_, ?_, ?_, ?_, ?_, ?_, rfl, rfl, rfl, rfl, rfl, rfl, fun _ hf => absurd hf List.not_mem_nil,
    fun _ hk => absurd hk List.not_mem_nil, unit⟩⟩
  · rintro (_ | _) k <;> rcases coilNumber_cases k with rfl | rfl | rfl | rfl <;> exact ⟨rfl, rfl, rfl, rfl⟩
  · rintro (_ | _) <;> exact ⟨rfl, rfl, rfl⟩
  · rintro (_ | _) <;> rfl
  · rintro (_ | _) <;> rfl
  · rintro (_ | _) <;> rfl
  · exact fun e he => (List.eq_of_mem_replicate he)

section
variable {s : State} {O : Owner → Prop} (h : s.Off O)
include h

/-! ### Nothing is due and no event acts -/

theorem State.Off.record? (x : Item) : s.record? x = none := by
  refine findRecord_eq_none.2 fun hx => ?_
  obtain ⟨r, hr, -⟩ := mem_tableItems.1 hx
  cases h.2.table _ hr

theorem State.Off.lead? (x : Item) : s.lead? x = none := by rw [State.lead?, h.record? x]

theorem State.Off.acts (sd : Side) : s.acts sd = false := by
  have : (s.sys.run == .running) = false := by simpa using h.1
  rw [State.acts, this, Bool.false_and]

theorem State.Off.count (k : CounterName) (n : Nat) : s.count k n = s := State.count_still h.1 k n

theorem State.Off.tick : s.tick = s := by simp [State.tick, h.2.secondTimer, isDue]

theorem State.Off.expireCache : s.expireCache = s := by
  rw [State.expireCache, h.2.cache]
  show s.setCache [] = s
  rw [← h.2.cache]; rfl

theorem State.Off.rampEnds (sd : Side) (level : Byte) : s.rampEnds sd level = s := by
  simp [State.rampEnds, (h.2.timers sd).1, isDue]

theorem State.Off.liveEnds (sd : Side) : s.liveEnds sd = s := by simp [State.liveEnds, (h.2.timers sd).2.1]

theorem State.Off.driveLost (sd : Side) (k : CoilNumber) : s.driveLost sd k = s := by
  have idle : ((s.coils.get sd).coils.get k).state = .idle := (h.2.coil sd k).1
  simp [State.driveLost, idle]

theorem State.Off.drainEnds (sd : Side) (k : CoilNumber) : s.drainEnds sd k = s := by
  simp [State.drainEnds, (h.2.coil sd k).2.2.1, isDue]

theorem State.Off.cutWaitEnds (sd : Side) : s.cutWaitEnds sd = s := by simp [State.cutWaitEnds, (h.2.timers sd).2.2, isDue]

theorem State.Off.retestEnds (sd : Side) (k : CoilNumber) : s.retestEnds sd k = s := by
  simp [State.retestEnds, (h.2.coil sd k).2.2.2, isDue]

theorem State.Off.claimWaitEnds (sd : Side) : s.claimWaitEnds sd = s := by simp [State.claimWaitEnds, h.2.claim sd, Claim.reset, isDue]

theorem State.Off.holdTimerEnds (sd : Side) : s.holdTimerEnds sd = s := by simp [State.holdTimerEnds, h.2.claim sd, Claim.reset, isDue]

theorem State.Off.restEnds (sd : Side) : s.restEnds sd = s := by simp [State.restEnds, h.2.claim sd, Claim.reset, isDue]

theorem State.Off.gapEnds (sd : Side) : s.gapEnds sd = s := by simp [State.gapEnds, h.2.sweep sd, Sweep.reset, isDue]

theorem State.Off.slotEnds (sd : Side) (o : SlotOutcome) : s.slotEnds sd o = s := by simp [State.slotEnds, h.2.sweep sd, Sweep.reset]

theorem State.Off.dozes (sd : Side) : s.dozes sd = s := by simp [State.dozes, h.2.sweep sd, Sweep.reset, isDue]

theorem State.Off.beamSettles (sd : Side) (bm : Beam) : s.beamSettles sd bm = s := by
  cases bm <;> simp [State.beamSettles, h.2.sweep sd, Sweep.reset, PerBeam.get, isDue]

theorem State.Off.soleExpires (x : Item) : s.soleExpires x = s := by simp [State.soleExpires, h.record? x]

theorem State.Off.patienceEnds (x : Item) : s.patienceEnds x = s := by simp [State.patienceEnds, h.record? x]

theorem State.Off.directoryExpires (x : Item) : s.directoryExpires x = s := by simp [State.directoryExpires, h.2.directory, dirEntry]

theorem State.Off.closeExpires (x : Item) : s.closeExpires x = s := by simp [State.closeExpires, h.record? x]

theorem State.Off.quietEnds (x : Item) : s.quietEnds x = s := by simp [State.quietEnds, h.lead? x]

theorem State.Off.dwellReached (x : Item) : s.dwellReached x = s := by simp [State.dwellReached, h.lead? x]

theorem State.Off.holdEnds (x : Item) : s.holdEnds x = s := by simp [State.holdEnds, h.lead? x]

theorem State.Off.hallSettles : s.hallSettles = s := by simp [State.hallSettles, h.2.hall, isDue]

theorem State.Off.lampHoldEnds (sd : Side) : s.lampHoldEnds sd = s := by simp [State.lampHoldEnds, h.2.lamp sd, Lamp.reset]

theorem State.Off.holderExpires (sd : Side) (x : Item) : s.holderExpires sd x = s := by
  simp [State.holderExpires, h.2.lamp sd, Lamp.reset]

theorem State.Off.flashEnds (sd : Side) : s.flashEnds sd = s := by simp [State.flashEnds, h.2.lamp sd, Lamp.reset]

theorem State.Off.cadenceEnds : s.cadenceEnds = s := by simp [State.cadenceEnds, h.2.sounder, Sounder.reset, SounderState.due]

/-! ### What may change outside RUNNING -/

theorem State.Off.setPhase (p : LinePhase) : (s.setPhase p).Off O := ⟨h.1, { h.2 with }⟩

theorem State.Off.setBackoff (b : Bool) : (s.setBackoff b).Off O := ⟨h.1, { h.2 with }⟩

theorem State.Off.setQueue {q : List QFrame} (reports : ∀ f ∈ q, f.payload = .report ∧ O f.owner) : (s.setQueue q).Off O :=
  ⟨h.1, { h.2 with queue := reports }⟩

theorem State.Off.setWaiting {w : List WaitKey} (report : ∀ k ∈ w, k = .report) : (s.setWaiting w).Off O :=
  ⟨h.1, { h.2 with waiting := report }⟩

theorem State.Off.setReport {r : ReportUnit} (zero : r.counters = Counters.zero) : (s.setReport r).Off O :=
  ⟨h.1, { h.2 with counters := zero }⟩

theorem State.Off.pins (p : Pins) : { s with pins := p }.Off O := ⟨h.1, { h.2 with }⟩

theorem State.Off.pending (q : List Instr) : { s with pending := q }.Off O := ⟨h.1, { h.2 with }⟩

theorem State.Off.sys {y : Sys} (off : y.run ≠ .running) : { s with sys := y }.Off O := ⟨off, { h.2 with }⟩

theorem State.Off.elapse (d : Nat) : (s.elapse d).Off O := by
  have still := h.2
  have coils (sd : Side) : (s.elapse d).coils.get sd = (s.coils.get sd).elapse d := by cases sd <;> rfl
  have coil (sd : Side) (k : CoilNumber) : (s.elapse d).coil sd k = (s.coil sd k).elapse d := by
    rw [State.coil, coils sd]; exact Quad.get_map _ _ _
  have time : (s.elapse d).time = s.time := by
    have : (s.sys.run == .running) = false := by simpa using h.1
    show s.time.elapse d (s.sys.run == .running) = s.time
    rw [this]; rfl
  refine ⟨h.1, ⟨time ▸ still.clock, time ▸ still.seconds, time ▸ still.secondTimer, fun sd k => ?_, fun sd => ?_, fun sd => ?_, fun sd => ?_,
    fun sd => ?_, fun e he => ?_, still.directory, still.cache, still.queries, ?_, ?_, still.counters, still.queue, still.waiting, still.unit⟩⟩
  · obtain ⟨state, mark, drain, retest⟩ := still.coil sd k
    rw [coil sd k]
    exact ⟨state, mark, by rw [Coil.elapse, drain]; rfl, by rw [Coil.elapse, retest]; rfl⟩
  · obtain ⟨ramp, live, cutWait⟩ := still.timers sd
    rw [coils sd, CoilUnit.elapse, ramp, live, cutWait]
    exact ⟨rfl, rfl, rfl⟩
  · have := still.claim sd
    cases sd <;> exact (congrArg (Claim.elapse d) this).trans rfl
  · have := still.sweep sd
    cases sd <;> exact (congrArg (Sweep.elapse d) this).trans rfl
  · have := still.lamp sd
    cases sd <;> exact (congrArg (Lamp.elapse d) this).trans rfl
  · obtain ⟨e0, he0, rfl⟩ := List.mem_map.1 he
    rw [still.table e0 he0]; rfl
  · exact (congrArg (fun u : Hall => { u with timer := runDown d u.timer }) still.hall).trans rfl
  · exact (congrArg (fun u : Sounder => { u with state := u.state.elapse d }) still.sounder).trans rfl

theorem State.Off.advance (us : Nat) : (s.advance us).Off O := h.elapse _

theorem State.Off.hallChanges (value : BitVec 2) : (s.hallChanges value).Off O := by
  unfold State.hallChanges
  split
  · exact h
  · dsimp only
    rw [if_neg h.1]
    exact h.pins _

theorem State.Off.beamChanges (sd : Side) (bm : Beam) (broken : Bool) : (s.beamChanges sd bm broken).Off O := by
  unfold State.beamChanges
  dsimp only
  rw [h.acts sd]
  split
  · exact h
  · exact h.pins _

/-! ### The REPORT on the line -/

theorem State.Off.giveUp (k : WaitKey) : (s.giveUp k).Off O := h.setWaiting fun j hj => h.2.waiting j (List.mem_of_mem_filter hj)

/-- Among REPORTs alone an offered REPORT takes a position at the end, with no JOIN displaced, or is refused. -/
theorem State.Off.offerReport : s.offerReport.1.Off O := by
  have offered : (s.offer (some .report) .reportUnit .report).1.Off O := by
    unfold State.offer
    cases judged : judgeOffer .reportUnit .report s.line.queue with
    | into q left =>
      obtain ⟨rfl, -⟩ | ⟨_, _, _, e, -⟩ | ⟨_, _, _, e, -⟩ | ⟨_, _, _, e, -⟩ := judgeOffer_into judged
      · exact (h.setQueue h.2.queue).giveUp .report
      all_goals cases e
    | placed q d =>
      obtain ⟨-, -, ⟨rfl, rfl, -⟩ | ⟨a, f, b, m, -, -, e, -, hf, -⟩⟩ := judgeOffer_placed judged
      · refine (h.setQueue fun f hf => ?_).giveUp .report
        rcases List.mem_append.1 hf with old | new
        · exact h.2.queue f old
        · rw [List.mem_singleton.1 new]; exact ⟨rfl, h.2.unit⟩
      · have := (h.2.queue f (by rw [e]; simp)).1
        rw [hf] at this
        cases this
    | refused =>
      show (s.enterWaiting .report).Off O
      unfold State.enterWaiting
      split
      · exact h
      · refine h.setWaiting fun k hk => ?_
        rcases List.mem_append.1 hk with old | new
        · exact h.2.waiting k old
        · exact List.mem_singleton.1 new
  exact offered.setReport offered.2.counters

theorem State.Off.takePoll (clear : Bool) : (s.takePoll clear).Off O := by
  unfold State.takePoll
  split
  · exact (h.setReport (r := { s.report with clear := clear }) h.2.counters).offerReport
  all_goals exact h.setReport h.2.counters

omit h in
theorem State.Off.walkList (ks : List WaitKey) {s : State} (h : s.Off O) (report : ∀ k ∈ ks, k = .report) : (State.walkList ks s).Off O := by
  induction ks generalizing s with
  | nil => exact h
  | cons k ks ih =>
    obtain ⟨rfl, rest⟩ := List.forall_mem_cons.1 report
    have asked : (s.askAgain .report).1.Off O := by
      unfold State.askAgain
      dsimp only
      split
      · exact h.offerReport
      · exact h.giveUp _
    unfold State.walkList
    split
    · dsimp only
      split
      · exact asked
      · exact ih asked rest
    · exact ih h rest

theorem State.Off.walk : s.walk.Off O := by
  refine State.Off.walkList _ h fun k hk => ?_
  rcases List.mem_append.1 hk with hk | hk <;> exact h.2.waiting k (List.mem_of_mem_filter hk)

omit h in
theorem State.Off.removeLoop (ok : QFrame → Bool) (fuel : Nat) {s : State} (h : s.Off O) : (State.removeLoop ok fuel s).Off O := by
  induction fuel generalizing s with
  | zero => exact h
  | succ fuel ih =>
    unfold State.removeLoop
    split
    · exact h
    · next q hq => exact ih (h.setQueue fun f hf => h.2.queue f ((dropFirst_sublist hq).subset hf)).walk

omit h in
/-- A frame keeps its payload and its owner at the start of an attempt, and at its loss. -/
theorem startFrame_old {f g : QFrame} {q : List QFrame} (hg : g ∈ startFrame f q) :
    ∃ g0 ∈ q, g0.payload = g.payload ∧ g0.owner = g.owner := by
  induction q with
  | nil => cases hg
  | cons e q ih =>
    unfold startFrame at hg
    split at hg <;> rcases List.mem_cons.1 hg with rfl | hg
    · exact ⟨e, List.mem_cons_self, rfl, rfl⟩
    · exact ⟨g, List.mem_cons_of_mem _ hg, rfl, rfl⟩
    · exact ⟨g, List.mem_cons_self, rfl, rfl⟩
    · obtain ⟨g0, hg0, same⟩ := ih hg
      exact ⟨g0, List.mem_cons_of_mem _ hg0, same⟩

omit h in
theorem backToWaiting_old {g : QFrame} {q : List QFrame} (hg : g ∈ backToWaiting q) :
    ∃ g0 ∈ q, g0.payload = g.payload ∧ g0.owner = g.owner := by
  induction q with
  | nil => cases hg
  | cons e q ih =>
    unfold backToWaiting at hg
    split at hg <;> rcases List.mem_cons.1 hg with rfl | hg
    · exact ⟨e, List.mem_cons_self, rfl, rfl⟩
    · exact ⟨g, List.mem_cons_of_mem _ hg, rfl, rfl⟩
    · exact ⟨g, List.mem_cons_self, rfl, rfl⟩
    · obtain ⟨g0, hg0, same⟩ := ih hg
      exact ⟨g0, List.mem_cons_of_mem _ hg0, same⟩

theorem State.Off.attemptStarts : s.attemptStarts.Off O := by
  unfold State.attemptStarts
  split
  · next f _ =>
    have started : { s with line := { s.line with
        phase := .sending { frame := s.fillFrame f, bytes := frameBytes (s.fillFrame f), left := attemptTime (frameBytes (s.fillFrame f))
                            stamp := s.time.clock }
        queue := startFrame f s.line.queue } }.Off O := by
      refine ⟨h.1, { h.2 with queue := fun g hg => ?_ }⟩
      obtain ⟨g0, hg0, payload, owner⟩ := startFrame_old hg
      exact payload ▸ owner ▸ h.2.queue g0 hg0
    unfold State.startAttempt
    dsimp only
    split
    · exact started.setReport started.2.counters
    all_goals exact started
  · exact h

omit h in
theorem sentFrame_mem {q : List QFrame} {f : QFrame} (h : sentFrame q = some f) : f ∈ q ∧ f.underTx = true :=
  ⟨List.mem_of_find?_eq_some h, by simpa using List.find?_some h⟩

theorem State.Off.withoutSent : (s.setQueue (withoutSent s.line.queue)).Off O :=
  h.setQueue fun f hf => h.2.queue f ((withoutSent_sublist _).subset hf)

/-- A completed REPORT takes nothing off counters that stand at zero (R170). -/
theorem State.Off.reportSent : s.reportSent.Off O := by
  refine h.setReport ?_
  dsimp only
  rw [h.2.counters]
  split
  · simp [Counters.minus, Counters.zero]
  · rfl

theorem State.Off.reportDropped : s.reportDropped.Off O := h.setReport h.2.counters

theorem State.Off.transmitCompletes : s.transmitCompletes.Off O := by
  unfold State.transmitCompletes
  split
  · split
    · unfold State.complete
      have idle := (h.setPhase (.idle 0)).setBackoff false
      dsimp only
      split
      · next f hf =>
        have report := (h.2.queue f (sentFrame_mem hf).1).1
        simp only [State.frameSent, State.afterSent, report]
        exact (idle.withoutSent.reportSent).walk
      · exact idle
    · exact h
  all_goals exact h

theorem State.Off.dropSent {f : QFrame} (report : f.payload = .report) : (s.dropSent f).Off O := by
  have gone := h.withoutSent
  simp only [State.dropSent, State.frameDropped, State.soleLeaving, State.afterDropped, report]
  rw [gone.count]
  exact gone.reportDropped.walk

/-- What was held on a REPORT under transmission removes REPORTs or converts nothing. -/
theorem State.Off.carryOut {f : QFrame} (report : f.payload = .report) : (s.carryOut f).Off O := by
  unfold State.carryOut
  split
  · exact h
  · simp only [State.soleLeaving, report]
    exact h.removeLoop _ _
  · dsimp only
    refine (h.setQueue fun g hg => ?_).removeLoop _ _
    obtain ⟨g0, hg0, rfl⟩ := List.mem_map.1 hg
    have old := h.2.queue g0 hg0
    split
    · rw [convertFrame, old.1]; exact old
    · exact old

theorem State.Off.contentionLost : s.contentionLost.Off O := by
  unfold State.contentionLost
  split
  · split
    · next a _ _ =>
      unfold State.loseContention
      have receiving := (h.setPhase (.receiving a.stamp)).setBackoff true
      dsimp only
      split
      · next f hf =>
        have report := (h.2.queue f (sentFrame_mem hf).1).1
        split
        · exact receiving.dropSent report
        · refine (receiving.setQueue fun g hg => ?_).carryOut report
          obtain ⟨g0, hg0, payload, owner⟩ := backToWaiting_old hg
          exact payload ▸ owner ▸ h.2.queue g0 hg0
      · exact receiving
    · exact h
  all_goals exact h

theorem State.Off.badFrameEnds (raw : RawFrame) : (s.badFrameEnds raw).Off O := by
  unfold State.badFrameEnds
  split
  · split
    · rw [(h.setPhase (.idle 0)).count]; exact h.setPhase _
    · exact h
  all_goals exact h

theorem State.Off.frameBegins : s.frameBegins.Off O := by
  unfold State.frameBegins
  split
  · exact h.setPhase _
  all_goals exact h

/-- Of a frame heard outside RUNNING only what CONFIG FAULT makes of it is left (R14). -/
theorem State.Off.takeFrame {sender : Address} {b : Body} {act : Clock → State → State} {fault : State → State}
    (keeps : ∀ {t : State}, t.Off O → (fault t).Off O) : (s.takeFrame sender b act fault).Off O := by
  unfold State.takeFrame
  split
  · dsimp only
    split
    · next run => exact absurd run h.1
    · exact keeps (h.setPhase _)
    · exact h.setPhase _
  all_goals exact h

theorem State.Off.pollInFault (sender : Address) (b : PollBody) : (s.pollInFault sender b).Off O := by
  unfold State.pollInFault
  split
  · exact h.takePoll _
  · exact h

/-! ### Start-up -/

theorem State.Off.enterFault : s.enterFault.Off O := h.sys nofun

theorem State.Off.startUp (straps : StationNumber) : (s.startUp straps).Off O := by
  unfold State.startUp
  split
  · exact h.sys h.1
  · exact h

theorem State.Off.readFails : s.readFails.Off O := by
  unfold State.readFails
  split
  · split
    · exact h.sys h.1
    · exact h.enterFault
  all_goals exact h

theorem State.Off.retryEnds : s.retryEnds.Off O := by
  unfold State.retryEnds
  split
  · split
    · exact h.sys h.1
    · exact h
  all_goals exact h

theorem State.Off.listen : s.listen.Off O := by
  unfold State.listen
  split
  · exact h.setPhase _
  · exact h

/-- A read that completes leads to RUNNING, or the station still stands. -/
theorem State.Off.readCompletes (image : List Byte) : (s.readCompletes image).StillUnlessRunning := by
  unfold State.readCompletes
  split
  · split
    · unfold State.takeImage
      split
      · dsimp only
        split
        · exact stillUnlessRunning_of_running (by rw [enterRunning_sys]) (by rw [enterRunning_sys])
        · exact (State.Off.enterFault (h.sys h.1)).sound
      · exact h.enterFault.sound
    · exact h.sound
  all_goals exact h.sound

/-! ### Every command -/

/-- Every command but the end of a read attempt leaves the station outside RUNNING, standing still. -/
theorem State.Off.exec {c : Instr} (unread : ∀ a bs, c ≠ .readAttemptComplete a bs) : ∃ t, exec c s = .next t ∧ t.Off O := by
  have still := h.advance c.after
  cases c with
  | fullReset a => exact ⟨_, rfl, ((reset_off h.2.unit).pins s.pins).pending s.pending⟩
  | startUp a n => exact ⟨_, rfl, still.startUp n⟩
  | readAttemptFail a => exact ⟨_, rfl, still.readFails⟩
  | retryWaitEnd a => exact ⟨_, rfl, still.retryEnds⟩
  | readAttemptComplete a bs => exact absurd rfl (unread a bs)
  | startupIdleGap a => exact ⟨_, rfl, still.listen⟩
  | secondsTick a => exact ⟨_, rfl, still.tick.symm ▸ still⟩
  | noticeExpiry a => exact ⟨_, rfl, still.expireCache.symm ▸ still⟩
  | rampEnd a sd v => exact ⟨_, rfl, (still.rampEnds sd v).symm ▸ still⟩
  | liveLimit a sd => exact ⟨_, rfl, (still.liveEnds sd).symm ▸ still⟩
  | driveLoss a sd k => exact ⟨_, rfl, (still.driveLost sd k).symm ▸ still⟩
  | drainEnd a sd k => exact ⟨_, rfl, (still.drainEnds sd k).symm ▸ still⟩
  | cutWaitEnd a sd => exact ⟨_, rfl, (still.cutWaitEnds sd).symm ▸ still⟩
  | retestEnd a sd k => exact ⟨_, rfl, (still.retestEnds sd k).symm ▸ still⟩
  | claimWaitEnd a sd => exact ⟨_, rfl, (still.claimWaitEnds sd).symm ▸ still⟩
  | claimHoldTimerEnd a sd => exact ⟨_, rfl, (still.holdTimerEnds sd).symm ▸ still⟩
  | restTimerEnd a sd => exact ⟨_, rfl, (still.restEnds sd).symm ▸ still⟩
  | gapEnd a sd => exact ⟨_, rfl, (still.gapEnds sd).symm ▸ still⟩
  | slotEnd a sd o => exact ⟨_, rfl, (still.slotEnds sd o).symm ▸ still⟩
  | dozeTimerEnd a sd => exact ⟨_, rfl, (still.dozes sd).symm ▸ still⟩
  | beamInputChange a sd bm br => exact ⟨_, rfl, still.beamChanges sd bm br⟩
  | beamDebounceEnd a sd bm => exact ⟨_, rfl, (still.beamSettles sd bm).symm ▸ still⟩
  | attemptStart a => exact ⟨_, rfl, still.attemptStarts⟩
  | contentionLost a => exact ⟨_, rfl, still.contentionLost⟩
  | transmitComplete a => exact ⟨_, rfl, still.transmitCompletes⟩
  | badFrame a raw => exact ⟨_, rfl, still.badFrameEnds raw⟩
  | solePatienceEnd a x => exact ⟨_, rfl, (still.soleExpires x).symm ▸ still⟩
  | patienceTimerEnd a x => exact ⟨_, rfl, (still.patienceEnds x).symm ▸ still⟩
  | directoryExpiry a x => exact ⟨_, rfl, (still.directoryExpires x).symm ▸ still⟩
  | closeHoldEnd a x => exact ⟨_, rfl, (still.closeExpires x).symm ▸ still⟩
  | quietTimerEnd a x => exact ⟨_, rfl, (still.quietEnds x).symm ▸ still⟩
  | dwellReached a x => exact ⟨_, rfl, (still.dwellReached x).symm ▸ still⟩
  | holdTimerEnd a x => exact ⟨_, rfl, (still.holdEnds x).symm ▸ still⟩
  | hallLevelInputChange a v => exact ⟨_, rfl, still.hallChanges v⟩
  | hallLevelDebounceEnd a => exact ⟨_, rfl, still.hallSettles.symm ▸ still⟩
  | lampHoldEnd a sd => exact ⟨_, rfl, (still.lampHoldEnds sd).symm ▸ still⟩
  | holderExpiry a sd x => exact ⟨_, rfl, (still.holderExpires sd x).symm ▸ still⟩
  | flashPhaseEnd a sd => exact ⟨_, rfl, (still.flashEnds sd).symm ▸ still⟩
  | cadenceTimerEnd a => exact ⟨_, rfl, still.cadenceEnds.symm ▸ still⟩
  | heardPoll a y b => exact ⟨_, rfl, still.takeFrame fun k => k.pollInFault y b⟩
  | sofStamp a => exact ⟨_, rfl, still.frameBegins⟩
  | heardClaim | heardDefer | heardRelease | heardSight | heardJoin | heardDecide | heardQuery | heardReport | heardIssue | heardReturn
  | heardAnswer | heardClearHall => exact ⟨_, rfl, still.takeFrame id⟩

end

/-- In RUNNING every command but FULL_RESET keeps the run state; FULL_RESET gives the values of a Full Reset. -/
theorem exec_stillUnlessRunning_of_running {s : State} (run : s.sys.run = .running) (phase : s.sys.phase = .ended) (c : Instr) :
    ∃ t, exec c s = .next t ∧ t.StillUnlessRunning := by
  by_cases reset : ∃ a, c = .fullReset a
  · obtain ⟨a, rfl⟩ := reset
    exact ⟨_, rfl, (((reset_off (O := anyOwner) trivial).pins s.pins).pending s.pending).sound⟩
  · obtain ⟨t, e, sys, -⟩ := (runsWith_kept s.sys).exec c (fun a ha => absurd ⟨a, ha⟩ reset) ⟨rfl, phase⟩
    exact ⟨t, e, stillUnlessRunning_of_running (by rw [sys, run]) (by rw [sys, phase])⟩

theorem exec_stillUnlessRunning {s : State} (h : s.StillUnlessRunning) (c : Instr) : ∃ t, exec c s = .next t ∧ t.StillUnlessRunning := by
  obtain ⟨started, still⟩ := (stillUnlessRunning_iff s).1 h
  by_cases run : s.sys.run = .running
  · exact exec_stillUnlessRunning_of_running run (not_imp_comm.1 started (not_not_intro run)) c
  · have off : s.Off anyOwner := ⟨run, still run⟩
    by_cases read : ∃ a bs, c = .readAttemptComplete a bs
    · obtain ⟨a, bs, rfl⟩ := read
      exact ⟨_, rfl, (off.advance a).readCompletes bs⟩
    · obtain ⟨t, e, ht⟩ := off.exec fun a bs e => read ⟨a, bs, e⟩
      exact ⟨t, e, ht.sound⟩

theorem State.StillUnlessRunning.advance {s : State} (h : s.StillUnlessRunning) (us : Nat) : (s.advance us).StillUnlessRunning := by
  obtain ⟨started, still⟩ := (stillUnlessRunning_iff s).1 h
  by_cases run : s.sys.run = .running
  · have phase := not_imp_comm.1 started (not_not_intro run)
    obtain ⟨sys, -⟩ := (runsWith_kept s.sys).advance us ⟨rfl, phase⟩
    exact stillUnlessRunning_of_running (by rw [sys, run]) (by rw [sys, phase])
  · exact (State.Off.advance ⟨run, still run⟩ us).sound

/-- Settles O58: a station in RUNNING stays in it but for FULL_RESET, and outside RUNNING nothing is due, no event acts, and the line carries
a REPORT alone. -/
theorem everyStepKeepsTheStationStillUnlessRunning : Obligations.EveryStepKeepsTheStationStillUnlessRunning := by
  intro s t h hs
  unfold step at hs
  split at hs
  · cases hs; exact h.advance _
  · next c cs _ =>
    obtain ⟨u, hu, still⟩ := exec_stillUnlessRunning (s := { s with pending := cs }) h c
    rw [hu] at hs
    cases hs
    exact still

end Sys2Proof.Machine
end

section
/-! PROOFS. How a property of a side's coils and claim passes through the Coil Controller's and the Sweep Scheduler's operations, where it
need not survive every change of a side's records. -/

namespace Sys2Proof.Machine

/-! ### Changes that energise no further coil -/

/-- From `u` to `u'` a sound Coil Controller stays sound and no coil is newly energised. -/
def CoilUnit.Calms (u u' : CoilUnit) : Prop :=
  u.Sound → u'.Sound ∧ ∀ k, (u'.coils.get k).state.energised = true → (u.coils.get k).state.energised = true

theorem energised_of_live {c : CoilState} (h : c = .live) : c.energised = true := by subst h; rfl
theorem energised_of_ramping {c : CoilState} (h : c = .ramping) : c.energised = true := by subst h; rfl

/-- Coil `k` goes off, the others stay; a timer stops only where `k`, the one energised coil, may have needed it. -/
theorem CoilUnit.calms_of_off {u u' : CoilUnit} {k : CoilNumber} (off : (u'.coils.get k).state.energised = false)
    (others : ∀ j, j ≠ k → (u'.coils.get j).state = (u.coils.get j).state)
    (live : u'.live = u.live ∨ (u.coils.get k).state.energised = true ∧ u'.live = none)
    (ramp : u'.ramp = u.ramp ∨ (u.coils.get k).state.energised = true ∧ u'.ramp = none) : u.Calms u' := by
  rintro ⟨unique, liveRuns, rampRuns, limit⟩
  have old (j : CoilNumber) (h : (u'.coils.get j).state.energised = true) : j ≠ k ∧ (u'.coils.get j).state = (u.coils.get j).state := by
    have ne : j ≠ k := by rintro rfl; rw [off] at h; cases h
    exact ⟨ne, others j ne⟩
  refine ⟨⟨fun i j hi hj => ?_, fun j hj => ?_, fun j hj => ?_, fun e he => ?_⟩, fun j hj => (old j hj).2 ▸ hj⟩
  · exact unique i j ((old i hi).2 ▸ hi) ((old j hj).2 ▸ hj)
  · obtain ⟨ne, same⟩ := old j (energised_of_live hj)
    rcases live with e | ⟨hk, -⟩
    · rw [e]; exact liveRuns j (same ▸ hj)
    · exact absurd (unique j k (same ▸ energised_of_live hj) hk) ne
  · obtain ⟨ne, same⟩ := old j (energised_of_ramping hj)
    rcases ramp with e | ⟨hk, -⟩
    · rw [e]; exact rampRuns j (same ▸ hj)
    · exact absurd (unique j k (same ▸ energised_of_ramping hj) hk) ne
  · rcases live with e' | ⟨-, e'⟩
    · exact limit e (e' ▸ he)
    · rw [e'] at he; cases he

/-- Every coil stays in its state; a timer stops only where no coil needs it. -/
theorem CoilUnit.calms_of_same {u u' : CoilUnit} (same : ∀ k, (u'.coils.get k).state = (u.coils.get k).state)
    (live : u'.live = u.live ∨ (∀ k, (u.coils.get k).state ≠ .live) ∧ u'.live = none)
    (ramp : u'.ramp = u.ramp ∨ (∀ k, (u.coils.get k).state ≠ .ramping) ∧ u'.ramp = none) : u.Calms u' := by
  rintro ⟨unique, liveRuns, rampRuns, limit⟩
  refine ⟨⟨fun i j hi hj => unique i j (same i ▸ hi) (same j ▸ hj), fun j hj => ?_, fun j hj => ?_, fun e he => ?_⟩, fun j hj => same j ▸ hj⟩
  · rcases live with e | ⟨none, -⟩
    · rw [e]; exact liveRuns j (same j ▸ hj)
    · exact absurd (same j ▸ hj) (none j)
  · rcases ramp with e | ⟨none, -⟩
    · rw [e]; exact rampRuns j (same j ▸ hj)
    · exact absurd (same j ▸ hj) (none j)
  · rcases live with e' | ⟨-, e'⟩
    · exact limit e (e' ▸ he)
    · rw [e'] at he; cases he

/-- The end of a good ramp: the ramping coil is LIVE, its live timer at 0 (R21). -/
theorem CoilUnit.calms_goodRamp {u : CoilUnit} {k : CoilNumber} {c : Coil} (ramping : (u.coils.get k).state = .ramping)
    (live : c.state = .live) : u.Calms { u with coils := u.coils.set k c, ramp := none, live := some 0 } := by
  rintro ⟨unique, -, -, -⟩
  have hk := energised_of_ramping ramping
  have only (j : CoilNumber) (h : ((u.coils.set k c).get j).state.energised = true) : j = k := by
    by_contra ne
    rw [Quad.get_set_of_ne _ _ ne] at h
    exact ne (unique j k h hk)
  refine ⟨⟨fun i j hi hj => (only i hi).trans (only j hj).symm, fun _ _ => nofun, fun j hj => ?_, fun e he => ?_⟩, fun j hj => only j hj ▸ hk⟩
  · obtain rfl := only j (energised_of_ramping hj)
    rw [Quad.get_set_self, live] at hj
    cases hj
  · cases he; exact Nat.zero_le _

theorem CoilUnit.calms_drained (u : CoilUnit) (d : Nat) (k : CoilNumber) : u.Calms (u.drained d k) := by
  obtain ⟨-, e⟩ | ⟨state, e⟩ | ⟨state, e⟩ := u.drained_spec d k
  · rw [e]; exact fun h => ⟨h, fun _ => id⟩
  · rw [e]
    exact calms_of_off (k := k) (by simp [CoilState.energised]) (fun j ne => by simp [Quad.get_set_of_ne _ _ ne])
      (.inr ⟨energised_of_live state, rfl⟩) (.inl rfl)
  · rw [e]
    exact calms_of_off (k := k) (by simp [CoilState.energised]) (fun j ne => by simp [Quad.get_set_of_ne _ _ ne]) (.inl rfl)
      (.inr ⟨energised_of_ramping state, rfl⟩)

/-- The coil of a stopped ramp timer is drained as if the timer still ran. -/
theorem CoilUnit.drained_stopped {u : CoilUnit} {k : CoilNumber} (ramping : (u.coils.get k).state = .ramping) (d : Nat) :
    { u with ramp := none }.drained d k = u.drained d k := by
  simp [CoilUnit.drained, ramping]

theorem coilIn_some {u : CoilUnit} {c : CoilState} {k : CoilNumber} (h : u.coilIn c = some k) : (u.coils.get k).state = c := by
  simpa using List.find?_some h

theorem coilIn_none {u : CoilUnit} {c : CoilState} (h : u.coilIn c = none) (k : CoilNumber) : (u.coils.get k).state ≠ c := by
  simpa using List.find?_eq_none.1 h k (mem_allCoils k)

/-! ### The changes that the Scheduler's operations are made of -/

/-- The changes that the Coil Controller's and the Scheduler's operations make, each kept by the property: any change of a sweep, a change of
coils that energises none, an activation that R16 allows, a change of a claim but for its state, its sent flag and its wait, and the Lane
Claim Unit's own operations that the Scheduler calls. -/
structure SweepKept (I : State → Prop) : Prop where
  sweep      : ∀ {s : State} (sd : Side) (w : Sweep), I s → I (s.setSweep sd w)
  coils      : ∀ {s : State} (sd : Side) (u : CoilUnit), (s.coils.get sd).Calms u → I s → I (s.setCoils sd u)
  activate   : ∀ {s : State} {sd : Side} {k : CoilNumber}, s.mayActivate sd k = true → I s → I (s.activate sd k)
  claim      : ∀ {s : State} (sd : Side) (c : Claim), c.state = (s.claims.get sd).state → c.sent = (s.claims.get sd).sent →
    c.wait = (s.claims.get sd).wait → I s → I (s.setClaim sd c)
  take       : ∀ {s : State} (sd : Side), (s.claims.get sd).state = .free → I s → I (s.takeRequest sd).1
  endHold    : ∀ {s : State} (sd : Side), I s → I (s.endHold sd)
  giveUpLane : ∀ {s : State} (sd : Side), I s → I (s.giveUpLane sd).1

/-- A property that survives every change of a side survives these. -/
theorem SweepKept.of_closed {I : State → Prop} (C : ClosedSides I) : SweepKept I where
  sweep sd w := C.setSweep sd w
  coils sd u _ := C.setCoils sd u
  activate _ := C.setCoils _ _
  claim sd c _ _ _ := C.setClaim sd c
  take sd _ := C.takeRequest sd
  endHold := C.endHold
  giveUpLane := C.giveUpLane

/-- Two properties that survive these operations survive them together. -/
theorem SweepKept.and {A B : State → Prop} (KA : SweepKept A) (KB : SweepKept B) : SweepKept fun s => A s ∧ B s where
  sweep sd w h := ⟨KA.sweep sd w h.1, KB.sweep sd w h.2⟩
  coils sd u calms h := ⟨KA.coils sd u calms h.1, KB.coils sd u calms h.2⟩
  activate may h := ⟨KA.activate may h.1, KB.activate may h.2⟩
  claim sd c state sent wait h := ⟨KA.claim sd c state sent wait h.1, KB.claim sd c state sent wait h.2⟩
  take sd free h := ⟨KA.take sd free h.1, KB.take sd free h.2⟩
  endHold sd h := ⟨KA.endHold sd h.1, KB.endHold sd h.2⟩
  giveUpLane sd h := ⟨KA.giveUpLane sd h.1, KB.giveUpLane sd h.2⟩

section
variable {I : State → Prop} (K : SweepKept I)
include K

theorem SweepKept.drain {s : State} (sd : Side) (k : CoilNumber) (h : I s) : I (s.drain sd k) := by
  have drained := K.coils sd _ (CoilUnit.calms_drained _ (ms s.sys.cfg.drainTime) k) h
  unfold State.drain
  dsimp only
  split
  · exact K.sweep _ _ drained
  · exact drained

theorem SweepKept.storeQ {s : State} (sd : Side) (k : CoilNumber) (q : Nat) (h : I s) : I (s.storeQ sd k q) := by
  refine K.coils sd _ (CoilUnit.calms_of_same (fun j => ?_) (.inl rfl) (.inl rfl)) h
  by_cases e : j = k
  · subst e; simp [State.coil]
  · simp [Quad.get_set_of_ne _ _ e]

theorem SweepKept.requestLane {s : State} (sd : Side) (h : I s) : I (s.requestLane sd).1 := by
  unfold State.requestLane
  dsimp only
  split
  · next free => exact K.take sd free h
  all_goals exact K.claim sd _ rfl rfl rfl h

theorem SweepKept.claimClash {s : State} (sd : Side) (h : I s) : I (s.claimClash sd) := by
  unfold State.claimClash
  dsimp only
  split
  · exact K.claim sd _ rfl rfl rfl (K.endHold sd h)
  · exact h

theorem SweepKept.reachHere {s : State} (sd : Side) (h : I s) : I (s.reachHere sd).1 := by
  obtain ⟨pos, wait, e | ⟨-, k, may, e⟩⟩ := reachHere_spec s sd
  · rw [e]; exact K.sweep _ _ h
  · rw [e]
    have may' : (s.setSweep sd { s.sweeps.get sd with position := pos, wait := wait }).mayActivate sd k = true := by
      rw [mayActivate_iff] at may ⊢; simpa [State.coil] using may
    exact K.activate may' (K.sweep _ _ h)

theorem SweepKept.startGap {s : State} (sd : Side) (h : I s) : I (s.startGap sd) := K.sweep _ _ h

theorem SweepKept.beginList {s : State} (sd : Side) (h : I s) : I (s.beginList sd) := K.sweep _ _ h

theorem SweepKept.beginSweep {s : State} (sd : Side) (h : I s) : I (s.beginSweep sd) := by
  unfold State.beginSweep
  dsimp only
  split
  · exact K.startGap _ (K.sweep _ _ h)
  · have asked := K.requestLane sd (K.sweep sd { s.sweeps.get sd with state := .claiming, gap := none } h)
    split
    · have reached := K.reachHere sd (K.beginList sd asked)
      split
      · exact K.endHold _ (K.sweep _ _ reached)
      · exact reached
    · exact asked

theorem SweepKept.restTold {s : State} (sd : Side) (h : I s) : I (s.restTold sd) := by
  have gaveUp := K.giveUpLane sd h
  have told (t : State) (ht : I t) : I (if (t.sweeps.get sd).state = .releasing then
      (if ((t.setSweep sd { t.sweeps.get sd with state := .waiting }).sweeps.get sd).priority = true
        then (t.setSweep sd { t.sweeps.get sd with state := .waiting }).beginSweep sd
        else (t.setSweep sd { t.sweeps.get sd with state := .waiting }).startGap sd) else t) := by
    have waiting := K.sweep sd { t.sweeps.get sd with state := .waiting } ht
    split
    · split
      · exact K.beginSweep _ waiting
      · exact K.startGap _ waiting
    · exact ht
  unfold State.restTold
  dsimp only
  refine told _ ?_
  split
  · exact K.reachHere sd (K.beginList sd gaveUp)
  · exact gaveUp

theorem SweepKept.endSweep {s : State} (sd : Side) (reported : Bool) (h : I s) : I (s.endSweep sd reported) := by
  have releasing : I (s.enterReleasing sd) := K.sweep _ _ h
  have told (t : State) (ht : I t) : I (if t.atRest sd then t.restTold sd else t) := by
    split
    · exact K.restTold _ ht
    · exact ht
  unfold State.endSweep
  refine told _ ?_
  split
  · exact K.endHold _ releasing
  · exact releasing

theorem SweepKept.reach {s : State} (sd : Side) (h : I s) : I (s.reach sd) := by
  unfold State.reach
  dsimp only
  split
  · exact K.endSweep _ _ (K.reachHere _ h)
  · exact K.reachHere _ h

theorem SweepKept.moveOn {s : State} (sd : Side) (h : I s) : I (s.moveOn sd) := by
  unfold State.moveOn
  dsimp only
  split
  · split
    · exact K.endSweep _ _ h
    · exact K.reach _ (K.sweep _ _ h)
  · exact h

theorem SweepKept.grant {s : State} (sd : Side) (h : I s) : I (s.grant sd) := by
  unfold State.grant
  split
  · exact K.reach _ (K.sweep _ _ h)
  · exact h

theorem SweepKept.startRound {s : State} (sd : Side) (k : CoilNumber) (q repeats back : Nat) (h : I s) :
    I (s.startRound sd k q repeats back) := by
  have drained := K.drain sd k (K.storeQ sd k back h)
  unfold State.startRound
  dsimp only
  split
  · exact K.sweep _ _ h
  · split
    · exact K.moveOn _ drained
    · exact K.endSweep _ _ drained

theorem SweepKept.weighRound {s : State} (sd : Side) (k : CoilNumber) (r : Round) (last : Bool) (h : I s) :
    I (s.weighRound sd k r last) := by
  unfold State.weighRound
  dsimp only
  split
  · exact K.startRound _ _ _ _ _ (K.sweep _ _ h)
  · exact K.moveOn _ (K.drain _ _ (K.storeQ _ _ _ (K.sweep _ _ h)))

theorem SweepKept.restartNow {s : State} (sd : Side) (h : I s) : I (s.restartNow sd) := by
  have full := K.sweep sd { s.sweeps.get sd with
    list := allCoils, full := true, position := 0, repeats := 0, wait := .none, round := none } h
  unfold State.restartNow
  dsimp only
  split
  · split
    · split
      · exact K.startRound _ _ _ _ _ full
      · exact full
    · exact K.reach _ (K.drain _ _ full)
  · exact K.reach _ full

theorem SweepKept.priorityTrigger {s : State} (sd : Side) (h : I s) : I (s.priorityTrigger sd) := by
  unfold State.priorityTrigger
  dsimp only
  split
  · split
    · exact K.beginSweep _ (K.sweep _ _ h)
    · exact K.sweep _ _ h
    · exact K.sweep _ _ h
    · split
      · exact h
      · split
        · exact K.sweep _ _ h
        · unfold State.restart
          dsimp only
          split
          · exact K.sweep _ _ h
          · exact K.restartNow _ h
  · exact h

theorem SweepKept.provisionalTriggers {s : State} (laneA : Nat) (laneB : Option Nat) (h : I s) : I (s.provisionalTriggers laneA laneB) := by
  have one (t : State) (sd : Side) (ht : I t) : I (if t.lane sd = laneA ∨ some (t.lane sd) = laneB then t.priorityTrigger sd else t) := by
    split
    · exact K.priorityTrigger _ ht
    · exact ht
  exact one _ .R (one _ .L h)

theorem SweepKept.holdExhausted {s : State} (sd : Side) (h : I s) : I (s.holdExhausted sd) := by
  unfold State.holdExhausted
  dsimp only
  split
  · split
    · split
      · exact K.sweep _ _ h
      · exact K.endSweep _ _ h
    · exact K.endSweep _ _ h
  · exact h

theorem SweepKept.startSide {s : State} (sd : Side) (h : I s) : I (s.startSide sd) := by
  unfold State.startSide
  split
  · exact K.beginSweep _ (K.sweep _ _ h)
  · exact h

/-! ### The commands of coils and sweeps -/

theorem SweepKept.rampEnds {s : State} (sd : Side) (level : Byte) (h : I s) : I (s.rampEnds sd level) := by
  unfold State.rampEnds
  dsimp only
  split
  · split
    · next k hk =>
      have ramping : ((s.coils.get sd).coils.get k).state = .ramping := coilIn_some hk
      split
      · unfold State.lowField
        simp only [State.setCoils_coils, PerSide.get_set_self, State.setCoils_setCoils]
        refine K.moveOn sd (K.coils sd _ (CoilUnit.calms_of_off (k := k) ?_ (fun j ne => ?_) (.inl rfl)
          (.inr ⟨energised_of_ramping ramping, rfl⟩)) h)
        · simp [CoilUnit.cut, CoilState.energised]
        · simp [CoilUnit.cut, Quad.get_set_of_ne _ _ ne]
      · split
        · have drained : I ((s.setCoils sd { s.coils.get sd with ramp := none }).drain sd k) := by
            unfold State.drain
            simp only [State.coil, State.setCoils_coils, PerSide.get_set_self, State.setCoils_setCoils, ramping, reduceCtorEq, if_false,
              CoilUnit.drained_stopped ramping]
            exact K.coils sd _ (CoilUnit.calms_drained _ _ k) h
          refine K.claimClash sd ?_
          unfold State.abandonSweep
          split
          · exact K.endSweep _ _ drained
          · exact drained
        · unfold State.goodRamp
          simp only [State.setCoils_coils, PerSide.get_set_self, State.setCoils_setCoils]
          have live := K.coils sd _ (CoilUnit.calms_goodRamp (c := { (s.coils.get sd).coils.get k with state := .live, faultMark := false })
            ramping rfl) h
          split
          · split
            · exact K.endSweep _ _ (K.drain _ _ live)
            · exact K.startRound _ _ _ _ _ live
          · exact live
    · next none =>
      exact K.coils sd _ (CoilUnit.calms_of_same (fun _ => rfl) (.inl rfl) (.inr ⟨coilIn_none none, rfl⟩)) h
  · exact h

theorem SweepKept.afterLoss {s : State} (sd : Side) (stopping : Bool) (h : I s) : I (s.afterLoss sd stopping) := by
  unfold State.afterLoss
  dsimp only
  split
  · exact K.restartNow _ h
  · exact K.moveOn _ h

theorem SweepKept.liveEnds {s : State} (sd : Side) (h : I s) : I (s.liveEnds sd) := by
  unfold State.liveEnds
  dsimp only
  split
  · split
    · split
      · next k _ =>
        have drained := K.coils sd _ (CoilUnit.calms_drained _ (ms s.sys.cfg.drainTime) k) h
        split
        · split
          · exact K.sweep _ _ drained
          · exact K.afterLoss _ _ (K.sweep _ _ drained)
        · exact K.moveOn _ drained
      · next none =>
        exact K.coils sd _ (CoilUnit.calms_of_same (fun _ => rfl) (.inr ⟨coilIn_none none, rfl⟩) (.inl rfl)) h
    · exact h
  · exact h

theorem SweepKept.driveLost {s : State} (sd : Side) (k : CoilNumber) (h : I s) : I (s.driveLost sd k) := by
  unfold State.driveLost
  dsimp only
  split
  · next live =>
    refine K.afterLoss _ _ (K.sweep _ _ (K.coils sd _ (CoilUnit.calms_of_off (k := k) ?_ (fun j ne => ?_)
      (.inr ⟨energised_of_live live, rfl⟩) (.inl rfl)) h))
    · simp [CoilUnit.cut, CoilState.energised]
    · simp [CoilUnit.cut, Quad.get_set_of_ne _ _ ne]
  · exact h

/-- A coil stored with a state that is not energised, or as it was. -/
theorem SweepKept.setCoil {s : State} (sd : Side) (k : CoilNumber) (c : Coil)
    (state : c.state.energised = false ∨ c.state = (s.coil sd k).state) (h : I s) : I (s.setCoil sd k c) := by
  refine K.coils sd _ ?_ h
  rcases state with off | same
  · exact CoilUnit.calms_of_off (k := k) (by simpa using off) (fun j ne => by simp [Quad.get_set_of_ne _ _ ne]) (.inl rfl) (.inl rfl)
  · refine CoilUnit.calms_of_same (fun j => ?_) (.inl rfl) (.inl rfl)
    by_cases e : j = k
    · subst e; rw [Quad.get_set_self]; exact same
    · simp [Quad.get_set_of_ne _ _ e]

theorem SweepKept.tellRest {s : State} (sd : Side) (h : I s) : I (s.tellRest sd) := by
  unfold State.tellRest
  split
  · exact K.restTold _ h
  · exact h

theorem SweepKept.resume {s : State} (sd : Side) (cause : SweepWait) (h : I s) : I (s.resume sd cause) := by
  unfold State.resume
  dsimp only
  split
  · exact K.reach _ h
  · exact h

theorem SweepKept.drainEnds {s : State} (sd : Side) (k : CoilNumber) (h : I s) : I (s.drainEnds sd k) := by
  unfold State.drainEnds
  dsimp only
  split
  · split
    · have rested := K.tellRest sd (K.setCoil sd k { s.coil sd k with state := .idle, drain := none } (.inl rfl) h)
      split
      · exact K.resume _ _ rested
      · exact rested
    · exact K.setCoil _ _ _ (.inr rfl) h
  · exact h

theorem SweepKept.cutWaitEnds {s : State} (sd : Side) (h : I s) : I (s.cutWaitEnds sd) := by
  unfold State.cutWaitEnds
  dsimp only
  split
  · exact K.resume _ _ (K.tellRest _ (K.coils sd _ (CoilUnit.calms_of_same (fun _ => rfl) (.inl rfl) (.inl rfl)) h))
  · exact h

theorem SweepKept.retestEnds {s : State} (sd : Side) (k : CoilNumber) (h : I s) : I (s.retestEnds sd k) := by
  unfold State.retestEnds
  dsimp only
  split
  · refine K.setCoil sd k _ ?_ h
    dsimp only
    split
    · exact .inl rfl
    · exact .inr rfl
  · exact h

theorem SweepKept.gapEnds {s : State} (sd : Side) (h : I s) : I (s.gapEnds sd) := by
  unfold State.gapEnds
  dsimp only
  split
  · split
    · exact K.beginSweep _ (K.sweep _ _ h)
    · exact K.sweep _ _ h
  · exact h

theorem SweepKept.afterSlot {s : State} (sd : Side) (k : CoilNumber) (r : Round) (h : I s) : I (s.afterSlot sd k r) := by
  have none := K.sweep sd { s.sweeps.get sd with round := none } h
  unfold State.afterSlot
  dsimp only
  split
  · split
    · exact K.endSweep _ _ (K.drain _ _ none)
    · exact K.restartNow _ none
  · split
    · exact K.weighRound _ _ _ _ h
    · split
      · exact K.moveOn _ none
      · exact K.sweep _ _ h

theorem SweepKept.slotEnds {s : State} (sd : Side) (o : SlotOutcome)
    (sample : ∀ (k : CoilNumber) (r : Reply) {t : State}, I t → I (t.localSample sd k r)) (h : I s) : I (s.slotEnds sd o) := by
  unfold State.slotEnds
  dsimp only
  split
  · split
    · refine K.afterSlot _ _ _ ?_
      cases o with
      | single r => exact sample _ _ (K.sweep _ _ h)
      | empty => exact h
      | collided => exact h
    · exact h
  · exact h

theorem SweepKept.dozes {s : State} (sd : Side) (h : I s) : I (s.dozes sd) := by
  unfold State.dozes
  dsimp only
  split
  · exact K.sweep _ _ h
  · exact h

theorem SweepKept.beamChanges {s : State} (sd : Side) (bm : Beam) (broken : Bool) (pins : ∀ p, I { s with pins := p }) (h : I s) :
    I (s.beamChanges sd bm broken) := by
  unfold State.beamChanges
  dsimp only
  split
  · exact h
  · split
    · exact K.sweep sd _ (pins _)
    · exact pins _

theorem SweepKept.beamSettles {s : State} (sd : Side) (bm : Beam) (h : I s) : I (s.beamSettles sd bm) := by
  unfold State.beamSettles
  dsimp only
  split
  · split
    · exact K.priorityTrigger _ (K.sweep _ _ (K.sweep _ _ h))
    · exact K.sweep _ _ h
  · exact h

theorem SweepKept.holdTimerEnds {s : State} (sd : Side) (h : I s) : I (s.holdTimerEnds sd) := by
  have stopped := K.claim sd { s.claims.get sd with hold := none } rfl rfl rfl h
  unfold State.holdTimerEnds
  dsimp only
  split
  · split
    · exact K.holdExhausted _ (K.endHold _ stopped)
    · exact stopped
  · exact h

end

end Sys2Proof.Machine
end

section
/-! PROOFS. How a property passes through the operations on records where it need not survive every change of the queue, of the waiting list
and of LEAD records: what it must survive, and that each record operation then keeps it. -/

namespace Sys2Proof.Machine

/-! ### The kinds of owners, payloads and record states -/

/-- The waiting entry of a claim frame. -/
def WaitKey.ofSide : WaitKey → Bool
  | .claim _ | .defer _ | .release _ => true
  | .sight _ | .join _ | .decision _ | .query _ | .report => false

def Owner.isSide : Owner → Bool
  | .side _ => true
  | .record _ | .noRecord | .slot _ | .reportUnit => false

/-- A frame whose offer no record's verdict and no side's claim hangs on. -/
def Payload.plain : Payload → Bool
  | .sight _ | .join _ | .query _ _ _ | .report => true
  | .decision _ | .claim _ | .defer _ | .release _ => false

def RecState.leads : RecState → Bool
  | .lead _ => true
  | .sole _ | .joint _ _ | .closed _ _ => false

/-- A queued frame put in place of another by a held removal, a conversion or the freeing of its record: only the frame of a SIGHT changes its
payload, only a frame that no side owns its owner; a held removal may be added. -/
structure Recast (f g : QFrame) : Prop where
  payload : g.payload = f.payload ∨ ∃ m, f.payload = .sight m ∧ ∃ n, g.payload = .join n
  owner   : g.owner = f.owner ∨ f.owner.isSide = false ∧ g.owner = .noRecord
  asked   : g.asked = f.asked ∨ g.asked = .remove ∨ ∃ m, f.payload = .sight m

theorem Recast.refl (f : QFrame) : Recast f f := ⟨.inl rfl, .inl rfl, .inl rfl⟩

theorem convertFrame_recast (lead : Nat) (f : QFrame) : Recast f (convertFrame lead f) := by
  unfold convertFrame
  split
  · next m hm => exact ⟨.inr ⟨m, hm, _, rfl⟩, .inl rfl, .inr (.inr ⟨m, hm⟩)⟩
  · exact .refl f

/-! ### What must be kept -/

/-- The changes that the offers of records, of query slots and of the Report Unit are made of, each kept by the property. -/
structure OffersKept (I : State → Prop) : Prop where
  request  : ∀ {s : State} (r : ReportRequest) (c : Bool), I s → I (s.setReport { s.report with request := r, clear := c })
  giveUp   : ∀ {s : State} {k : WaitKey}, k.ofSide = false → I s → I (s.giveUp k)
  offer    : ∀ {s : State} {key : Option WaitKey} {o : Owner} {p : Payload}, p.sized = true → p.plain = true → o.isSide = false →
    (∀ k, key = some k → k.ofSide = false) → I s → I (s.offer key o p).1
  put      : ∀ {s : State} {r r0 : Record}, s.record? r.item = some r0 → r.samples.length ≤ max r0.samples.length listSize →
    r.state = r0.state ∨ r.state.leads = false ∧ r0.state.leads = false → I s → I (s.putRecord r)

/-- The changes that the operations on frames, samples, lamps and reports are made of, each kept by the property. None makes a record LEAD, or
changes what a LEAD record has decided or asked. -/
structure FramesKept (I : State → Prop) : Prop extends OffersKept I where
  sounder  : ∀ {s : State} (u : Sounder), I s → I (s.setSounder u)
  hall     : ∀ {s : State} (h : Hall), I s → I { s with hall := h }
  pins     : ∀ {s : State} (p : Pins), I s → I { s with pins := p }
  phase    : ∀ {s : State} (p : LinePhase), s.line.phase.isSending = false → p.isSending = false → I s → I (s.setPhase p)
  count    : ∀ {s : State} (k : CounterName) (n : Nat), I s → I (s.count k n)
  carried  : ∀ {s : State}, I s → I s.reportSent
  entry    : ∀ {s : State} {x : Item} (lead : Nat), s.record? x = none → I s → I (s.setDirectory (dirPut x lead s.time.clock s.directory))
  refresh  : ∀ {s : State} {x : Item} {e : DirEntry} (lead : Nat), dirEntry x s.directory = some e → I s →
    I (s.setDirectory (dirPut x lead s.time.clock s.directory))
  remove   : ∀ {s : State} (x : Item), I s → I (s.setDirectory (dirRemove x s.directory))
  notice   : ∀ {s : State} (st : NoticeStatus) (x : Item), I s → I (s.setCache (enterNotice st s.cache x))
  lamp     : ∀ {s : State} (sd : Side) (l : Lamp), ((s.lamps.get sd).Sound → l.Sound) → I s → I (s.setLamp sd l)
  dropWalk : ∀ {s : State} {ok : QFrame → Bool} {q : List QFrame}, dropFirst ok s.line.queue = some q → I s → I (s.setQueue q).walk
  recast   : ∀ {s : State} {g : QFrame → QFrame}, (∀ f, Alike f (g f)) → (∀ f, Recast f (g f)) → I s →
    I (s.setQueue (s.line.queue.map g))
  putLead  : ∀ {s : State} {x : Item} {r : Record} {l l' : Lead}, s.lead? x = some (r, l) → l'.slot = l.slot → l'.stage = l.stage →
    l'.final = l.final → l'.owed = l.owed → I s → I (s.putLead r l')
  free     : ∀ {s : State} {r : Record}, some r ∈ s.table → r.state.leads = false → I s → I (s.freeRecord r.item)
  create   : ∀ {s : State} {r : Record} {i : Nat}, s.record? r.item = none → s.table[i]? = some none → r.samples.length ≤ 1 →
    r.state.leads = false → I s → I ((s.setTable (s.table.set i (some r))).setDirectory (dirRemove r.item s.directory))
  repeatDecide : ∀ {s : State} (x : Item) (d : Decision), I s → I (s.offerRepeatDecide x d).1

/-- A property that also survives the operations that change what a LEAD record has decided or asked, or that it leads no longer. -/
structure RecordsKept (I : State → Prop) : Prop extends FramesKept I where
  yieldLead : ∀ {s : State} {x : Item} {r : Record} {l : Lead} (y : Nat), s.lead? x = some (r, l) → I s → I (s.yieldLead r l y)
  closeLead : ∀ {s : State} {x : Item} {r : Record} {l : Lead} (d : Decision), s.lead? x = some (r, l) → I s → I (s.closeBy r d)
  freeSlot : ∀ {s : State} (k : BitVec 2), I s → I (s.freeSlot k)
  finalEvaluation : ∀ {s : State} (x : Item), I s → I (s.finalEvaluation x)
  reEvaluateHeld : ∀ {s : State} (x : Item) (answer : Option IssueStatus), I s → I (s.reEvaluateHeld x answer)
  reEvaluateProvisional : ∀ {s : State} (x : Item), I s → I (s.reEvaluateProvisional x)
  provisionalCheck : ∀ {s : State} (x : Item), I s → I (s.provisionalCheck x)
  holdExpired : ∀ {s : State} (x : Item), I s → I (s.holdExpired x)

/-- A property that survives every elementary change survives these. -/
theorem RecordsKept.of_closed {I : State → Prop} (C : Closed I) : RecordsKept I where
  sounder := C.sounder
  hall := C.hall
  pins := C.pins
  phase := C.phase
  count := C.count
  request := C.request
  carried := C.carried
  entry := C.entry
  refresh := C.refresh
  remove := C.remove
  notice := C.notice
  lamp := C.lamp
  giveUp _ := C.giveUp _
  offer sized _ _ _ := C.offer _ _ sized
  dropWalk h i := C.walk (C.drop h i)
  recast alike _ := C.alike _ alike
  put h len _ := C.put h len
  putLead h _ _ _ _ := C.putLead h _
  free _ _ := C.freeRecord _
  create h pos len _ := C.create h pos len
  repeatDecide := C.offerRepeatDecide
  yieldLead y h := C.yieldLead (lead?_eq_some.1 h).1 _ y
  closeLead d h := C.closeBy (lead?_eq_some.1 h).1 d
  freeSlot := C.freeSlot
  finalEvaluation := C.finalEvaluation
  reEvaluateHeld := C.reEvaluateHeld
  reEvaluateProvisional := C.reEvaluateProvisional
  provisionalCheck := C.provisionalCheck
  holdExpired := C.holdExpired

/-- Two properties that survive the operations on records survive them together. -/
theorem RecordsKept.and {A B : State → Prop} (KA : RecordsKept A) (KB : RecordsKept B) : RecordsKept fun s => A s ∧ B s where
  request r c h := ⟨KA.request r c h.1, KB.request r c h.2⟩
  giveUp k h := ⟨KA.giveUp k h.1, KB.giveUp k h.2⟩
  offer sized plain owner key h := ⟨KA.offer sized plain owner key h.1, KB.offer sized plain owner key h.2⟩
  put hr len state h := ⟨KA.put hr len state h.1, KB.put hr len state h.2⟩
  sounder u h := ⟨KA.sounder u h.1, KB.sounder u h.2⟩
  hall u h := ⟨KA.hall u h.1, KB.hall u h.2⟩
  pins p h := ⟨KA.pins p h.1, KB.pins p h.2⟩
  phase p old new h := ⟨KA.phase p old new h.1, KB.phase p old new h.2⟩
  count k n h := ⟨KA.count k n h.1, KB.count k n h.2⟩
  carried h := ⟨KA.carried h.1, KB.carried h.2⟩
  entry lead none h := ⟨KA.entry lead none h.1, KB.entry lead none h.2⟩
  refresh lead e h := ⟨KA.refresh lead e h.1, KB.refresh lead e h.2⟩
  remove x h := ⟨KA.remove x h.1, KB.remove x h.2⟩
  notice st x h := ⟨KA.notice st x h.1, KB.notice st x h.2⟩
  lamp sd l sound h := ⟨KA.lamp sd l sound h.1, KB.lamp sd l sound h.2⟩
  dropWalk drop h := ⟨KA.dropWalk drop h.1, KB.dropWalk drop h.2⟩
  recast alike recast h := ⟨KA.recast alike recast h.1, KB.recast alike recast h.2⟩
  putLead hl slot stage final owed h := ⟨KA.putLead hl slot stage final owed h.1, KB.putLead hl slot stage final owed h.2⟩
  free hr state h := ⟨KA.free hr state h.1, KB.free hr state h.2⟩
  create hr hi len state h := ⟨KA.create hr hi len state h.1, KB.create hr hi len state h.2⟩
  repeatDecide x d h := ⟨KA.repeatDecide x d h.1, KB.repeatDecide x d h.2⟩
  yieldLead y hl h := ⟨KA.yieldLead y hl h.1, KB.yieldLead y hl h.2⟩
  closeLead d hl h := ⟨KA.closeLead d hl h.1, KB.closeLead d hl h.2⟩
  freeSlot k h := ⟨KA.freeSlot k h.1, KB.freeSlot k h.2⟩
  finalEvaluation x h := ⟨KA.finalEvaluation x h.1, KB.finalEvaluation x h.2⟩
  reEvaluateHeld x a h := ⟨KA.reEvaluateHeld x a h.1, KB.reEvaluateHeld x a h.2⟩
  reEvaluateProvisional x h := ⟨KA.reEvaluateProvisional x h.1, KB.reEvaluateProvisional x h.2⟩
  provisionalCheck x h := ⟨KA.provisionalCheck x h.1, KB.provisionalCheck x h.2⟩
  holdExpired x h := ⟨KA.holdExpired x h.1, KB.holdExpired x h.2⟩

section Offers
variable {I : State → Prop} (K : OffersKept I)
include K

/-! ### Samples and frames of a record -/

/-- Storing a record that was read from the table, its state and the number of its samples as before. -/
theorem OffersKept.putSame {s : State} {r r0 : Record} (hr : s.record? r.item = some r0) (len : r.samples.length = r0.samples.length)
    (state : r.state = r0.state) (h : I s) : I (s.putRecord r) := K.put hr (by omega) (.inl state) h

theorem OffersKept.flagSamples {s : State} (x : Item) (ok : SentFlag → Bool) (dest : SentFlag) (cs : List OwnSample) (h : I s) :
    I (s.flagSamples x ok dest cs) := by
  unfold State.flagSamples
  split
  · next r hr => exact K.putSame (r0 := r) (by simpa [record?_item hr] using hr) (flagAll_length ..) rfl h
  · exact h

theorem OffersKept.settleSamples {s : State} (x : Item) (dest : SentFlag) (cs : List OwnSample) (h : I s) :
    I (s.settleSamples x dest cs) := by
  unfold State.settleSamples
  split
  · next r hr => exact K.putSame (r0 := r) (by simpa [record?_item hr] using hr) (settleFlags_length ..) rfl h
  · exact h

omit K in
@[simp] theorem RecState.bare_leads (t : RecState) : t.bare.leads = t.leads := by cases t <;> rfl

omit K in
/-- Offers leave the number of a record's samples as it was, and whether it leads. -/
theorem record?_offered {s t : State} (ho : OnlyOffers s t) {r : Record} (hr : s.record? r.item = some r) :
    ∃ r0, t.record? r.item = some r0 ∧ r0.samples.length = r.samples.length ∧ r0.state.leads = r.state.leads := by
  obtain ⟨r0, h0, bare⟩ := ho.record_exists hr
  refine ⟨r0, h0, ?_, ?_⟩
  · simpa [Record.bare] using congrArg (fun r => r.samples.length) bare
  · simpa [Record.bare] using congrArg (fun r => r.state.leads) bare

theorem OffersKept.offerSight {s : State} {r : Record} (hr : s.record? r.item = some r) (state : r.state.leads = false) (h : I s) :
    I (s.offerSight r).1 := by
  have sized : (Payload.sight (sightOf r false false ((s.unsentOwn r).take frameSamples))).sized = true :=
    sized_sight (by simp [sightOf])
  have offered := K.offer (key := some (.sight r.item)) (o := .record r.item) sized rfl rfl (by rintro _ ⟨⟩; rfl) h
  obtain ⟨r0, h0, len, leads⟩ := record?_offered (offer_onlyOffers s (some (.sight r.item)) (.record r.item)
    (.sight (sightOf r false false ((s.unsentOwn r).take frameSamples)))) hr
  have store (t : State) (ps : List Sample) (w : Bool) (ht : t.record? r.item = some r0) (hl : ps.length = r.samples.length) (hi : I t) :
      I (t.putRecord { r with samples := ps, state := .sole w }) :=
    K.put (r := { r with samples := ps, state := .sole w }) ht (by simp only [hl, len]; exact Nat.le_max_left _ _)
      (.inr ⟨rfl, leads.trans state⟩) hi
  unfold State.offerSight
  dsimp only
  split
  · exact store _ _ _ h0 (flagAll_length ..) offered
  · exact store _ _ _ h0 (flagAll_length ..) offered
  · exact store _ r.samples true h0 rfl offered

theorem OffersKept.offerRepeatSight {s : State} (r : Record) (h : I s) : I (s.offerRepeatSight r).1 :=
  K.offer (sized_sight (by simp [sightOf])) rfl rfl (by rintro _ ⟨⟩; rfl) h

theorem OffersKept.offerTakeover {s : State} (r : Record) (h : I s) : I (s.offerTakeover r).1 := by
  have offered := K.offer (s := s) (key := some (.sight r.item)) (o := .record r.item)
    (p := .sight (sightOf r true false (s.strongestOwn r))) (sized_sight (by simp [sightOf, State.strongestOwn])) rfl rfl
    (by rintro _ ⟨⟩; rfl) h
  unfold State.offerTakeover
  dsimp only
  split
  · exact K.flagSamples _ _ _ _ offered
  · exact K.flagSamples _ _ _ _ offered
  · exact offered

theorem OffersKept.offerJoin {s : State} (x : Item) {m : JoinMsg} (some_ : 1 ≤ m.samples.length) (few : m.samples.length ≤ frameSamples)
    (h : I s) : I (s.offer (some (.join x)) (.record x) (.join m)).1 :=
  K.offer (sized_join some_ few) rfl rfl (by rintro _ ⟨⟩; rfl) h

theorem OffersKept.offerJoinOnce {s : State} {x : Item} {o : State × OfferResult} (ho : s.offerJoinOnce x = some o) (h : I s) : I o.1 := by
  unfold State.offerJoinOnce at ho
  split at ho
  · cases ho
  · split at ho
    · split at ho
      · cases ho
      · next c cs taken =>
        have few : (c :: cs).length ≤ frameSamples := by rw [← taken]; exact List.length_take_le _ _
        dsimp only at ho
        split at ho <;> cases ho
        · exact K.flagSamples _ _ _ _ (K.offerJoin x (by simp) few h)
        · exact K.flagSamples _ _ _ _ (K.offerJoin x (by simp) few h)
        · exact K.offerJoin x (by simp) few h
    · cases ho

theorem OffersKept.offerJoinsFuel (x : Item) (fuel : Nat) {s : State} {used : Bool} (h : I s) :
    I (State.offerJoinsFuel x fuel s used).1 := by
  induction fuel generalizing s used with
  | zero => exact h
  | succ n ih =>
    unfold State.offerJoinsFuel
    split
    · exact h
    · next ht => exact K.offerJoinOnce ht h
    · next ht => exact ih (K.offerJoinOnce ht h)
    · next ht => exact ih (K.offerJoinOnce ht h)

theorem OffersKept.offerJoins {s : State} (x : Item) (h : I s) : I (s.offerJoins x) := by
  unfold State.offerJoins
  split
  · exact h
  · exact K.offerJoinsFuel _ _ h

theorem OffersKept.offerQuery {s : State} (k : BitVec 2) (h : I s) : I (s.offerQuery k).1 := by
  unfold State.offerQuery
  split
  · exact K.offer rfl rfl rfl (by rintro _ ⟨⟩; rfl) h
  · exact K.giveUp rfl h

theorem OffersKept.offerReport {s : State} (h : I s) : I s.offerReport.1 :=
  K.request (s := (s.offer (some .report) .reportUnit .report).1) _ _ (K.offer rfl rfl rfl (by rintro _ ⟨⟩; rfl) h)

end Offers

section Frames
variable {I : State → Prop} (K : FramesKept I)
include K

theorem FramesKept.takePoll {s : State} (clear : Bool) (h : I s) : I (s.takePoll clear) := by
  unfold State.takePoll
  split
  · exact K.offerReport (K.request s.report.request clear h)
  · exact K.request s.report.request _ h
  · exact K.request s.report.request _ h

/-! ### Removals and conversions -/

theorem FramesKept.removeLoop (ok : QFrame → Bool) (fuel : Nat) {s : State} (h : I s) : I (State.removeLoop ok fuel s) := by
  induction fuel generalizing s with
  | zero => exact h
  | succ fuel ih =>
    unfold State.removeLoop
    split
    · exact h
    · next hq => exact ih (K.dropWalk hq h)

theorem FramesKept.holdRemoval {s : State} (ok : QFrame → Bool) (h : I s) : I (s.setQueue (holdRemoval ok s.line.queue)) := by
  refine K.recast (fun f => ?_) (fun f => ?_) h
  · split
    · exact ⟨rfl, rfl, .inr rfl, rfl, id⟩
    · exact .refl f
  · split
    · exact ⟨.inl rfl, .inl rfl, .inr (.inl rfl)⟩
    · exact .refl f

theorem FramesKept.askRemoval {s : State} (ok : QFrame → Bool) (h : I s) : I (s.askRemoval ok) :=
  K.removeLoop _ _ (K.holdRemoval ok h)

theorem FramesKept.askConversion {s : State} (x : Item) (lead : Nat) (h : I s) : I (s.askConversion x lead) := by
  refine K.removeLoop _ _ (K.recast (fun f => ?_) (fun f => ?_) h)
  · split
    · split
      · exact ⟨rfl, rfl, .inr rfl, rfl, id⟩
      · split
        · exact .refl f
        · next full => exact convertFrame_alike (by simpa using full)
    · exact .refl f
  · split
    · next mine =>
      have sight : ∃ m, f.payload = .sight m := by
        have := (Bool.and_eq_true _ _ ▸ mine).2
        unfold isSight at this
        split at this
        · exact ⟨_, ‹_›⟩
        · cases this
      split
      · exact ⟨.inl rfl, .inl rfl, .inr (.inr sight)⟩
      · split
        · exact .refl f
        · exact convertFrame_recast _ _
    · exact .refl f

theorem FramesKept.freeSole {s : State} {r : Record} (hr : some r ∈ s.table) (state : r.state.leads = false) (h : I s) :
    I (s.freeSole r) := K.askRemoval _ (K.count _ _ (K.free hr state h))

theorem FramesKept.solePatience {s : State} {r : Record} (hr : some r ∈ s.table) (state : r.state.leads = false) (h : I s) :
    I (s.solePatience r) := by
  unfold State.solePatience
  split
  · exact K.holdRemoval _ h
  · exact K.freeSole hr state h

omit K in
theorem soleLeaving_eq_some {s : State} {f : QFrame} {r : Record} (h : s.soleLeaving f = some r) :
    ∃ x, f.owner = .record x ∧ s.record? x = some r ∧ r.state.leads = false := by
  unfold State.soleLeaving at h
  split at h
  · next x _ owner =>
    split at h
    · cases found : s.record? x with
      | none => simp [found] at h
      | some r0 =>
        simp only [found] at h
        cases state : r0.state <;> simp only [state] at h <;> cases h
        exact ⟨x, owner, found, by rw [state]; rfl⟩
    · cases h
  · cases h

theorem FramesKept.carryOut {s : State} (f : QFrame) (h : I s) : I (s.carryOut f) := by
  unfold State.carryOut
  split
  · exact h
  · split
    · next r hr =>
      obtain ⟨x, -, found, sole⟩ := soleLeaving_eq_some hr
      exact K.freeSole (mem_table_of_record? found) sole h
    · exact K.removeLoop _ _ h
  · refine K.removeLoop _ _ (K.recast (fun g => ?_) (fun g => ?_) h)
    · split
      · next hg => exact convertFrame_alike (by simp at hg; exact hg.2)
      · exact .refl g
    · split
      · exact convertFrame_recast _ _
      · exact .refl g

end Frames

section Records
variable {I : State → Prop} (K : RecordsKept I)
include K

/-! ### Samples -/

theorem RecordsKept.noticeTold {s : State} (x : Item) (h : I s) : I (s.noticeTold x) := by
  unfold State.noticeTold
  split
  · split
    · exact K.reEvaluateHeld _ _ h
    · exact K.reEvaluateProvisional _ h
    · exact h
  · exact h

theorem RecordsKept.sampleAdded {s : State} (x : Item) (before : Nat) (h : I s) : I (s.sampleAdded x before) := by
  unfold State.sampleAdded
  split
  · next r l hl =>
    have quiet := K.putLead hl (l' := { l with quiet := some (ms s.sys.cfg.quiet) }) rfl rfl rfl rfl h
    dsimp only
    split
    · exact K.reEvaluateHeld _ _ quiet
    all_goals
      split
      · exact K.finalEvaluation _ (K.provisionalCheck _ quiet)
      · exact K.provisionalCheck _ quiet
  · exact h

theorem RecordsKept.contextCreated {s : State} (x : Item) (evaluate : Bool) (h : I s) : I (s.contextCreated x evaluate) := by
  unfold State.contextCreated
  split
  · split
    · exact K.finalEvaluation _ h
    · exact h
  · exact h

theorem RecordsKept.addSample {s : State} (x : Item) (p : Sample) (h : I s) : I (s.addSample x p).1 := by
  unfold State.addSample
  split
  · exact h
  · next r hr =>
    have added := K.count (s := s.putRecord { r with samples := (offerToList s.sys.cfg.noiseFloor s.time.clock p r.samples).samples })
      .samplesLost (offerToList s.sys.cfg.noiseFloor s.time.clock p r.samples).lost
      (K.put (r0 := r) (by simpa [record?_item hr] using hr) (offerToList_length ..) (.inl rfl) h)
    dsimp only
    split
    · exact K.sampleAdded _ _ added
    · exact added

theorem RecordsKept.addAllHeard {s : State} (x : Item) (ps : List Sample) (h : I s) : I (s.addAllHeard x ps) := by
  unfold State.addAllHeard
  induction ps generalizing s with
  | nil => exact h
  | cons p ps ih =>
    refine ih (s := s.addHeard x p) ?_
    unfold State.addHeard
    split
    · exact h
    · split
      · exact h
      · exact K.addSample _ _ h

omit K in
/-- A record that does not lead is not told of a sample that enters its list. -/
theorem record?_addSample {s : State} {p : Sample} {r r0 r1 : Record} (hr : s.record? r.item = some r0) (state : r.state.leads = false)
    (hr1 : ((s.putRecord r).addSample r.item p).1.record? r.item = some r1) : r1.state.leads = false := by
  have stored (t : State) (r' : Record) (same : r'.item = r.item) (ht : t.record? r.item ≠ none) :
      (t.putRecord r').record? r.item = some r' := by
    obtain ⟨r0, h0⟩ := Option.ne_none_iff_exists'.1 ht
    rw [record?_putRecord (same ▸ h0), if_pos same.symm]
  have known : (s.putRecord r).record? r.item = some r := stored s r rfl (by simp [hr])
  unfold State.addSample at hr1
  simp only [known] at hr1
  let o := offerToList (s.putRecord r).sys.cfg.noiseFloor (s.putRecord r).time.clock p r.samples
  have added : (((s.putRecord r).putRecord { r with samples := o.samples }).count .samplesLost o.lost).record? r.item =
      some { r with samples := o.samples } := by
    rw [State.record?, State.count_table]
    exact stored _ _ rfl (by simp [known])
  have untold : (((s.putRecord r).putRecord { r with samples := o.samples }).count .samplesLost o.lost).lead? r.item = none := by
    rw [State.lead?, added]
    cases e : r.state <;> simp_all [RecState.leads]
  split at hr1
  · unfold State.sampleAdded at hr1
    rw [untold, added] at hr1
    cases hr1; exact state
  · rw [added] at hr1
    cases hr1; exact state

theorem RecordsKept.localKnown {s : State} {rec0 : Record} {r : Reply} (p : Sample) (hr : s.record? r.item = some rec0) (h : I s) :
    I (s.localKnown rec0 r p) := by
  have item := record?_item hr
  have marked : I (s.putRecord { rec0 with mark := r.mark }) := K.putSame (r0 := rec0) (by simpa [item] using hr) rfl rfl h
  have added := K.addSample r.item p marked
  unfold State.localKnown
  dsimp only
  split
  · next sole =>
    split
    · split
      · next r1 hr1 =>
        refine K.offerSight (by rw [record?_item hr1]; exact hr1) (record?_addSample (s := s) (p := p) (r := { rec0 with mark := r.mark })
          (r0 := rec0) (by simpa [item] using hr) ?_ (by simpa only [item] using hr1)) added
        show rec0.state.leads = false
        rw [sole]; rfl
      · exact added
    · exact added
  · exact added
  · split
    · exact K.offerJoins _ added
    · exact added
  · next closed =>
    exact K.put (r := { rec0 with state := _ }) (r0 := rec0) (by simpa [item] using hr) (Nat.le_max_left _ _) (.inr ⟨rfl, by rw [closed]; rfl⟩) h

omit K in
theorem oldestClosed_mem {now : Clock} {t : List (Option Record)} {b : Record × Nat} (h : oldestClosed now t = some b) :
    some b.1 ∈ t ∧ b.1.state.leads = false := by
  induction t generalizing b with
  | nil => cases h
  | cons e t ih =>
    have later {o : Record × Nat} (ho : oldestClosed now t = some o) : some o.1 ∈ e :: t ∧ o.1.state.leads = false :=
      ⟨List.mem_cons_of_mem _ (ih ho).1, (ih ho).2⟩
    cases e with
    | none => exact later h
    | some r =>
      have here {d : Decision} {c : Clock} (closed : r.state = .closed d c) : some r ∈ some r :: t ∧ r.state.leads = false :=
        ⟨List.mem_cons_self, by rw [closed]; rfl⟩
      cases rest : oldestClosed now t with
      | none =>
        simp only [oldestClosed, rest] at h
        split at h
        · next closed => cases h; exact here closed
        · cases h
      | some o =>
        simp only [oldestClosed, rest] at h
        split at h
        · next closed =>
          split at h <;> cases h
          · exact here closed
          · exact later rest
        · cases h; exact later rest

theorem RecordsKept.roomForRecord {s t : State} {i : Nat} (ht : s.roomForRecord = some (t, i)) (h : I s) : I t := by
  unfold State.roomForRecord at ht
  split at ht
  · cases ht; exact h
  · split at ht
    · next r _ oldest =>
      obtain ⟨mem, state⟩ := oldestClosed_mem oldest
      obtain ⟨_, -, e⟩ := Option.map_eq_some_iff.1 ht
      cases e
      exact K.free mem state h
    · cases ht

omit K in
theorem closed_true : Closed fun _ => True := by
  constructor <;> (intros; trivial)

theorem RecordsKept.localNew {s : State} {r : Reply} (p : Sample) (hx : s.record? r.item = none) (h : I s) : I (s.localNew r p) := by
  unfold State.localNew
  dsimp only
  split
  · next t i ht =>
    have room := K.roomForRecord ht h
    obtain ⟨hx1, hi, hd⟩ : t.record? r.item = none ∧ t.table[i]? = some none ∧ t.directory = s.directory := by
      obtain ⟨-, none, position, directory, -⟩ := closed_true.roomForRecord ht hx trivial
      exact ⟨none, position, directory⟩
    split
    · next e _ =>
      exact K.offerJoins _ (K.create (r := newRecord s.time.clock r p (.joint e.lead (some s.patience))) hx1 hi (by simp [newRecord]) rfl room)
    · next he =>
      refine K.offerSight (s := t.setTable (t.table.set i (some (newRecord s.time.clock r p (.sole false))))) (findRecord_set hx1 hi) rfl ?_
      have created := K.create (r := newRecord s.time.clock r p (.sole false)) hx1 hi (by simp [newRecord]) rfl room
      rwa [show dirRemove (newRecord s.time.clock r p (.sole false)).item t.directory = t.directory from
        dirRemove_absent (by rw [hd]; exact he)] at created
  · split
    · next e _ =>
      have offered := K.offer (s := s) (key := none) (o := .noRecord) (p := .join { item := r.item, lead := e.lead, samples := [p.content] })
        (sized_join (by simp) (by simp [frameSamples])) rfl rfl nofun h
      split
      · exact K.count _ _ offered
      · exact offered
    · exact K.count _ _ h

theorem RecordsKept.localSample {s : State} (sd : Side) (k : CoilNumber) (r : Reply) (h : I s) : I (s.localSample sd k r) := by
  unfold State.localSample
  dsimp only
  split
  · next hr => exact K.localKnown _ hr h
  · next hr => exact K.localNew _ hr h

end Records

end Sys2Proof.Machine
end

section
/-! PROOFS. How such a property passes through the frames that are heard, the expiries, and with them every command of a station. -/

namespace Sys2Proof.Machine

section Records
variable {I : State → Prop} (K : RecordsKept I)
include K

/-! ### Heard SIGHT, JOIN and DECIDE -/

/-- A record that leads neither before nor after takes a new state. -/
theorem RecordsKept.putUnled {s : State} {x : Item} {r r' : Record} (hr : s.record? x = some r) (item : r'.item = r.item)
    (len : r'.samples.length = r.samples.length) (before : r.state.leads = false) (after : r'.state.leads = false) (h : I s) :
    I (s.putRecord r') :=
  K.put (by simpa [item, record?_item hr] using hr) (by rw [len]; exact Nat.le_max_left _ _) (.inr ⟨after, before⟩) h

theorem RecordsKept.soleToJoint {s : State} {x : Item} {r : Record} (hr : s.record? x = some r) (state : r.state.leads = false)
    (lead : Nat) (h : I s) : I (s.soleToJoint r lead) :=
  K.offerJoins _ (K.askConversion _ _ (K.giveUp rfl (K.putUnled hr (r' := { r with state := .joint lead (some s.patience) }) rfl rfl state
    rfl h)))

theorem RecordsKept.contested {s : State} {x : Item} {r : Record} {l : Lead} (hl : s.lead? x = some (r, l)) (y : Nat) (again : Bool)
    (h : I s) : I (s.contested r l y again) := by
  unfold State.contested
  split
  · exact K.yieldLead _ hl h
  · split
    · exact h
    · exact K.offerRepeatSight _ h

theorem RecordsKept.takeMark {s : State} (x : Item) (m : IssueMark) (h : I s) : I (s.takeMark x m) := by
  unfold State.takeMark
  split
  · next r hr => exact K.putSame (r := { r with mark := m }) (r0 := r) (by simpa [record?_item hr] using hr) rfl rfl h
  · exact h

theorem RecordsKept.rejoin {s : State} {x : Item} {r : Record} (hr : s.record? x = some r) (state : r.state.leads = false) (y : Nat)
    (h : I s) : I (s.rejoin r y) :=
  K.offerJoins _ (K.askRemoval _ (K.giveUp rfl (K.putUnled hr (r' := { r with
    samples := settleFlags s.number .unsent (sightSamples r.item s.line.queue) r.samples, state := .joint y (some s.patience) }) rfl
      (settleFlags_length ..) state rfl h)))

theorem RecordsKept.heardSight {s : State} (y : Nat) (stamp : Clock) (b : SightBody) (h : I s) : I (s.heardSight y stamp b) := by
  unfold State.heardSight
  dsimp only
  split
  · next none => exact K.entry _ none h
  · next r hr =>
    split
    · next sole => exact K.addAllHeard _ _ (K.takeMark _ _ (K.soleToJoint hr (by rw [sole]; rfl) _ h))
    · next lead => exact K.addAllHeard _ _ (K.takeMark _ _ (K.contested (lead?_eq_some.2 ⟨hr, lead⟩) _ _ h))
    · next joint => exact K.addAllHeard _ _ (K.takeMark _ _ (K.rejoin hr (by rw [joint]; rfl) _ h))
    · split
      · exact h
      · exact K.repeatDecide _ _ h

theorem RecordsKept.heardJoin {s : State} (y : Nat) (stamp : Clock) (b : JoinBody) (h : I s) : I (s.heardJoin y stamp b) := by
  unfold State.heardJoin
  dsimp only
  split
  · exact h
  · split
    · next none =>
      unfold dirJoin
      split
      · next entry => exact K.refresh _ entry h
      · exact K.entry _ none h
    · next r hr =>
      split
      · next sole =>
        refine K.addAllHeard _ _ ?_
        split
        · exact h
        · exact K.soleToJoint hr (by rw [sole]; rfl) _ h
      · next lead =>
        refine K.addAllHeard _ _ ?_
        split
        · exact h
        · exact K.contested (lead?_eq_some.2 ⟨hr, lead⟩) _ _ h
      · exact K.addAllHeard _ _ h
      · exact h

theorem RecordsKept.closeBy {s : State} {x : Item} {r : Record} (hr : s.record? x = some r) (d : Decision) (h : I s) : I (s.closeBy r d) := by
  have closed (state : r.state.leads = false) := K.giveUp (k := .decision r.item) rfl (K.giveUp (k := .join r.item) rfl
    (K.giveUp (k := .sight r.item) rfl (K.putUnled hr (r' := { r with state := .closed d s.time.clock }) rfl rfl state rfl h)))
  cases state : r.state with
  | lead l => exact K.closeLead d (lead?_eq_some.2 ⟨hr, state⟩) h
  | sole _ =>
    simp only [State.closeBy, state]
    exact K.askRemoval _ (closed (by rw [state]; rfl))
  | joint _ _ =>
    simp only [State.closeBy, state]
    exact K.askRemoval _ (closed (by rw [state]; rfl))
  | closed _ _ => simpa only [State.closeBy, state] using h

theorem RecordsKept.passageDecide {s : State} (b : DecideBody) (h : I s) : I (s.passageDecide b) := by
  unfold State.passageDecide
  dsimp only
  split
  · split
    · next hr => exact K.closeBy hr _ h
    · exact K.remove _ h
  · unfold dirRefresh
    split
    · next entry => exact K.refresh _ entry h
    · exact h

/-! ### Lamps, sounder and counters -/

theorem RecordsKept.lampDecide {s : State} (sd : Side) (x : Item) (v : Verdict) (named : Bool) (h : I s) : I (s.lampDecide sd x v named) := by
  unfold State.lampDecide
  dsimp only
  split
  · split
    · exact K.lamp _ _ (Lamp.addHolder_sound _ _) h
    · exact h
  iterate 4 exact K.lamp _ _ (Lamp.removeHolder_sound _) h
  · refine K.lamp _ _ (fun sound => ?_) h
    split
    · obtain ⟨bounded, nodup, -⟩ := Lamp.removeHolder_sound x sound
      exact ⟨bounded, nodup, trivial⟩
    · exact Lamp.removeHolder_sound _ sound

theorem RecordsKept.alarmDecide {s : State} (x : Item) (v : Verdict) (laneA : Nat) (laneB : Option Nat) (again : Bool) (h : I s) :
    I (s.alarmDecide x v laneA laneB again) := by
  have lamps := K.lampDecide .R x v (s.names .R laneA laneB) (K.lampDecide .L x v (s.names .L laneA laneB) h)
  unfold State.alarmDecide
  split
  · exact h
  · dsimp only
    split
    · exact K.sounder _ lamps
    · exact lamps

theorem RecordsKept.countDecision {s : State} (v : Verdict) (again : Bool) (h : I s) : I (s.countDecision v again) := by
  unfold State.countDecision
  split
  · exact h
  · split
    · exact K.count _ _ h
    · exact K.count _ _ h
    · exact K.count _ _ (K.count _ _ h)
    · exact K.count _ _ (K.count _ _ h)
    · exact K.count _ _ h
    · exact h

theorem RecordsKept.lampHoldEnds {s : State} (sd : Side) (h : I s) : I (s.lampHoldEnds sd) := by
  unfold State.lampHoldEnds
  split
  · next left steady =>
    split
    · refine K.lamp _ _ (fun sound => ?_) h
      obtain ⟨bounded, nodup, -⟩ := sound
      unfold Lamp.holdEnd
      rw [steady]
      refine ⟨bounded, nodup, ?_⟩
      cases holders : (s.lamps.get sd).holders <;> simp [LampState.afterHold, LampState.flashStart]
    · exact h
  all_goals exact h

theorem RecordsKept.flashEnds {s : State} (sd : Side) (h : I s) : I (s.flashEnds sd) := by
  unfold State.flashEnds
  split
  · next lit left flashing =>
    split
    · refine K.lamp _ _ (fun sound => ?_) h
      obtain ⟨bounded, nodup, shown⟩ := sound
      unfold Lamp.phaseEnd
      rw [flashing] at shown ⊢
      exact ⟨bounded, nodup, shown⟩
    · exact h
  all_goals exact h

theorem RecordsKept.holderExpires {s : State} (sd : Side) (x : Item) (h : I s) : I (s.holderExpires sd x) := by
  unfold State.holderExpires
  dsimp only
  split
  · exact K.lamp _ _ (Lamp.removeHolder_sound _) h
  · exact h

theorem RecordsKept.cadenceEnds {s : State} (h : I s) : I s.cadenceEnds := by
  unfold State.cadenceEnds
  split
  · exact K.sounder _ h
  · exact h

theorem RecordsKept.hallChanges {s : State} (value : BitVec 2) (h : I s) : I (s.hallChanges value) := by
  unfold State.hallChanges
  dsimp only
  split
  · exact h
  · split
    · exact K.hall { s.hall with timer := some hallStableTime } (K.pins { s.pins with hall := value } h)
    · exact K.pins _ h

theorem RecordsKept.hallSettles {s : State} (h : I s) : I s.hallSettles := by
  unfold State.hallSettles
  split
  · exact K.hall _ h
  · exact h

/-! ### Expiries, notices and answers -/

theorem RecordsKept.soleExpires {s : State} (x : Item) (h : I s) : I (s.soleExpires x) := by
  unfold State.soleExpires
  split
  · next hr =>
    split
    · next sole =>
      split
      · exact K.solePatience (mem_table_of_record? hr) (by rw [sole]; rfl) h
      · exact h
    all_goals exact h
  · exact h

theorem RecordsKept.patienceEnds {s : State} (x : Item) (h : I s) : I (s.patienceEnds x) := by
  unfold State.patienceEnds
  split
  · next r hr =>
    split
    · next y _ joint =>
      split
      · exact K.offerTakeover _ (K.putUnled hr (r' := { r with state := .joint y none }) rfl rfl (by rw [joint]; rfl) rfl h)
      · exact h
    all_goals exact h
  · exact h

theorem RecordsKept.directoryExpires {s : State} (x : Item) (h : I s) : I (s.directoryExpires x) := by
  unfold State.directoryExpires
  split
  · split
    · exact K.remove _ h
    · exact h
  · exact h

theorem RecordsKept.closeExpires {s : State} (x : Item) (h : I s) : I (s.closeExpires x) := by
  unfold State.closeExpires
  split
  · next hr =>
    split
    · next closed =>
      split
      · have := K.free (mem_table_of_record? hr) (by rw [closed]; rfl) h
        rwa [record?_item hr] at this
      · exact h
    all_goals exact h
  · exact h

theorem RecordsKept.takeNotices {s : State} (st : NoticeStatus) (items : List Item) (h : I s) : I (s.takeNotices st items) := by
  have entered (items : List Item) {t : State} (h : I t) : I (t.setCache (items.foldl (enterNotice st) t.cache)) := by
    induction items generalizing t with
    | nil => exact h
    | cons x xs ih => exact ih (K.notice st x h)
  have told (xs : List Item) {t : State} (h : I t) : I (xs.foldl State.noticeTold t) := by
    induction xs generalizing t with
    | nil => exact h
    | cons x xs ih => exact ih (K.noticeTold x h)
  exact told _ (entered _ h)

theorem RecordsKept.takeAnswer {s : State} (b : AnswerBody) (h : I s) : I (s.takeAnswer b) := by
  unfold State.takeAnswer
  split
  · dsimp only
    refine K.reEvaluateHeld _ _ ?_
    split
    · exact K.notice _ _ (K.freeSlot _ h)
    · exact K.freeSlot _ h
  · exact K.count _ _ h

theorem RecordsKept.quietEnds {s : State} (x : Item) (h : I s) : I (s.quietEnds x) := by
  unfold State.quietEnds
  split
  · next l hl =>
    split
    · exact K.finalEvaluation _ (K.putLead hl rfl rfl rfl rfl h)
    · exact h
  · exact h

theorem RecordsKept.dwellReached {s : State} (x : Item) (h : I s) : I (s.dwellReached x) := by
  unfold State.dwellReached
  split
  · split
    · exact K.finalEvaluation _ h
    · exact h
  · exact h

theorem RecordsKept.holdEnds {s : State} (x : Item) (h : I s) : I (s.holdEnds x) := by
  unfold State.holdEnds
  split
  · split
    · split
      · exact K.holdExpired _ h
      · exact h
    all_goals exact h
  · exact h

end Records

/-! ### Every command -/

/-- A property that the operations of records and of sides keep, and with it the passing of time, start-up, the claim events, and the start and
the two ends of an attempt. -/
structure CommandsKept (I : State → Prop) : Prop extends RecordsKept I, SweepKept I where
  advance : ∀ {s : State} (us : Nat), I s → I (s.advance us)
  startUp : ∀ {s : State} (n : StationNumber), I s → I (s.startUp n)
  readFails : ∀ {s : State}, I s → I s.readFails
  retryEnds : ∀ {s : State}, I s → I s.retryEnds
  readCompletes : ∀ {s : State} (image : List Byte), I s → I (s.readCompletes image)
  tick : ∀ {s : State}, I s → I s.tick
  expire : ∀ {s : State}, I s → I s.expireCache
  claimWaitEnds : ∀ {s : State} (sd : Side), I s → I (s.claimWaitEnds sd)
  restEnds : ∀ {s : State} (sd : Side), I s → I (s.restEnds sd)
  partnerClaim : ∀ {s : State} (sd : Side), s.line.phase.isSending = false → s.facesEnd sd = false → I s → I (s.partnerClaim sd)
  partnerDefer : ∀ {s : State} (sd : Side) (hold : Nat), s.line.phase.isSending = false → s.facesEnd sd = false → I s →
    I (s.partnerDefer sd hold)
  partnerRelease : ∀ {s : State} (sd : Side), s.line.phase.isSending = false → s.facesEnd sd = false → I s → I (s.partnerRelease sd)
  attemptStarts : ∀ {s : State}, I s → I s.attemptStarts
  contentionLost : ∀ {s : State}, I s → I s.contentionLost
  transmitCompletes : ∀ {s : State}, I s → I s.transmitCompletes
  clear : ∀ {s : State}, s.line.phase.isSending = false → I s → I s.hallClear

section Commands
variable {I : State → Prop} (K : CommandsKept I)
include K

theorem CommandsKept.takeFrame {s : State} {sender : Address} {b : Body} {act : Clock → State → State} {fault : State → State}
    (taken : ∀ stamp {t : State}, t.line.phase.isSending = false → I t → I (act stamp t)) (inFault : ∀ {t : State}, I t → I (fault t))
    (h : I s) : I (s.takeFrame sender b act fault) := by
  unfold State.takeFrame
  split
  · next stamp receiving =>
    have ended : I (s.setPhase (.idle 0)) := K.phase _ (by rw [receiving]; rfl) rfl h
    dsimp only
    split
    · split
      · exact taken _ rfl ended
      · exact K.count _ _ ended
    · exact inFault ended
    · exact ended
  all_goals exact h

theorem CommandsKept.takeClaimFrame {s : State} {sender : Address} {b : Body} {lane : Byte} {act : State → Side → State}
    (taken : ∀ {t : State} (sd : Side), t.line.phase.isSending = false → t.facesEnd sd = false → I t → I (act t sd)) (h : I s) :
    I (s.takeFrame sender b (fun _ t => t.toPartner sender lane act) ignored) := by
  refine K.takeFrame (fun _ t idle ht => ?_) id h
  unfold State.toPartner
  split
  · next sd hsd =>
    have inner := List.find?_some hsd
    simp only [Bool.and_eq_true, Bool.not_eq_true'] at inner
    exact taken _ idle inner.1.1 ht
  · exact ht

theorem CommandsKept.takeDecide {s : State} (b : DecideBody) (h : I s) : I (s.takeDecide b) := by
  have decided := K.alarmDecide b.item b.verdict (decisionOf b).laneA (decisionOf b).laneB b.again (K.passageDecide b h)
  unfold State.takeDecide
  dsimp only
  split
  · exact K.toSweepKept.provisionalTriggers _ _ decided
  · exact decided

theorem CommandsKept.listen {s : State} (h : I s) : I s.listen := by
  unfold State.listen
  split
  · next deaf => exact K.phase _ (by rw [deaf.2]; rfl) rfl h
  · exact h

theorem CommandsKept.badFrameEnds {s : State} (raw : RawFrame) (h : I s) : I (s.badFrameEnds raw) := by
  unfold State.badFrameEnds
  split
  · next receiving =>
    split
    · exact K.count _ _ (K.phase _ (by rw [receiving]; rfl) rfl h)
    · exact h
  all_goals exact h

theorem CommandsKept.frameBegins {s : State} (h : I s) : I s.frameBegins := by
  unfold State.frameBegins
  split
  · next idle => exact K.phase _ (by rw [idle]; rfl) rfl h
  all_goals exact h

/-- Every command answers a next state and keeps the property, if FULL_RESET does. -/
theorem CommandsKept.exec {s : State} (c : Instr)
    (reset : ∀ a, c = .fullReset a → I { State.reset with pins := s.pins, pending := s.pending }) (h : I s) :
    ∃ t, exec c s = .next t ∧ I t := by
  have S := K.toSweepKept
  have still := K.advance c.after h
  cases c with
  | fullReset a => exact ⟨_, rfl, reset a rfl⟩
  | startUp a n => exact ⟨_, rfl, K.startUp n still⟩
  | readAttemptFail a => exact ⟨_, rfl, K.readFails still⟩
  | retryWaitEnd a => exact ⟨_, rfl, K.retryEnds still⟩
  | readAttemptComplete a bs => exact ⟨_, rfl, K.readCompletes bs still⟩
  | startupIdleGap a => exact ⟨_, rfl, K.listen still⟩
  | secondsTick a => exact ⟨_, rfl, K.tick still⟩
  | noticeExpiry a => exact ⟨_, rfl, K.expire still⟩
  | rampEnd a sd v => exact ⟨_, rfl, S.rampEnds sd v still⟩
  | liveLimit a sd => exact ⟨_, rfl, S.liveEnds sd still⟩
  | driveLoss a sd k => exact ⟨_, rfl, S.driveLost sd k still⟩
  | drainEnd a sd k => exact ⟨_, rfl, S.drainEnds sd k still⟩
  | cutWaitEnd a sd => exact ⟨_, rfl, S.cutWaitEnds sd still⟩
  | retestEnd a sd k => exact ⟨_, rfl, S.retestEnds sd k still⟩
  | claimWaitEnd a sd => exact ⟨_, rfl, K.claimWaitEnds sd still⟩
  | claimHoldTimerEnd a sd => exact ⟨_, rfl, S.holdTimerEnds sd still⟩
  | restTimerEnd a sd => exact ⟨_, rfl, K.restEnds sd still⟩
  | heardClaim a y l => exact ⟨_, rfl, K.takeClaimFrame K.partnerClaim still⟩
  | heardDefer a y b => exact ⟨_, rfl, K.takeClaimFrame (fun sd => K.partnerDefer sd _) still⟩
  | heardRelease a y l => exact ⟨_, rfl, K.takeClaimFrame K.partnerRelease still⟩
  | gapEnd a sd => exact ⟨_, rfl, S.gapEnds sd still⟩
  | slotEnd a sd o => exact ⟨_, rfl, S.slotEnds sd o (fun k r _ => K.localSample sd k r) still⟩
  | dozeTimerEnd a sd => exact ⟨_, rfl, S.dozes sd still⟩
  | beamInputChange a sd bm br => exact ⟨_, rfl, S.beamChanges sd bm br (fun p => K.pins p still) still⟩
  | beamDebounceEnd a sd bm => exact ⟨_, rfl, S.beamSettles sd bm still⟩
  | attemptStart a => exact ⟨_, rfl, K.attemptStarts still⟩
  | contentionLost a => exact ⟨_, rfl, K.contentionLost still⟩
  | transmitComplete a => exact ⟨_, rfl, K.transmitCompletes still⟩
  | badFrame a raw => exact ⟨_, rfl, K.badFrameEnds raw still⟩
  | heardSight a y b => exact ⟨_, rfl, K.takeFrame (fun _ _ _ h => K.heardSight _ _ _ h) id still⟩
  | heardJoin a y b => exact ⟨_, rfl, K.takeFrame (fun _ _ _ h => K.heardJoin _ _ _ h) id still⟩
  | heardDecide a y b => exact ⟨_, rfl, K.takeFrame (fun _ _ _ h => K.takeDecide _ h) id still⟩
  | heardQuery a y b => exact ⟨_, rfl, K.takeFrame (fun _ _ _ h => h) id still⟩
  | heardReport a y b => exact ⟨_, rfl, K.takeFrame (fun _ _ _ h => h) id still⟩
  | solePatienceEnd a x => exact ⟨_, rfl, K.soleExpires x still⟩
  | patienceTimerEnd a x => exact ⟨_, rfl, K.patienceEnds x still⟩
  | directoryExpiry a x => exact ⟨_, rfl, K.directoryExpires x still⟩
  | closeHoldEnd a x => exact ⟨_, rfl, K.closeExpires x still⟩
  | heardIssue a y xs => exact ⟨_, rfl, K.takeFrame (fun _ _ _ h => K.takeNotices _ _ h) id still⟩
  | heardReturn a y xs => exact ⟨_, rfl, K.takeFrame (fun _ _ _ h => K.takeNotices _ _ h) id still⟩
  | heardAnswer a y b =>
    refine ⟨_, rfl, K.takeFrame (fun _ _ _ h => ?_) id still⟩
    split
    · exact K.takeAnswer _ h
    · exact h
  | quietTimerEnd a x => exact ⟨_, rfl, K.quietEnds x still⟩
  | dwellReached a x => exact ⟨_, rfl, K.dwellReached x still⟩
  | holdTimerEnd a x => exact ⟨_, rfl, K.holdEnds x still⟩
  | hallLevelInputChange a v => exact ⟨_, rfl, K.hallChanges v still⟩
  | hallLevelDebounceEnd a => exact ⟨_, rfl, K.hallSettles still⟩
  | lampHoldEnd a sd => exact ⟨_, rfl, K.lampHoldEnds sd still⟩
  | holderExpiry a sd x => exact ⟨_, rfl, K.holderExpires sd x still⟩
  | flashPhaseEnd a sd => exact ⟨_, rfl, K.flashEnds sd still⟩
  | cadenceTimerEnd a => exact ⟨_, rfl, K.cadenceEnds still⟩
  | heardPoll a y b =>
    refine ⟨_, rfl, K.takeFrame (fun _ t _ h => ?_) (fun {t} h => ?_) still⟩
    · split
      · exact K.takePoll _ h
      · exact h
    · unfold State.pollInFault
      split
      · exact K.takePoll _ h
      · exact h
  | heardClearHall a y => exact ⟨_, rfl, K.takeFrame (fun _ _ idle h => K.clear idle h) id still⟩
  | sofStamp a => exact ⟨_, rfl, K.frameBegins still⟩

end Commands

end Sys2Proof.Machine
end

section
/-! PROOFS. The fields of each side are guarded (R16, R17, R21). -/

namespace Sys2Proof.Machine

/-! ### A property of a station in RUNNING -/

/-- The station as it enters RUNNING, before the sides are started (R12). -/
def State.entered (s : State) (c : Config) : State :=
  { s with
    sys := { s.sys with run := .running, phase := .ended, cfg := c }
    time := { clock := 0, subMs := 0, seconds := 0, secondTimer := some secondTime }
    coils := ⟨s.coils.left.withQ c.initialQ, s.coils.right.withQ c.initialQ⟩
    hall := { s.hall with timer := some hallStableTime } }

theorem enterRunning_eq (s : State) (c : Config) : s.enterRunning c = ((s.entered c).startSide .L).startSide .R := rfl

theorem Kept.entered {A : State → Prop} (K : Kept A) {s : State} (c : Config) (reading : s.sys.phase ≠ .ended) (h : A s) : A (s.entered c) :=
  K.hall { s.hall with timer := some hallStableTime }
    (K.coils ⟨s.coils.left.withQ c.initialQ, s.coils.right.withQ c.initialQ⟩ (K.adopt _ _ reading h))

theorem kept_true : Kept fun _ => True := by
  constructor
  case toClosedSides =>
    constructor
    case toClosed => exact closed_true
    all_goals (intros; trivial)
  all_goals (intros; trivial)

section
variable {A P : State → Prop} {O : Owner → Prop} (KA : Kept A) (off : ∀ {s : State}, s.Off O → P s)
  (entered : ∀ {s : State} (c : Config), s.Off O → P (s.entered c)) (K : ∀ y, CommandsKept fun s => s.RunsWith y ∧ A s ∧ P s)
include KA off entered K

/-- The end of a read attempt outside RUNNING: the station stands still, or enters RUNNING. -/
theorem readCompletes_keeps {s : State} (image : List Byte) (still : s.Off O) (a : A s) : P (s.readCompletes image) := by
  unfold State.readCompletes
  split
  · next n reading =>
    split
    · unfold State.takeImage
      split
      · dsimp only
        split
        · have S := (K (s.entered (configFrom image)).sys).toSweepKept
          rw [enterRunning_eq]
          exact (S.startSide _ (S.startSide _ ⟨⟨rfl, rfl⟩, KA.entered _ (by rw [reading]; exact nofun) a, entered _ still⟩)).2.2
        · exact off (State.Off.enterFault (still.sys still.1))
      · exact off still.enterFault
    · exact off still
  all_goals exact off still

/-- A property of the station in RUNNING that every command but FULL_RESET keeps, and that a station which stands still, or has just entered
RUNNING, has, is kept by every step. -/
theorem step_keeps_of_running (unit : O .reportUnit) (pendingA : ∀ {s : State} (q : List Instr), A s → A { s with pending := q })
    (pendingP : ∀ {s : State} (q : List Instr), P s → P { s with pending := q }) {s t : State} (sound : s.StillUnlessRunning)
    (owners : s.sys.run ≠ .running → ∀ f ∈ s.line.queue, O f.owner) (a : A s) (p : P s) (hs : step s = .next t) : P t := by
  obtain ⟨started, still⟩ := (stillUnlessRunning_iff s).1 sound
  unfold step at hs
  by_cases run : s.sys.run = .running
  · have phase : s.sys.phase = .ended := not_imp_comm.1 started (not_not_intro run)
    split at hs
    · cases hs
      exact ((K s.sys).advance _ ⟨⟨rfl, phase⟩, a, p⟩).2.2
    · next c cs _ =>
      by_cases reset : ∃ after, c = .fullReset after
      · obtain ⟨_, rfl⟩ := reset
        cases hs
        exact off (((reset_off unit).pins s.pins).pending cs)
      · obtain ⟨u, hu, -, -, kept⟩ := (K s.sys).exec (s := { s with pending := cs }) c (fun after e => absurd ⟨after, e⟩ reset)
          ⟨⟨rfl, phase⟩, pendingA cs a, pendingP cs p⟩
        rw [hu] at hs
        cases hs
        exact kept
  · have isOff : s.Off O := ⟨run, { still run with queue := fun f hf => ⟨((still run).queue f hf).1, owners run f hf⟩, unit := unit }⟩
    split at hs
    · cases hs
      exact off (isOff.advance _)
    · next c cs _ =>
      by_cases read : ∃ after image, c = .readAttemptComplete after image
      · obtain ⟨after, image, rfl⟩ := read
        cases hs
        exact readCompletes_keeps KA off entered K image ((isOff.pending cs).advance after) (KA.advance after (pendingA cs a))
      · obtain ⟨u, hu, uoff⟩ := (isOff.pending cs).exec (c := c) fun after image e => read ⟨after, image, e⟩
        rw [hu] at hs
        cases hs
        exact off uoff

end

/-! ### Start-up is over -/

section
variable {y : Sys} {s : State} (h : s.RunsWith y)
include h

theorem State.RunsWith.phase : s.sys.phase = .ended := by rw [h.1]; exact h.2

theorem State.RunsWith.startUp (n : StationNumber) : s.startUp n = s := by simp [State.startUp, h.phase]

theorem State.RunsWith.readFails : s.readFails = s := by simp [State.readFails, h.phase]

theorem State.RunsWith.retryEnds : s.retryEnds = s := by simp [State.retryEnds, h.phase]

theorem State.RunsWith.readCompletes (image : List Byte) : s.readCompletes image = s := by simp [State.readCompletes, h.phase]

end

/-! ### Coils, claims and the guard -/

/-- A side takes a sound Coil Controller and a claim that guards its fields; the rest of what the guard speaks of stays. -/
theorem State.FieldsGuarded.replace {s t : State} (h : s.FieldsGuarded) (sd : Side) {u : CoilUnit} {c : Claim}
    (sys : t.sys = s.sys) (coils : t.coils = s.coils.set sd u) (claims : t.claims = s.claims.set sd c) (sound : u.Sound)
    (guard : s.facesEnd sd = false → ∀ k, (u.coils.get k).state.energised = true → c.state = .holding) : t.FieldsGuarded := by
  intro sd'
  rw [facesEnd_congr sys]
  simp only [State.coil, coils, claims]
  by_cases e : sd' = sd
  · subst e
    simp only [PerSide.get_set_self]
    exact ⟨sound, fun k inner field => guard inner k field⟩
  · simp only [PerSide.get_set_of_ne _ _ e]
    exact h sd'

theorem State.FieldsGuarded.setClaim {s : State} (h : s.FieldsGuarded) (sd : Side) (c : Claim)
    (state : (s.claims.get sd).state = .holding → c.state = .holding) : (s.setClaim sd c).FieldsGuarded :=
  h.replace sd (u := s.coils.get sd) rfl (PerSide.set_get_self _ _).symm rfl (h sd).1 fun inner k field =>
    state ((h sd).2 k inner field)

theorem State.FieldsGuarded.setCoils {s : State} (h : s.FieldsGuarded) (sd : Side) {u : CoilUnit} (calms : (s.coils.get sd).Calms u) :
    (s.setCoils sd u).FieldsGuarded := by
  obtain ⟨sound, old⟩ := calms (h sd).1
  exact h.replace sd (c := s.claims.get sd) rfl rfl (PerSide.set_get_self _ _).symm sound fun inner k field => (h sd).2 k inner (old k field)

/-- An activation that R16 allows: the one energised coil of the side, its ramp timer running. -/
theorem State.FieldsGuarded.activate {s : State} {sd : Side} {k : CoilNumber} (h : s.FieldsGuarded) (may : s.mayActivate sd k = true) :
    (s.activate sd k).FieldsGuarded := by
  obtain ⟨-, dark, guard, -⟩ := mayActivate_iff.1 may
  have only (j : CoilNumber)
      (hj : ((((s.coils.get sd).coils.set k { (s.coils.get sd).coils.get k with state := .ramping }).get j).state.energised = true)) : j = k := by
    by_contra ne
    rw [Quad.get_set_of_ne _ _ ne, dark j] at hj
    cases hj
  refine h.replace sd (c := s.claims.get sd) rfl rfl (PerSide.set_get_self _ _).symm
    ⟨fun i j hi hj => (only i hi).trans (only j hj).symm, fun j hj => ?_, fun _ _ => nofun, (h sd).1.2.2.2⟩ fun inner _ _ => ?_
  · obtain rfl := only j (energised_of_live hj)
    rw [Quad.get_set_self] at hj
    cases hj
  · rcases guard with ends | holding
    · rw [ends] at inner; cases inner
    · exact holding

/-- The one energised coil of a side is drained: its fields are gone. -/
theorem CoilUnit.drained_dark {u : CoilUnit} {k : CoilNumber} (sound : u.Sound) (hk : (u.coils.get k).state.energised = true) (d : Nat)
    (j : CoilNumber) : ((u.drained d k).coils.get j).state.energised = false := by
  obtain ⟨-, calms⟩ := u.calms_drained d k sound
  refine Bool.eq_false_iff.2 fun hj => ?_
  obtain rfl := sound.1 j k (calms j hj) hk
  obtain ⟨off, -⟩ | ⟨-, e⟩ | ⟨-, e⟩ := u.drained_spec d j
  · rw [off] at hk; cases hk
  · rw [e, Quad.get_set_self] at hj; cases hj
  · rw [e, Quad.get_set_self] at hj; cases hj

/-- The end of a hold leaves no field on an inner-lane side (R42, R17). -/
theorem State.FieldsGuarded.endHold {s : State} (h : s.FieldsGuarded) (sd : Side) : (s.endHold sd).FieldsGuarded := by
  unfold State.endHold
  dsimp only
  split
  · split
    · next ends =>
      exact h.replace sd (u := s.coils.get sd) rfl (PerSide.set_get_self _ _).symm rfl (h sd).1 fun inner => by rw [show s.facesEnd sd = true from ends] at inner; cases inner
    · unfold State.drainEnergised
      split
      · next k energised =>
        have field : ((s.coils.get sd).coils.get k).state.energised = true :=
          List.find?_some (p := fun k => ((s.coils.get sd).coils.get k).state.energised) energised
        have drained : ∀ t : State, t.sys = s.sys → t.coils = s.coils.set sd ((s.coils.get sd).drained (ms s.sys.cfg.drainTime) k) →
            t.claims = s.claims.set sd { s.claims.get sd with state := .resting .closing } → t.FieldsGuarded := fun t sys coils claims =>
          h.replace sd sys coils claims (CoilUnit.calms_drained _ _ k (h sd).1).1 fun _ j hj => by
            rw [CoilUnit.drained_dark (h sd).1 field] at hj; cases hj
        unfold State.drain
        dsimp only
        split
        · exact drained _ rfl rfl rfl
        · exact drained _ rfl rfl rfl
      · next none =>
        have dark := energisedCoil_eq_none.1 none
        exact h.replace sd (u := s.coils.get sd) rfl (PerSide.set_get_self _ _).symm rfl (h sd).1 fun _ k field => by
          have := dark k
          simp only [State.setClaim_coils] at this
          rw [this] at field; cases field
  · exact h

/-- A Coil Controller without a field whose live and ramp timers are stopped is sound. -/
theorem CoilUnit.sound_of_dark {u : CoilUnit} (dark : ∀ k, (u.coils.get k).state.energised = false) (live : u.live = none) : u.Sound := by
  refine ⟨fun j k hj => ?_, fun k hk => ?_, fun k hk => ?_, fun e he => ?_⟩
  · rw [dark j] at hj; cases hj
  · have := dark k; rw [hk] at this; cases this
  · have := dark k; rw [hk] at this; cases this
  · rw [live] at he; cases he

theorem fieldsGuarded_of_dark {s : State} (dark : ∀ sd k, ((s.coils.get sd).coils.get k).state.energised = false)
    (live : ∀ sd, (s.coils.get sd).live = none) : s.FieldsGuarded := fun sd =>
  ⟨CoilUnit.sound_of_dark (dark sd) (live sd), fun k _ field => by
    rw [State.coil, dark sd k] at field; cases field⟩

theorem Coil.hallClear_dark (c : Coil) (d : Nat) : (c.hallClear d).state.energised = false := by
  unfold Coil.hallClear
  split
  · rfl
  · next fieldless => cases state : c.state <;> simp_all [CoilState.hasField, CoilState.energised]

theorem State.hallClear_guarded (s : State) : s.hallClear.FieldsGuarded := by
  have coils (sd : Side) : s.hallClear.coils.get sd = (s.coils.get sd).hallClear (ms s.sys.cfg.drainTime) := by cases sd <;> rfl
  refine fieldsGuarded_of_dark (fun sd k => ?_) fun sd => ?_
  · rw [coils, CoilUnit.hallClear, Quad.get_map]; exact Coil.hallClear_dark _ _
  · rw [coils]; rfl

theorem State.Off.guarded {s : State} {O : Owner → Prop} (h : s.Off O) : s.FieldsGuarded :=
  fieldsGuarded_of_dark (fun sd k => by rw [show ((s.coils.get sd).coils.get k).state = .idle from (h.2.coil sd k).1]; rfl)
    fun sd => (h.2.timers sd).2.1

theorem State.Off.entered_guarded {s : State} {O : Owner → Prop} (h : s.Off O) (c : Config) : (s.entered c).FieldsGuarded := by
  have coils (sd : Side) : (s.entered c).coils.get sd = (s.coils.get sd).withQ c.initialQ := by cases sd <;> rfl
  refine fieldsGuarded_of_dark (fun sd k => ?_) fun sd => ?_
  · rw [coils, CoilUnit.withQ, Quad.get_map]
    show ((s.coils.get sd).coils.get k).state.energised = false
    rw [show ((s.coils.get sd).coils.get k).state = .idle from (h.2.coil sd k).1]; rfl
  · rw [coils]; exact (h.2.timers sd).2.1

/-! ### Time -/

theorem foldl_min_spec (l : List Nat) (a : Nat) :
    l.foldl min a ≤ a ∧ (∀ x ∈ l, l.foldl min a ≤ x) ∧ (l.foldl min a = a ∨ l.foldl min a ∈ l) := by
  induction l generalizing a with
  | nil => simp
  | cons x l ih =>
    obtain ⟨bound, least, attained⟩ := ih (min a x)
    simp only [List.foldl_cons, List.mem_cons, forall_eq_or_imp]
    refine ⟨by omega, ⟨by omega, least⟩, ?_⟩
    rcases attained with e | mem
    · rcases min_choice a x with m | m <;> rw [m] at e <;> simp [m, e]
    · exact .inr (.inr mem)

/-- Time passes no due moment (log 2). -/
theorem advance_spec (s : State) (us : Nat) : ∃ d, s.advance us = s.elapse d ∧ d ≤ us ∧ (∀ x ∈ s.deadlines, d ≤ x) ∧
    (d = us ∨ d ∈ s.deadlines) := by
  obtain ⟨bound, least, attained⟩ := foldl_min_spec s.deadlines us
  exact ⟨_, rfl, bound, least, attained⟩

theorem CoilUnit.elapse_state (u : CoilUnit) (d : Nat) (k : CoilNumber) : ((u.elapse d).coils.get k).state = (u.coils.get k).state := by
  simp [CoilUnit.elapse, Quad.get_map, Coil.elapse]

theorem CoilUnit.Sound.elapse {u : CoilUnit} (h : u.Sound) {d : Nat} (within : ∀ x ∈ u.deadlines, d ≤ x) : (u.elapse d).Sound := by
  obtain ⟨unique, liveRuns, rampRuns, limit⟩ := h
  refine ⟨fun j k hj hk => ?_, fun k hk => ?_, fun k hk => ?_, fun e he => ?_⟩
  · rw [u.elapse_state] at hj hk
    exact unique j k hj hk
  · rw [u.elapse_state] at hk
    simpa [CoilUnit.elapse] using liveRuns k hk
  · rw [u.elapse_state] at hk
    simpa [CoilUnit.elapse, runDown] using rampRuns k hk
  · obtain ⟨e0, he0, rfl⟩ := Option.map_eq_some_iff.1 he
    have due : maxLiveTime - e0 ∈ u.deadlines := by simp [CoilUnit.deadlines, he0]
    have := within _ due
    have := limit e0 he0
    omega

theorem State.FieldsGuarded.advance {s : State} (h : s.FieldsGuarded) (us : Nat) : (s.advance us).FieldsGuarded := by
  obtain ⟨d, e, -, within, -⟩ := advance_spec s us
  rw [e]
  intro sd
  have coils : (s.elapse d).coils.get sd = (s.coils.get sd).elapse d := by cases sd <;> rfl
  have claim : ((s.elapse d).claims.get sd).state = (s.claims.get sd).state := by cases sd <;> rfl
  have ends : (s.elapse d).facesEnd sd = s.facesEnd sd := by cases sd <;> rfl
  have due : ∀ x ∈ (s.coils.get sd).deadlines, d ≤ x := fun x hx => within x (by
    cases sd
    · simp [State.deadlines, show x ∈ s.coils.left.deadlines from hx]
    · simp [State.deadlines, show x ∈ s.coils.right.deadlines from hx])
  simp only [State.coil]
  rw [coils, claim, ends]
  refine ⟨(h sd).1.elapse due, fun k inner field => (h sd).2 k inner ?_⟩
  rw [CoilUnit.elapse_state] at field
  exact field

/-! ### The operations and the commands -/

/-- A station in RUNNING whose fields are guarded. -/
def State.RunsGuarded (y : Sys) (s : State) : Prop := s.RunsWith y ∧ True ∧ s.FieldsGuarded

theorem runsGuarded_closed (y : Sys) : Closed (State.RunsGuarded y) := by
  constructor
  case count =>
    rintro s k n ⟨run, -, guarded⟩
    refine ⟨by rwa [State.RunsWith, State.count_sys], trivial, guarded.replace .L ?_ ?_ ?_ (guarded .L).1 fun inner k => (guarded .L).2 k inner⟩
    · simp
    · simp
    · simp
  all_goals (intros; assumption)

theorem State.RunsGuarded.setClaim {y : Sys} {s : State} (h : s.RunsGuarded y) (sd : Side) (c : Claim)
    (state : (s.claims.get sd).state = .holding → c.state = .holding) : (s.setClaim sd c).RunsGuarded y :=
  ⟨h.1, trivial, h.2.2.setClaim sd c state⟩

theorem State.RunsGuarded.takeRequest {y : Sys} {s : State} (h : s.RunsGuarded y) {sd : Side} (state : (s.claims.get sd).state ≠ .holding) :
    (s.takeRequest sd).1.RunsGuarded y := by
  unfold State.takeRequest
  dsimp only
  split
  · exact h.setClaim sd _ fun _ => rfl
  · exact (runsGuarded_closed y).offer _ _ rfl (h.setClaim sd _ fun held => by simp [state] at held)

theorem State.RunsGuarded.becomeFree {y : Sys} {s : State} (h : s.RunsGuarded y) {sd : Side} (state : (s.claims.get sd).state ≠ .holding) :
    (s.becomeFree sd).1.RunsGuarded y := by
  have free := h.setClaim sd { s.claims.get sd with state := .free, rest := none } fun held => by simp [state] at held
  unfold State.becomeFree
  dsimp only
  split
  · exact free.takeRequest (by simp)
  · exact free

theorem State.RunsGuarded.giveUpLane {y : Sys} {s : State} (h : s.RunsGuarded y) (sd : Side) : (s.giveUpLane sd).1.RunsGuarded y := by
  unfold State.giveUpLane
  dsimp only
  split
  · next closing =>
    have unheld : (s.claims.get sd).state ≠ .holding := by simp [closing]
    split
    · split
      · exact h.setClaim sd _ fun held => absurd held unheld
      · exact (h.setClaim sd { s.claims.get sd with clash := false, hold := none } id).becomeFree (by simpa using unheld)
    · have C := runsGuarded_closed y
      have offered : State.RunsGuarded y ((s.giveUp (.defer sd)).offerRelease sd).1 := C.offer _ _ rfl (C.giveUp _ h)
      have same : ((s.giveUp (.defer sd)).offerRelease sd).1.claims = s.claims :=
        (offer_onlyOffers (s.giveUp (.defer sd)) _ _ _).claims
      have told := offered.setClaim sd { s.claims.get sd with
        state := afterRelease (s.claims.get sd), clash := false, deferredPartner := false, hold := none, rest := none }
        fun held => by rw [same] at held; exact absurd held unheld
      split
      · next free => exact told.becomeFree (by simp [free])
      · exact told
  · exact h

/-- The operations of coils, claims and sweeps keep the fields guarded. -/
theorem runsGuarded_sweeps (y : Sys) : SweepKept (State.RunsGuarded y) where
  sweep _ _ h := h
  coils sd _ calms h := ⟨h.1, trivial, h.2.2.setCoils sd calms⟩
  activate may h := ⟨h.1, trivial, h.2.2.activate may⟩
  claim sd _ state _ _ h := h.setClaim sd _ fun held => state.trans held
  take _ free h := h.takeRequest (by simp [free])
  endHold sd h := ⟨(runsWith_kept y).toClosedSides.endHold sd h.1, trivial, h.2.2.endHold sd⟩
  giveUpLane sd h := h.giveUpLane sd

theorem State.RunsGuarded.yieldTo {y : Sys} {s : State} (h : s.RunsGuarded y) {sd : Side} (cause : RestCause) (rest : Nat)
    (state : (s.claims.get sd).state ≠ .holding) : (s.yieldTo sd cause rest).RunsGuarded y :=
  have C := runsGuarded_closed y
  C.askRemoval _ (C.giveUp _ (h.setClaim sd _ fun held => absurd held state))

theorem State.RunsGuarded.deferPartner {y : Sys} {s : State} (h : s.RunsGuarded y) (sd : Side) : (s.deferPartner sd).RunsGuarded y :=
  (runsGuarded_closed y).offer _ _ rfl (h.setClaim sd _ id)

theorem State.RunsGuarded.claimWaitEnds {y : Sys} {s : State} (h : s.RunsGuarded y) (sd : Side) : (s.claimWaitEnds sd).RunsGuarded y := by
  unfold State.claimWaitEnds
  dsimp only
  split
  · split
    · exact (runsGuarded_sweeps y).grant _ (h.setClaim sd _ fun _ => rfl)
    · exact h.setClaim sd _ id
  · exact h

theorem State.RunsGuarded.restEnds {y : Sys} {s : State} (h : s.RunsGuarded y) (sd : Side) : (s.restEnds sd).RunsGuarded y := by
  unfold State.restEnds
  dsimp only
  split
  · split
    case h_5 =>
      have free := (State.RunsGuarded.becomeFree (s := s.giveUp (.release sd)) h (sd := sd) (by simp [*]))
      split
      · exact (runsGuarded_sweeps y).grant _ free
      · exact free
    all_goals exact h.setClaim sd _ id
  · exact h

theorem State.RunsGuarded.partnerClaim {y : Sys} {s : State} (h : s.RunsGuarded y) (sd : Side) : (s.partnerClaim sd).RunsGuarded y := by
  unfold State.partnerClaim
  dsimp only
  split
  · exact h
  · next asking =>
    split
    · exact h.deferPartner sd
    · exact h.yieldTo _ _ (by simp [asking])
  · exact h.deferPartner sd
  · exact h.deferPartner sd
  · exact h.setClaim sd _ id
  · next deferred => exact h.setClaim sd _ fun held => by simp [deferred] at held
  · next gap => exact State.RunsGuarded.becomeFree (s := s.giveUp (.release sd)) h (by simp [gap])
  · exact h

theorem State.RunsGuarded.partnerDefer {y : Sys} {s : State} (h : s.RunsGuarded y) (sd : Side) (hold : Nat) :
    (s.partnerDefer sd hold).RunsGuarded y := by
  have C := runsGuarded_closed y
  unfold State.partnerDefer
  dsimp only
  split
  · next asking =>
    have told := h.setClaim sd { s.claims.get sd with deferredPartner := false } id
    exact C.askRemoval _ (State.RunsGuarded.yieldTo (s := (s.setClaim sd { s.claims.get sd with deferredPartner := false }).giveUp (.defer sd))
      (C.giveUp _ told) _ _ (by simp [asking]))
  all_goals exact h

theorem State.RunsGuarded.partnerRelease {y : Sys} {s : State} (h : s.RunsGuarded y) (sd : Side) : (s.partnerRelease sd).RunsGuarded y := by
  unfold State.partnerRelease
  split
  · exact h
  · next cause _ rest => exact State.RunsGuarded.becomeFree (s := s.giveUp (.release sd)) h (by simp [rest])
  all_goals exact h

theorem State.RunsGuarded.releaseSettled {y : Sys} {s : State} (h : s.RunsGuarded y) (sd : Side) : (s.releaseSettled sd).RunsGuarded y := by
  unfold State.releaseSettled
  dsimp only
  split
  · split
    · exact h.setClaim sd _ id
    · exact h
  · split
    · exact h.setClaim sd _ id
    · exact h
  all_goals exact h

theorem State.RunsGuarded.frameSent {y : Sys} {s : State} (h : s.RunsGuarded y) (f : QFrame) : (s.frameSent f).1.RunsGuarded y := by
  have C := runsGuarded_closed y
  unfold State.frameSent
  split
  · next sd _ _ =>
    unfold State.claimTransmitted
    dsimp only
    split
    · exact h.setClaim sd _ id
    · exact h
  · exact h.releaseSettled _
  · exact C.sightSent _ _ h
  · exact C.settleSamples _ _ _ h
  · dsimp only
    refine C.countDecision _ _ (C.alarmDecide _ _ _ _ _ ?_)
    split
    · exact C.decisionSent _ _ h
    · exact h
  · exact C.carried h
  · exact h

theorem State.RunsGuarded.complete {y : Sys} {s : State} (h : s.RunsGuarded y) : s.complete.RunsGuarded y := by
  have C := runsGuarded_closed y
  unfold State.complete
  dsimp only
  split
  · next f _ =>
    have walked := C.walk (State.RunsGuarded.frameSent (s := ((s.setPhase (.idle 0)).setBackoff false).setQueue (withoutSent s.line.queue)) h f)
    unfold State.afterSent
    split
    · split
      · exact C.contextCreated _ _ walked
      · exact walked
    · split
      · exact (runsGuarded_sweeps y).provisionalTriggers _ _ walked
      · exact walked
    · exact walked
  · exact h

theorem State.RunsGuarded.frameDropped {y : Sys} {s : State} (h : s.RunsGuarded y) (f : QFrame) : (s.frameDropped f).RunsGuarded y := by
  have C := runsGuarded_closed y
  unfold State.frameDropped
  split
  · exact C.freeSole _ h
  · split
    · exact h.releaseSettled _
    · exact C.settleSamples _ _ _ h
    · exact C.settleSamples _ _ _ h
    · exact C.request _ _ h
    · exact h

theorem State.RunsGuarded.loseContention {y : Sys} {s : State} (h : s.RunsGuarded y) (stamp : Clock) :
    (s.loseContention stamp).RunsGuarded y := by
  have C := runsGuarded_closed y
  have off : (((s.setPhase (.receiving stamp)).setBackoff true).setQueue (withoutSent s.line.queue)).RunsGuarded y := h
  unfold State.loseContention
  dsimp only
  split
  · split
    · exact C.afterDropped _ (C.walk (State.RunsGuarded.frameDropped (C.count _ _ off) _))
    · exact C.carryOut _ h
  · exact h

/-- Every command keeps the fields of a station in RUNNING guarded. -/
theorem runsGuarded_commands (y : Sys) : CommandsKept (State.RunsGuarded y) where
  toRecordsKept := .of_closed (runsGuarded_closed y)
  toSweepKept := runsGuarded_sweeps y
  advance us h := ⟨(runsWith_kept y).advance us h.1, trivial, h.2.2.advance us⟩
  startUp n h := by rwa [h.1.startUp]
  readFails h := by rwa [h.1.readFails]
  retryEnds h := by rwa [h.1.retryEnds]
  readCompletes image h := by rwa [h.1.readCompletes]
  tick h := by unfold State.tick; split <;> exact h
  expire h := h
  claimWaitEnds sd h := h.claimWaitEnds sd
  restEnds sd h := h.restEnds sd
  partnerClaim sd _ _ h := h.partnerClaim sd
  partnerDefer sd hold _ _ h := h.partnerDefer sd hold
  partnerRelease sd _ _ h := h.partnerRelease sd
  attemptStarts h := by
    unfold State.attemptStarts
    split
    · unfold State.startAttempt
      dsimp only
      split <;> exact h
    · exact h
  contentionLost h := by
    unfold State.contentionLost
    split
    · split
      · exact h.loseContention _
      · exact h
    all_goals exact h
  transmitCompletes h := by
    unfold State.transmitCompletes
    split
    · split
      · exact h.complete
      · exact h
    all_goals exact h
  clear _ h := ⟨h.1, trivial, State.hallClear_guarded _⟩

/-- Settles O59: fields appear by an activation that R16 allows and at the end of a good ramp, an inner lane's are drained at the end of its
hold, and time stops where a live coil is due. -/
theorem everyStepKeepsTheFieldsGuarded : Obligations.EveryStepKeepsTheFieldsGuarded := fun _ _ still guarded hs =>
  step_keeps_of_running (A := fun _ => True) (O := anyOwner) kept_true State.Off.guarded (fun c h => h.entered_guarded c) runsGuarded_commands trivial
    (fun _ _ => trivial) (fun _ h => h) still (fun _ _ _ => trivial) trivial guarded hs

end Sys2Proof.Machine
end

section
/-! PROOFS. A property that no change of a LEAD record or of a query slot touches passes through every operation on records. -/

namespace Sys2Proof.Machine

/-- A property that survives, besides the changes of frames, any change of the query slots and of a record, and an offered DECIDE. -/
structure LeadsKept (I : State → Prop) : Prop extends FramesKept I where
  queries : ∀ {s : State} (q : Queries), I s → I (s.setQueries q)
  store   : ∀ {s : State} {r r0 : Record}, s.record? r.item = some r0 → r.samples.length ≤ max r0.samples.length listSize →
    I s → I (s.putRecord r)
  decide  : ∀ {s : State} (x : Item) (m : DecideMsg), I s → I (s.offer (some (.decision x)) (.record x) (.decision m)).1

section
variable {I : State → Prop} (K : LeadsKept I)
include K

theorem LeadsKept.storeLead {s : State} {x : Item} {r : Record} {l : Lead} (hl : s.lead? x = some (r, l)) (l' : Lead) (h : I s) :
    I (s.putLead r l') := by
  obtain ⟨hr, -⟩ := lead?_eq_some.1 hl
  exact K.store (r := { r with state := .lead l' }) (r0 := r) (by simpa [record?_item hr] using hr) (Nat.le_max_left _ _) h

/-! ### Query slots -/

theorem LeadsKept.setSlotField {s : State} (x : Item) (k : Option (BitVec 2)) (h : I s) : I (s.setSlotField x k) := by
  unfold State.setSlotField
  split
  · next hl => exact K.storeLead hl _ h
  · exact h

theorem LeadsKept.takeSlot {s : State} (k : BitVec 2) (x : Item) (h : I s) : I (s.takeSlot k x) :=
  K.offerQuery _ (K.setSlotField _ _ (K.queries _ h))

theorem LeadsKept.freeSlot {s : State} (k : BitVec 2) (h : I s) : I (s.freeSlot k) := by
  unfold State.freeSlot
  split
  · exact h
  · next u _ =>
    have freed := K.setSlotField u.item none (K.askRemoval (ofSlot k) (K.giveUp (k := .query k) rfl h))
    dsimp only
    split
    · exact K.queries _ freed
    · exact K.takeSlot _ _ (K.queries _ (K.queries _ freed))

theorem LeadsKept.endQuery {s : State} (x : Item) (slot : Option (BitVec 2)) (h : I s) : I (s.endQuery x slot) := by
  unfold State.endQuery
  split
  · exact K.freeSlot _ h
  · exact K.queries _ h

theorem LeadsKept.actOnStatus {s : State} (x : Item) (slot : Option (BitVec 2)) (o : IssueStatus) (h : I s) :
    I (s.actOnStatus x slot o) := by
  unfold State.actOnStatus
  split
  · split
    · exact h
    · split
      · exact K.takeSlot _ _ h
      · exact K.queries _ h
  · exact K.endQuery _ _ h

/-! ### Verdicts -/

theorem LeadsKept.offerDecision {s : State} (x : Item) (d : Decision) (h : I s) : I (s.offerDecision x d).1 := by
  have offered := K.decide x { item := x, decision := d, again := false } h
  unfold State.offerDecision
  dsimp only
  split
  · next hl => exact K.storeLead hl _ offered
  · exact offered

theorem LeadsKept.offerFinal {s : State} (x : Item) (d : Decision) (h : I s) : I (s.offerFinal x d) := by
  unfold State.offerFinal
  split
  · next hl => exact K.offerDecision _ _ (K.storeLead hl _ h)
  · exact h

theorem LeadsKept.holdRecord {s : State} (x : Item) (a : Nat) (b : Option Nat) (e : ClassEntry) (h : I s) : I (s.holdRecord x a b e) := by
  unfold State.holdRecord
  split
  · next hl => exact K.storeLead hl _ h
  · exact h

theorem LeadsKept.finalEvaluation {s : State} (x : Item) (h : I s) : I (s.finalEvaluation x) := by
  unfold State.finalEvaluation
  split
  · next r l _ =>
    split
    · split
      · exact K.offerFinal _ _ h
      · next e _ =>
        have acted : I (if holdLimit e = 0 then s else s.actOnStatus x l.slot (s.issueStatusOf r)) := by
          split
          · exact h
          · exact K.actOnStatus _ _ _ h
        dsimp only
        split
        · exact K.offerFinal _ _ acted
        · exact K.holdRecord _ _ _ _ acted
    · exact h
  · exact h

theorem LeadsKept.reEvaluateHeld {s : State} (x : Item) (answer : Option IssueStatus) (h : I s) : I (s.reEvaluateHeld x answer) := by
  unfold State.reEvaluateHeld
  split
  · next r l _ =>
    have acted := K.actOnStatus x l.slot (withAnswer answer (s.issueStatusOf r)) h
    split
    · dsimp only
      split
      · exact acted
      · split
        · exact K.offerFinal _ _ acted
        · exact acted
    all_goals exact h
  · exact h

theorem LeadsKept.provisionalCheck {s : State} (x : Item) (h : I s) : I (s.provisionalCheck x) := by
  unfold State.provisionalCheck
  split
  · next hl =>
    split
    · split
      · split
        · exact K.offerDecision _ _ (K.storeLead hl _ h)
        · exact h
      · exact h
    · exact h
  · exact h

theorem LeadsKept.reEvaluateProvisional {s : State} (x : Item) (h : I s) : I (s.reEvaluateProvisional x) := by
  unfold State.reEvaluateProvisional
  split
  · next hl =>
    split
    · dsimp only
      split
      · split
        · exact h
        · exact K.offerDecision _ _ (K.storeLead hl _ h)
      · exact K.offerDecision _ _ (K.storeLead hl _ h)
    · exact h
  · exact h

theorem LeadsKept.holdExpired {s : State} (x : Item) (h : I s) : I (s.holdExpired x) := by
  unfold State.holdExpired
  split
  · split
    · refine K.offerFinal _ _ (K.endQuery _ _ ?_)
      split
      · exact K.count _ _ h
      · exact h
    all_goals exact h
  · exact h

/-! ### The end of a lead -/

theorem LeadsKept.yieldLead {s : State} {x : Item} {r : Record} (hr : s.record? x = some r) (l : Lead) (y : Nat) (h : I s) :
    I (s.yieldLead r l y) := by
  have joint := K.store (r := { r with samples := unsendOwn s.number r.samples, state := .joint y (some s.patience) }) (r0 := r)
    (by simpa [record?_item hr] using hr) (by simp [unsendOwn]) h
  exact K.offerJoins _ (K.askRemoval _ (K.endQuery _ _ (K.askRemoval _ (K.giveUp rfl (K.giveUp rfl joint)))))

theorem LeadsKept.closeLead {s : State} {x : Item} {r : Record} {l : Lead} (hr : s.record? x = some r) (lead : r.state = .lead l)
    (d : Decision) (h : I s) : I (s.closeBy r d) := by
  have closed := K.giveUp (k := .decision r.item) rfl (K.giveUp (k := .join r.item) rfl (K.giveUp (k := .sight r.item) rfl
    (K.store (r := { r with state := .closed d s.time.clock }) (r0 := r) (by simpa [record?_item hr] using hr) (Nat.le_max_left _ _) h)))
  simp only [State.closeBy, lead]
  exact K.askRemoval _ (K.endQuery _ _ (K.askRemoval _ closed))

theorem LeadsKept.becomeLead {s : State} (x : Item) (h : I s) : I (s.becomeLead x) := by
  unfold State.becomeLead
  split
  · next r hr =>
    exact K.giveUp rfl (K.giveUp rfl (K.store (r := { r with state := .lead (Lead.fresh s.sys.cfg) }) (r0 := r)
      (by simpa [record?_item hr] using hr) (Nat.le_max_left _ _) h))
  · exact h

theorem LeadsKept.sightSent {s : State} (x : Item) (m : SightMsg) (h : I s) : I (s.sightSent x m).1 := by
  have sent := K.settleSamples x .sent m.samples h
  unfold State.sightSent
  split
  · split
    · exact K.becomeLead _ sent
    · exact sent
    · split
      · exact K.becomeLead _ sent
      · exact sent
    · exact h
  · exact h

theorem LeadsKept.decisionSent {s : State} (x : Item) (m : DecideMsg) (h : I s) : I (s.decisionSent x m) := by
  unfold State.decisionSent
  split
  · next r l hl =>
    obtain ⟨hr, -⟩ := lead?_eq_some.1 hl
    split
    · exact h
    · split
      · exact K.giveUp rfl (K.giveUp rfl (K.store (r := { r with state := .closed m.decision s.time.clock }) (r0 := r)
          (by simpa [record?_item hr] using hr) (Nat.le_max_left _ _) h))
      · split
        · exact K.storeLead hl _ h
        · exact h
  · exact h

/-- Such a property passes through every operation on records. -/
theorem LeadsKept.records : RecordsKept I where
  toFramesKept := K.toFramesKept
  yieldLead y hl := K.yieldLead (lead?_eq_some.1 hl).1 _ y
  closeLead d hl := K.closeLead (lead?_eq_some.1 hl).1 (lead?_eq_some.1 hl).2 d
  freeSlot := K.freeSlot
  finalEvaluation := K.finalEvaluation
  reEvaluateHeld := K.reEvaluateHeld
  reEvaluateProvisional := K.reEvaluateProvisional
  provisionalCheck := K.provisionalCheck
  holdExpired := K.holdExpired

end

end Sys2Proof.Machine
end

section
/-! PROOFS. The claim frames of each side (R74, R43, R75), said of what a side has in the queue and in the waiting list, and how an offer, a
removal and the walk of the waiting list change it. -/

namespace Sys2Proof.Machine

/-! ### What a side has on the line -/

/-- The side's queued frames, each as its payload and whether it is under transmission. -/
def sideView (sd : Side) (q : List QFrame) : List (Payload × Bool) :=
  (q.filter fun f => f.owner == .side sd).map fun f => (f.payload, f.underTx)

@[simp] theorem sideView_nil (sd : Side) : sideView sd [] = [] := rfl

@[simp] theorem sideView_append (sd : Side) (q q' : List QFrame) : sideView sd (q ++ q') = sideView sd q ++ sideView sd q' := by
  simp [sideView]

theorem sideView_cons_own {sd : Side} {f : QFrame} (own : f.owner = .side sd) (q : List QFrame) :
    sideView sd (f :: q) = (f.payload, f.underTx) :: sideView sd q := by
  simp [sideView, own]

theorem sideView_cons_other {sd : Side} {f : QFrame} (other : f.owner ≠ .side sd) (q : List QFrame) :
    sideView sd (f :: q) = sideView sd q := by
  simp [sideView, other]

theorem mem_sideView {sd : Side} {q : List QFrame} {p : Payload} {b : Bool} :
    (p, b) ∈ sideView sd q ↔ ∃ f ∈ q, f.owner = .side sd ∧ f.payload = p ∧ f.underTx = b := by
  simp [sideView, and_assoc]

/-- The side's RELEASE may be out in this claim state (R43). -/
def Claim.mayRelease (c : Claim) : Prop :=
  c.state = .free ∨ (c.state = .asking ∧ c.sent = false) ∨ ∃ cause, cause ≠ .closing ∧ c.state = .resting cause

/-- What holds of a side's frames `v` in a queue of length `len`, of its entries in the waiting list `w`, and of its claim; an urgent frame
waits only where the queue lacks at most `n` frames to be full. -/
structure ClaimFrames (sd : Side) (lane : Nat) (ends : Bool) (n len : Nat) (v : List (Payload × Bool)) (w : List WaitKey) (c : Claim) :
    Prop where
  own          : ∀ p ∈ v.map Prod.fst, p = .claim lane ∨ p = .defer lane ∨ p = .release lane
  once         : (v.map Prod.fst).Nodup
  claimWaits   : .claim sd ∈ w → .claim lane ∉ v.map Prod.fst
  deferWaits   : .defer sd ∈ w → .defer lane ∉ v.map Prod.fst ∧ queueSize ≤ len + n
  releaseWaits : .release sd ∈ w → .release lane ∉ v.map Prod.fst ∧ queueSize ≤ len + n
  atEnd        : ends = true → v = [] ∧ .claim sd ∉ w ∧ .defer sd ∉ w ∧ .release sd ∉ w
  asking       : .claim lane ∈ v.map Prod.fst ∨ .claim sd ∈ w → c.state = .asking ∧ c.sent = false
  wait         : c.wait ≠ none → c.state = .asking ∧ c.sent = true
  release      : .release lane ∈ v.map Prod.fst ∨ .release sd ∈ w → c.mayRelease
  apart        : (.claim lane, true) ∈ v → .release lane ∉ v.map Prod.fst ∧ .release sd ∉ w

/-- Each side's claim frames are sound, but that an urgent one may wait where the queue lacks `n` frames to be full. -/
def State.ClaimsFit (n : Nat) (s : State) : Prop :=
  ∀ sd, ClaimFrames sd (s.lane sd) (s.facesEnd sd) n s.line.queue.length (sideView sd s.line.queue) s.line.waiting (s.claims.get sd)

theorem sideFrames_length (s : State) (sd : Side) (p : Payload) :
    (s.sideFrames sd p).length = ((sideView sd s.line.queue).map Prod.fst).count p := by
  simp only [State.sideFrames, sideView, List.map_map, List.count_eq_countP, List.countP_map, List.countP_filter, ← List.countP_eq_length_filter]
  refine List.countP_congr fun f _ => ?_
  simp [and_comm]

theorem sideFrames_eq_nil {s : State} {sd : Side} {p : Payload} :
    s.sideFrames sd p = [] ↔ p ∉ (sideView sd s.line.queue).map Prod.fst := by
  rw [← List.length_eq_zero_iff, sideFrames_length, List.count_eq_zero]

theorem claimsFit_iff {s : State} (fits : s.line.queue.length ≤ queueSize) : s.ClaimsFit 0 ↔ s.ClaimFramesSound := by
  have full : s.line.queue.length = queueSize ↔ queueSize ≤ s.line.queue.length + 0 := by omega
  have own (sd : Side) : (∀ p ∈ (sideView sd s.line.queue).map Prod.fst,
      p = .claim (s.lane sd) ∨ p = .defer (s.lane sd) ∨ p = .release (s.lane sd)) ↔ ∀ f ∈ s.line.queue, f.owner = .side sd →
      f.payload = .claim (s.lane sd) ∨ f.payload = .defer (s.lane sd) ∨ f.payload = .release (s.lane sd) := by
    simp only [sideView, List.map_map, List.mem_map, List.mem_filter, beq_iff_eq]
    exact ⟨fun h f hf owner => h _ ⟨f, ⟨hf, owner⟩, rfl⟩, fun h p ⟨f, ⟨hf, owner⟩, e⟩ => e ▸ h f hf owner⟩
  have none (sd : Side) : sideView sd s.line.queue = [] ↔ ∀ f ∈ s.line.queue, f.owner ≠ .side sd := by simp [sideView]
  have tx (sd : Side) (p : Payload) : (p, true) ∈ sideView sd s.line.queue ↔ ∃ f ∈ s.sideFrames sd p, f.underTx = true := by
    rw [mem_sideView]; simp [State.sideFrames, and_assoc]
  have out (sd : Side) (p : Payload) : p ∈ (sideView sd s.line.queue).map Prod.fst ↔ s.sideFrames sd p ≠ [] := by
    rw [Ne, sideFrames_eq_nil, not_not]
  constructor
  · intro h sd
    obtain ⟨hown, once, claimWaits, deferWaits, releaseWaits, atEnd, asking, wait, release, apart⟩ := h sd
    have atMost (p : Payload) : (s.sideFrames sd p).length ≤ 1 := by
      rw [sideFrames_length]; exact List.nodup_iff_count_le_one.1 once p
    simp only [out, not_ne_iff, ← full] at *
    refine ⟨(own sd).1 hown, atMost _, atMost _, atMost _, claimWaits, deferWaits, releaseWaits, fun ends => ?_, asking, wait, release, fun e => ?_⟩
    · obtain ⟨v, noClaim, noDefer, noRelease⟩ := atEnd ends
      refine ⟨(none sd).1 v, fun k hk => ⟨?_, ?_, ?_⟩⟩ <;> rintro rfl <;> contradiction
    · obtain ⟨noFrame, noWait⟩ := apart ((tx sd _).2 e)
      rintro (h | h)
      · exact h noFrame
      · exact noWait h
  · intro h sd
    obtain ⟨hown, claims, defers, releases, claimWaits, deferWaits, releaseWaits, atEnd, asking, wait, release, apart⟩ := h sd
    simp only [sideFrames_length] at claims defers releases
    have hown' := (own sd).2 hown
    refine ⟨hown', List.nodup_iff_count_le_one.2 fun p => ?_, ?_, ?_, ?_, fun ends => ?_, ?_, wait, ?_, fun e => ?_⟩
    · by_cases hp : p ∈ (sideView sd s.line.queue).map Prod.fst
      · rcases hown' p hp with rfl | rfl | rfl <;> assumption
      · rw [List.count_eq_zero.2 hp]; exact Nat.zero_le _
    · simpa only [← sideFrames_eq_nil] using claimWaits
    · simpa only [← sideFrames_eq_nil, ← full] using deferWaits
    · simpa only [← sideFrames_eq_nil, ← full] using releaseWaits
    · obtain ⟨frames, waits⟩ := atEnd ends
      exact ⟨(none sd).2 frames, fun hk => (waits _ hk).1 rfl, fun hk => (waits _ hk).2.1 rfl, fun hk => (waits _ hk).2.2 rfl⟩
    · simpa only [out] using asking
    · simpa only [out, State.releaseOut, Claim.mayRelease] using release
    · have := apart ((tx sd _).1 e)
      simp only [State.releaseOut, not_or, not_not, sideFrames_eq_nil] at this
      exact this

/-! ### Fewer frames, another claim -/

section
variable {sd : Side} {lane n len : Nat} {ends : Bool} {v : List (Payload × Bool)} {w : List WaitKey} {c : Claim}
  (h : ClaimFrames sd lane ends n len v w c)
include h

/-- Frames leave, entries leave, none starts; the queue lacks no more to be full. -/
theorem ClaimFrames.less {n' len' : Nat} {v' : List (Payload × Bool)} {w' : List WaitKey} (room : len + n ≤ len' + n')
    (frames : (v'.map Prod.fst).Sublist (v.map Prod.fst)) (tx : ∀ p, (p, true) ∈ v' → (p, true) ∈ v)
    (waits : ∀ k, k = .claim sd ∨ k = .defer sd ∨ k = .release sd → k ∈ w' → k ∈ w) : ClaimFrames sd lane ends n' len' v' w' c where
  own p hp := h.own p (frames.subset hp)
  once := h.once.sublist frames
  claimWaits hk hp := h.claimWaits (waits _ (.inl rfl) hk) (frames.subset hp)
  deferWaits hk := by
    obtain ⟨none, full⟩ := h.deferWaits (waits _ (.inr (.inl rfl)) hk)
    exact ⟨fun hp => none (frames.subset hp), full.trans room⟩
  releaseWaits hk := by
    obtain ⟨none, full⟩ := h.releaseWaits (waits _ (.inr (.inr rfl)) hk)
    exact ⟨fun hp => none (frames.subset hp), full.trans room⟩
  atEnd e := by
    obtain ⟨none, noClaim, noDefer, noRelease⟩ := h.atEnd e
    refine ⟨?_, fun hk => noClaim (waits _ (.inl rfl) hk), fun hk => noDefer (waits _ (.inr (.inl rfl)) hk),
      fun hk => noRelease (waits _ (.inr (.inr rfl)) hk)⟩
    simpa [none] using frames
  asking out := h.asking (out.imp (frames.subset ·) (waits _ (.inl rfl)))
  wait := h.wait
  release out := h.release (out.imp (frames.subset ·) (waits _ (.inr (.inr rfl))))
  apart e := by
    obtain ⟨noFrame, noWait⟩ := h.apart (tx _ e)
    exact ⟨fun hp => noFrame (frames.subset hp), fun hk => noWait (waits _ (.inr (.inr rfl)) hk)⟩

/-- The claim changes; the frames and the entries stay. -/
theorem ClaimFrames.withClaim {c' : Claim} (asking : .claim lane ∈ v.map Prod.fst ∨ .claim sd ∈ w → c'.state = .asking ∧ c'.sent = false)
    (wait : c'.wait ≠ none → c'.state = .asking ∧ c'.sent = true)
    (release : .release lane ∈ v.map Prod.fst ∨ .release sd ∈ w → c'.mayRelease) : ClaimFrames sd lane ends n len v w c' :=
  { h with asking := asking, wait := wait, release := release }

/-- The claim keeps its state, its sent flag and its wait. -/
theorem ClaimFrames.withSame {c' : Claim} (state : c'.state = c.state) (sent : c'.sent = c.sent) (wait : c'.wait = c.wait) :
    ClaimFrames sd lane ends n len v w c' :=
  h.withClaim (by rw [state, sent]; exact h.asking) (by rw [state, sent, wait]; exact h.wait)
    (by unfold Claim.mayRelease; rw [state, sent]; exact h.release)

/-! ### An own frame is offered -/

/-- A frame of the side, of which none is queued, takes a position or waits. -/
theorem ClaimFrames.offered {p : Payload} {k : WaitKey} {len' : Nat} {v' : List (Payload × Bool)} {w' : List WaitKey}
    (kind : (k, p) = (.claim sd, .claim lane) ∨ (k, p) = (.defer sd, .defer lane) ∨ (k, p) = (.release sd, .release lane))
    (inner : ends = false) (new : p ∉ v.map Prod.fst)
    (asks : k = .claim sd → c.state = .asking ∧ c.sent = false)
    (releases : k = .release sd → c.mayRelease ∧ (.claim lane, true) ∉ v)
    (room : len ≤ len') (others : ∀ j, j ≠ k → j ∈ w' → j ∈ w)
    (result : v' = v ++ [(p, false)] ∧ k ∉ w' ∨ v' = v ∧ (k.urgent = true → queueSize ≤ len + n)) :
    ClaimFrames sd lane ends n len' v' w' c := by
  have fst {q : Payload} : q ∈ v'.map Prod.fst → q ∈ v.map Prod.fst ∨ q = p ∧ k ∉ w' := by
    rcases result with ⟨rfl, gone⟩ | ⟨rfl, -⟩
    · simp only [List.map_append, List.mem_append, List.map_cons, List.map_nil, List.mem_singleton]
      exact Or.imp id fun e => ⟨e, gone⟩
    · exact Or.inl
  have tx {q : Payload} : (q, true) ∈ v' → (q, true) ∈ v := by
    rcases result with ⟨rfl, -⟩ | ⟨rfl, -⟩
    · simp
    · exact id
  have waited {j : WaitKey} (hj : j ∈ w') : j ∈ w ∨ j = k := by
    by_cases e : j = k
    · exact .inr e
    · exact .inl (others j e hj)
  have full {j : WaitKey} (urgent : j.urgent = true) (hj : j ∈ w') (he : j = k) : queueSize ≤ len' + n := by
    subst he
    rcases result with ⟨-, gone⟩ | ⟨-, full⟩
    · exact absurd hj gone
    · have := full urgent; omega
  refine ⟨fun q hq => ?_, ?_, fun hk hq => ?_, fun hk => ⟨fun hq => ?_, ?_⟩, fun hk => ⟨fun hq => ?_, ?_⟩, fun e => ?_, fun out => ?_, h.wait,
    fun out => ?_, fun e => ⟨fun hq => ?_, fun hk => ?_⟩⟩
  · rcases fst hq with old | ⟨rfl, -⟩
    · exact h.own q old
    · rcases kind with e | e | e <;> cases e <;> simp
  · rcases result with ⟨rfl, -⟩ | ⟨rfl, -⟩
    · rw [List.map_append]
      exact List.Nodup.append h.once (List.nodup_singleton _) (by simpa using new)
    · exact h.once
  · rcases kind with e | e | e <;> cases e
    · rcases fst hq with old | ⟨-, gone⟩
      · exact new old
      · exact gone hk
    all_goals
      rcases fst hq with old | ⟨e, -⟩
      · exact h.claimWaits (others _ nofun hk) old
      · cases e
  · rcases kind with e | e | e <;> cases e
    · rcases fst hq with old | ⟨e, -⟩
      · exact (h.deferWaits (others _ nofun hk)).1 old
      · cases e
    · rcases fst hq with old | ⟨-, gone⟩
      · exact new old
      · exact gone hk
    · rcases fst hq with old | ⟨e, -⟩
      · exact (h.deferWaits (others _ nofun hk)).1 old
      · cases e
  · rcases waited hk with old | e
    · have := (h.deferWaits old).2; omega
    · exact full rfl hk e
  · rcases kind with e | e | e <;> cases e
    iterate 2
      rcases fst hq with old | ⟨e, -⟩
      · exact (h.releaseWaits (others _ nofun hk)).1 old
      · cases e
    rcases fst hq with old | ⟨-, gone⟩
    · exact new old
    · exact gone hk
  · rcases waited hk with old | e
    · have := (h.releaseWaits old).2; omega
    · exact full rfl hk e
  · rw [inner] at e; cases e
  · rcases kind with e | e | e <;> cases e
    · exact asks rfl
    all_goals
      refine h.asking (out.imp (fun hq => ?_) (others _ nofun))
      rcases fst hq with old | ⟨e, -⟩
      · exact old
      · cases e
  · rcases kind with e | e | e <;> cases e
    iterate 2
      refine h.release (out.imp (fun hq => ?_) (others _ nofun))
      rcases fst hq with old | ⟨e, -⟩
      · exact old
      · cases e
    exact (releases rfl).1
  · rcases kind with e' | e' | e' <;> cases e'
    iterate 2
      rcases fst hq with old | ⟨e', -⟩
      · exact (h.apart (tx e)).1 old
      · cases e'
    exact (releases rfl).2 (tx e)
  · rcases kind with e' | e' | e' <;> cases e'
    iterate 2 exact (h.apart (tx e)).2 (others _ nofun hk)
    exact (releases rfl).2 (tx e)

end

end Sys2Proof.Machine
end

section
/-! PROOFS. Offers, removals and the walk of the waiting list keep the claim frames sound (R74, R75, R79). -/

namespace Sys2Proof.Machine

/-! ### The frames that no side owns -/

/-- CLAIM, DEFER or RELEASE. -/
def Payload.ofSide : Payload → Bool
  | .claim _ | .defer _ | .release _ => true
  | .sight _ | .join _ | .decision _ | .query _ _ _ | .report => false

/-- Sides own only claim frames. -/
def OwnsClaimFrames (q : List QFrame) : Prop := ∀ f ∈ q, f.payload.ofSide = false → f.owner.isSide = false

theorem isSide_ne {o : Owner} (h : o.isSide = false) (sd : Side) : o ≠ .side sd := by
  rintro rfl; cases h

theorem isSide_of_ne {o : Owner} (h : ∀ sd, o ≠ .side sd) : o.isSide = false := by
  cases o with
  | side sd => exact absurd rfl (h sd)
  | _ => rfl

theorem joined_isSide {o was : Owner} (ho : o.isSide = false) (hw : was.isSide = false) : (o.joined was).isSide = false := by
  cases o with
  | record x => rfl
  | side sd => cases ho
  | noRecord | slot _ | reportUnit => exact hw

theorem sideView_middle {f : QFrame} (other : f.owner.isSide = false) (sd : Side) (a b : List QFrame) :
    sideView sd (a ++ f :: b) = sideView sd (a ++ b) := by
  rw [sideView_append, sideView_append, sideView_cons_other (isSide_ne other sd)]

theorem sideView_edited {q q' : List QFrame} {f g : QFrame} (e : Edited q q' f g) (before : f.owner.isSide = false)
    (after : g.owner.isSide = false) (sd : Side) : sideView sd q' = sideView sd q := by
  obtain ⟨⟨a, b, rfl, rfl⟩, -⟩ := e
  rw [sideView_middle before, sideView_middle after]

theorem Edited.length_eq {q q' : List QFrame} {f g : QFrame} (e : Edited q q' f g) : q'.length = q.length := by
  obtain ⟨⟨a, b, rfl, rfl⟩, -⟩ := e
  simp

theorem Edited.old_mem {q q' : List QFrame} {f g : QFrame} (e : Edited q q' f g) : f ∈ q := by
  obtain ⟨⟨a, b, rfl, rfl⟩, -⟩ := e
  simp

/-- An offer of another owner that is taken into a queued frame leaves what the sides have. -/
theorem judgeOffer_into_other {q q' : List QFrame} {o : Owner} {p : Payload} {left : List OwnSample} (own : OwnsClaimFrames q)
    (other : o.isSide = false) (j : judgeOffer o p q = .into q' left) : (∀ sd, sideView sd q' = sideView sd q) ∧ q'.length = q.length := by
  obtain ⟨rfl, -⟩ | ⟨f, n, m, -, hf, -, -, e⟩ | ⟨f, n, m, -, hf, -, -, -, -, e⟩ | ⟨f, n, m, -, hf, -, -, e⟩ := judgeOffer_into j
  · exact ⟨fun _ => rfl, rfl⟩
  all_goals
    have unowned := own f e.old_mem (by rw [hf]; rfl)
    first
    | exact ⟨sideView_edited e unowned (joined_isSide other unowned), e.length_eq⟩
    | exact ⟨sideView_edited e unowned other, e.length_eq⟩

/-- An offer that is taken into a position adds its frame to what its owner has; the queue grows by it, but for a displaced JOIN. -/
theorem judgeOffer_placed_view {q q' : List QFrame} {o : Owner} {p : Payload} {d : Option (JoinMsg × Owner)} (own : OwnsClaimFrames q)
    (j : judgeOffer o p q = .placed q' d) : (∀ sd, sideView sd q' = sideView sd q ++ sideView sd [QFrame.fresh o p]) ∧
      q.length ≤ q'.length ∧ (p.urgent = true → q'.length = q.length + 1) := by
  obtain ⟨-, -, ⟨-, rfl, -⟩ | ⟨a, f, b, m, normal, -, rfl, rfl, hf, -⟩⟩ := judgeOffer_placed j
  · simp
  · have unowned := own f (by simp) (by rw [hf]; rfl)
    refine ⟨fun sd => ?_, by simp, fun urgent => by rw [normal] at urgent; cases urgent⟩
    rw [sideView_append, sideView_middle unowned]

theorem sideView_fresh_other {o : Owner} (other : o.isSide = false) (p : Payload) (sd : Side) : sideView sd [QFrame.fresh o p] = [] :=
  sideView_cons_other (f := QFrame.fresh o p) (isSide_ne other sd) []

theorem sideView_fresh_own (sd : Side) (p : Payload) : sideView sd [QFrame.fresh (.side sd) p] = [(p, false)] :=
  sideView_cons_own (f := QFrame.fresh (.side sd) p) rfl []

theorem ownsClaimFrames_iff {q : List QFrame} :
    OwnsClaimFrames q ↔ ∀ sd, ∀ p ∈ (sideView sd q).map Prod.fst, p.ofSide = true := by
  constructor
  · intro h sd p hp
    obtain ⟨⟨_, b⟩, hv, rfl⟩ := List.mem_map.1 hp
    obtain ⟨f, hf, owner, rfl, -⟩ := mem_sideView.1 hv
    by_contra not
    exact isSide_ne (h f hf (Bool.eq_false_iff.2 not)) sd owner
  · intro h f hf not
    refine isSide_of_ne fun sd owner => ?_
    have := h sd f.payload (List.mem_map.2 ⟨_, mem_sideView.2 ⟨f, hf, owner, rfl, rfl⟩, rfl⟩)
    rw [this] at not
    cases not

/-- Offers of other owners leave what the sides have, and the queue no shorter. -/
theorem QMoves.view {P : Owner → Payload → Prop} (other : ∀ o p, P o p → o.isSide = false) {q q' : List QFrame}
    (h : QMoves P (fun _ => false) q q') (own : OwnsClaimFrames q) :
    (∀ sd, sideView sd q' = sideView sd q) ∧ q.length ≤ q'.length := by
  induction h with
  | refl => exact ⟨fun _ => rfl, le_rfl⟩
  | into _ hp j ih =>
    obtain ⟨view, len⟩ := ih
    have own1 := ownsClaimFrames_iff.2 fun sd => view sd ▸ ownsClaimFrames_iff.1 own sd
    obtain ⟨view2, len2⟩ := judgeOffer_into_other own1 (other _ _ hp) j
    exact ⟨fun sd => (view2 sd).trans (view sd), len.trans len2.ge⟩
  | placed _ hp j ih =>
    obtain ⟨view, len⟩ := ih
    have own1 := ownsClaimFrames_iff.2 fun sd => view sd ▸ ownsClaimFrames_iff.1 own sd
    obtain ⟨view2, len2, -⟩ := judgeOffer_placed_view own1 j
    refine ⟨fun sd => ?_, len.trans len2⟩
    rw [view2, view, sideView_fresh_other (other _ _ hp), List.append_nil]
  | drop _ hd _ =>
    obtain ⟨_, _, _, _, _, no, _⟩ := dropFirst_some hd
    cases no

/-! ### The state's claim frames -/

section
variable {n : Nat} {s : State} (h : s.ClaimsFit n)
include h

theorem State.ClaimsFit.owns : OwnsClaimFrames s.line.queue := ownsClaimFrames_iff.2 fun sd p hp => by
  rcases (h sd).own p hp with rfl | rfl | rfl <;> rfl

/-- Frames and entries leave, none starts, and the queue lacks no more to be full. -/
theorem State.ClaimsFit.less {t : State} {n' : Nat} (sys : t.sys = s.sys) (claims : t.claims = s.claims)
    (room : s.line.queue.length + n ≤ t.line.queue.length + n')
    (frames : ∀ sd, ((sideView sd t.line.queue).map Prod.fst).Sublist ((sideView sd s.line.queue).map Prod.fst))
    (tx : ∀ sd p, (p, true) ∈ sideView sd t.line.queue → (p, true) ∈ sideView sd s.line.queue)
    (waits : ∀ k ∈ t.line.waiting, k.ofSide = true → k ∈ s.line.waiting) : t.ClaimsFit n' := fun sd => by
  rw [lane_congr sys, facesEnd_congr sys, claims]
  exact (h sd).less room (frames sd) (tx sd) fun k hk hw => waits k hw (by rcases hk with rfl | rfl | rfl <;> rfl)

/-- The sides' frames stay as they are, and none of their entries is added. -/
theorem State.ClaimsFit.same {t : State} (sys : t.sys = s.sys) (claims : t.claims = s.claims)
    (room : s.line.queue.length ≤ t.line.queue.length) (view : ∀ sd, sideView sd t.line.queue = sideView sd s.line.queue)
    (waits : ∀ k ∈ t.line.waiting, k.ofSide = true → k ∈ s.line.waiting) : t.ClaimsFit n :=
  h.less sys claims (by omega) (fun sd => by rw [view]) (fun sd p => by rw [view]; exact id) waits

theorem State.ClaimsFit.off {t : State} (line : t.line.queue = s.line.queue) (waiting : t.line.waiting = s.line.waiting)
    (sys : t.sys = s.sys) (claims : t.claims = s.claims) : t.ClaimsFit n :=
  h.same sys claims (by rw [line]) (fun sd => by rw [line]) fun k hk _ => waiting ▸ hk

omit h in
theorem offer_none_waiting (s : State) (o : Owner) (p : Payload) : (s.offer none o p).1.line.waiting = s.line.waiting := by
  unfold State.offer
  cases judgeOffer o p s.line.queue <;> simp

/-- An offer of a record, a slot or the Report Unit. -/
theorem State.ClaimsFit.offerOther {key : Option WaitKey} {o : Owner} {p : Payload} (other : o.isSide = false)
    (keys : ∀ k, key = some k → k.ofSide = false) : (s.offer key o p).1.ClaimsFit n := by
  have only := offer_onlyOffers s key o p
  have moved : QMoves (fun o' _ => o' = o) (fun _ => false) s.line.queue (s.offer key o p).1.line.queue := offer_moves rfl
  obtain ⟨view, len⟩ := moved.view (by rintro _ _ rfl; exact other) h.owns
  refine h.same only.sys only.claims len view fun k hk side => ?_
  have ne (k' : WaitKey) (hk' : key = some k') : k ≠ k' := by
    rintro rfl
    rw [keys k hk'] at side
    cases side
  cases key with
  | none =>
    rwa [offer_none_waiting] at hk
  | some k' =>
    obtain ⟨-, e⟩ | ⟨-, e⟩ := offer_waiting (s := s) (k := k') (o := o) (p := p)
    · rw [e] at hk; exact (List.mem_filter.1 hk).1
    · rw [e] at hk
      split at hk
      · exact hk
      · rcases List.mem_append.1 hk with old | new
        · exact old
        · exact absurd (List.mem_singleton.1 new) (ne k' rfl)

omit h in
theorem judgeOffer_into_own {q q' : List QFrame} {sd : Side} {p : Payload} {left : List OwnSample} (side : p.ofSide = true)
    (j : judgeOffer (.side sd) p q = .into q' left) : q' = q := by
  obtain ⟨rfl, -⟩ | ⟨_, _, _, rfl, -⟩ | ⟨_, _, _, rfl, -⟩ | ⟨_, _, _, rfl, -⟩ := judgeOffer_into j
  · rfl
  all_goals cases side

omit h in
/-- A DEFER or a RELEASE that the side has queued, and not under transmission, takes in another (R77). -/
theorem judgeOffer_absorbed {q : List QFrame} {sd : Side} {p : Payload} (kind : (∃ lane, p = .defer lane) ∨ ∃ lane, p = .release lane)
    (queued : (p, false) ∈ sideView sd q) : judgeOffer (.side sd) p q = .into q [] := by
  obtain ⟨f, hf, owner, payload, idle⟩ := mem_sideView.1 queued
  have absorbed : q.any (absorbs (.side sd) p) = true := List.any_eq_true.2 ⟨f, hf, by simp [absorbs, owner, payload, idle]⟩
  rcases kind with ⟨lane, rfl⟩ | ⟨lane, rfl⟩ <;> simp [judgeOffer, mergeOrReplace, absorbed]

/-- A side of an inner lane offers a claim frame: a CLAIM only where none is queued, a DEFER or a RELEASE where none is under transmission. -/
theorem State.ClaimsFit.offerOwn {sd : Side} {k : WaitKey} {p : Payload}
    (kind : (k, p) = (.claim sd, .claim (s.lane sd)) ∨ (k, p) = (.defer sd, .defer (s.lane sd)) ∨ (k, p) = (.release sd, .release (s.lane sd)))
    (inner : s.facesEnd sd = false) (unsent : (p, true) ∉ sideView sd s.line.queue)
    (asks : k = .claim sd → p ∉ (sideView sd s.line.queue).map Prod.fst ∧ (s.claims.get sd).state = .asking ∧ (s.claims.get sd).sent = false)
    (releases : k = .release sd → (s.claims.get sd).mayRelease ∧ (.claim (s.lane sd), true) ∉ sideView sd s.line.queue) :
    (s.offer (some k) (.side sd) p).1.ClaimsFit n := by
  have only := offer_onlyOffers s (some k) (.side sd) p
  have side : p.ofSide = true := by rcases kind with e | e | e <;> cases e <;> rfl
  have keys (sd' : Side) (ne : sd' ≠ sd) (k' : WaitKey) (hk' : k' = .claim sd' ∨ k' = .defer sd' ∨ k' = .release sd') : k' ≠ k := by
    rintro rfl
    rcases kind with e | e | e <;> cases e <;> rcases hk' with e | e | e <;> cases e <;> exact ne rfl
  have new (j : ∀ left, judgeOffer (.side sd) p s.line.queue ≠ .into s.line.queue left) :
      p ∉ (sideView sd s.line.queue).map Prod.fst := by
    rcases kind with e | e | e
    · cases e; exact (asks rfl).1
    all_goals
      intro hp
      obtain ⟨⟨_, b⟩, hv, rfl⟩ := List.mem_map.1 hp
      cases b with
      | true => exact unsent hv
      | false =>
        cases e
        exact j [] (judgeOffer_absorbed (by simp) hv)
  intro sd'
  rw [lane_congr only.sys, facesEnd_congr only.sys, only.claims]
  unfold State.offer
  cases j : judgeOffer (.side sd) p s.line.queue with
  | into q left =>
    obtain rfl := judgeOffer_into_own side j
    exact (h sd').less le_rfl (List.Sublist.refl _) (fun _ => id) fun k' _ hk' => (List.mem_filter.1 hk').1
  | placed q d =>
    obtain ⟨view, len, -⟩ := judgeOffer_placed_view h.owns j
    simp only [loseJoin_line, State.giveUp_line, State.setQueue_line]
    by_cases e : sd' = sd
    · subst e
      refine (h sd').offered kind inner (new fun _ e => by rw [j] at e; cases e) (fun hk => (asks hk).2) releases len
        (fun k' _ hk' => (List.mem_filter.1 hk').1) (.inl ⟨?_, by simp⟩)
      rw [view, sideView_fresh_own]
    · have other : sideView sd' [QFrame.fresh (.side sd) p] = [] :=
        sideView_cons_other (f := QFrame.fresh (.side sd) p) (fun e' => e (by injection e' with e'; exact e'.symm)) []
      rw [view, other, List.append_nil]
      exact (h sd').less (by omega) (List.Sublist.refl _) (fun _ => id) fun k' _ hk' => (List.mem_filter.1 hk').1
  | refused =>
    simp only [enterWaiting_queue]
    have waits (k' : WaitKey) (hk' : k' ∈ (s.enterWaiting k).line.waiting) : k' ∈ s.line.waiting ∨ k' = k := by
      unfold State.enterWaiting at hk'
      split at hk'
      · exact .inl hk'
      · rcases List.mem_append.1 hk' with old | last
        · exact .inl old
        · exact .inr (List.mem_singleton.1 last)
    by_cases e : sd' = sd
    · subst e
      refine (h sd').offered kind inner (new fun _ e => by rw [j] at e; cases e) (fun hk => (asks hk).2) releases le_rfl
        (fun k' ne hk' => (waits k' hk').resolve_right ne) (.inr ⟨rfl, fun urgent => ?_⟩)
      have full : queueSize ≤ s.line.queue.length := by
        rcases judgeOffer_refused j with barred | ⟨-, full⟩ | ⟨normal, -⟩
        · obtain ⟨f, -, hb⟩ := List.any_eq_true.1 barred
          rcases kind with e | e | e <;> cases e <;> simp [barredBy] at hb
        · exact full
        · have : k.urgent = p.urgent := by rcases kind with e | e | e <;> cases e <;> rfl
          rw [this, normal] at urgent
          cases urgent
      omega
    · exact (h sd').less le_rfl (List.Sublist.refl _) (fun _ => id) fun k' hside hk' =>
        (waits k' hk').resolve_right (keys sd' e k' hside)

end

end Sys2Proof.Machine
end

section
/-! PROOFS. The walk of the waiting list, and with it removals and the operations on records, keep the claim frames sound (R79, R80). -/

namespace Sys2Proof.Machine

section
variable {n : Nat} {s : State} (h : s.ClaimsFit n)
include h

/-! ### Removals and waiting entries -/

omit h in
theorem sideView_sublist {q q' : List QFrame} (sub : q'.Sublist q) (sd : Side) : (sideView sd q').Sublist (sideView sd q) :=
  (sub.filter _).map _

theorem State.ClaimsFit.removed {q : List QFrame} {m : Nat} (sub : q.Sublist s.line.queue) (room : s.line.queue.length + n ≤ q.length + m) :
    (s.setQueue q).ClaimsFit m :=
  h.less rfl rfl room (fun sd => (sideView_sublist sub sd).map _) (fun sd _ => ((sideView_sublist sub sd).subset ·)) fun _ hk _ => hk

theorem State.ClaimsFit.drop {ok : QFrame → Bool} {q : List QFrame} (hq : dropFirst ok s.line.queue = some q) :
    (s.setQueue q).ClaimsFit (n + 1) := by
  obtain ⟨a, f, b, e, rfl, -⟩ := dropFirst_some hq
  exact h.removed (e ▸ (List.sublist_cons_self f b).append_left a) (by rw [e]; simp; omega)

theorem State.ClaimsFit.giveUp (k : WaitKey) : (s.giveUp k).ClaimsFit n :=
  h.same rfl rfl le_rfl (fun _ => rfl) fun _ hj _ => (List.mem_filter.1 hj).1

/-- The urgent frames that wait find the queue lacking one frame less than feared. -/
theorem State.ClaimsFit.tighten {m : Nat}
    (full : ∀ k ∈ s.line.waiting, k.ofSide = true → k.urgent = true → queueSize ≤ s.line.queue.length + m) : s.ClaimsFit m := fun sd =>
  { h sd with
    deferWaits := fun hk => ⟨((h sd).deferWaits hk).1, full _ hk rfl rfl⟩
    releaseWaits := fun hk => ⟨((h sd).releaseWaits hk).1, full _ hk rfl rfl⟩ }

theorem State.ClaimsFit.full {k : WaitKey} (hk : k ∈ s.line.waiting) (side : k.ofSide = true) (urgent : k.urgent = true) :
    queueSize ≤ s.line.queue.length + n := by
  cases k with
  | defer sd => exact ((h sd).deferWaits hk).2
  | release sd => exact ((h sd).releaseWaits hk).2
  | claim sd => cases urgent
  | _ => cases side

theorem State.ClaimsFit.inner {sd : Side} {k : WaitKey} (hk : k ∈ s.line.waiting) (side : k = .claim sd ∨ k = .defer sd ∨ k = .release sd) :
    s.facesEnd sd = false := by
  refine Bool.eq_false_iff.2 fun ends => ?_
  obtain ⟨-, noClaim, noDefer, noRelease⟩ := (h sd).atEnd ends
  rcases side with rfl | rfl | rfl <;> contradiction

omit h in
theorem mem_fst {sd : Side} {p : Payload} {b : Bool} (hv : (p, b) ∈ sideView sd s.line.queue) :
    p ∈ (sideView sd s.line.queue).map Prod.fst := List.mem_map.2 ⟨_, hv, rfl⟩

/-! ### The walk of the waiting list -/

/-- A waiting owner that is asked again (R79). -/
theorem State.ClaimsFit.askAgain {k : WaitKey} (hk : k ∈ s.line.waiting) : (s.askAgain k).1.ClaimsFit n := by
  have others (other : k.ofSide = false) : (s.askAgain k).1.ClaimsFit n := by
    have only := askAgain_onlyOffers s k
    have moved : QMoves (fun o _ => o.isSide = false) (fun _ => false) s.line.queue (s.askAgain k).1.line.queue :=
      askAgain_fits fun o p fits => by
        cases k with
        | claim _ | defer _ | release _ => cases other
        | sight _ | join _ | decision _ | query _ | report => obtain ⟨rfl, -⟩ := fits; rfl
    obtain ⟨view, len⟩ := moved.view (fun _ _ => id) h.owns
    exact h.same only.sys only.claims len view fun j hj _ => askAgain_waiting hk j hj
  cases k with
  | claim sd =>
    unfold State.askAgain
    dsimp only
    split
    · next asks =>
      have new := (h sd).claimWaits hk
      exact h.offerOwn (.inl rfl) (h.inner hk (.inl rfl)) (fun hv => new (mem_fst hv)) (fun _ => ⟨new, asks⟩) nofun
    · exact h.giveUp _
  | defer sd =>
    have new := ((h sd).deferWaits hk).1
    exact h.offerOwn (.inr (.inl rfl)) (h.inner hk (.inr (.inl rfl))) (fun hv => new (mem_fst hv)) nofun nofun
  | release sd =>
    have new := ((h sd).releaseWaits hk).1
    exact h.offerOwn (.inr (.inr rfl)) (h.inner hk (.inr (.inr rfl))) (fun hv => new (mem_fst hv)) nofun fun _ =>
      ⟨(h sd).release (.inr hk), fun hv => ((h sd).apart hv).2 hk⟩
  | sight x => exact others rfl
  | join x => exact others rfl
  | decision x => exact others rfl
  | query q => exact others rfl
  | report => exact others rfl

omit h in
/-- An urgent offer takes a position, the queue one frame longer, or leaves the queue as long as it was; and a claim frame is then off the
waiting list, or the queue is full. -/
theorem offer_urgent (s : State) (k : WaitKey) (o : Owner) {p : Payload} (urgent : p.urgent = true) :
    ((s.offer (some k) o p).2.usedPosition = true ∧ (s.offer (some k) o p).1.line.queue.length = s.line.queue.length + 1) ∨
    ((s.offer (some k) o p).2.usedPosition = false ∧ (s.offer (some k) o p).1.line.queue.length = s.line.queue.length ∧
      (p.ofSide = true → k ∉ (s.offer (some k) o p).1.line.waiting ∨ queueSize ≤ s.line.queue.length)) := by
  unfold State.offer
  cases j : judgeOffer o p s.line.queue with
  | into q left =>
    refine .inr ⟨rfl, ?_, fun _ => .inl (by simp)⟩
    obtain ⟨rfl, -⟩ | ⟨_, _, _, -, -, -, -, e⟩ | ⟨_, _, _, -, -, -, -, -, -, e⟩ | ⟨_, _, _, -, -, -, -, e⟩ := judgeOffer_into j
    · rfl
    all_goals exact e.length_eq
  | placed q d =>
    obtain ⟨-, -, ⟨-, rfl, -⟩ | ⟨_, _, _, _, normal, -⟩⟩ := judgeOffer_placed j
    · exact .inl ⟨rfl, by simp⟩
    · rw [urgent] at normal; cases normal
  | refused =>
    refine .inr ⟨rfl, by simp, fun side => .inr ?_⟩
    rcases judgeOffer_refused j with barred | ⟨-, full⟩ | ⟨normal, -⟩
    · obtain ⟨f, -, hb⟩ := List.any_eq_true.1 barred
      cases p with
      | claim _ | defer _ | release _ => simp [barredBy] at hb
      | sight _ | join _ | decision _ | query _ _ _ | report => cases side
    · exact full
    · rw [urgent] at normal; cases normal

omit h in
/-- An urgent owner that is asked again: its frame takes a position, or the queue stays as long as it was, and then a claim frame of a side
waits no longer, or finds the queue full. -/
theorem askAgain_urgent (s : State) {k : WaitKey} (urgent : k.urgent = true) :
    ((s.askAgain k).2 = true ∧ (s.askAgain k).1.line.queue.length = s.line.queue.length + 1) ∨
    ((s.askAgain k).2 = false ∧ (s.askAgain k).1.line.queue.length = s.line.queue.length ∧
      (k.ofSide = true → k ∉ (s.askAgain k).1.line.waiting ∨ queueSize ≤ s.line.queue.length)) := by
  cases k with
  | defer sd =>
    exact (offer_urgent s (.defer sd) (.side sd) (p := .defer (s.lane sd)) rfl).imp id fun ⟨used, len, waits⟩ => ⟨used, len, fun _ => waits rfl⟩
  | release sd =>
    exact (offer_urgent s (.release sd) (.side sd) (p := .release (s.lane sd)) rfl).imp id fun ⟨used, len, waits⟩ =>
      ⟨used, len, fun _ => waits rfl⟩
  | decision x =>
    have decide (m : DecideMsg) := offer_urgent s (.decision x) (.record x) (p := .decision m) rfl
    have unasked : ∀ t : State, t.line.queue = s.line.queue →
        ((t, false).2 = true ∧ t.line.queue.length = s.line.queue.length + 1) ∨ ((t, false).2 = false ∧ t.line.queue.length = s.line.queue.length ∧
          ((WaitKey.decision x).ofSide = true → (WaitKey.decision x) ∉ t.line.waiting ∨ queueSize ≤ s.line.queue.length)) := fun t e =>
      .inr ⟨rfl, by rw [e], nofun⟩
    unfold State.askAgain
    dsimp only
    split
    · split
      · split
        · split
          · next d _ _ =>
            have offered := decide { item := x, decision := d, again := false }
            unfold State.offerDecision
            dsimp only
            split
            · exact offered.imp id fun ⟨used, len, _⟩ => ⟨used, len, nofun⟩
            · exact offered.imp id fun ⟨used, len, _⟩ => ⟨used, len, nofun⟩
          · exact unasked _ rfl
        · exact unasked _ rfl
      · exact (decide _).imp id fun ⟨used, len, _⟩ => ⟨used, len, nofun⟩
      · exact unasked _ rfl
    · exact unasked _ rfl
  | _ => cases urgent

omit h in
/-- A walk that asks the urgent owners first fills the position that has freed, or leaves no urgent frame waiting. -/
theorem State.ClaimsFit.walkList {n : Nat} (ks : List WaitKey) {s : State} (h : s.ClaimsFit (n + 1))
    (ordered : ks.Pairwise fun a b => b.urgent = true → a.urgent = true)
    (waits : ∀ k ∈ s.line.waiting, k.ofSide = true → k.urgent = true → k ∈ ks ∨ queueSize ≤ s.line.queue.length + n) :
    (State.walkList ks s).ClaimsFit n := by
  induction ks generalizing s with
  | nil => exact h.tighten fun k hk side urgent => (waits k hk side urgent).resolve_left List.not_mem_nil
  | cons k ks ih =>
    obtain ⟨first, rest⟩ := List.pairwise_cons.1 ordered
    unfold State.walkList
    split
    · next hk =>
      have sub := askAgain_waiting hk
      have asked := h.askAgain hk
      dsimp only
      by_cases urgent : k.urgent = true
      · obtain ⟨used, len⟩ | ⟨used, len, gone⟩ := askAgain_urgent s urgent
        · rw [if_pos used]
          exact asked.tighten fun j hj side hu => by have := h.full (sub j hj) side hu; omega
        · rw [if_neg (by rw [used]; exact nofun)]
          refine ih asked rest fun j hj side hu => ?_
          rcases waits j (sub j hj) side hu with mem | full
          · rcases List.mem_cons.1 mem with rfl | mem
            · rcases gone side with gone | full
              · exact absurd hj gone
              · exact .inr (by omega)
            · exact .inl mem
          · exact .inr (by omega)
      · have tight : s.ClaimsFit n := h.tighten fun j hj side hu => (waits j hj side hu).resolve_left fun mem => by
          rcases List.mem_cons.1 mem with rfl | mem
          · exact urgent hu
          · exact urgent (first j mem hu)
        have askedTight := tight.askAgain hk
        split
        · exact askedTight
        · exact ih asked rest fun j hj side hu => .inr (askedTight.full hj side hu)
    · next hk =>
      refine ih h rest fun j hj side hu => (waits j hj side hu).imp_left fun mem => ?_
      rcases List.mem_cons.1 mem with rfl | mem
      · exact absurd hj hk
      · exact mem

omit h in
theorem State.ClaimsFit.walk {n : Nat} {s : State} (h : s.ClaimsFit (n + 1)) : s.walk.ClaimsFit n := by
  unfold State.walk
  refine h.walkList _ ?_ fun k hk _ urgent => .inl ?_
  · rw [List.pairwise_append]
    refine ⟨List.pairwise_of_forall_mem_list fun a ha _ _ _ => (List.mem_filter.1 ha).2, ?_, ?_⟩
    · refine List.pairwise_of_forall_mem_list fun _ _ b hb urgent => ?_
      simpa [urgent] using (List.mem_filter.1 hb).2
    · exact fun a ha _ _ _ => (List.mem_filter.1 ha).2
  · exact List.mem_append_left _ (List.mem_filter.2 ⟨hk, urgent⟩)

end

end Sys2Proof.Machine
end

section
/-! PROOFS. The operations on records, on sides and on claims keep the claim frames sound (R34 to R45). -/

namespace Sys2Proof.Machine

/-! ### Records -/

theorem sideView_map {g : QFrame → QFrame} (alike : ∀ f, Alike f (g f)) (recast : ∀ f, Recast f (g f)) {q : List QFrame}
    (owns : OwnsClaimFrames q) (sd : Side) : sideView sd (q.map g) = sideView sd q := by
  induction q with
  | nil => rfl
  | cons f q ih =>
    have rest := ih fun e he => owns e (List.mem_cons_of_mem _ he)
    rw [List.map_cons]
    by_cases own : f.owner = .side sd
    · have owner : (g f).owner = .side sd := by
        rcases (recast f).owner with e | ⟨other, -⟩
        · rw [e, own]
        · rw [own] at other; cases other
      have payload : (g f).payload = f.payload := by
        rcases (recast f).payload with e | ⟨m, e, -⟩
        · exact e
        · have := owns f List.mem_cons_self (by rw [e]; rfl)
          rw [own] at this; cases this
      rw [sideView_cons_own own, sideView_cons_own owner, payload, (alike f).underTx, rest]
    · have owner : (g f).owner ≠ .side sd := by
        rcases (recast f).owner with e | ⟨-, e⟩
        · rw [e]; exact own
        · rw [e]; exact nofun
      rw [sideView_cons_other own, sideView_cons_other owner, rest]

theorem State.ClaimsFit.recast {n : Nat} {s : State} (h : s.ClaimsFit n) {g : QFrame → QFrame} (alike : ∀ f, Alike f (g f))
    (recast : ∀ f, Recast f (g f)) : (s.setQueue (s.line.queue.map g)).ClaimsFit n :=
  h.same rfl rfl (by simp) (sideView_map alike recast h.owns) fun _ hk _ => hk

theorem claimsFit_leads (n : Nat) : LeadsKept (State.ClaimsFit n) where
  request _ _ h := h
  giveUp _ h := h.giveUp _
  offer _ _ owner keys h := h.offerOther owner keys
  put _ _ _ h := h
  sounder _ h := h
  hall _ h := h
  pins _ h := h
  phase _ _ _ h := h
  count k n h := h.off (by simp) (by simp) (by simp) (by simp)
  carried h := h
  entry _ _ h := h
  refresh _ _ h := h
  remove _ h := h
  notice _ _ h := h
  lamp _ _ _ h := h
  dropWalk hq h := (h.drop hq).walk
  recast alike recast h := h.recast alike recast
  putLead _ _ _ _ _ h := h
  free {s r} _ _ h := by
    have given := ((h.giveUp (.sight r.item)).giveUp (.join r.item)).giveUp (.decision r.item)
    have freed : (((((s.setTable (replaceRecord r.item none s.table)).giveUp (.sight r.item)).giveUp (.join r.item)).giveUp
      (.decision r.item))).ClaimsFit n := given.off rfl rfl rfl rfl
    refine freed.recast (g := fun f => if ofRecord r.item f && !(isSight f && !f.underTx) then { f with owner := .noRecord } else f)
      (fun f => ?_) fun f => ?_
    · split
      · exact ⟨rfl, rfl, .inr rfl, rfl, id⟩
      · exact .refl f
    · split
      · next own =>
        have : f.owner = .record r.item := by simp only [Bool.and_eq_true, ofRecord, beq_iff_eq] at own; exact own.1
        exact ⟨.inl rfl, .inr ⟨by rw [this]; rfl, rfl⟩, .inl rfl⟩
      · exact .refl f
  create _ _ _ _ h := h
  repeatDecide _ _ h := h.offerOther rfl (by rintro _ ⟨⟩; rfl)
  queries _ h := h
  store _ _ h := h
  decide _ _ h := h.offerOther rfl (by rintro _ ⟨⟩; rfl)

/-! ### Claims -/

section
variable {n : Nat} {s : State} (h : s.ClaimsFit n) {sd : Side}
include h

theorem State.ClaimsFit.setClaim {c : Claim}
    (fits : ClaimFrames sd (s.lane sd) (s.facesEnd sd) n s.line.queue.length (sideView sd s.line.queue) s.line.waiting c) :
    (s.setClaim sd c).ClaimsFit n := by
  intro sd'
  by_cases e : sd' = sd
  · subst e
    simp only [State.setClaim_claims, PerSide.get_set_self]
    exact fits
  · simp only [State.setClaim_claims, PerSide.get_set_of_ne _ _ e]
    exact h sd'

theorem State.ClaimsFit.wait_none (state : (s.claims.get sd).state ≠ .asking) : (s.claims.get sd).wait = none := by
  by_contra runs
  exact state ((h sd).wait runs).1

theorem State.ClaimsFit.no_claim (state : (s.claims.get sd).state ≠ .asking) :
    ¬ (Payload.claim (s.lane sd) ∈ (sideView sd s.line.queue).map Prod.fst ∨ (.claim sd) ∈ s.line.waiting) :=
  fun out => state ((h sd).asking out).1

/-- A claim that is not ASKING takes a state in which a RELEASE may be out, or none is. -/
theorem State.ClaimsFit.enter {c : Claim} (state : (s.claims.get sd).state ≠ .asking) (wait : c.wait = (s.claims.get sd).wait)
    (release : Payload.release (s.lane sd) ∈ (sideView sd s.line.queue).map Prod.fst ∨ (.release sd) ∈ s.line.waiting → c.mayRelease) :
    (s.setClaim sd c).ClaimsFit n :=
  h.setClaim ((h sd).withClaim (fun out => absurd out (h.no_claim state)) (fun runs => absurd (wait.trans (h.wait_none state)) runs) release)

theorem State.ClaimsFit.withSame {c : Claim} (state : c.state = (s.claims.get sd).state) (sent : c.sent = (s.claims.get sd).sent)
    (wait : c.wait = (s.claims.get sd).wait) : (s.setClaim sd c).ClaimsFit n := h.setClaim ((h sd).withSame state sent wait)

/-- A sweep request in FREE (R34, R45). -/
theorem State.ClaimsFit.takeRequest (free : (s.claims.get sd).state = .free) : (s.takeRequest sd).1.ClaimsFit n := by
  have unasked : (s.claims.get sd).state ≠ .asking := by rw [free]; exact nofun
  unfold State.takeRequest
  dsimp only
  split
  · next ends =>
    refine h.enter unasked rfl fun out => ?_
    obtain ⟨none, -, -, noRelease⟩ := (h sd).atEnd ends
    rw [none] at out
    rcases out with out | out
    · cases out
    · exact absurd out noRelease
  · next inner =>
    have asked : (s.setClaim sd { s.claims.get sd with state := .asking, sent := false, request := true }).ClaimsFit n :=
      h.setClaim ((h sd).withClaim (fun _ => ⟨rfl, rfl⟩) (fun runs => absurd (h.wait_none unasked) runs) fun _ => .inr (.inl ⟨rfl, rfl⟩))
    have new := fun hp => h.no_claim unasked (.inl hp)
    exact asked.offerOwn (sd := sd) (.inl rfl) (by simpa using inner) (fun hv => new (mem_fst hv)) (fun _ => ⟨new, by simp⟩) nofun

/-- A side becomes FREE (R34, R44). -/
theorem State.ClaimsFit.becomeFree (state : (s.claims.get sd).state ≠ .asking) : (s.becomeFree sd).1.ClaimsFit n := by
  have free : (s.setClaim sd { s.claims.get sd with state := .free, rest := none }).ClaimsFit n := h.enter state rfl fun _ => .inl rfl
  unfold State.becomeFree
  dsimp only
  split
  · exact free.takeRequest (by simp)
  · exact free

omit h in
theorem drainEnergised_fit (h : s.ClaimsFit n) (sd : Side) : (s.drainEnergised sd).ClaimsFit n := by
  have only := drainEnergised_onlySide s sd
  unfold State.drainEnergised
  split
  · unfold State.drain
    dsimp only
    split <;> exact h
  · exact h

/-- The end of a hold: no CLAIM and no RELEASE is out (R42). -/
theorem State.ClaimsFit.endHold (sd : Side) : (s.endHold sd).ClaimsFit n := by
  unfold State.endHold
  dsimp only
  split
  · next holding =>
    have closing : (s.setClaim sd { s.claims.get sd with state := .resting .closing }).ClaimsFit n := by
      refine h.enter (by rw [holding]; exact nofun) rfl fun out => ?_
      have := (h sd).release out
      simp [Claim.mayRelease, holding] at this
    split
    · exact closing
    · exact drainEnergised_fit closing sd
  · exact h

omit h in
theorem afterRelease_mayRelease (c : Claim) {d : Claim} (state : d.state = afterRelease c) : d.mayRelease := by
  rw [Claim.mayRelease, state, afterRelease]
  split
  · exact .inr (.inr ⟨.backOff, nofun, rfl⟩)
  · split
    · exact .inr (.inr ⟨.gap, nofun, rfl⟩)
    · exact .inl rfl

omit h in
theorem offer_line_congr {s t : State} (line : t.line = s.line) (key : Option WaitKey) (o : Owner) (p : Payload) :
    (t.offer key o p).1.line = (s.offer key o p).1.line := by
  unfold State.offer
  rw [line]
  cases key <;> cases judgeOffer o p s.line.queue <;>
    simp only [State.setQueue_line, State.giveUp_line, loseJoin_line, line, State.enterWaiting]
  split <;> simp [line]

/-- A RELEASE is offered, a waiting DEFER is given up, and the claim takes a state in which a RELEASE may be out (R43). -/
theorem State.ClaimsFit.offersRelease {c : Claim} (inner : s.facesEnd sd = false) (unasked : (s.claims.get sd).state ≠ .asking)
    (noRelease : ¬ (Payload.release (s.lane sd) ∈ (sideView sd s.line.queue).map Prod.fst ∨ (.release sd) ∈ s.line.waiting))
    (may : c.mayRelease) (wait : c.wait = (s.claims.get sd).wait) :
    (((s.giveUp (.defer sd)).offerRelease sd).1.setClaim sd c).ClaimsFit n := by
  have given := h.giveUp (.defer sd)
  have entered : ((s.giveUp (.defer sd)).setClaim sd c).ClaimsFit n := given.enter unasked wait fun _ => may
  have offered : (((s.giveUp (.defer sd)).setClaim sd c).offerRelease sd).1.ClaimsFit n :=
    entered.offerOwn (sd := sd) (.inr (.inr rfl)) (by simpa using inner) (fun hv => noRelease (.inl (mem_fst hv))) nofun fun _ =>
      ⟨by simpa using may, fun hv => h.no_claim unasked (.inl (mem_fst hv))⟩
  have line := offer_line_congr (s := (s.giveUp (.defer sd)).setClaim sd c) (t := s.giveUp (.defer sd)) rfl (some (.release sd)) (.side sd)
    (.release (s.lane sd))
  have only := offer_onlyOffers (s.giveUp (.defer sd)) (some (.release sd)) (.side sd) (.release (s.lane sd))
  have only' := offer_onlyOffers ((s.giveUp (.defer sd)).setClaim sd c) (some (.release sd)) (.side sd) (.release (s.lane sd))
  refine offered.off (congrArg Line.queue line) (congrArg Line.waiting line) (only.sys.trans only'.sys.symm) ?_
  exact (congrArg (PerSide.set · sd c) only.claims).trans only'.claims.symm

/-- A side at rest in CLOSING gives up its lane (R43, R45). -/
theorem State.ClaimsFit.giveUpLane (sd : Side) : (s.giveUpLane sd).1.ClaimsFit n := by
  unfold State.giveUpLane
  dsimp only
  split
  · next closing =>
    have unasked : (s.claims.get sd).state ≠ .asking := by rw [closing]; exact nofun
    have noRelease : ¬ (Payload.release (s.lane sd) ∈ (sideView sd s.line.queue).map Prod.fst ∨ (.release sd) ∈ s.line.waiting) := fun out => by
      have := (h sd).release out
      simp [Claim.mayRelease, closing] at this
    split
    · split
      · exact h.enter unasked rfl fun out => absurd out noRelease
      · have kept : (s.setClaim sd { s.claims.get sd with clash := false, hold := none }).ClaimsFit n := h.withSame rfl rfl rfl
        exact kept.becomeFree (by simpa using unasked)
    · next inner =>
      have told := h.offersRelease (c := { s.claims.get sd with
        state := afterRelease (s.claims.get sd), clash := false, deferredPartner := false, hold := none, rest := none }) (by simpa using inner)
        unasked noRelease (afterRelease_mayRelease _ rfl) rfl
      split
      · next free => exact told.becomeFree (by simp [free])
      · exact told
  · exact h

/-- A DEFER answers the partner's CLAIM (R37, R40). -/
theorem State.ClaimsFit.deferPartner (inner : s.facesEnd sd = false)
    (unsent : (Payload.defer (s.lane sd), true) ∉ sideView sd s.line.queue) : (s.deferPartner sd).ClaimsFit n := by
  have marked : (s.setClaim sd { s.claims.get sd with deferredPartner := true }).ClaimsFit n := h.withSame rfl rfl rfl
  exact marked.offerOwn (sd := sd) (.inr (.inl rfl)) (by simpa using inner) unsent nofun nofun

/-- ASKING is left for a timed rest, while no CLAIM is under transmission: the CLAIM is given up and removed (R36, R37). -/
theorem State.ClaimsFit.yieldTo {cause : RestCause} (ne : cause ≠ .closing) (rest : Nat)
    (unsent : ∀ f ∈ s.line.queue, f.underTx = false) : (s.yieldTo sd cause rest).ClaimsFit n := by
  let c : Claim := { s.claims.get sd with state := .resting cause, sent := false, wait := none, rest := some rest }
  let u := (s.setClaim sd c).giveUp (.claim sd)
  have K := (claimsFit_leads n).records
  have held : holdRemoval (fun f => ofSide sd f && isClaim f) u.line.queue = u.line.queue := by
    refine (List.map_congr_left fun f hf => ?_).trans (List.map_id _)
    rw [unsent f hf, Bool.and_false]; rfl
  have yielded (q : List QFrame) (m : Nat) (sub : q.Sublist s.line.queue) (room : s.line.queue.length + n ≤ q.length + m)
      (gone : Payload.claim (s.lane sd) ∉ (sideView sd q).map Prod.fst) : (u.setQueue q).ClaimsFit m := by
    have fewer : ((s.setQueue q).giveUp (.claim sd)).ClaimsFit m := (h.removed sub room).giveUp _
    have entered : (((s.setQueue q).giveUp (.claim sd)).setClaim sd c).ClaimsFit m := by
      refine fewer.setClaim ((fewer sd).withClaim (fun out => ?_) (fun runs => absurd rfl runs) fun _ => .inr (.inr ⟨cause, ne, rfl⟩))
      rcases out with out | out
      · exact absurd out gone
      · simp at out
    exact entered
  have ofClaim {f : QFrame} (owner : f.owner = .side sd) (hf : f ∈ s.line.queue) :
      f.payload = .claim (s.lane sd) ↔ (ofSide sd f && isClaim f) = true := by
    have own := (h sd).own f.payload (List.mem_map.2 ⟨_, mem_sideView.2 ⟨f, hf, owner, rfl, rfl⟩, rfl⟩)
    rcases own with e | e | e <;> simp [e, ofSide, owner, isClaim]
  show (State.removeLoop _ queueSize (u.setQueue (holdRemoval _ u.line.queue))).ClaimsFit n
  rw [held]
  unfold queueSize State.removeLoop
  split
  · next none =>
    refine yielded s.line.queue n (List.Sublist.refl _) le_rfl fun hp => ?_
    obtain ⟨⟨_, b⟩, hv, rfl⟩ := List.mem_map.1 hp
    obtain ⟨f, hf, owner, payload, -⟩ := mem_sideView.1 hv
    have := dropFirst_none none f hf ((ofClaim owner hf).1 payload)
    rw [unsent f hf] at this
    cases this
  · next q hq =>
    obtain ⟨a, f, b, e, rfl, ok, -⟩ := dropFirst_some hq
    have queue : s.line.queue = a ++ f :: b := e
    have owner : f.owner = .side sd := by
      simp only [Bool.and_eq_true, ofSide, beq_iff_eq] at ok; exact ok.1
    have payload := (ofClaim owner (by rw [queue]; simp)).2 ok
    refine K.removeLoop _ _ (State.ClaimsFit.walk (yielded (a ++ b) (n + 1) ?_ ?_ fun hp => ?_))
    · rw [queue]; exact (List.sublist_cons_self f b).append_left a
    · rw [queue]; simp; omega
    · have once := (h sd).once
      rw [queue, sideView_append, sideView_cons_own owner, payload, List.map_append, List.map_cons, List.nodup_append'] at once
      obtain ⟨-, behind, apart⟩ := once
      rw [sideView_append, List.map_append, List.mem_append] at hp
      rcases hp with before | after
      · exact List.disjoint_left.1 apart before List.mem_cons_self
      · exact (List.nodup_cons.1 behind).1 after

end

end Sys2Proof.Machine
end

section
/-! PROOFS. Every command keeps the claim frames sound, and with them the transmit queue (R70, R74, R76). -/

namespace Sys2Proof.Machine

/-! ### The frame under transmission -/

theorem State.QueueSound.unsent {s : State} (h : s.QueueSound) (idle : s.line.phase.isSending = false) :
    ∀ f ∈ s.line.queue, f.underTx = false := by
  intro f hf
  have none : (s.line.queue.filter QFrame.underTx).length ≤ 0 := by
    simpa [idle] using ((queueSound_iff s).1 h).sent
  refine Bool.eq_false_iff.2 fun tx => ?_
  have := List.length_pos_of_mem (List.mem_filter.2 ⟨hf, tx⟩)
  omega

theorem sentFrame_split {q : List QFrame} {f : QFrame} (h : sentFrame q = some f) :
    ∃ a b, q = a ++ f :: b ∧ withoutSent q = a ++ b ∧ f.underTx = true ∧
      backToWaiting q = a ++ { f with underTx := false, losses := f.losses + 1 } :: b := by
  obtain ⟨tx, a, b, rfl, before⟩ := List.find?_eq_some_iff_append.1 h
  have untx : ∀ g ∈ a, g.underTx = false := fun g hg => by simpa using before g hg
  exact ⟨a, b, rfl, withoutSent_of untx tx, tx, backToWaiting_of untx tx⟩

/-! ### The commands of claims -/

/-- While no frame is under transmission, no claim frame is. -/
theorem view_unsent {s : State} (unsent : ∀ f ∈ s.line.queue, f.underTx = false) {sd : Side} (p : Payload) :
    (p, true) ∉ sideView sd s.line.queue := fun hv => by
  obtain ⟨f, hf, -, -, tx⟩ := mem_sideView.1 hv
  rw [unsent f hf] at tx
  cases tx

theorem claimsFit_sweeps (n : Nat) : SweepKept (State.ClaimsFit n) where
  sweep _ _ h := h
  coils _ _ _ h := h
  activate _ h := h
  claim _ _ state sent wait h := h.withSame state sent wait
  take _ free h := h.takeRequest free
  endHold sd h := h.endHold sd
  giveUpLane sd h := h.giveUpLane sd

section
variable {n : Nat} {s : State} (h : s.ClaimsFit n) {sd : Side}
include h

theorem State.ClaimsFit.claimWaitEnds (sd : Side) : (s.claimWaitEnds sd).ClaimsFit n := by
  unfold State.claimWaitEnds
  dsimp only
  split
  · next due =>
    have runs : (s.claims.get sd).wait ≠ none := fun e => by rw [e] at due; cases due
    obtain ⟨-, sent⟩ := (h sd).wait runs
    split
    · next asking =>
      refine (claimsFit_sweeps n).grant _ (h.setClaim ((h sd).withClaim (fun out => ?_) (fun e => absurd rfl e) fun out => ?_))
      · have := ((h sd).asking out).2
        rw [sent] at this; cases this
      · have := (h sd).release out
        simp [Claim.mayRelease, asking, sent] at this
    · next unasked => exact absurd ((h sd).wait runs).1 unasked
  · exact h

theorem State.ClaimsFit.restEnds (sd : Side) : (s.restEnds sd).ClaimsFit n := by
  unfold State.restEnds
  dsimp only
  split
  · split
    case h_5 =>
      have free := (h.giveUp (.release sd)).becomeFree (sd := sd) (by simp [*])
      split
      · exact (claimsFit_sweeps n).grant _ free
      · exact free
    all_goals exact h.withSame rfl rfl rfl
  · exact h

theorem State.ClaimsFit.partnerClaim (unsent : ∀ f ∈ s.line.queue, f.underTx = false) (inner : s.facesEnd sd = false) :
    (s.partnerClaim sd).ClaimsFit n := by
  have deferred := h.deferPartner inner (view_unsent unsent _)
  unfold State.partnerClaim
  dsimp only
  split
  · exact h
  · split
    · exact deferred
    · exact h.yieldTo (cause := .yielded) nofun yieldRest unsent
  · exact deferred
  · exact deferred
  · exact h.withSame rfl rfl rfl
  · next rest => exact h.enter (by rw [rest]; exact nofun) rfl fun _ => .inr (.inr ⟨.yielded, nofun, rfl⟩)
  · next gap => exact (h.giveUp (.release sd)).becomeFree (by simp [gap])
  · exact h

theorem State.ClaimsFit.partnerDefer (unsent : ∀ f ∈ s.line.queue, f.underTx = false) (hold : Nat) : (s.partnerDefer sd hold).ClaimsFit n := by
  unfold State.partnerDefer
  dsimp only
  split
  · have told : (s.setClaim sd { s.claims.get sd with deferredPartner := false }).ClaimsFit n := h.withSame rfl rfl rfl
    have yielded := (told.giveUp (.defer sd)).yieldTo (sd := sd) (cause := .deferred) nofun (deferredRest hold) unsent
    exact (claimsFit_leads n).records.askRemoval _ yielded
  all_goals exact h

theorem State.ClaimsFit.partnerRelease : (s.partnerRelease sd).ClaimsFit n := by
  unfold State.partnerRelease
  split
  · exact h
  · next rest => exact (h.giveUp (.release sd)).becomeFree (by simp [rest])
  all_goals exact h

theorem State.ClaimsFit.releaseSettled (sd : Side) : (s.releaseSettled sd).ClaimsFit n := by
  unfold State.releaseSettled
  dsimp only
  split
  · split
    · exact h.withSame rfl rfl rfl
    · exact h
  · split
    · exact h.withSame rfl rfl rfl
    · exact h
  all_goals exact h

end

/-! ### The start of an attempt -/

theorem sideView_startFrame {sd : Side} (f : QFrame) (q : List QFrame) :
    (sideView sd (startFrame f q)).map Prod.fst = (sideView sd q).map Prod.fst := by
  induction q with
  | nil => rfl
  | cons g q ih =>
    unfold startFrame
    by_cases own : g.owner = .side sd
    · split
      · rw [sideView_cons_own (f := { g with underTx := true }) own, sideView_cons_own own]; rfl
      · rw [sideView_cons_own own, sideView_cons_own own]; simp [ih]
    · split
      · rw [sideView_cons_other (f := { g with underTx := true }) own, sideView_cons_other own]
      · rw [sideView_cons_other own, sideView_cons_other own, ih]

theorem startFrame_sent_old {f g : QFrame} {q : List QFrame} (hg : g ∈ startFrame f q) : g ∈ q ∨ g.payload = f.payload := by
  induction q with
  | nil => cases hg
  | cons e q ih =>
    unfold startFrame at hg
    split at hg
    · next e =>
      rcases List.mem_cons.1 hg with rfl | hg
      · exact .inr (by rw [← e])
      · exact .inl (List.mem_cons_of_mem _ hg)
    · rcases List.mem_cons.1 hg with rfl | hg
      · exact .inl List.mem_cons_self
      · exact (ih hg).imp_left (List.mem_cons_of_mem _)

/-- A normal frame is the head of the queue only where no urgent one is queued (R74). -/
theorem headOf_normal {q : List QFrame} {f : QFrame} (head : headOf q = some f) (normal : f.urgent = false) : ∀ g ∈ q, g.urgent = false := by
  unfold headOf at head
  cases urgent : q.find? QFrame.urgent with
  | none => exact fun g hg => by simpa using List.find?_eq_none.1 urgent g hg
  | some g =>
    rw [urgent] at head
    cases head
    rw [List.find?_some urgent] at normal
    cases normal

/-- When a CLAIM's attempt starts no RELEASE is out: none is queued, as the CLAIM is the head, and none waits, as the queue is not full. -/
theorem State.ClaimsFit.start {s : State} (h : s.ClaimsFit 0) (sound : s.QueueSound) {f : QFrame} (head : headOf s.line.queue = some f)
    (p : LinePhase) : { s with line := { s.line with phase := p, queue := startFrame f s.line.queue } }.ClaimsFit 0 := by
  intro sd
  have fits := h sd
  have started := sideView_startFrame (sd := sd) f s.line.queue
  have len : (startFrame f s.line.queue).length = s.line.queue.length := by
    simpa using congrArg List.length (startFrame_payloads f s.line.queue)
  have empty {v : List (Payload × Bool)} (e : v.map Prod.fst = []) : v = [] := by simpa using e
  show ClaimFrames sd (s.lane sd) (s.facesEnd sd) 0 (startFrame f s.line.queue).length (sideView sd (startFrame f s.line.queue))
    s.line.waiting (s.claims.get sd)
  refine ⟨by rw [started]; exact fits.own, by rw [started]; exact fits.once, by rw [started]; exact fits.claimWaits,
    by rw [started, len]; exact fits.deferWaits, by rw [started, len]; exact fits.releaseWaits, fun ends => ?_, by rw [started]; exact fits.asking,
    fits.wait, by rw [started]; exact fits.release, fun tx => ?_⟩
  · obtain ⟨none, waits⟩ := fits.atEnd ends
    exact ⟨empty (by rw [started, none]; rfl), waits⟩
  · rw [started]
    obtain ⟨g, hg, owner, payload, sent⟩ := mem_sideView.1 tx
    rcases startFrame_sent_old hg with old | e
    · exact fits.apart (mem_sideView.2 ⟨g, old, owner, payload, sent⟩)
    · have normal : ∀ g ∈ s.line.queue, g.urgent = false := headOf_normal head (by rw [QFrame.urgent, ← e, payload]; rfl)
      have few : s.line.queue.length ≤ normalShare := by
        have := ((queueSound_iff s).1 sound).normal
        rwa [normalCount, List.filter_eq_self.2 fun g hg => by simp [normal g hg]] at this
      refine ⟨fun hp => ?_, fun waits => ?_⟩
      · obtain ⟨⟨_, b⟩, hv, rfl⟩ := List.mem_map.1 hp
        obtain ⟨r, hr, -, release, -⟩ := mem_sideView.1 hv
        have := normal r hr
        rw [QFrame.urgent, release] at this
        cases this
      · have := (fits.releaseWaits waits).2
        simp only [queueSize, normalShare] at this few
        omega

/-! ### The two ends of an attempt -/

section
variable {s : State} (h : s.ClaimsFit 0) {a b : List QFrame} {f : QFrame} (queue : s.line.queue = a ++ f :: b) (tx : f.underTx = true)
include h queue tx

omit tx in
theorem State.ClaimsFit.gone : (s.setQueue (a ++ b)).ClaimsFit 1 :=
  h.removed (by rw [queue]; exact (List.sublist_cons_self f b).append_left a) (by rw [queue]; simp; omega)

/-- Once a CLAIM has left the queue, the side has none queued and none waiting, and no RELEASE is out. -/
theorem State.ClaimsFit.claim_gone {sd : Side} (owner : f.owner = .side sd) {lane : Nat} (payload : f.payload = .claim lane) :
    Payload.claim (s.lane sd) ∉ (sideView sd (a ++ b)).map Prod.fst ∧ (.claim sd) ∉ s.line.waiting ∧
      ¬ (Payload.release (s.lane sd) ∈ (sideView sd (a ++ b)).map Prod.fst ∨ (.release sd) ∈ s.line.waiting) ∧ s.facesEnd sd = false := by
  have mem : (f.payload, f.underTx) ∈ sideView sd s.line.queue := mem_sideView.2 ⟨f, by rw [queue]; simp, owner, rfl, rfl⟩
  have e : f.payload = .claim (s.lane sd) := by
    rcases (h sd).own f.payload (mem_fst mem) with e | e | e
    · exact e
    all_goals rw [payload] at e; cases e
  rw [e, tx] at mem
  obtain ⟨noRelease, noWait⟩ := (h sd).apart mem
  have once := (h sd).once
  rw [queue, sideView_append, sideView_cons_own owner, e, List.map_append, List.map_cons, List.nodup_append'] at once
  obtain ⟨-, behind, apart⟩ := once
  refine ⟨fun hp => ?_, fun waits => (h sd).claimWaits waits (mem_fst mem), ?_, Bool.eq_false_iff.2 fun ends => ?_⟩
  · rw [sideView_append, List.map_append, List.mem_append] at hp
    rcases hp with before | after
    · exact List.disjoint_left.1 apart before List.mem_cons_self
    · exact (List.nodup_cons.1 behind).1 after
  · rintro (hp | hp)
    · refine noRelease ?_
      rw [queue]
      exact ((sideView_sublist ((List.sublist_cons_self f b).append_left a) sd).map _).subset hp
    · exact noWait hp
  · rw [((h sd).atEnd ends).1] at mem; cases mem

/-- What a completed frame does to its owner (R35, R43, R73). -/
theorem State.ClaimsFit.frameSent {t : State} (line : t.line.queue = a ++ b) (waiting : t.line.waiting = s.line.waiting)
    (sys : t.sys = s.sys) (claims : t.claims = s.claims) : (t.frameSent f).1.ClaimsFit 1 := by
  have K := (claimsFit_leads 1)
  have gone : t.ClaimsFit 1 := (h.gone queue).off line waiting sys claims
  unfold State.frameSent
  split
  · next lane sd payload owner =>
    obtain ⟨noClaim, noWait, noRelease, -⟩ := h.claim_gone queue tx owner payload
    rw [← lane_congr sys, ← line, ← waiting] at *
    unfold State.claimTransmitted
    dsimp only
    split
    · next asking =>
      refine gone.setClaim ((gone sd).withClaim (fun out => ?_) (fun _ => ⟨asking, rfl⟩) fun out => absurd out noRelease)
      rcases out with out | out
      · exact absurd out noClaim
      · exact absurd out noWait
    · exact gone
  · exact gone.releaseSettled _
  · exact K.sightSent _ _ gone
  · exact K.settleSamples _ _ _ gone
  · dsimp only
    refine K.records.countDecision _ _ (K.records.alarmDecide _ _ _ _ _ ?_)
    split
    · exact K.decisionSent _ _ gone
    · exact gone
  · exact K.carried gone
  · exact gone

end

theorem State.ClaimsFit.complete {s : State} (h : s.ClaimsFit 0) : s.complete.ClaimsFit 0 := by
  have K := (claimsFit_leads 0).records
  unfold State.complete
  dsimp only
  split
  · next f hf =>
    obtain ⟨a, b, queue, without, tx, -⟩ := sentFrame_split hf
    have sent := (h.frameSent queue tx (t := ((s.setPhase (.idle 0)).setBackoff false).setQueue (withoutSent s.line.queue)) without rfl rfl
      rfl).walk
    unfold State.afterSent
    split
    · split
      · exact K.contextCreated _ _ sent
      · exact sent
    · split
      · exact (claimsFit_sweeps 0).provisionalTriggers _ _ sent
      · exact sent
    · exact sent
  · exact h

/-- No walk brings back a CLAIM that does not wait. -/
theorem walk_no_claim {s : State} {sd : Side} (owns : OwnsClaimFrames s.line.queue) {p : Payload} (claim : ∃ lane, p = .claim lane)
    (none : p ∉ (sideView sd s.line.queue).map Prod.fst) (unwaited : (.claim sd) ∉ s.line.waiting) :
    p ∉ (sideView sd s.walk.line.queue).map Prod.fst := by
  obtain ⟨lane, rfl⟩ := claim
  have moved : QMoves (fun o p => o.isSide = false ∨ (o, p) ≠ (.side sd, .claim lane) ∧ p.ofSide = true) (fun _ => false) s.line.queue
      s.walk.line.queue := by
    refine (walk_moves s).1.mono fun o p fits => ?_
    obtain ⟨k, hk, fits⟩ := fits
    cases k with
    | claim sd' =>
      obtain ⟨rfl, ⟨_, rfl⟩, -⟩ := fits
      refine .inr ⟨?_, rfl⟩
      rintro ⟨⟩
      exact unwaited hk
    | defer _ | release _ => obtain ⟨rfl, _, rfl⟩ := fits; exact .inr ⟨nofun, rfl⟩
    | sight _ | join _ | decision _ | query _ | report => obtain ⟨rfl, -⟩ := fits; exact .inl rfl
  generalize s.walk.line.queue = q' at moved
  suffices OwnsClaimFrames q' ∧ Payload.claim lane ∉ (sideView sd q').map Prod.fst from this.2
  induction moved with
  | refl => exact ⟨owns, none⟩
  | @into q1 q2 o p left _ hp j ih =>
    obtain ⟨owns1, none1⟩ := ih
    have view : ∀ sd, sideView sd q2 = sideView sd q1 := by
      rcases hp with other | ⟨-, side⟩
      · exact (judgeOffer_into_other owns1 other j).1
      · obtain ⟨rfl, -⟩ | ⟨_, _, _, rfl, -⟩ | ⟨_, _, _, rfl, -⟩ | ⟨_, _, _, rfl, -⟩ := judgeOffer_into j
        · exact fun _ => rfl
        all_goals cases side
    exact ⟨ownsClaimFrames_iff.2 fun sd => view sd ▸ ownsClaimFrames_iff.1 owns1 sd, view sd ▸ none1⟩
  | @placed q1 q2 o p d _ hp j ih =>
    obtain ⟨owns1, none1⟩ := ih
    obtain ⟨view, -⟩ := judgeOffer_placed_view owns1 j
    have own (sd' : Side) : sideView sd' [QFrame.fresh o p] = [] ∨ o = .side sd' ∧ sideView sd' [QFrame.fresh o p] = [(p, false)] := by
      by_cases e : o = .side sd'
      · subst e; exact .inr ⟨rfl, sideView_fresh_own _ _⟩
      · exact .inl (sideView_cons_other (f := QFrame.fresh o p) e [])
    refine ⟨ownsClaimFrames_iff.2 fun sd' r hr => ?_, fun hr => ?_⟩
    all_goals rw [view, List.map_append, List.mem_append] at hr
    · rcases hr with old | new
      · exact ownsClaimFrames_iff.1 owns1 sd' r old
      · rcases own sd' with e | ⟨rfl, e⟩
        · rw [e] at new; cases new
        · rw [e] at new
          obtain rfl : r = p := by simpa using new
          rcases hp with other | ⟨-, side⟩
          · cases other
          · exact side
    · rcases hr with old | new
      · exact none1 old
      · rcases own sd with e | ⟨rfl, e⟩
        · rw [e] at new; cases new
        · rw [e] at new
          obtain rfl : Payload.claim lane = p := by simpa using new
          rcases hp with other | ⟨ne, -⟩
          · cases other
          · exact ne rfl
  | drop _ hd _ =>
    obtain ⟨_, _, _, _, _, no, _⟩ := dropFirst_some hd
    cases no

/-- The samples, the RELEASE, the REPORT or the SOLE record of a dropped frame (R72). -/
theorem State.ClaimsFit.frameDropped {n : Nat} {s : State} (h : s.ClaimsFit n) (f : QFrame) : (s.frameDropped f).ClaimsFit n := by
  have K := (claimsFit_leads n).records
  unfold State.frameDropped
  split
  · next r hr =>
    obtain ⟨x, -, found, sole⟩ := soleLeaving_eq_some hr
    exact K.freeSole (mem_table_of_record? found) sole h
  · split
    · exact h.releaseSettled _
    · exact K.settleSamples _ _ _ h
    · exact K.settleSamples _ _ _ h
    · exact K.request .none false h
    · exact h

/-- What the owner of a dropped frame offers afresh (R72); a CLAIM only where none is queued. -/
theorem State.ClaimsFit.afterDropped {s : State} (h : s.ClaimsFit 0) (f : QFrame)
    (claim : ∀ lane sd, f.payload = .claim lane → f.owner = .side sd →
      Payload.claim (s.lane sd) ∉ (sideView sd s.line.queue).map Prod.fst ∧ s.facesEnd sd = false) : (s.afterDropped f).ClaimsFit 0 := by
  have L := claimsFit_leads 0
  have K := L.records
  unfold State.afterDropped
  split
  · next lane sd payload owner =>
    obtain ⟨none, inner⟩ := claim lane sd payload owner
    split
    · next asks => exact h.offerOwn (sd := sd) (.inl rfl) inner (fun hv => none (mem_fst hv)) (fun _ => ⟨none, asks⟩) nofun
    · exact h
  · split
    · next hr =>
      split
      · next sole => exact K.offerSight (by rw [record?_item hr]; exact hr) (by rw [sole]; rfl) h
      · split
        · exact K.offerJoins _ (K.offerTakeover _ h)
        · exact h
      · exact h
      · exact h
    · exact h
  · exact K.offerJoins _ h
  · split
    · split
      · exact K.offerQuery _ h
      · exact h
    · exact h
  · split
    · split
      · exact L.offerDecision _ _ h
      · exact h
    · exact h
  · exact h

theorem State.ClaimsFit.loseContention {s : State} (h : s.ClaimsFit 0) (stamp : Clock) : (s.loseContention stamp).ClaimsFit 0 := by
  unfold State.loseContention
  dsimp only
  split
  · next f hf =>
    obtain ⟨a, b, queue, without, tx, back⟩ := sentFrame_split hf
    split
    · let gone := ((((s.setPhase (.receiving stamp)).setBackoff true).setQueue (withoutSent s.line.queue)).count .framesDropped 1)
      have fits : gone.ClaimsFit 1 := (h.gone queue).off (by simp [gone, without]) (by simp [gone]) (by simp [gone]) (by simp [gone])
      refine State.ClaimsFit.afterDropped (State.ClaimsFit.walk (fits.frameDropped f)) f fun lane sd payload owner => ?_
      obtain ⟨noClaim, noWait, -, inner⟩ := h.claim_gone queue tx owner payload
      have same : gone.frameDropped f = gone := by
        simp [State.frameDropped, State.soleLeaving, payload]
      rw [same]
      have sys : gone.walk.sys = s.sys := (walk_onlyOffers gone).sys.trans (by simp [gone])
      rw [lane_congr sys, facesEnd_congr sys]
      refine ⟨walk_no_claim fits.owns ⟨_, rfl⟩ (by simpa [gone, without] using noClaim) (by simpa [gone] using noWait), inner⟩
    · refine (claimsFit_leads 0).records.carryOut _ ?_
      have frames (sd : Side) : (sideView sd (backToWaiting s.line.queue)).map Prod.fst = (sideView sd s.line.queue).map Prod.fst := by
        rw [back, queue]
        by_cases own : f.owner = .side sd
        · rw [sideView_append, sideView_append, sideView_cons_own own, sideView_cons_own (f := { f with underTx := false, losses := _ }) own]
          simp
        · rw [sideView_append, sideView_append, sideView_cons_other own, sideView_cons_other (f := { f with underTx := false, losses := _ }) own]
      refine h.less (t := ((s.setPhase (.receiving stamp)).setBackoff true).setQueue (backToWaiting s.line.queue)) rfl rfl ?_
        (fun sd => by rw [State.setQueue_line]; exact (frames sd).symm ▸ List.Sublist.refl _) (fun sd p hv => ?_) fun _ hk _ => hk
      · rw [State.setQueue_line, back, queue]; simp
      · obtain ⟨g, hg, owner, payload, sent⟩ := mem_sideView.1 hv
        refine mem_sideView.2 ⟨g, ?_, owner, payload, sent⟩
        simp only [State.setQueue_line, back, List.mem_append, List.mem_cons] at hg
        rw [queue, List.mem_append, List.mem_cons]
        rcases hg with before | rfl | behind
        · exact .inl before
        · cases sent
        · exact .inr (.inr behind)
  · exact h

/-! ### Time, Hall Clear and the station that stands still -/

theorem State.ClaimsFit.elapse {n : Nat} {s : State} (h : s.ClaimsFit n) (d : Nat) : (s.elapse d).ClaimsFit n := by
  intro sd
  have claim : (s.elapse d).claims.get sd = (s.claims.get sd).elapse d := by cases sd <;> rfl
  have fits := h sd
  rw [claim, show (s.elapse d).lane sd = s.lane sd by cases sd <;> rfl, show (s.elapse d).facesEnd sd = s.facesEnd sd by cases sd <;> rfl]
  refine fits.withClaim fits.asking (fun runs => fits.wait fun stopped => runs ?_) fits.release
  rw [Claim.elapse, stopped]; rfl

/-- A side with no frame queued or waiting and no claim. -/
theorem claimsFit_of_none {n : Nat} {s : State} (frames : ∀ f ∈ s.line.queue, f.owner.isSide = false)
    (waits : ∀ k ∈ s.line.waiting, k.ofSide = false) (claims : ∀ sd, s.claims.get sd = Claim.reset) : s.ClaimsFit n := by
  intro sd
  have none : sideView sd s.line.queue = [] := by
    simp only [sideView, List.map_eq_nil_iff, List.filter_eq_nil_iff, beq_iff_eq]
    exact fun f hf => isSide_ne (frames f hf) sd
  have unwaited (k : WaitKey) (side : k.ofSide = true) : k ∉ s.line.waiting := fun hk => by rw [waits k hk] at side; cases side
  rw [none, claims]
  exact ⟨nofun, List.nodup_nil, fun _ => nofun, fun hk => absurd hk (unwaited _ rfl), fun hk => absurd hk (unwaited _ rfl),
    fun _ => ⟨rfl, unwaited _ rfl, unwaited _ rfl, unwaited _ rfl⟩, fun out => absurd out (by simp [unwaited (.claim sd) rfl]), fun runs => absurd rfl runs,
    fun out => absurd out (by simp [unwaited (.release sd) rfl]), nofun⟩

/-- A station that stands still, no frame of it a side's. -/
theorem State.Off.claimsFit {s : State} (h : s.Off fun o => o.isSide = false) {t : State} (line : t.line = s.line) (claims : t.claims = s.claims) :
    t.ClaimsFit 0 := by
  refine claimsFit_of_none (fun f hf => ?_) (fun k hk => ?_) fun sd => ?_
  · rw [line] at hf; exact (h.2.queue f hf).2
  · rw [line] at hk; rw [h.2.waiting k hk]; rfl
  · rw [claims]; exact h.2.claim sd

/-! ### Every command -/

/-- A station in RUNNING whose transmit queue is sound, the claim frames of its sides among it. -/
theorem claimsFit_commands (y : Sys) : CommandsKept fun s => s.RunsWith y ∧ s.QueueSound ∧ s.ClaimsFit 0 where
  toRecordsKept := (RecordsKept.of_closed (runsWith_kept y).toClosed).and ((RecordsKept.of_closed queueSound_kept.toClosed).and
    (claimsFit_leads 0).records)
  toSweepKept := (SweepKept.of_closed (runsWith_kept y).toClosedSides).and ((SweepKept.of_closed queueSound_kept.toClosedSides).and
    (claimsFit_sweeps 0))
  advance us h := ⟨(runsWith_kept y).advance us h.1, queueSound_kept.advance us h.2.1, h.2.2.elapse _⟩
  startUp n h := by rwa [h.1.startUp]
  readFails h := by rwa [h.1.readFails]
  retryEnds h := by rwa [h.1.retryEnds]
  readCompletes image h := by rwa [h.1.readCompletes]
  tick h := by unfold State.tick; split <;> exact h
  expire h := h
  claimWaitEnds sd h := ⟨(runsWith_kept y).claimWaitEnds sd h.1, queueSound_kept.claimWaitEnds sd h.2.1, h.2.2.claimWaitEnds sd⟩
  restEnds sd h := ⟨(runsWith_kept y).restEnds sd h.1, queueSound_kept.restEnds sd h.2.1, h.2.2.restEnds sd⟩
  partnerClaim sd idle inner h := ⟨(runsWith_kept y).toClosedSides.partnerClaim sd h.1, queueSound_kept.toClosedSides.partnerClaim sd h.2.1,
    h.2.2.partnerClaim (h.2.1.unsent idle) inner⟩
  partnerDefer sd hold idle _ h := ⟨(runsWith_kept y).toClosedSides.partnerDefer sd hold h.1,
    queueSound_kept.toClosedSides.partnerDefer sd hold h.2.1, h.2.2.partnerDefer (h.2.1.unsent idle) hold⟩
  partnerRelease sd _ _ h := ⟨(runsWith_kept y).toClosedSides.partnerRelease sd h.1, queueSound_kept.toClosedSides.partnerRelease sd h.2.1,
    h.2.2.partnerRelease⟩
  attemptStarts {s} h := by
    refine ⟨(runsWith_kept y).attemptStarts h.1, queueSound_kept.attemptStarts h.2.1, ?_⟩
    unfold State.attemptStarts
    split
    · next f hf =>
      have head : headOf s.line.queue = some f := by
        unfold State.attemptHead at hf
        split at hf
        · split at hf
          · next head =>
            split at hf
            · cases hf; exact head
            · cases hf
          · cases hf
        all_goals cases hf
      have started := h.2.2.start h.2.1 head
      unfold State.startAttempt
      dsimp only
      split <;> exact started _
    · exact h.2.2
  contentionLost h := by
    refine ⟨(runsWith_kept y).contentionLost h.1, queueSound_kept.contentionLost h.2.1, ?_⟩
    unfold State.contentionLost
    split
    · split
      · exact h.2.2.loseContention _
      · exact h.2.2
    all_goals exact h.2.2
  transmitCompletes h := by
    refine ⟨(runsWith_kept y).transmitCompletes h.1, queueSound_kept.transmitCompletes h.2.1, ?_⟩
    unfold State.transmitCompletes
    split
    · split
      · exact h.2.2.complete
      · exact h.2.2
    all_goals exact h.2.2
  clear idle h := ⟨(runsWith_kept y).clear idle h.1, queueSound_kept.clear idle h.2.1, claimsFit_of_none (by simp [State.hallClear])
    (by simp [State.hallClear]) fun sd => by cases sd <;> rfl⟩

/-- Settles O53: every change keeps the queue's limits, and in RUNNING every command keeps the claim frames of each side; outside RUNNING the
queue holds nothing but a REPORT. -/
theorem everyStepKeepsTheQueueSound : Obligations.EveryStepKeepsTheQueueSound := by
  intro s t hs sound
  have after := queueSound_kept.step reset_queueSound (fun _ h => h) sound hs
  refine ⟨after, fun still claims => (claimsFit_iff after.1).1 ?_⟩
  refine step_keeps_of_running (O := fun o => o.isSide = false) queueSound_kept (fun h => h.claimsFit rfl rfl) (fun c h => h.claimsFit rfl rfl)
    claimsFit_commands rfl (fun _ h => h) (fun _ h => h) still (fun off f hf => ?_) sound ((claimsFit_iff sound.1).2 claims) hs
  have report := ((stillUnlessRunning_iff s).1 still).2 off |>.queue f hf |>.1
  exact State.ClaimsFit.owns ((claimsFit_iff sound.1).2 claims) f hf (by rw [report]; rfl)

end Sys2Proof.Machine
end

section
/-! PROOFS. Steps, commands, the passing of time, Full Reset and start-up (chapter 1). -/

namespace Sys2Proof.Machine

/-! ### Steps and commands -/

/-- Settles O1: both are the definition of a step. -/
theorem stepRunsTheFrontCommand : Obligations.StepRunsTheFrontCommand := ⟨fun _ _ _ => rfl, fun _ => rfl⟩

theorem count_pending (s : State) (k : CounterName) (n : Nat) : (s.count k n).pending = s.pending := by
  unfold State.count
  split <;> rfl

/-- None of the changes that commands are made of touches the commands that wait. -/
theorem pending_kept (cs : List Instr) : Kept fun s => s.pending = cs := by
  constructor
  case toClosedSides =>
    constructor
    case toClosed =>
      constructor
      case count => exact fun k n h => by rwa [count_pending]
      all_goals (intros; assumption)
    all_goals (intros; assumption)
  all_goals (intros; assumption)

/-- Settles O2. -/
theorem everyCommandCompletesAndKeepsTheQueue : Obligations.EveryCommandCompletesAndKeepsTheQueue := fun c s =>
  (pending_kept s.pending).exec c (fun _ _ => rfl) rfl

/-! ### Time -/

/-- The clock and its part of a millisecond, together a count of microseconds modulo 65536 ms (R4). -/
theorem clock_elapse (clock : Clock) (sub d : Nat) :
    (clock + BitVec.ofNat 16 ((sub + d) / 1000)).toNat * 1000 + (sub + d) % 1000 =
      (clock.toNat * 1000 + sub + d) % 65536000 := by
  have := clock.isLt
  simp only [BitVec.toNat_add, BitVec.toNat_ofNat]
  omega

/-- Settles O3. -/
theorem timePassesNoDueMomentAndTheClockCounts : Obligations.TimePassesNoDueMomentAndTheClockCounts := by
  refine ⟨advance_spec, fun s d => ⟨fun run _ => ?_, fun stopped => ?_⟩⟩
  · have time : (s.elapse d).time = s.time.elapse d true := by simp [State.elapse, run]
    rw [time]
    exact ⟨Nat.mod_lt _ (by decide), clock_elapse _ _ _⟩
  · have time : (s.elapse d).time = s.time.elapse d (s.sys.run == .running) := rfl
    rw [time, beq_false_of_ne stopped]
    rfl

/-! ### Full Reset and the invariants -/

/-- Settles O4: the values stand in `State.reset`, coil by coil and slot by slot. -/
theorem fullResetSetsEveryBlock : Obligations.FullResetSetsEveryBlock := by
  intro s a
  have off : State.Off { State.reset with pins := s.pins, pending := s.pending } fun _ => True :=
    ((reset_off trivial).pins s.pins).pending s.pending
  have still := off.2
  refine ⟨_, exec_fullReset a s, rfl, rfl, rfl, rfl, fun sd k => still.coil sd k, fun sd => ?_, rfl, rfl, rfl, rfl, off.record?, rfl, rfl,
    fun k => ?_, rfl, rfl, rfl, fun k => ?_, rfl, rfl, rfl⟩
  · obtain ⟨ramp, live, cutWait⟩ := still.timers sd
    refine ⟨ramp, live, cutWait, still.claim sd, ?_⟩
    rw [still.sweep sd, still.lamp sd]
    exact ⟨rfl, rfl, rfl, rfl, rfl, rfl, rfl, rfl, fun bm => by cases bm <;> rfl, rfl⟩
  · rcases coilNumber_cases k with rfl | rfl | rfl | rfl <;> rfl
  · cases k <;> rfl

/-- With no record there is no LEAD record, and a fresh query block serves none. -/
theorem State.Off.querySlotsSound {s : State} {O : Owner → Prop} (h : s.Off O) : s.QuerySlotsSound := by
  have free (k : BitVec 2) : (s.queries.slots.get k).use = none := by
    rw [h.2.queries]
    rcases coilNumber_cases k with rfl | rfl | rfl | rfl <;> rfl
  refine ⟨fun k u hu => by simp [free] at hu, fun x r l k hl => by simp [h.lead?] at hl, ?_, fun x hx => ?_⟩
  · rw [h.2.queries]; exact List.nodup_nil
  · rw [h.2.queries] at hx; cases hx

/-- With no record and nothing but REPORTs queued no decision is kept. -/
theorem State.Off.decisionsKept {s : State} {O : Owner → Prop} (h : s.Off O) : s.DecisionsKept :=
  ⟨fun x r l hl => by simp [h.lead?] at hl, fun f hf m x hm => by simp [(h.2.queue f hf).1] at hm⟩

/-- Settles O60. -/
theorem resetMeetsEveryInvariant : Obligations.ResetMeetsEveryInvariant := by
  have off : State.reset.Off fun o => o.isSide = false := reset_off rfl
  exact ⟨reset_queueSound, (claimsFit_iff (Nat.zero_le _)).1 (off.claimsFit rfl rfl), off.querySlotsSound, off.decisionsKept, reset_tableBounded,
    reset_itemsApart, reset_cacheSound, reset_countersBounded, reset_lampsSound, off.sound, off.guarded⟩

/-! ### Start-up -/

/-- Settles O5. -/
theorem startUpReadsInAtMostThreeAttempts : Obligations.StartUpReadsInAtMostThreeAttempts := by
  rintro s _ a rfl
  refine ⟨fun straps held => ?_, fun n reading few => ?_, fun reading => ?_, fun n waited => ?_, fun run deaf => ?_⟩
  · rw [exec_startUp, State.startUp, if_pos held]
  · rw [exec_readAttemptFail, State.readFails, reading]
    exact congrArg Host.Outcome.next (if_pos few)
  · rw [exec_readAttemptFail, State.readFails, reading]
    rfl
  · rw [exec_retryWaitEnd, State.retryEnds, waited]
    rfl
  · rw [exec_startupIdleGap, State.listen, if_pos ⟨run, deaf⟩]
    rfl

end Sys2Proof.Machine
end

section
/-! PROOFS. The values that an image gives (R10, R11, R89). -/

namespace Sys2Proof.Machine

/-! ### Values with a range -/

theorem le_ranged {lo hi dflt : Nat} (image : List Byte) (mark field : Nat) (low : lo ≤ dflt := by decide) :
    lo ≤ ranged image mark field lo hi dflt := by
  unfold ranged clampTo
  split <;> omega

theorem ranged_le {lo hi dflt : Nat} (image : List Byte) (mark field : Nat) (ordered : lo ≤ hi := by decide)
    (high : dflt ≤ hi := by decide) : ranged image mark field lo hi dflt ≤ hi := by
  unfold ranged clampTo
  split <;> omega

theorem ranged_unmarked {image : List Byte} {mark : Nat} (clear : markSet image mark = false) (field lo hi dflt : Nat) :
    ranged image mark field lo hi dflt = dflt := by
  rw [ranged, clear]; rfl

theorem listed_unmarked {image : List Byte} {mark : Nat} (clear : markSet image mark = false) (field : Nat) (values : List Nat)
    (dflt : Nat) : listed image mark field values dflt = dflt := by
  rw [listed, clear]; rfl

/-! ### Values from a list -/

/-- `q` is the nearest to `v` of the values, the greatest of those equally near. -/
def Nearest (v : Nat) (values : List Nat) (q : Nat) : Prop :=
  q ∈ values ∧ ∀ x ∈ values, distance v q < distance v x ∨ distance v q = distance v x ∧ x ≤ q

theorem nearestFrom_spec (v : Nat) (xs : List Nat) (best : Nat) (rising : (best :: xs).Pairwise (· < ·)) :
    Nearest v (best :: xs) (nearestFrom v best xs) := by
  induction xs generalizing best with
  | nil => exact ⟨List.mem_singleton_self _, fun x hx => .inr (by simp_all [nearestFrom])⟩
  | cons y ys ih =>
    obtain ⟨above, rest⟩ := List.pairwise_cons.1 rising
    have step : best < y := above y (List.mem_cons_self ..)
    rw [nearestFrom]
    split
    · next nearer =>
      obtain ⟨mem, least⟩ := ih y rest
      refine ⟨List.mem_cons_of_mem _ mem, List.forall_mem_cons.2 ⟨?_, least⟩⟩
      have := least y (List.mem_cons_self ..)
      omega
    · next farther =>
      obtain ⟨mem, least⟩ := ih best (rising.sublist (by simp))
      obtain ⟨atBest, others⟩ := List.forall_mem_cons.1 least
      refine ⟨?_, List.forall_mem_cons.2 ⟨atBest, List.forall_mem_cons.2 ⟨?_, others⟩⟩⟩
      · rcases List.mem_cons.1 mem with e | mem
        · rw [e]; exact List.mem_cons_self ..
        · exact List.mem_cons_of_mem _ (List.mem_cons_of_mem _ mem)
      · omega

theorem listed_mem {image : List Byte} {mark field dflt x : Nat} {xs : List Nat} (rising : (x :: xs).Pairwise (· < ·))
    (has : dflt ∈ x :: xs) : listed image mark field (x :: xs) dflt ∈ x :: xs := by
  unfold listed
  split
  · exact (nearestFrom_spec field xs x rising).1
  · exact has

theorem distance_eq (a b : Nat) : distance a b = max a b - min a b := by
  unfold distance; omega

theorem listed_marked {image : List Byte} {mark x : Nat} {xs : List Nat} (set : markSet image mark = true) (rising : (x :: xs).Pairwise (· < ·))
    (field dflt : Nat) : Nearest field (x :: xs) (listed image mark field (x :: xs) dflt) := by
  rw [listed, set]
  exact nearestFrom_spec field xs x rising

/-! ### Class entries -/

theorem classEntryFrom_kind (image : List Byte) (k : Nat) : (classEntryFrom image k).kind =
    [ClassKind.lending, .reference, .openClass, .restricted].getD ((image.getD (32 + 2 * k) 0).toNat / 32 % 4) .lending := by
  have field (a : Byte) : (a.extractLsb' 5 2).toNat = a.toNat / 32 % 4 := by simp [BitVec.extractLsb'_toNat, Nat.shiftRight_eq_div_pow]
  unfold classEntryFrom
  dsimp only
  rw [field]
  have small : (image.getD (32 + 2 * k) 0).toNat / 32 % 4 < 4 := Nat.mod_lt _ (by decide)
  revert small
  generalize (image.getD (32 + 2 * k) 0).toNat / 32 % 4 = n
  intro small
  interval_cases n <;> rfl

theorem classEntryFrom_level (image : List Byte) (k : Nat) :
    (classEntryFrom image k).level.toNat = (image.getD (32 + 2 * k) 0).toNat / 8 % 4 := by
  simp [classEntryFrom, BitVec.extractLsb'_toNat, Nat.shiftRight_eq_div_pow]

theorem configFrom_class (image : List Byte) {k : Nat} (hk : k < 32) :
    (configFrom image).classes[k]? = some (classEntryFrom image k) := by
  simp [configFrom, classCount, hk]

/-! ### The obligation -/

/-- Settles O8: range by range, then with every mark clear, then value by value. -/
theorem everyImageGivesValuesInRange : Obligations.EveryImageGivesValuesInRange := by
  rintro image _ rfl
  refine ⟨?_, fun clear => ?_, ?_⟩
  · refine ⟨le_ranged .., ranged_le .., ranged_le .., Nat.mul_le_mul_right 4 (ranged_le (hi := 255) ..), Nat.dvd_mul_left .., le_ranged ..,
      ranged_le .., le_ranged .., ranged_le .., Nat.mul_le_mul_right 100 (le_ranged (lo := 10) ..),
      Nat.mul_le_mul_right 100 (ranged_le (hi := 40) ..), Nat.dvd_mul_left .., Nat.mul_le_mul_right 100 (le_ranged (lo := 5) ..),
      Nat.mul_le_mul_right 100 (ranged_le (hi := 50) ..), Nat.dvd_mul_left .., le_ranged .., ranged_le .., le_ranged .., ranged_le ..,
      ranged_le .., le_ranged .., ranged_le .., listed_mem (by decide) (by decide), ranged_le .., listed_mem (by decide) (by decide),
      le_ranged .., ranged_le .., le_ranged .., ranged_le .., le_ranged .., ranged_le .., le_ranged .., ranged_le ..,
      Nat.mul_le_mul_right 10 (le_ranged (lo := 1) ..), Nat.mul_le_mul_right 10 (ranged_le (hi := 255) ..), Nat.dvd_mul_left ..,
      Nat.mul_le_mul_right 10 (le_ranged (lo := 1) ..), Nat.mul_le_mul_right 10 (ranged_le (hi := 255) ..), Nat.dvd_mul_left ..,
      le_ranged .., ranged_le .., Nat.le_max_left .., ?_, by simp [configFrom, classCount]⟩
    simp only [configFrom, clampTo]
    omega
  · have unmarked (k : Nat) (hk : k < 24) (field lo hi dflt : Nat) : ranged image k field lo hi dflt = dflt :=
      ranged_unmarked (clear k hk) ..
    have unlisted (k : Nat) (hk : k < 24) (field : Nat) (values : List Nat) (dflt : Nat) : listed image k field values dflt = dflt :=
      listed_unmarked (clear k hk) ..
    simp [configFrom, unmarked, unlisted, byteAt]
  · rintro b mark val pick rfl rfl rfl rfl
    have nearest {v x q : Nat} {xs : List Nat} (h : Nearest v (x :: xs) q) : q ∈ x :: xs ∧ ∀ y ∈ x :: xs,
        max v q - min v q < max v y - min v y ∨ max v q - min v q = max v y - min v y ∧ y ≤ q := by
      simpa only [Nearest, distance_eq] using h
    refine ⟨rfl, beq_iff_eq, beq_iff_eq, rfl, rfl, Nat.mul_comm .., rfl, ?_, Nat.mul_comm .., Nat.mul_comm .., rfl, rfl, rfl, rfl,
      fun set => nearest (listed_marked set (by decide) ..), rfl, fun set => nearest (listed_marked set (by decide) ..), ?_, rfl, rfl, rfl,
      rfl, Nat.mul_comm .., Nat.mul_comm .., rfl, rfl, fun k hk => ⟨_, configFrom_class image hk, rfl, classEntryFrom_kind image k,
        classEntryFrom_level image k, ?_, rfl, ?_, rfl⟩⟩
    · show ranged image 6 (byteAt image 10 * 256 + byteAt image 11) 40 500 150 = _
      rw [Nat.mul_comm (byteAt image 10)]
      rfl
    · have most : ranged image 16 (byteAt image 21) 0 1 1 ≤ 1 := ranged_le ..
      show (if ranged image 16 (byteAt image 21) 0 1 1 == 0 then SweepOrder.sequential else .interleaved) = .interleaved ↔
        ranged image 16 (byteAt image 21) 0 1 1 = 1
      split
      · next zero => simp [eq_of_beq zero]
      · next positive =>
        have : ranged image 16 (byteAt image 21) 0 1 1 ≠ 0 := fun zero => positive (beq_iff_eq.2 zero)
        exact iff_of_true rfl (by omega)
    · simp [classEntryFrom]
    · simp [classEntryFrom]

end Sys2Proof.Machine
end

section
/-! PROOFS. A state in the terms of one side: what the operations of chapters 2 to 4 make of a side's coils, claim and sweep. -/

namespace Sys2Proof.Machine

/-- The state `s` with the coils, the claim and the sweep of one side put in. -/
def State.side (s : State) (sd : Side) (u : CoilUnit) (c : Claim) (w : Sweep) : State := ((s.setCoils sd u).setClaim sd c).setSweep sd w

section
variable (s : State) (sd : Side) (u u' : CoilUnit) (c c' : Claim) (w w' : Sweep)

theorem State.side_self : s.side sd (s.coils.get sd) (s.claims.get sd) (s.sweeps.get sd) = s := by simp [State.side, State.setCoils, State.setClaim, State.setSweep]

/-- Every state is one in the terms of a side. -/
theorem exists_side {v : State} {sd : Side} {u : CoilUnit} {c : Claim} {w : Sweep} (hu : u = v.coils.get sd) (hc : c = v.claims.get sd) (hw : w = v.sweeps.get sd) :
    ∃ x : State, v = x.side sd u c w := ⟨v, by rw [hu, hc, hw, State.side_self]⟩

@[simp] theorem side_coils : (s.side sd u c w).coils = s.coils.set sd u := rfl
@[simp] theorem side_claims : (s.side sd u c w).claims = s.claims.set sd c := rfl
@[simp] theorem side_sweeps : (s.side sd u c w).sweeps = s.sweeps.set sd w := rfl
@[simp] theorem side_sys : (s.side sd u c w).sys = s.sys := rfl
@[simp] theorem side_line : (s.side sd u c w).line = s.line := rfl
@[simp] theorem side_pins : (s.side sd u c w).pins = s.pins := rfl
@[simp] theorem side_facesEnd : (s.side sd u c w).facesEnd sd = s.facesEnd sd := by cases sd <;> rfl
@[simp] theorem side_lane : (s.side sd u c w).lane sd = s.lane sd := rfl
@[simp] theorem side_number : (s.side sd u c w).number = s.number := rfl
@[simp] theorem side_coil (k : CoilNumber) : (s.side sd u c w).coil sd k = u.coils.get k := by simp [State.coil]
@[simp] theorem side_atRest : (s.side sd u c w).atRest sd = u.atRest := by simp [State.atRest]

@[simp] theorem side_setCoils : (s.side sd u c w).setCoils sd u' = s.side sd u' c w := by
  simp [State.side, State.setCoils, State.setClaim, State.setSweep]
@[simp] theorem side_setClaim : (s.side sd u c w).setClaim sd c' = s.side sd u c' w := by
  simp [State.side, State.setCoils, State.setClaim, State.setSweep]
@[simp] theorem side_setSweep : (s.side sd u c w).setSweep sd w' = s.side sd u c w' := by
  simp [State.side, State.setCoils, State.setClaim, State.setSweep]

@[simp] theorem side_setQueue (q : List QFrame) : (s.side sd u c w).setQueue q = (s.setQueue q).side sd u c w := rfl
@[simp] theorem side_setWaiting (ks : List WaitKey) : (s.side sd u c w).setWaiting ks = (s.setWaiting ks).side sd u c w := rfl
@[simp] theorem side_setPhase (p : LinePhase) : (s.side sd u c w).setPhase p = (s.setPhase p).side sd u c w := rfl
@[simp] theorem side_giveUp (k : WaitKey) : (s.side sd u c w).giveUp k = (s.giveUp k).side sd u c w := rfl

@[simp] theorem side_setCoil (k : CoilNumber) (e : Coil) :
    (s.side sd u c w).setCoil sd k e = s.side sd { u with coils := u.coils.set k e } c w := by simp [State.setCoil]
@[simp] theorem side_cutRound : (s.side sd u c w).cutRound sd = s.side sd u c { w with round := none } := by simp [State.cutRound]
@[simp] theorem side_storeQ (k : CoilNumber) (q : Nat) :
    (s.side sd u c w).storeQ sd k q = s.side sd { u with coils := u.coils.set k { u.coils.get k with q := q } } c w := by
  simp [State.storeQ]
@[simp] theorem side_plannedList : (s.side sd u c w).plannedList sd =
    if w.priority then allCoils else orderedList s.sys.cfg.order (sweepLengthOf s.sys.cfg w.mode) w.c0 := by simp [State.plannedList]
@[simp] theorem side_holdSoFar : (s.side sd u c w).holdSoFar sd = claimHoldTime - c.hold.getD 0 := by
  unfold State.holdSoFar
  simp only [side_claims, PerSide.get_set_self]
  cases c.hold <;> rfl

/-! ### Lists, and the end of a sweep -/

/-- The Scheduler's record in RELEASING (R51, R59). -/
def Sweep.released (w : Sweep) : Sweep :=
  { w with
    state := .releasing, c0 := w.c0 + 1, full := false, list := [], position := 0, repeats := 0, gap := none
    wait := .none, exhausted := false, round := none }

/-- The Scheduler's record with a list made at the grant (R52). -/
def Sweep.begun (w : Sweep) (list : List CoilNumber) : Sweep :=
  { w with
    state := .sweeping, list := list, full := w.priority, priority := false, position := 0, repeats := 0
    wait := .none, exhausted := false, round := none }

/-- The coils of a side with one that ramps (R16). -/
def CoilUnit.ramped (u : CoilUnit) (k : CoilNumber) (rampTime : Nat) : CoilUnit :=
  { u with coils := u.coils.set k { u.coils.get k with state := .ramping }, ramp := some rampTime }

@[simp] theorem side_activate (k : CoilNumber) : (s.side sd u c w).activate sd k = s.side sd (u.ramped k (ms s.sys.cfg.rampTime)) c w := by
  simp [State.activate, CoilUnit.ramped]

@[simp] theorem side_enterReleasing : (s.side sd u c w).enterReleasing sd = s.side sd u c w.released := by
  simp [State.enterReleasing, Sweep.released]

@[simp] theorem side_beginList :
    (s.side sd u c w).beginList sd = s.side sd u c (w.begun ((s.side sd u c w).plannedList sd)) := by
  simp only [State.beginList, side_sweeps, PerSide.get_set_self, side_setSweep]
  rfl

@[simp] theorem side_startGap :
    (s.side sd u c w).startGap sd = s.side sd u c { w with state := .waiting, gap := some (gapOf s.sys.cfg w.mode) } := by
  simp [State.startGap]

theorem side_drain (k : CoilNumber) : (s.side sd u c w).drain sd k = s.side sd (u.drained (ms s.sys.cfg.drainTime) k) c
    (if (u.coils.get k).state = .live then { w with round := none } else w) := by
  simp only [State.drain, side_coils, PerSide.get_set_self, side_setCoils, side_coil, side_sys, side_cutRound]
  split <;> rfl

theorem atRest_of_cutWait {u : CoilUnit} (runs : u.cutWait ≠ none) : u.atRest = false :=
  Bool.eq_false_iff.2 fun rest => runs (atRest_iff.1 rest).2

theorem atRest_of_field {u : CoilUnit} {j : CoilNumber} (field : (u.coils.get j).state.hasField = true) : u.atRest = false :=
  Bool.eq_false_iff.2 fun rest => by simp [(atRest_iff.1 rest).1 j] at field

variable {s sd u c w}

/-- The end of a sweep with no coil energised, on a side not at rest (R59). -/
theorem side_endSweep (reported : Bool) (busy : u.atRest = false) (dark : ∀ j, (u.coils.get j).state.energised = false) :
    (s.side sd u c w).endSweep sd reported =
      s.side sd u (if reported = true ∧ c.state = .holding then { c with state := .resting .closing } else c) w.released := by
  rw [endSweep_busy reported (by simpa using busy) (by simpa using dark)]
  simp only [side_claims, PerSide.get_set_self, side_enterReleasing, side_setClaim]
  split <;> rfl

/-! ### Reaching a position (R53) -/

/-- The hold leaves room for a ramp, a round and a drain of the coil, or no hold bounds them (R53 case 3). -/
theorem side_rampCheck {k : CoilNumber} (fits : s.facesEnd sd = true ∨ ∃ left, c.hold = some left ∧
    (60000 - left) + s.sys.cfg.rampTime * 1000 + (u.coils.get k).q * 500 + s.sys.cfg.drainTime * 1000 ≤ 60000) :
    (s.side sd u c w).rampCheckFails sd k = false := by
  rw [State.rampCheckFails, side_holdSoFar, side_facesEnd, side_coil, side_sys]
  rcases fits with faces | ⟨left, hold, fits⟩
  · rw [faces]; rfl
  · rw [hold, Bool.and_eq_false_iff]
    exact .inr (decide_eq_false (Nat.not_lt_of_le fits))

theorem side_rampCheck_fails {k : CoilNumber} {left : Nat} (inner : s.facesEnd sd = false) (hold : c.hold = some left)
    (exceeds : 60000 < (60000 - left) + s.sys.cfg.rampTime * 1000 + (u.coils.get k).q * 500 + s.sys.cfg.drainTime * 1000) :
    (s.side sd u c w).rampCheckFails sd k = true := by
  rw [State.rampCheckFails, side_holdSoFar, side_facesEnd, side_coil, side_sys, inner, hold]
  exact decide_eq_true exceeds

theorem reach_eq_of_here {k : CoilNumber} (here : w.list[w.position]? = some k) : (s.side sd u c w).reachHere sd =
    State.reachFrom sd (k :: w.list.drop (w.position + 1)) w.position (s.side sd u c w) := by
  obtain ⟨inside, rfl⟩ := List.getElem?_eq_some_iff.1 here
  have rest : w.list.drop w.position = w.list[w.position] :: w.list.drop (w.position + 1) := List.drop_eq_getElem_cons inside
  rw [← rest]
  simp only [State.reachHere, side_sweeps, PerSide.get_set_self]

/-- At a coil that may be activated the position's coil ramps. -/
theorem side_reach_ramps {k : CoilNumber} (here : w.list[w.position]? = some k) (check : (s.side sd u c w).rampCheckFails sd k = false)
    (idle : (u.coils.get k).state = .idle) (dark : ∀ j, (u.coils.get j).state.energised = false)
    (may : s.facesEnd sd = true ∨ c.state = .holding) (noWait : u.cutWait = none) :
    (s.side sd u c w).reachHere sd = (s.side sd (u.ramped k (ms s.sys.cfg.rampTime)) c { w with wait := .none }, false) := by
  rw [reach_eq_of_here here, reachFrom_head check (mayActivate_iff.2 ⟨by simpa using idle, by simpa using dark, by simpa using may,
    by simpa using noWait⟩)]
  simp

/-- At a DRAINING coil the Scheduler waits for the drain. -/
theorem side_reach_draining {k : CoilNumber} (here : w.list[w.position]? = some k) (check : (s.side sd u c w).rampCheckFails sd k = false)
    (draining : (u.coils.get k).state = .draining) :
    (s.side sd u c w).reachHere sd = (s.side sd u c { w with wait := .drain }, false) := by
  have may : (s.side sd u c w).mayActivate sd k = false := by simp [State.mayActivate, draining]
  rw [reach_eq_of_here here, State.reachFrom]
  simp [draining, check, may]

/-- At an IDLE coil the Scheduler waits for a cut wait that runs. -/
theorem side_reach_cutWait {k : CoilNumber} (here : w.list[w.position]? = some k) (check : (s.side sd u c w).rampCheckFails sd k = false)
    (idle : (u.coils.get k).state = .idle) (runs : u.cutWait ≠ none) :
    (s.side sd u c w).reachHere sd = (s.side sd u c { w with wait := .cutWait }, false) := by
  have isSome : u.cutWait.isSome = true := Option.isSome_iff_ne_none.2 runs
  have may : (s.side sd u c w).mayActivate sd k = false := by
    simp [State.mayActivate, Option.isNone_eq_false_iff.2 isSome]
  rw [reach_eq_of_here here, State.reachFrom]
  simp [idle, check, may, isSome]

/-- Where the ramp check fails the hold is exhausted and the sweep ends. -/
theorem side_reach_exhausted {k : CoilNumber} (here : w.list[w.position]? = some k) (check : (s.side sd u c w).rampCheckFails sd k = true)
    (sound : (u.coils.get k).state ≠ .faulted) :
    (s.side sd u c w).reachHere sd = (s.side sd u c { w with wait := .none }, true) := by
  rw [reach_eq_of_here here, State.reachFrom]
  simp [sound, check]

theorem reach_of_stays {t : State} (here : s.reachHere sd = (t, false)) : s.reach sd = t := by simp [State.reach, here]

theorem reach_of_ends {t : State} (here : s.reachHere sd = (t, true)) : s.reach sd = t.endSweep sd true := by simp [State.reach, here]

end

end Sys2Proof.Machine
end

section
/-! PROOFS. Coils: the ends of the live period, of drains, cut waits and retests, and of a ramp (chapter 2). -/

namespace Sys2Proof.Machine

/-! ### The live period -/

/-- A cut, or a drain, of the one energised coil leaves no coil energised. -/
theorem dark_set {u : CoilUnit} {k : CoilNumber} (unique : ∀ j, (u.coils.get j).state.energised = true → j = k) {e : Coil}
    (dark : e.state.energised = false) (j : CoilNumber) : ((u.coils.set k e).get j).state.energised = false := by
  by_cases same : j = k
  · rw [same, Quad.get_set_self]; exact dark
  · rw [Quad.get_set_of_ne _ _ same]
    exact Bool.eq_false_iff.2 fun lit => same (unique j lit)

theorem unique_state {u : CoilUnit} {k : CoilNumber} (unique : ∀ j, (u.coils.get j).state.energised = true → j = k) {st : CoilState}
    (lit : st.energised = true) (j : CoilNumber) (at_j : (u.coils.get j).state = st) : j = k :=
  unique j (by rw [at_j]; exact lit)

theorem afterLoss_moved {s : State} {sd : Side} (stopping : Bool) (busy : s.atRest sd = false)
    (dark : ∀ j, ((s.coils.get sd).coils.get j).state.energised = false) : Moved sd s (s.afterLoss sd stopping) := by
  unfold State.afterLoss
  dsimp only
  split
  · exact restartNow_moved busy dark
  · exact moveOn_moved busy dark

section
variable {s t : State} {sd : Side} {k : CoilNumber} {u : CoilUnit} {c : Claim} {w : Sweep}

theorem Moved.side_coil (h : Moved sd (s.side sd u c w) t) (busy : (u.coils.get k).state ≠ .idle) : t.coil sd k = u.coils.get k := by
  rw [h.coil k (by simpa using busy)]; simp

theorem Moved.side_live (h : Moved sd (s.side sd u c w) t) : (t.coils.get sd).live = u.live := by rw [h.live]; simp

theorem Moved.side_cutWait (h : Moved sd (s.side sd u c w) t) : (t.coils.get sd).cutWait = u.cutWait := by rw [h.cutWait]; simp

theorem Moved.side_ramp (h : Moved sd (s.side sd u c w) t) (runs : u.cutWait ≠ none) : (t.coils.get sd).ramp = u.ramp := by
  rw [h.ramp (by simpa using runs)]; simp

theorem Moved.side_round (h : Moved sd (s.side sd u c w) t) (ended : w.round = none) : (t.sweeps.get sd).round = none :=
  h.round (by simpa using ended)

/-- The coils of a side whose LIVE coil is drained at the end of its live period. -/
def CoilUnit.spent (u : CoilUnit) (k : CoilNumber) (drainTime : Nat) : CoilUnit :=
  { u with coils := u.coils.set k { u.coils.get k with state := .draining, drain := some drainTime }, live := none }

theorem drained_of_live {d : Nat} (live : (u.coils.get k).state = .live) : u.drained d k = u.spent k d := by
  simp [CoilUnit.drained, CoilUnit.spent, live]

theorem spent_busy {d : Nat} : (u.spent k d).atRest = false := atRest_of_field (j := k) (by simp [CoilUnit.spent, CoilState.hasField])

theorem spent_dark {d : Nat} (unique : ∀ j, (u.coils.get j).state.energised = true → j = k) (j : CoilNumber) :
    ((u.spent k d).coils.get j).state.energised = false := dark_set unique rfl j

/-- The live limit with no round in progress (R21). -/
theorem liveEnds_side {e : Nat} (unique : ∀ j, (u.coils.get j).state.energised = true → j = k) (live : (u.coils.get k).state = .live)
    (timer : u.live = some e) (reached : 40000 ≤ e) (noRound : w.round = none) :
    (s.side sd u c w).liveEnds sd = (s.side sd (u.spent k (ms s.sys.cfg.drainTime)) c w).moveOn sd := by
  have limit : maxLiveTime ≤ e := reached
  simp [State.liveEnds, timer, limit, coilIn_of_unique live (unique_state unique rfl), drained_of_live live, noRound]

/-- The live limit with a round in progress, within a slot or at a slot's end (R21; log 20). -/
theorem liveEnds_side_round {e : Nat} {r : Round} (unique : ∀ j, (u.coils.get j).state.energised = true → j = k)
    (live : (u.coils.get k).state = .live) (timer : u.live = some e) (reached : 40000 ≤ e) (inRound : w.round = some r) :
    (s.side sd u c w).liveEnds sd =
      if r.slot = 0 then s.side sd (u.spent k (ms s.sys.cfg.drainTime)) c { w with round := some { r with cut := true } }
      else (s.side sd (u.spent k (ms s.sys.cfg.drainTime)) c { w with round := none }).afterLoss sd r.stopping := by
  have limit : maxLiveTime ≤ e := reached
  simp [State.liveEnds, timer, limit, coilIn_of_unique live (unique_state unique rfl), drained_of_live live, inRound]

theorem driveLost_side (live : (u.coils.get k).state = .live) : (s.side sd u c w).driveLost sd k =
    (s.side sd { u.cut (ms s.sys.cfg.drainTime) k with live := none } c { w with round := none }).afterLoss sd
      ((w.round.map Round.stopping).getD false) := by
  simp [State.driveLost, live]

end

/-- Settles O10. -/
theorem livePeriodEndsAtLimitOrDriveLoss : Obligations.LivePeriodEndsAtLimitOrDriveLoss := by
  intro s v a sd k u hv hu
  obtain ⟨c, hc⟩ : ∃ c, c = v.claims.get sd := ⟨_, rfl⟩
  obtain ⟨w, hw⟩ : ∃ w, w = v.sweeps.get sd := ⟨_, rfl⟩
  rw [exec_liveLimit, exec_driveLoss, ← hv]
  obtain ⟨x, rfl⟩ := exists_side hu hc hw
  clear hv hu hc hw
  refine ⟨fun other => ?_, fun unique live => ⟨fun e timer reached => ⟨?_, fun r inRound atEnd => ?_⟩, ?_⟩⟩
  · simp [State.driveLost, other]
  · refine ⟨_, rfl, ?_⟩
    have spent (w' : Sweep) (t : State) (moved : Moved sd (x.side sd (u.spent k (ms x.sys.cfg.drainTime)) c w') t) :
        t.coil sd k = { u.coils.get k with state := .draining, drain := some (x.sys.cfg.drainTime * 1000) } ∧
          (t.coils.get sd).live = none := by
      refine ⟨?_, moved.side_live⟩
      rw [moved.side_coil (k := k) (by simp [CoilUnit.spent])]
      simp [CoilUnit.spent, ms]
    have dark := spent_dark (d := ms x.sys.cfg.drainTime) unique
    cases inRound : w.round with
    | none =>
      rw [liveEnds_side unique live timer reached inRound]
      have moved := moveOn_moved (s := x.side sd (u.spent k (ms x.sys.cfg.drainTime)) c w) (sd := sd) (by simp [spent_busy])
        (by simpa using dark)
      exact ⟨(spent _ _ moved).1, (spent _ _ moved).2, fun r h => by simp [inRound] at h⟩
    | some r =>
      rw [liveEnds_side_round unique live timer reached inRound]
      split
      · next atEnd =>
        refine ⟨by simp [CoilUnit.spent, ms], by simp [CoilUnit.spent], fun r' h within => ?_⟩
        simp only [side_sweeps, PerSide.get_set_self, inRound, Option.some.injEq] at h
        exact absurd (h ▸ atEnd) within
      · have moved := afterLoss_moved (s := x.side sd (u.spent k (ms x.sys.cfg.drainTime)) c { w with round := none }) (sd := sd) r.stopping
          (by simp [spent_busy]) (by simpa using dark)
        exact ⟨(spent _ _ moved).1, (spent _ _ moved).2, fun _ _ _ => moved.side_round rfl⟩
  · simp only [side_sweeps, PerSide.get_set_self] at inRound
    rw [liveEnds_side_round unique live timer reached inRound]
    simp [atEnd, CoilUnit.spent, ms]
  · refine ⟨_, rfl, ?_⟩
    rw [driveLost_side live]
    have moved := afterLoss_moved (s := x.side sd { u.cut (ms x.sys.cfg.drainTime) k with live := none } c { w with round := none })
      (sd := sd) ((w.round.map Round.stopping).getD false) (by simp [atRest_of_cutWait, CoilUnit.cut])
      (by simpa [CoilUnit.cut] using dark_set unique rfl)
    refine ⟨?_, moved.side_live, ?_, moved.side_round rfl⟩
    · rw [moved.side_coil (k := k) (by simp [CoilUnit.cut])]
      simp [CoilUnit.cut, retestTime, ms]
    · rw [moved.side_cutWait]
      rfl

/-! ### The end of a ramp -/

section
variable {s : State} {sd : Side} {k j : CoilNumber} {u : CoilUnit} {c : Claim} {w : Sweep} {level : Byte}

theorem moveOn_exhausted (sweeping : w.state = .sweeping) (exhausted : w.exhausted = true) :
    (s.side sd u c w).moveOn sd = (s.side sd u c w).endSweep sd false := by simp [State.moveOn, sweeping, exhausted]

theorem moveOn_next (sweeping : w.state = .sweeping) (goesOn : w.exhausted = false) :
    (s.side sd u c w).moveOn sd = (s.side sd u c { w with position := w.position + 1 }).reach sd := by
  simp [State.moveOn, sweeping, goesOn]

/-- The ramp's end by the level read (R18). -/
theorem rampEnds_side (timer : u.ramp = some 0) (ramping : (u.coils.get k).state = .ramping)
    (unique : ∀ j, (u.coils.get j).state.energised = true → j = k) : (s.side sd u c w).rampEnds sd level =
      if level.toNat < s.sys.cfg.driveMin then (s.side sd { u with ramp := none } c w).lowField sd k
      else if s.sys.cfg.driveMax < level.toNat then (s.side sd { u with ramp := none } c w).fieldClash sd k
      else (s.side sd { u with ramp := none } c w).goodRamp sd k := by
  have only : CoilUnit.coilIn { u with ramp := none } .ramping = some k :=
    coilIn_of_unique (u := { u with ramp := none }) ramping (unique_state unique rfl)
  have only' : u.coilIn .ramping = some k := only
  simp [State.rampEnds, timer, isDue, only']

/-- The coils of a side whose ramp ends with low field (R19). -/
def CoilUnit.rampLost (u : CoilUnit) (k : CoilNumber) (drainTime : Nat) : CoilUnit := ({ u with ramp := none } : CoilUnit).cut drainTime k

/-- The coils of a side whose ramp ends in a clash of fields (R20). -/
def CoilUnit.rampClashed (u : CoilUnit) (k : CoilNumber) (drainTime : Nat) : CoilUnit :=
  { u with coils := u.coils.set k { u.coils.get k with state := .draining, drain := some drainTime }, ramp := none }

/-- The coils of a side whose ramp ends well (R21). -/
def CoilUnit.lit (u : CoilUnit) (k : CoilNumber) : CoilUnit :=
  { u with coils := u.coils.set k { u.coils.get k with state := .live, faultMark := false }, ramp := none, live := some 0 }

/-- The coils of a side whose LIVE coil is drained as soon as its ramp has ended well. -/
def CoilUnit.relinquished (u : CoilUnit) (k : CoilNumber) (drainTime : Nat) : CoilUnit :=
  { u with
    coils := u.coils.set k { u.coils.get k with state := .draining, faultMark := false, drain := some drainTime }
    ramp := none, live := none }

theorem fieldClash_side (ramping : (u.coils.get k).state = .ramping) (unique : ∀ j, (u.coils.get j).state.energised = true → j = k) :
    (s.side sd { u with ramp := none } c w).fieldClash sd k = s.side sd (u.rampClashed k (ms s.sys.cfg.drainTime))
      (if c.state = .holding ∨ c.state = .resting .closing then { c with state := .resting .closing, clash := true } else c)
      (if w.state = .sweeping then w.released else w) := by
  have drained : ({ u with ramp := none } : CoilUnit).drained (ms s.sys.cfg.drainTime) k = u.rampClashed k (ms s.sys.cfg.drainTime) := by
    simp [CoilUnit.drained, CoilUnit.rampClashed, ramping]
  have notLive : (u.coils.get k).state ≠ .live := by simp [ramping]
  have busy : (u.rampClashed k (ms s.sys.cfg.drainTime)).atRest = false :=
    atRest_of_field (j := k) (by simp [CoilUnit.rampClashed, CoilState.hasField])
  have dark : ∀ j, ((u.rampClashed k (ms s.sys.cfg.drainTime)).coils.get j).state.energised = false := dark_set unique rfl
  have abandoned : (s.side sd (u.rampClashed k (ms s.sys.cfg.drainTime)) c w).abandonSweep sd =
      s.side sd (u.rampClashed k (ms s.sys.cfg.drainTime)) c (if w.state = .sweeping then w.released else w) := by
    simp only [State.abandonSweep, side_sweeps, PerSide.get_set_self, side_endSweep false busy dark]
    split <;> simp
  rw [State.fieldClash, side_drain, if_neg notLive, drained, abandoned, State.claimClash, endHold_coils (by simpa using dark)]
  simp only [side_claims, PerSide.get_set_self, side_setClaim]
  by_cases holding : c.state = .holding
  · simp [holding]
  · by_cases closing : c.state = .resting .closing
    · simp [closing]
    · simp [holding, closing]

theorem goodRamp_side : (s.side sd { u with ramp := none } c w).goodRamp sd k =
    if w.state = .sweeping then
      if w.exhausted then ((s.side sd (u.lit k) c w).drain sd k).endSweep sd false
      else (s.side sd (u.lit k) c w).startRound sd k (u.coils.get k).q 0 (u.coils.get k).q
    else s.side sd (u.lit k) c w := by
  simp [State.goodRamp, CoilUnit.lit]

theorem lit_drain : (s.side sd (u.lit k) c w).drain sd k =
    s.side sd (u.relinquished k (ms s.sys.cfg.drainTime)) c { w with round := none } := by
  have drained : (u.lit k).drained (ms s.sys.cfg.drainTime) k = u.relinquished k (ms s.sys.cfg.drainTime) := by
    simp [CoilUnit.drained, CoilUnit.lit, CoilUnit.relinquished]
  rw [side_drain, drained, if_pos (by simp [CoilUnit.lit])]

theorem lit_storeQ : (s.side sd (u.lit k) c w).storeQ sd k (u.coils.get k).q = s.side sd (u.lit k) c w := by
  simp [CoilUnit.lit]

theorem relinquished_busy {d : Nat} : (u.relinquished k d).atRest = false :=
  atRest_of_field (j := k) (by simp [CoilUnit.relinquished, CoilState.hasField])

theorem relinquished_dark {d : Nat} (unique : ∀ j, (u.coils.get j).state.energised = true → j = k) (j : CoilNumber) :
    ((u.relinquished k d).coils.get j).state.energised = false := dark_set unique rfl j

/-- The hold leaves room for a round and a drain of the coil, or no hold bounds them (R56). -/
theorem side_holdCheck {q : Nat} (fits : s.facesEnd sd = true ∨ ∃ left, c.hold = some left ∧
    (60000 - left) + q * 500 + s.sys.cfg.drainTime * 1000 ≤ 60000) : (s.side sd u c w).holdCheck sd q = true := by
  rw [State.holdCheck, side_holdSoFar, side_facesEnd, side_sys, Bool.or_eq_true]
  exact fits.imp_right fun ⟨left, hold, fits⟩ => by rw [hold]; exact decide_eq_true fits

theorem side_holdCheck_fails {q left : Nat} (inner : s.facesEnd sd = false) (hold : c.hold = some left)
    (exceeds : 60000 < (60000 - left) + q * 500 + s.sys.cfg.drainTime * 1000) : (s.side sd u c w).holdCheck sd q = false := by
  rw [State.holdCheck, side_holdSoFar, side_facesEnd, side_sys, inner, hold]
  exact decide_eq_false (Nat.not_le_of_lt exceeds)

theorem lit_liveCheck {q : Nat} : (s.side sd (u.lit k) c w).liveCheck sd q = decide (q * 500 ≤ 40000) := by
  simp [State.liveCheck, CoilUnit.lit, maxLiveTime, slotTime, ms]

end

/-- Settles O9. -/
theorem rampEndJudgesTheFieldLevel : Obligations.RampEndJudgesTheFieldLevel := by
  intro s v a sd k level u drained w ended c hv hu hw hc timer ramping unique hdrained hended
  rw [exec_rampEnd, ← hv]
  obtain ⟨x, rfl⟩ := exists_side hu hc hw
  obtain rfl : drained = u.relinquished k (ms x.sys.cfg.drainTime) := hdrained
  obtain rfl : ended = w.released := hended
  clear hv hu hc hw
  simp only [side_facesEnd, side_sys, side_setCoils, side_setSweep, side_setClaim, rampEnds_side timer ramping unique]
  have busy := relinquished_busy (u := u) (k := k) (d := ms x.sys.cfg.drainTime)
  have dark := relinquished_dark (d := ms x.sys.cfg.drainTime) unique
  refine ⟨fun low => ?_, fun high clash => ?_, fun low high sweeping goesOn liveFits holdFits => ?_,
    fun left low high sweeping goesOn inner holding hold exceeds => ?_,
    fun j low high sweeping goesOn liveExceeds holdFits next other idle noWait => ?_,
    fun low high sweeping exhausted faces => ?_⟩
  · rw [if_pos low]
    have lost : (u.rampLost k (ms x.sys.cfg.drainTime)).cutWait ≠ none := nofun
    have lostDark : ∀ j, ((u.rampLost k (ms x.sys.cfg.drainTime)).coils.get j).state.energised = false := dark_set unique rfl
    have moves : (x.side sd { u with ramp := none } c w).lowField sd k =
        (x.side sd (u.rampLost k (ms x.sys.cfg.drainTime)) c w).moveOn sd := by simp [State.lowField, CoilUnit.rampLost]
    have moved : Moved sd (x.side sd (u.rampLost k (ms x.sys.cfg.drainTime)) c w) _ :=
      moveOn_moved (by simpa using atRest_of_cutWait lost) (by simpa using lostDark)
    rw [moves]
    refine ⟨_, rfl, ?_, moved.side_cutWait, moved.side_ramp lost, fun sweeping exhausted => ?_,
      fun j sweeping goesOn next other idle fits => ?_⟩
    · rw [moved.side_coil (k := k) (by simp [CoilUnit.rampLost, CoilUnit.cut])]
      simp [CoilUnit.rampLost, CoilUnit.cut, retestTime, ms]
    · rw [moveOn_exhausted sweeping exhausted, side_endSweep false (atRest_of_cutWait lost) lostDark]
      simp
    · have at_j : (u.rampLost k (ms x.sys.cfg.drainTime)).coils.get j = u.coils.get j := Quad.get_set_of_ne _ _ other
      rw [moveOn_next sweeping goesOn, reach_of_stays (side_reach_cutWait next (side_rampCheck (by rwa [at_j])) (by rwa [at_j]) lost)]
      simp
  · rw [if_neg (Nat.not_lt_of_le high), if_pos clash, fieldClash_side ramping unique]
    refine ⟨_, rfl, by simp [CoilUnit.rampClashed, ms], by simp [CoilUnit.rampClashed], fun sweeping => ?_, fun held => ?_⟩
    · simp [sweeping, Sweep.released]
    · simp [held]
  all_goals rw [if_neg (Nat.not_lt_of_le low), if_neg (Nat.not_lt_of_le high), goodRamp_side, if_pos sweeping]
  · rw [if_neg (Bool.eq_false_iff.1 goesOn), State.startRound, lit_liveCheck, side_holdCheck holdFits, decide_eq_true liveFits]
    simp [CoilUnit.lit, Round.fresh, slotTime]
  · rw [if_neg (Bool.eq_false_iff.1 goesOn), State.startRound, side_holdCheck_fails inner hold exceeds, lit_storeQ, lit_drain]
    simp [side_endSweep true busy dark, holding, Sweep.released]
  · have at_j : (u.relinquished k (ms x.sys.cfg.drainTime)).coils.get j = u.coils.get j := Quad.get_set_of_ne _ _ other
    have here : ({ w with position := w.position + 1, round := none } : Sweep).list[w.position + 1]? = some j := next
    have guarded : x.facesEnd sd = true ∨ c.state = .holding := holdFits.imp_right And.left
    have rounds : x.facesEnd sd = true ∨ ∃ left, c.hold = some left ∧
        (60000 - left) + (u.coils.get k).q * 500 + x.sys.cfg.drainTime * 1000 ≤ 60000 :=
      holdFits.imp_right fun ⟨_, left, hold, fits, _⟩ => ⟨left, hold, fits⟩
    have ramps : x.facesEnd sd = true ∨ ∃ left, c.hold = some left ∧
        (60000 - left) + x.sys.cfg.rampTime * 1000 + ((u.relinquished k (ms x.sys.cfg.drainTime)).coils.get j).q * 500 +
          x.sys.cfg.drainTime * 1000 ≤ 60000 := by
      rw [at_j]
      exact holdFits.imp_right fun ⟨_, left, hold, _, fits⟩ => ⟨left, hold, fits⟩
    rw [if_neg (Bool.eq_false_iff.1 goesOn), State.startRound, side_holdCheck rounds, lit_liveCheck, decide_eq_false (Nat.not_le_of_lt liveExceeds), lit_storeQ,
      lit_drain]
    simp only [Bool.false_and, Bool.false_eq_true, if_false, if_true]
    rw [moveOn_next (w := { w with round := none }) sweeping goesOn, reach_of_stays (side_reach_ramps here (side_rampCheck ramps) (by rwa [at_j]) dark guarded noWait)]
    rw [CoilUnit.ramped, at_j]
    rfl
  · rw [if_pos exhausted, lit_drain]
    simp [side_endSweep false busy dark, Sweep.released]

/-! ### Drains, cut waits and retests -/

section
variable {s : State} {sd : Side} {k : CoilNumber} {u : CoilUnit} {c : Claim} {w : Sweep}

/-- The coils of a side with one whose drain has ended. -/
def CoilUnit.cleared (u : CoilUnit) (k : CoilNumber) : CoilUnit :=
  { u with coils := u.coils.set k { u.coils.get k with state := .idle, drain := none } }

theorem drainEnds_side (timer : (u.coils.get k).drain = some 0) (draining : (u.coils.get k).state = .draining) :
    (s.side sd u c w).drainEnds sd k = if w.coilHere = some k then ((s.side sd (u.cleared k) c w).tellRest sd).resume sd .drain
      else (s.side sd (u.cleared k) c w).tellRest sd := by
  simp [State.drainEnds, timer, draining, isDue, CoilUnit.cleared]

theorem cutWaitEnds_side (timer : u.cutWait = some 0) :
    (s.side sd u c w).cutWaitEnds sd = ((s.side sd { u with cutWait := none } c w).tellRest sd).resume sd .cutWait := by
  simp [State.cutWaitEnds, timer, isDue]

theorem tellRest_busy (busy : u.atRest = false) : (s.side sd u c w).tellRest sd = s.side sd u c w := by simp [State.tellRest, busy]

theorem tellRest_rest (rest : u.atRest = true) : (s.side sd u c w).tellRest sd = (s.side sd u c w).restTold sd := by
  simp [State.tellRest, rest]

/-- A side that comes to rest in the midst of a sweep, its claim HOLDING, is told nothing that moves it. -/
theorem tellRest_sweeping (holding : c.state = .holding) (sweeping : w.state = .sweeping) :
    (s.side sd u c w).tellRest sd = s.side sd u c w := by
  simp [State.tellRest, State.restTold, State.giveUpLane, holding, sweeping]

theorem resume_unawaited {cause : SweepWait} (unawaited : w.wait ≠ cause) : (s.side sd u c w).resume sd cause = s.side sd u c w := by
  simp [State.resume, unawaited]

theorem resume_awaited {cause : SweepWait} (sweeping : w.state = .sweeping) (awaited : w.wait = cause) :
    (s.side sd u c w).resume sd cause = (s.side sd u c w).reach sd := by
  simp [State.resume, sweeping, awaited]

theorem retestEnds_side (timer : (u.coils.get k).retest = some 0) : (s.side sd u c w).retestEnds sd k =
    s.side sd { u with coils := u.coils.set k { u.coils.get k with
      retest := none, state := if (u.coils.get k).state = .faulted then .idle else (u.coils.get k).state } } c w := by
  simp [State.retestEnds, timer, isDue]

end

/-- The expiry for which the Scheduler waits at a position has it reach the position afresh (R53). -/
theorem awaited_reaches {x : State} {a : Nat} {s : State} {sd : Side} {k : CoilNumber} {u u' : CoilUnit} {c : Claim} {w : Sweep} {ev : Instr}
    (now : x.side sd u c w = s.advance a) (holding : c.state = .holding) (sweeping : w.state = .sweeping)
    (here : w.list[w.position]? = some k) (dark : ∀ j, (u.coils.get j).state.energised = false)
    (ends : ev = .drainEnd a sd k ∧ w.wait = .drain ∧ (u.coils.get k).drain = some 0 ∧ (u.coils.get k).state = .draining ∧
        u' = { u with coils := u.coils.set k { u.coils.get k with state := .idle, drain := none } } ∨
      ev = .cutWaitEnd a sd ∧ w.wait = .cutWait ∧ u.cutWait = some 0 ∧ u' = { u with cutWait := none }) :
    exec ev s = .next ((x.side sd u' c w).reach sd) ∧ (∀ j, (u'.coils.get j).state.energised = false) ∧
      (u'.coils.get k).q = (u.coils.get k).q := by
  have told (u' : CoilUnit) := tellRest_sweeping (s := x) (sd := sd) (u := u') holding sweeping
  rcases ends with ⟨rfl, awaited, timer, draining, rfl⟩ | ⟨rfl, awaited, timer, rfl⟩
  · refine ⟨?_, dark_set (fun j lit => by simp [dark j] at lit) rfl, by simp⟩
    rw [exec_drainEnd, ← now, drainEnds_side timer draining, if_pos (show w.coilHere = some k from here), told, resume_awaited sweeping awaited]
    rfl
  · refine ⟨?_, dark, rfl⟩
    rw [exec_cutWaitEnd, ← now, cutWaitEnds_side timer, told, resume_awaited sweeping awaited]

/-- Settles O11. -/
theorem drainCutWaitAndRetestExpire : Obligations.DrainCutWaitAndRetestExpire := by
  intro s v a sd k u hv hu
  refine ⟨?_, ?_, ?_, ?_, fun c w u' ev hc hw holding sweeping here dark ends => ?_⟩
  case refine_5 =>
    obtain ⟨x, rfl⟩ := exists_side hu hc hw
    obtain ⟨reaches, dark', q⟩ := awaited_reaches hv holding sweeping here dark ends
    simp only [reaches, side_facesEnd, side_sys, side_setCoils, side_setSweep, side_setClaim]
    refine ⟨fun fits => ⟨fun idle noWait => ?_, fun draining => ?_, fun idle runs => ?_⟩,
      fun left inner hold sound exceeds busy => ?_⟩
    · rw [reach_of_stays (side_reach_ramps here (side_rampCheck (by rwa [q])) idle dark' (.inr holding) noWait)]
      rfl
    · rw [reach_of_stays (side_reach_draining here (side_rampCheck (by rwa [q])) draining)]
    · rw [reach_of_stays (side_reach_cutWait here (side_rampCheck (by rwa [q])) idle runs)]
    · have restless : u'.atRest = false := busy.elim atRest_of_cutWait fun ⟨_, field⟩ => atRest_of_field field
      rw [reach_of_ends (side_reach_exhausted here (side_rampCheck_fails inner hold (by rwa [q])) sound),
        side_endSweep true restless dark', if_pos ⟨rfl, holding⟩]
      rfl
  all_goals
    obtain ⟨c, hc⟩ : ∃ c, c = v.claims.get sd := ⟨_, rfl⟩
    obtain ⟨w, hw⟩ : ∃ w, w = v.sweeps.get sd := ⟨_, rfl⟩
    obtain ⟨x, rfl⟩ := exists_side hu hc hw
    simp only [side_sweeps, PerSide.get_set_self, side_setCoils]
  · intro j other field unawaited timer draining
    have busy : (u.cleared k).atRest = false := atRest_of_field (j := j) (by rwa [CoilUnit.cleared, Quad.get_set_of_ne _ _ other])
    rw [exec_drainEnd, ← hv, drainEnds_side timer draining, tellRest_busy busy, resume_unawaited unawaited, ite_self]
    rfl
  · intro j field unawaited timer
    rw [exec_cutWaitEnd, ← hv, cutWaitEnds_side timer, tellRest_busy (u := { u with cutWait := none }) (atRest_of_field field),
      resume_unawaited unawaited]
  · intro timer faulted
    rw [exec_retestEnd, ← hv, retestEnds_side timer, if_pos faulted]
  · intro timer sound
    rw [exec_retestEnd, ← hv, retestEnds_side timer, if_neg sound]

end Sys2Proof.Machine
end

section
/-! PROOFS. Claims: rests, holds, the claim timers and the partner's frames (chapter 3). -/

namespace Sys2Proof.Machine

section
variable {s : State} {sd : Side} {u : CoilUnit} {c : Claim} {w : Sweep}

/-! ### Taking a request -/

/-- A station with a side's CLAIM offered to a queue that has room for it. -/
def State.withClaim (s : State) (sd : Side) : State :=
  (s.setQueue (s.line.queue ++ [QFrame.fresh (.side sd) (.claim (s.lane sd))])).giveUp (.claim sd)

theorem side_offerClaim (room : s.NormalRoom) : ((s.side sd u c w).offerClaim sd).1 = (s.withClaim sd).side sd u c w := by
  rw [offerClaim_room (s := s.side sd u c w) room.1 room.2]
  rfl

theorem side_takeRequest_inner (inner : s.facesEnd sd = false) (room : s.NormalRoom) : (s.side sd u c w).takeRequest sd =
    ((s.withClaim sd).side sd u { c with state := .asking, sent := false, request := true } w, false) := by
  simp [State.takeRequest, inner, side_offerClaim room]

theorem side_takeRequest_end (faces : s.facesEnd sd = true) : (s.side sd u c w).takeRequest sd =
    (s.side sd u { c with state := .holding, hold := some claimHoldTime, request := false } w, true) := by
  simp [State.takeRequest, faces]

/-- A side that becomes FREE with no request pending rests in FREE. -/
theorem side_becomeFree_idle (idle : c.request = false) :
    (s.side sd u c w).becomeFree sd = (s.side sd u { c with state := .free, rest := none } w, false) := by
  simp [State.becomeFree, idle]

theorem side_becomeFree_inner (request : c.request = true) (inner : s.facesEnd sd = false) (room : s.NormalRoom) :
    (s.side sd u c w).becomeFree sd =
      ((s.withClaim sd).side sd u { c with state := .asking, sent := false, request := true, rest := none } w, false) := by
  simp [State.becomeFree, request, side_takeRequest_inner inner room]

theorem side_becomeFree_end (request : c.request = true) (faces : s.facesEnd sd = true) : (s.side sd u c w).becomeFree sd =
    (s.side sd u { c with state := .holding, hold := some claimHoldTime, request := false, rest := none } w, true) := by
  simp [State.becomeFree, request, side_takeRequest_end faces]

/-! ### The grant -/

/-- The list that a Scheduler would make now (R52). -/
def Sweep.planned (w : Sweep) (cfg : Config) : List CoilNumber :=
  if w.priority then allCoils else orderedList cfg.order (sweepLengthOf cfg w.mode) w.c0

theorem side_planned : (s.side sd u c w).plannedList sd = w.planned s.sys.cfg := by rw [side_plannedList]; rfl

/-- At the grant the Scheduler makes its list and its first coil ramps, where that may be activated. -/
theorem side_begins {k : CoilNumber} {ks : List CoilNumber} (list : w.planned s.sys.cfg = k :: ks)
    (check : ∀ w', (s.side sd u c w').rampCheckFails sd k = false) (idle : (u.coils.get k).state = .idle)
    (dark : ∀ j, (u.coils.get j).state.energised = false) (may : s.facesEnd sd = true ∨ c.state = .holding) (noWait : u.cutWait = none) :
    ((s.side sd u c w).beginList sd).reachHere sd = (s.side sd (u.ramped k (ms s.sys.cfg.rampTime)) c (w.begun (k :: ks)), false) := by
  rw [side_beginList, side_planned, list, side_reach_ramps (k := k) rfl (check _) idle dark may noWait]
  rfl

/-! ### Waiting lists -/

theorem filter_ne_ne (ks : List WaitKey) (a b : WaitKey) :
    (ks.filter (· ≠ a)).filter (· ≠ b) = ks.filter fun e => e ≠ a && e ≠ b := by
  rw [List.filter_filter]
  exact List.filter_congr fun e _ => Bool.and_comm ..

/-- A CLAIM is offered as an owed RELEASE is given up. -/
theorem giveUp_withClaim (s : State) (sd : Side) : (s.giveUp (.release sd)).withClaim sd =
    (s.setWaiting (s.line.waiting.filter fun e => e ≠ .release sd && e ≠ .claim sd)).setQueue
      (s.line.queue ++ [QFrame.fresh (.side sd) (.claim (s.lane sd))]) := by
  rw [← filter_ne_ne]
  rfl

/-! ### The hold timer -/

theorem endHold_faces (faces : s.facesEnd sd = true) (holding : c.state = .holding) :
    (s.side sd u c w).endHold sd = s.side sd u { c with state := .resting .closing } w := by
  simp [State.endHold, faces, holding]

theorem endHold_inner {k : CoilNumber} (inner : s.facesEnd sd = false) (holding : c.state = .holding)
    (live : (u.coils.get k).state = .live) (unique : ∀ j, (u.coils.get j).state.energised = true → j = k) :
    (s.side sd u c w).endHold sd =
      s.side sd (u.spent k (ms s.sys.cfg.drainTime)) { c with state := .resting .closing } { w with round := none } := by
  have lit : u.energisedCoil = some k := energisedCoil_of_unique (by rw [live]; rfl) unique
  simp [State.endHold, inner, holding, State.drainEnergised, lit, side_drain, live, drained_of_live live]

theorem holdTimerEnds_side (timer : c.hold = some 0) (holding : c.state = .holding) :
    (s.side sd u c w).holdTimerEnds sd = ((s.side sd u { c with hold := none } w).endHold sd).holdExhausted sd := by
  simp [State.holdTimerEnds, timer, holding, isDue]

/-! ### The claim wait -/

theorem claimWaitEnds_side (timer : c.wait = some 0) (asking : c.state = .asking) : (s.side sd u c w).claimWaitEnds sd =
    (s.side sd u { c with state := .holding, wait := none, hold := some claimHoldTime, request := false } w).grant sd := by
  simp [State.claimWaitEnds, timer, asking, isDue]

theorem grant_unasked (other : w.state ≠ .claiming) : (s.side sd u c w).grant sd = s.side sd u c w := by simp [State.grant, other]

theorem grant_asked (claiming : w.state = .claiming) : (s.side sd u c w).grant sd = ((s.side sd u c w).beginList sd).reach sd := by
  simp [State.grant, claiming]

/-! ### The end of a rest -/

theorem restEnds_side {cause : RestCause} (timer : c.rest = some 0) (resting : c.state = .resting cause) (other : cause ≠ .closing) :
    (s.side sd u c w).restEnds sd = if (((s.giveUp (.release sd)).side sd u c w).becomeFree sd).2
      then (((s.giveUp (.release sd)).side sd u c w).becomeFree sd).1.grant sd
      else (((s.giveUp (.release sd)).side sd u c w).becomeFree sd).1 := by
  simp only [State.restEnds, side_claims, PerSide.get_set_self, timer, isDue, resting, side_giveUp]
  cases cause with
  | closing => exact absurd rfl other
  | _ => rfl

end

/-- Settles O13. -/
theorem claimWaitAndHoldTimersExpire : Obligations.ClaimWaitAndHoldTimersExpire := by
  intro s v a sd u c w hv hu hc hw
  rw [exec_claimWaitEnd, exec_claimHoldTimerEnd, ← hv]
  obtain ⟨x, rfl⟩ := exists_side hu hc hw
  clear hv hu hc hw
  simp only [side_facesEnd, side_sys, side_setCoils, side_setSweep, side_setClaim]
  refine ⟨fun timer asking other => ?_, fun k ks timer asking claiming inner list idle dark noWait fits => ?_,
    fun k timer holding inner sweeping live unique => ?_, fun k timer holding faces sweeping lit => ?_,
    fun k timer holding faces sweeping noRound dark draining => ?_, fun timer holding faces other => ?_, fun timer other => ?_⟩
  · rw [claimWaitEnds_side timer asking, grant_unasked other]
    rfl
  · have check (w' : Sweep) : (x.side sd u { c with state := .holding, wait := none, hold := some claimHoldTime, request := false }
        w').rampCheckFails sd k = false := side_rampCheck (.inr ⟨_, rfl, by simpa [claimHoldTime, ms] using fits⟩)
    rw [claimWaitEnds_side timer asking, grant_asked claiming,
      reach_of_stays (side_begins list check idle dark (.inr rfl) noWait)]
    rfl
  · have busy : (u.spent k (ms x.sys.cfg.drainTime)).atRest = false := spent_busy
    rw [holdTimerEnds_side timer holding, endHold_inner (c := { c with hold := none }) inner holding live unique]
    simp [State.holdExhausted, sweeping, side_endSweep false busy (spent_dark unique), inner]
    rfl
  · have some : u.energisedCoil.isSome = true := by
      refine Option.isSome_iff_ne_none.2 fun none => ?_
      simp [energisedCoil_eq_none.1 none k] at lit
    rw [holdTimerEnds_side timer holding, endHold_faces (c := { c with hold := none }) faces holding]
    simp [State.holdExhausted, sweeping, faces, some]
  · have busy : u.atRest = false := atRest_of_field (j := k) (by rw [draining]; rfl)
    rw [holdTimerEnds_side timer holding, endHold_faces (c := { c with hold := none }) faces holding]
    simp [State.holdExhausted, sweeping, faces, energisedCoil_eq_none.2 dark, noRound, side_endSweep false busy dark, Sweep.released]
  · rw [holdTimerEnds_side timer holding, endHold_faces (c := { c with hold := none }) faces holding]
    simp [State.holdExhausted, other]
  · simp [State.holdTimerEnds, timer, isDue, other]

/-- Settles O14. -/
theorem restTimerEndsTheRest : Obligations.RestTimerEndsTheRest := by
  intro s v a sd c cause hv hc timer resting other
  rw [exec_restTimerEnd, ← hv]
  refine ⟨fun idle => ?_, fun request inner room => ?_, fun u w k ks hu hw request faces claiming list idle dark noWait => ?_⟩
  case refine_3 =>
    obtain ⟨x, rfl⟩ := exists_side hu hc hw
    have faces' : (x.giveUp (.release sd)).facesEnd sd = true := by simpa using faces
    have begins := side_begins (s := x.giveUp (.release sd))
      (c := { c with state := .holding, hold := some claimHoldTime, request := false, rest := none }) list
      (fun _ => side_rampCheck (.inl faces')) idle dark (.inr rfl) noWait
    rw [restEnds_side timer resting other, side_becomeFree_end request faces', if_pos rfl, grant_asked claiming, reach_of_stays begins]
    simp only [side_line, side_sys, side_setCoils, side_setSweep, side_setClaim, side_setWaiting]
    rfl
  all_goals
    obtain ⟨u, hu⟩ : ∃ u, u = v.coils.get sd := ⟨_, rfl⟩
    obtain ⟨w, hw⟩ : ∃ w, w = v.sweeps.get sd := ⟨_, rfl⟩
    obtain ⟨x, rfl⟩ := exists_side hu hc hw
    rw [restEnds_side timer resting other]
  · rw [side_becomeFree_idle idle]
    simp only [side_line, side_setClaim, side_setWaiting]
    rfl
  · have inner' : (x.giveUp (.release sd)).facesEnd sd = false := by simpa using inner
    have room' : (x.giveUp (.release sd)).NormalRoom := room
    rw [side_becomeFree_inner request inner' room', if_neg Bool.false_ne_true, giveUp_withClaim]
    simp only [side_line, side_setClaim, side_setWaiting, side_setQueue, request]
    rfl

end Sys2Proof.Machine
end

section
/-! PROOFS. A removal leaves no frame of its kind but one under transmission (R80). -/

namespace Sys2Proof.Machine

/-- The kind of frame that a payload makes, a number for each. -/
def Payload.sort : Payload → Nat
  | .sight _ => 0
  | .join _ => 1
  | .decision _ => 2
  | .claim _ => 3
  | .defer _ => 4
  | .release _ => 5
  | .query _ _ _ => 6
  | .report => 7

/-- The frames of a queue that a removal by owner and payload would take out. -/
def removable (K : Owner → Payload → Bool) (f : QFrame) : Bool := K f.owner f.payload && !f.underTx

/-- An offer of another kind than `K`, and of a record where it may be merged into a frame of its kind. -/
structure Spares (K : Owner → Payload → Bool) (o : Owner) (p : Payload) : Prop where
  other  : ∀ p', p'.sort = p.sort → K o p' = false
  record : p.sort ≤ 1 → ∃ x, o = .record x

section
variable {K : Owner → Payload → Bool} {o : Owner} {p : Payload} {q q' : List QFrame}

theorem Edited.removable_le {f g : QFrame} (e : Edited q q' f g) (spared : K g.owner g.payload = false) :
    q'.countP (removable K) ≤ q.countP (removable K) := by
  obtain ⟨⟨a, b, rfl, rfl⟩, -⟩ := e
  have not : removable K g = false := by rw [removable, spared]; rfl
  simp only [List.countP_append, List.countP_cons, not]
  simp

theorem judgeOffer_into_removable (spared : Spares K o p) {left : List OwnSample} (j : judgeOffer o p q = .into q' left) :
    q'.countP (removable K) ≤ q.countP (removable K) := by
  obtain ⟨rfl, -⟩ | ⟨f, n, m, rfl, -, -, -, e⟩ | ⟨f, n, m, rfl, -, -, -, -, -, e⟩ | ⟨f, n, m, rfl, -, -, -, e⟩ := judgeOffer_into j
  · exact le_rfl
  · obtain ⟨x, rfl⟩ := spared.record (by simp [Payload.sort])
    exact e.removable_le (spared.other _ rfl)
  · obtain ⟨x, rfl⟩ := spared.record (by simp [Payload.sort])
    exact e.removable_le (spared.other _ rfl)
  · exact e.removable_le (spared.other _ rfl)

theorem judgeOffer_placed_removable (spared : Spares K o p) {d : Option (JoinMsg × Owner)} (j : judgeOffer o p q = .placed q' d) :
    q'.countP (removable K) ≤ q.countP (removable K) := by
  have not : removable K (QFrame.fresh o p) = false := by
    rw [removable, show K (QFrame.fresh o p).owner (QFrame.fresh o p).payload = false from spared.other p rfl]
    rfl
  obtain ⟨-, -, ⟨-, rfl, -⟩ | ⟨a, f, b, m, -, -, rfl, rfl, -⟩⟩ := judgeOffer_placed j
  · simp [not]
  · simp only [List.countP_append, List.countP_cons, List.countP_nil, not]
    simp

theorem QMoves.removable_le {P : Owner → Payload → Prop} {rm : QFrame → Bool} (spared : ∀ o p, P o p → Spares K o p)
    (h : QMoves P rm q q') : q'.countP (removable K) ≤ q.countP (removable K) := by
  induction h with
  | refl => exact le_rfl
  | into _ hp j ih => exact (judgeOffer_into_removable (spared _ _ hp) j).trans ih
  | placed _ hp j ih => exact (judgeOffer_placed_removable (spared _ _ hp) j).trans ih
  | drop _ dropped ih => exact (dropFirst_sublist dropped).countP_le.trans ih

theorem QMoves.length_le {P : Owner → Payload → Prop} {rm : QFrame → Bool} (h : QMoves P rm q q') (fits : q.length ≤ queueSize) :
    q'.length ≤ queueSize := by
  induction h with
  | refl => exact fits
  | into _ _ j ih =>
    obtain ⟨rfl, -⟩ | ⟨f, n, m, -, -, -, -, e⟩ | ⟨f, n, m, -, -, -, -, -, -, e⟩ | ⟨f, n, m, -, -, -, -, e⟩ := judgeOffer_into j
    · exact ih
    all_goals rw [e.length_eq]; exact ih
  | placed _ _ j ih =>
    obtain ⟨-, -, ⟨-, rfl, room, -⟩ | ⟨a, f, b, m, -, -, rfl, rfl, -⟩⟩ := judgeOffer_placed j
    · simpa using room
    · simpa using ih
  | drop _ dropped ih => exact (dropFirst_sublist dropped).length_le.trans ih

end

/-- A removal leaves no frame of its kind but under transmission, where no walk on its way offers one. -/
theorem removeLoop_none_left {K : Owner → Payload → Bool} (fuel : Nat) {s : State} (enough : s.line.queue.countP (removable K) ≤ fuel)
    (spared : ∀ o p, WalkOffers s o p → Spares K o p) :
    ∀ f ∈ (State.removeLoop (fun f => K f.owner f.payload) fuel s).line.queue, K f.owner f.payload = true → f.underTx = true := by
  induction fuel generalizing s with
  | zero =>
    intro f hf kind
    have none := List.countP_eq_zero.1 (Nat.le_zero.1 enough) f hf
    simpa [removable, kind] using none
  | succ fuel ih =>
    unfold State.removeLoop
    split
    · next none => exact dropFirst_none none
    · next q dropped =>
      obtain ⟨moves, waits⟩ := walk_moves (rm := fun _ => false) (s.setQueue q)
      refine ih ?_ fun o p offers => spared o p ?_
      · obtain ⟨a, f, b, old, rfl, kind, waiting⟩ := dropFirst_some dropped
        have walked := moves.removable_le (K := K) (fun o p ⟨k, hk, fits⟩ => spared o p ⟨k, hk, fits⟩)
        have gone : removable K f = true := by simp [removable, kind, waiting]
        rw [old, List.countP_append, List.countP_cons_of_pos gone] at enough
        rw [State.setQueue_line, List.countP_append] at walked
        exact walked.trans (by omega)
      · obtain ⟨k, hk, fits⟩ := offers
        rw [(walk_onlyOffers _).claims] at fits
        exact ⟨k, waits k hk, fits⟩

/-- Where no owner waits, a removal is nothing but the removal. -/
theorem removeLoop_unwaited {ok : QFrame → Bool} (fuel : Nat) {s : State} (unwaited : s.line.waiting = [])
    (enough : s.line.queue.countP (fun f => ok f && !f.underTx) ≤ fuel) :
    State.removeLoop ok fuel s = s.setQueue (s.line.queue.filter fun f => !(ok f && !f.underTx)) := by
  induction fuel generalizing s with
  | zero =>
    have none := List.countP_eq_zero.1 (Nat.le_zero.1 enough)
    rw [List.filter_eq_self.2 fun f hf => by rw [Bool.not_eq_true']; exact Bool.eq_false_iff.2 (none f hf)]
    rfl
  | succ fuel ih =>
    unfold State.removeLoop
    split
    · next none =>
      rw [List.filter_eq_self.2 fun f hf => by
        by_cases kind : ok f = true
        · simp [dropFirst_none none f hf kind]
        · simp [kind]]
      rfl
    · next q dropped =>
      obtain ⟨a, f, b, old, rfl, kind, waiting⟩ := dropFirst_some dropped
      rw [walk_empty (s := s.setQueue (a ++ b)) unwaited, ih (s := s.setQueue (a ++ b)) unwaited]
      · simp [State.setQueue, old, kind, waiting]
      · rw [old, List.countP_append, List.countP_cons_of_pos (by simp [kind, waiting])] at enough
        rw [State.setQueue_line, List.countP_append]
        omega

/-- What a removal asks for is gone, or under transmission. -/
theorem askRemoval_none_left {K : Owner → Payload → Bool} {s : State} (fits : s.line.queue.length ≤ queueSize)
    (spared : ∀ o p, WalkOffers s o p → Spares K o p) :
    ∀ f ∈ (s.askRemoval fun f => K f.owner f.payload).line.queue, K f.owner f.payload = true → f.underTx = true :=
  removeLoop_none_left (s := s.setQueue (holdRemoval (fun f => K f.owner f.payload) s.line.queue)) queueSize
    (List.countP_le_length.trans (by simpa [holdRemoval] using fits)) fun o p ⟨k, hk, h⟩ => spared o p ⟨k, hk, h⟩

theorem holdRemoval_unsent {ok : QFrame → Bool} {q : List QFrame} (unsent : ∀ f ∈ q, ok f = true → f.underTx = false) :
    holdRemoval ok q = q := by
  refine (List.map_congr_left fun f hf => ?_).trans (List.map_id _)
  by_cases kind : ok f = true
  · simp [unsent f hf kind]
  · simp [kind]

/-- With none waiting and none under transmission a removal takes its frames out and does nothing else. -/
theorem askRemoval_unwaited {ok : QFrame → Bool} {s : State} (unwaited : s.line.waiting = []) (fits : s.line.queue.length ≤ queueSize)
    (unsent : ∀ f ∈ s.line.queue, ok f = true → f.underTx = false) :
    s.askRemoval ok = s.setQueue (s.line.queue.filter fun f => !ok f) := by
  rw [State.askRemoval, holdRemoval_unsent unsent, removeLoop_unwaited (s := s.setQueue s.line.queue) queueSize unwaited
    (List.countP_le_length.trans fits)]
  refine congrArg s.setQueue (List.filter_congr fun f hf => ?_)
  by_cases kind : ok f = true
  · simp [unsent f hf kind]
  · simp [kind]

end Sys2Proof.Machine
end

section
/-! PROOFS. The partner's CLAIM, DEFER and RELEASE (chapter 3). -/

namespace Sys2Proof.Machine

/-! ### A side's frames of one kind -/

/-- The frames of a side of one kind, by owner and payload. -/
def sideKind (sd : Side) (n : Nat) (o : Owner) (p : Payload) : Bool := o == .side sd && p.sort == n

theorem isClaim_eq (f : QFrame) : isClaim f = (f.payload.sort == 3) := by
  unfold isClaim
  cases f.payload <;> rfl

theorem isDefer_eq (f : QFrame) : isDefer f = (f.payload.sort == 4) := by
  unfold isDefer
  cases f.payload <;> rfl

theorem sideClaims_eq (sd : Side) : (fun f => ofSide sd f && isClaim f) = fun f => sideKind sd 3 f.owner f.payload :=
  funext fun f => by rw [isClaim_eq]; rfl

theorem sideDefers_eq (sd : Side) : (fun f => ofSide sd f && isDefer f) = fun f => sideKind sd 4 f.owner f.payload :=
  funext fun f => by rw [isDefer_eq]; rfl

/-- A walk offers no frame of a side's kind whose owner does not wait. -/
theorem walk_spares_side {s : State} {sd : Side} {n : Nat} (kind : n = 3 ∧ (.claim sd) ∉ s.line.waiting ∨ n = 4 ∧ (.defer sd) ∉ s.line.waiting)
    {o : Owner} {p : Payload} (offers : WalkOffers s o p) : Spares (sideKind sd n) o p := by
  obtain ⟨k, hk, fits⟩ := offers
  have other : ¬ (o = .side sd ∧ p.sort = n) := by
    rintro ⟨rfl, rfl⟩
    cases k with
    | claim sd' =>
      obtain ⟨e, ⟨_, rfl⟩, -⟩ := fits
      cases e
      exact kind.elim (fun h => h.2 hk) fun h => by cases h.1
    | defer sd' =>
      obtain ⟨e, _, rfl⟩ := fits
      cases e
      exact kind.elim (fun h => by cases h.1) fun h => h.2 hk
    | release sd' =>
      obtain ⟨e, _, rfl⟩ := fits
      exact kind.elim (fun h => by cases h.1) fun h => by cases h.1
    | sight _ | join _ | decision _ | query _ | report => obtain ⟨e, -⟩ := fits; cases e
  refine ⟨fun p' same => ?_, fun mergeable => ?_⟩
  · rw [sideKind, same]
    simpa using other
  · cases k with
    | sight x | join x | decision x => exact ⟨x, fits.1⟩
    | claim _ => obtain ⟨-, ⟨_, rfl⟩, -⟩ := fits; simp [Payload.sort] at mergeable
    | defer _ | release _ => obtain ⟨-, _, rfl⟩ := fits; simp [Payload.sort] at mergeable
    | query _ => obtain ⟨-, _, _, _, rfl⟩ := fits; simp [Payload.sort] at mergeable
    | report => obtain ⟨-, rfl⟩ := fits; simp [Payload.sort] at mergeable

/-! ### Frames handed on to the side -/

section
variable {v : State} {sd : Side} {sender : Address} {lane : Byte} {stamp : Clock} (hears : v.HearsK16 sender stamp)
  (inner : v.facesEnd sd = false) (faced : lane.toNat = v.lane sd) (partner : sender.toNat = v.partner sd)
include hears inner faced partner

theorem claim_handed_on : v.takeFrame sender (.claimBody lane) (fun _ t => t.toPartner sender lane State.partnerClaim) ignored =
    (v.setPhase (.idle 0)).partnerClaim sd := by
  rw [takeFrame_k16 hears rfl rfl]
  exact toPartner_of (by simpa using inner) (by simpa using faced) (by simpa using partner) _

theorem defer_handed_on (hold : Byte) : v.takeFrame sender (.deferBody ⟨lane, hold⟩)
    (fun _ t => t.toPartner sender lane fun u sd => u.partnerDefer sd hold.toNat) ignored =
      (v.setPhase (.idle 0)).partnerDefer sd hold.toNat := by
  rw [takeFrame_k16 hears rfl rfl]
  exact toPartner_of (by simpa using inner) (by simpa using faced) (by simpa using partner) _

theorem release_handed_on : v.takeFrame sender (.releaseBody lane) (fun _ t => t.toPartner sender lane State.partnerRelease) ignored =
    (v.setPhase (.idle 0)).partnerRelease sd := by
  rw [takeFrame_k16 hears rfl rfl]
  exact toPartner_of (by simpa using inner) (by simpa using faced) (by simpa using partner) _

end

/-! ### A side that gives way -/

section
variable {s : State} {sd : Side}

/-- The state in which a side that gives way asks for the removal of its CLAIM (R36). -/
def State.yielding (s : State) (sd : Side) (cause : RestCause) (rest : Nat) : State :=
  (s.setClaim sd { s.claims.get sd with state := .resting cause, sent := false, wait := none, rest := some rest }).giveUp (.claim sd)

theorem yieldTo_eq (s : State) (sd : Side) (cause : RestCause) (rest : Nat) :
    s.yieldTo sd cause rest = (s.yielding sd cause rest).askRemoval fun f => sideKind sd 3 f.owner f.payload := by
  rw [← sideClaims_eq]; rfl

theorem askRemoval_waiting (s : State) (ok : QFrame → Bool) : ∀ k ∈ (s.askRemoval ok).line.waiting, k ∈ s.line.waiting :=
  (removeLoop_moves queueSize (s.setQueue (holdRemoval ok s.line.queue))).2

theorem claim_given_up (s : State) (sd : Side) (cause : RestCause) (rest : Nat) :
    (.claim sd) ∉ (s.yielding sd cause rest).line.waiting := by simp [State.yielding]

theorem yieldTo_claim_gone (cause : RestCause) (rest : Nat) (fits : s.line.queue.length ≤ queueSize) :
    ∀ f ∈ (s.yieldTo sd cause rest).line.queue, sideKind sd 3 f.owner f.payload = true → f.underTx = true := by
  rw [yieldTo_eq]
  exact askRemoval_none_left (by simpa [State.yielding] using fits) fun o p => walk_spares_side (.inl ⟨rfl, claim_given_up s sd cause rest⟩)

theorem yieldTo_side (cause : RestCause) (rest : Nat) : (s.yieldTo sd cause rest).claims.get sd =
      { s.claims.get sd with state := .resting cause, sent := false, wait := none, rest := some rest } ∧
    (s.yieldTo sd cause rest).sweeps = s.sweeps ∧ (s.yieldTo sd cause rest).coils = s.coils ∧
    (.claim sd) ∉ (s.yieldTo sd cause rest).line.waiting := by
  rw [yieldTo_eq]
  have only := askRemoval_onlyOffers (s.yielding sd cause rest) fun f => sideKind sd 3 f.owner f.payload
  refine ⟨?_, only.sweeps, only.coils, fun waits => claim_given_up s sd cause rest (askRemoval_waiting _ _ _ waits)⟩
  rw [only.claims]
  simp [State.yielding]

/-- The state in which a side that is deferred asks for the removal of its DEFER (R39). -/
def State.deferred (s : State) (sd : Side) (hold : Nat) : State :=
  ((s.setClaim sd { s.claims.get sd with deferredPartner := false }).giveUp (.defer sd)).yieldTo sd .deferred (deferredRest hold)

theorem partnerDefer_asking {hold : Nat} (asking : (s.claims.get sd).state = .asking) :
    s.partnerDefer sd hold = (s.deferred sd hold).askRemoval fun f => sideKind sd 4 f.owner f.payload := by
  rw [← sideDefers_eq]
  unfold State.partnerDefer
  dsimp only
  split
  · rfl
  all_goals next other => rw [asking] at other; cases other

theorem deferred_moves (s : State) (sd : Side) (hold : Nat) :
    QMoves (WalkOffers (((s.setClaim sd { s.claims.get sd with deferredPartner := false }).giveUp (.defer sd)).yielding sd .deferred
        (deferredRest hold))) (fun f => sideKind sd 3 f.owner f.payload)
      (holdRemoval (fun f => sideKind sd 3 f.owner f.payload) s.line.queue) (s.deferred sd hold).line.queue ∧
    ∀ k ∈ (s.deferred sd hold).line.waiting, k ∈ s.line.waiting ∧ k ≠ .claim sd ∧ k ≠ .defer sd := by
  rw [State.deferred, yieldTo_eq]
  obtain ⟨moves, waits⟩ := removeLoop_moves (ok := fun f => sideKind sd 3 f.owner f.payload) queueSize
    ((((s.setClaim sd { s.claims.get sd with deferredPartner := false }).giveUp (.defer sd)).yielding sd .deferred
        (deferredRest hold)).setQueue (holdRemoval (fun f => sideKind sd 3 f.owner f.payload) s.line.queue))
  refine ⟨moves.mono fun o p ⟨k, hk, h⟩ => ⟨k, hk, h⟩, fun k hk => ?_⟩
  have := waits k hk
  simp [State.yielding] at this
  tauto

/-- What a DEFER makes of a side in ASKING (R39). -/
theorem partnerDefer_spec {hold : Nat} (asking : (s.claims.get sd).state = .asking) (fits : s.line.queue.length ≤ queueSize) :
    ((s.partnerDefer sd hold).claims.get sd = { s.claims.get sd with
      state := .resting .deferred, sent := false, deferredPartner := false, wait := none, rest := some (deferredRest hold) }) ∧
    (s.partnerDefer sd hold).sweeps = s.sweeps ∧ (s.partnerDefer sd hold).coils = s.coils ∧
    (.claim sd) ∉ (s.partnerDefer sd hold).line.waiting ∧ (.defer sd) ∉ (s.partnerDefer sd hold).line.waiting ∧
    ∀ n, n = 3 ∨ n = 4 → ∀ f ∈ (s.partnerDefer sd hold).line.queue, sideKind sd n f.owner f.payload = true → f.underTx = true := by
  rw [partnerDefer_asking asking]
  have only := askRemoval_onlyOffers (s.deferred sd hold) fun f => sideKind sd 4 f.owner f.payload
  obtain ⟨claim, sweeps, coils, -⟩ := yieldTo_side (s := (s.setClaim sd { s.claims.get sd with deferredPartner := false }).giveUp (.defer sd))
    (sd := sd) .deferred (deferredRest hold)
  obtain ⟨moves, waits⟩ := deferred_moves s sd hold
  have fits' : (s.deferred sd hold).line.queue.length ≤ queueSize := moves.length_le (by simpa [holdRemoval] using fits)
  have gone : ∀ f ∈ (s.deferred sd hold).line.queue, sideKind sd 3 f.owner f.payload = true → f.underTx = true :=
    yieldTo_claim_gone .deferred (deferredRest hold) (s := (s.setClaim sd { s.claims.get sd with deferredPartner := false }).giveUp (.defer sd))
      fits
  refine ⟨?_, only.sweeps.trans sweeps, only.coils.trans coils, fun waiting => ?_, fun waiting => ?_, ?_⟩
  · rw [only.claims, State.deferred, claim]
    simp
  · exact (waits _ (askRemoval_waiting _ _ _ waiting)).2.1 rfl
  · exact (waits _ (askRemoval_waiting _ _ _ waiting)).2.2 rfl
  · rintro n (rfl | rfl)
    · obtain ⟨moves, -⟩ := removeLoop_moves (ok := fun f => sideKind sd 4 f.owner f.payload) queueSize
        ((s.deferred sd hold).setQueue (holdRemoval (fun f => sideKind sd 4 f.owner f.payload) (s.deferred sd hold).line.queue))
      have none : (holdRemoval (fun f => sideKind sd 4 f.owner f.payload) (s.deferred sd hold).line.queue).countP
          (removable (sideKind sd 3)) = 0 := by
        refine List.countP_eq_zero.2 fun f hf => ?_
        obtain ⟨g, hg, rfl⟩ := List.mem_map.1 hf
        have := gone g hg
        split <;> simpa [removable] using this
      have left := (moves.removable_le (K := sideKind sd 3) fun o p ⟨k, hk, h⟩ => walk_spares_side (s := s.deferred sd hold)
        (.inl ⟨rfl, fun waiting => (waits _ waiting).2.1 rfl⟩) ⟨k, hk, h⟩).trans_eq none
      intro f hf kind
      have := List.countP_eq_zero.1 (Nat.le_zero.1 left) f hf
      simpa [removable, kind] using this
    · exact askRemoval_none_left fits' fun o p => walk_spares_side (.inr ⟨rfl, fun waiting => (waits _ waiting).2.2 rfl⟩)

/-- With no owner waiting and none of its frames under transmission, a deferred side's CLAIM and DEFER leave the queue. -/
theorem partnerDefer_unwaited {hold : Nat} (asking : (s.claims.get sd).state = .asking) (fits : s.line.queue.length ≤ queueSize)
    (unwaited : s.line.waiting = []) (unsent : ∀ f ∈ s.line.queue, f.owner = .side sd → f.underTx = false) :
    (s.partnerDefer sd hold).line.queue = s.line.queue.filter fun f => f.owner ≠ .side sd || !(isClaim f || isDefer f) := by
  have own {n : Nat} {f : QFrame} (kind : sideKind sd n f.owner f.payload = true) : f.owner = .side sd := by
    simp only [sideKind, Bool.and_eq_true, beq_iff_eq] at kind
    exact kind.1
  have first : (s.deferred sd hold).line =
      { s.line with queue := s.line.queue.filter fun f => !sideKind sd 3 f.owner f.payload } := by
    have base := askRemoval_unwaited (s := ((s.setClaim sd { s.claims.get sd with deferredPartner := false }).giveUp (.defer sd)).yielding sd
      .deferred (deferredRest hold)) (ok := fun f => sideKind sd 3 f.owner f.payload) (by simp [State.yielding, unwaited]) fits
      fun f hf kind => unsent f hf (own kind)
    rw [State.deferred, yieldTo_eq, base]
    simp [State.yielding, unwaited]
  rw [partnerDefer_asking asking, askRemoval_unwaited (ok := fun f => sideKind sd 4 f.owner f.payload) (by rw [first]; exact unwaited)
    (by rw [first]; exact (List.length_filter_le _ _).trans fits) fun f hf kind => ?_]
  · rw [State.setQueue_line, first, List.filter_filter]
    refine List.filter_congr fun f _ => ?_
    rw [isClaim_eq, isDefer_eq, sideKind, sideKind]
    by_cases owner : f.owner = .side sd
    · simp [owner, Bool.and_comm]
    · simp [owner]
  · rw [first] at hf
    exact unsent f (List.mem_of_mem_filter hf) (own kind)

end

/-! ### The end of a rest (R44) -/

section
variable {v : State} {sd : Side} {c : Claim} (hc : v.claims.get sd = c)
include hc

/-- A rest that ends with no request pending leaves the side FREE. -/
theorem rest_ends_idle (idle : c.request = false) : ((v.giveUp (.release sd)).becomeFree sd).1 =
    (v.setWaiting (v.line.waiting.filter fun e => e ≠ .release sd)).setClaim sd { c with state := .free, rest := none } := by
  subst hc
  rw [State.becomeFree, State.giveUp_claims, if_neg (Bool.eq_false_iff.1 idle)]
  rfl

/-- A rest of an inner-lane side that ends with a request pending has the side ask, its CLAIM offered at once. -/
theorem rest_ends_asking (request : c.request = true) (inner : v.facesEnd sd = false) (room : v.NormalRoom) :
    ((v.giveUp (.release sd)).becomeFree sd).1 =
      ((v.setWaiting (v.line.waiting.filter fun e => e ≠ .release sd && e ≠ .claim sd)).setClaim sd
        { c with state := .asking, rest := none, sent := false }).setQueue
          (v.line.queue ++ [QFrame.fresh (.side sd) (.claim (v.lane sd))]) := by
  obtain ⟨u, hu⟩ : ∃ u, u = v.coils.get sd := ⟨_, rfl⟩
  obtain ⟨w, hw⟩ : ∃ w, w = v.sweeps.get sd := ⟨_, rfl⟩
  obtain ⟨x, rfl⟩ := exists_side hu hc.symm hw
  have inner' : (x.giveUp (.release sd)).facesEnd sd = false := by simpa using inner
  have room' : (x.giveUp (.release sd)).NormalRoom := room
  rw [side_giveUp, side_becomeFree_inner request inner' room', giveUp_withClaim]
  simp only [side_line, side_setClaim, side_setWaiting, side_setQueue, request]
  rfl

end

/-! ### The obligations -/

/-- Settles O15. -/
theorem partnersClaimByClaimState : Obligations.PartnersClaimByClaimState := by
  intro s v u a sd sender lane stamp c hv hu hc hears faced partner inner
  have exec_eq : exec (.heardClaim a sender lane) s = .next (u.partnerClaim sd) := by
    rw [exec_heardClaim, ← hv, claim_handed_on hears inner faced partner, ← hu]
  rw [exec_eq]
  have state : (u.claims.get sd).state = c.state := by rw [hu, hc]; rfl
  refine ⟨fun unmoved => ?_, fun asking unsent fits => ?_, fun held => ?_, fun yielded => ?_, fun deferred => ?_,
    fun gap idle => ?_, fun gap request room => ?_⟩
  · rcases unmoved with st | st <;> rw [State.partnerClaim, state, st]
  · have yields : u.partnerClaim sd = u.yieldTo sd .yielded yieldRest := by
      have unsent' : (u.claims.get sd).sent = false := by rw [hu]; rw [hc] at unsent; exact unsent
      rw [State.partnerClaim, state, asking]
      exact if_neg (Bool.eq_false_iff.1 unsent')
    obtain ⟨claim, sweeps, coils, waits⟩ := yieldTo_side (s := u) (sd := sd) .yielded yieldRest
    refine ⟨_, rfl, ?_⟩
    rw [yields]
    refine ⟨?_, sweeps.trans (by rw [hu]; rfl), coils.trans (by rw [hu]; rfl), waits, fun f hf owner kind => ?_⟩
    · rw [claim, ← unsent, hc, hu]; rfl
    · refine yieldTo_claim_gone .yielded yieldRest (s := u) (sd := sd) (by rw [hu]; exact fits) f hf ?_
      rw [isClaim_eq] at kind
      simp [sideKind, owner, beq_iff_eq.1 kind]
  · have defers : u.partnerClaim sd = u.deferPartner sd := by
      rcases held with ⟨st, sent⟩ | st | st
      · have sent' : (u.claims.get sd).sent = true := by rw [hu]; rw [hc] at sent; exact sent
        rw [State.partnerClaim, state, st]
        exact if_pos sent'
      all_goals rw [State.partnerClaim, state, st]
    obtain ⟨claim, sweeps, coils, out⟩ := deferPartner_spec u sd
    refine ⟨_, rfl, ?_⟩
    rw [defers]
    refine ⟨?_, sweeps.trans (by rw [hu]; rfl), coils.trans (by rw [hu]; rfl), ?_⟩
    · rw [claim, hc, hu]; rfl
    · rw [hu, lane_setPhase] at out
      rw [hu]; exact out
  · rw [State.partnerClaim, state, yielded, hu, hc]; rfl
  · rw [State.partnerClaim, state, deferred, hu, hc]; rfl
  all_goals
    have freed : u.partnerClaim sd = ((u.giveUp (.release sd)).becomeFree sd).1 := by rw [State.partnerClaim, state, gap]
    have claims : u.claims.get sd = c := by rw [hu, hc]; rfl
  · rw [freed, rest_ends_idle claims idle, hu]
    rfl
  · rw [freed, rest_ends_asking claims request (by rw [hu]; simpa using inner) (by rw [hu]; exact room), hu, lane_setPhase]
    rfl

/-- Settles O16. -/
theorem partnersDeferAndReleaseByClaimState : Obligations.PartnersDeferAndReleaseByClaimState := by
  intro s v u a sd sender lane hold stamp c hv hu hc hears faced partner inner
  have exec_defer : exec (.heardDefer a sender ⟨lane, hold⟩) s = .next (u.partnerDefer sd hold.toNat) := by
    rw [exec_heardDefer, ← hv, defer_handed_on hears inner faced partner, ← hu]
  have exec_release : exec (.heardRelease a sender lane) s = .next (u.partnerRelease sd) := by
    rw [exec_heardRelease, ← hv, release_handed_on hears inner faced partner, ← hu]
  rw [exec_defer, exec_release]
  have claims : u.claims.get sd = c := by rw [hu, hc]; rfl
  have freed {cause : RestCause} (resting : c.state = .resting cause) (other : cause ≠ .closing) :
      u.partnerRelease sd = ((u.giveUp (.release sd)).becomeFree sd).1 := by
    rw [State.partnerRelease, claims, resting]
    cases cause with
    | closing => exact absurd rfl other
    | _ => rfl
  refine ⟨fun asking fits => ?_, fun other => ?_, fun cause resting other idle => ?_, fun cause resting other request room => ?_,
    fun unmoved => ?_⟩
  · have asking' : (u.claims.get sd).state = .asking := by rw [claims]; exact asking
    have fits' : u.line.queue.length ≤ queueSize := by rw [hu]; exact fits
    obtain ⟨claim, sweeps, coils, noClaim, noDefer, gone⟩ := partnerDefer_spec (hold := hold.toNat) asking' fits'
    refine ⟨_, rfl, ?_, sweeps.trans (by rw [hu]; rfl), coils.trans (by rw [hu]; rfl), noClaim, noDefer, fun f hf owner kind => ?_,
      fun unwaited unsent => ?_⟩
    · rw [claim, claims]; rfl
    · rw [isClaim_eq, isDefer_eq, beq_iff_eq, beq_iff_eq] at kind
      exact gone _ kind f hf (by simp [sideKind, owner])
    · rw [partnerDefer_unwaited asking' fits' (by rw [hu]; exact unwaited) (by rw [hu]; exact unsent), hu]
      rfl
  · unfold State.partnerDefer
    dsimp only
    split
    · next asking => exact absurd (claims ▸ asking) other
    all_goals rfl
  · rw [freed resting other, rest_ends_idle claims idle, hu]
    rfl
  · rw [freed resting other, rest_ends_asking claims request (by rw [hu]; simpa using inner) (by rw [hu]; exact room), hu, lane_setPhase]
    rfl
  · rcases unmoved with st | st | st | st <;> rw [State.partnerRelease, claims, st]

end Sys2Proof.Machine
end

section
/-! PROOFS. A sweep begun at the end of a gap, a lane given up at rest, and the entry to RUNNING (chapters 1, 3 and 4). -/

namespace Sys2Proof.Machine

section
variable {s : State} {sd : Side} {u : CoilUnit} {c : Claim} {w : Sweep}

/-! ### A sweep begun (R52) -/

theorem beginSweep_skipped (faulted : ∀ k ∈ w.planned s.sys.cfg, (u.coils.get k).state = .faulted) : (s.side sd u c w).beginSweep sd =
    s.side sd u c { w with c0 := w.c0 + 1, priority := false, state := .waiting, gap := some (gapOf s.sys.cfg w.mode) } := by
  have all : ((s.side sd u c w).plannedList sd).all (fun k => ((s.side sd u c w).coil sd k).state == .faulted) = true := by
    rw [side_planned, List.all_eq_true]
    intro k hk
    simp [faulted k hk]
  simp only [State.beginSweep, if_pos all, side_sweeps, PerSide.get_set_self, side_setSweep, side_startGap]

/-- A sweep that is not skipped asks for the lane; a lane that is granted at once begins it. -/
theorem beginSweep_asks {k : CoilNumber} (planned : k ∈ w.planned s.sys.cfg) (sound : (u.coils.get k).state ≠ .faulted) {t : State} {granted : Bool}
    (request : (s.side sd u c { w with state := .claiming, gap := none }).requestLane sd = (t, granted)) : (s.side sd u c w).beginSweep sd =
      if granted then
        if ((t.beginList sd).reachHere sd).2 then (((t.beginList sd).reachHere sd).1.enterReleasing sd).endHold sd
        else ((t.beginList sd).reachHere sd).1
      else t := by
  have some : ¬ ((s.side sd u c w).plannedList sd).all (fun k => ((s.side sd u c w).coil sd k).state == .faulted) = true := by
    rw [side_planned, List.all_eq_true]
    intro all
    simpa [sound] using all k planned
  rw [State.beginSweep, if_neg some]
  simp only [side_sweeps, PerSide.get_set_self, side_setSweep, request]

theorem requestLane_free (free : c.state = .free) : (s.side sd u c w).requestLane sd = (s.side sd u c w).takeRequest sd := by
  simp [State.requestLane, free]

theorem requestLane_resting {cause : RestCause} (resting : c.state = .resting cause) :
    (s.side sd u c w).requestLane sd = (s.side sd u { c with request := true } w, false) := by
  simp [State.requestLane, resting]

theorem gapEnds_side (timer : w.gap = some 0) (waiting : w.state = .waiting) :
    (s.side sd u c w).gapEnds sd = (s.side sd u c { w with gap := none }).beginSweep sd := by
  simp [State.gapEnds, timer, isDue, waiting]

end

/-- Settles O18. -/
theorem gapEndBeginsASweep : Obligations.GapEndBeginsASweep := by
  intro s v a sd u c w list hv hu hc hw hlist timer waiting
  rw [exec_gapEnd, ← hv]
  obtain ⟨x, rfl⟩ := exists_side hu hc hw
  clear hv hu hc hw
  have planned : ({ w with gap := none } : Sweep).planned x.sys.cfg = list := hlist.symm
  rw [gapEnds_side timer waiting]
  simp only [side_facesEnd, side_sys, side_setCoils, side_setSweep, side_setClaim, side_setQueue, side_setWaiting, side_line]
  refine ⟨fun faulted => ?_, fun k mem sound inner free room => ?_, fun k mem cause sound resting => ?_,
    fun k ks first faces free idle dark noWait => ?_⟩
  · rw [beginSweep_skipped (by rwa [planned])]
    rw [← waiting]
  · have request := requestLane_free (s := x) (sd := sd) (u := u) (w := { w with state := .claiming, gap := none }) free
    rw [side_takeRequest_inner inner room] at request
    rw [beginSweep_asks (w := { w with gap := none }) (by rwa [planned]) sound request]
    rfl
  · have request := requestLane_resting (s := x) (sd := sd) (u := u) (w := { w with state := .claiming, gap := none }) resting
    rw [beginSweep_asks (w := { w with gap := none }) (by rwa [planned]) sound request]
    rfl
  · have request := requestLane_free (s := x) (sd := sd) (u := u) (w := { w with state := .claiming, gap := none }) free
    rw [side_takeRequest_end faces] at request
    have list' : ({ w with state := .claiming, gap := none } : Sweep).planned x.sys.cfg = k :: ks := planned.trans first
    have begins := side_begins (c := { c with state := .holding, hold := some claimHoldTime, request := false }) list'
      (fun _ => side_rampCheck (.inl faces)) idle dark (.inr rfl) noWait
    rw [beginSweep_asks (w := { w with gap := none }) (by rw [planned, first]; exact List.mem_cons_self ..) (by rw [idle]; nofun) request,
      if_pos rfl, begins, if_neg Bool.false_ne_true, first]
    rfl

/-! ### The lane given up at rest (R43, R45) -/

section
variable {s : State} {sd : Side} {u : CoilUnit} {c : Claim} {w : Sweep}

/-- A station with a side's RELEASE offered to a queue that has room for it, an owed DEFER given up. -/
def State.withRelease (s : State) (sd : Side) : State :=
  ((s.giveUp (.defer sd)).setQueue (s.line.queue ++ [QFrame.fresh (.side sd) (.release (s.lane sd))])).giveUp (.release sd)

theorem side_offerRelease (room : s.line.queue.length < queueSize) (new : ∀ f ∈ s.line.queue, f.payload ≠ .release (s.lane sd)) :
    (((s.giveUp (.defer sd)).side sd u c w).offerRelease sd).1 = (s.withRelease sd).side sd u c w := by
  rw [offerRelease_room (s := (s.giveUp (.defer sd)).side sd u c w) room new]
  rfl

/-- The Scheduler's record that leaves RELEASING at rest (R59). -/
def Sweep.rested (w : Sweep) (cfg : Config) : Sweep := { w with state := .waiting, gap := some (gapOf cfg w.mode) }

/-- At rest a Scheduler in RELEASING with no priority mark starts its gap. -/
theorem restTold_gap {t : State} (gives : (s.side sd u c w).giveUpLane sd = (t.side sd u' c' w, false)) (releasing : w.state = .releasing)
    (ordinary : w.priority = false) : (s.side sd u c w).restTold sd = t.side sd u' c' (w.rested t.sys.cfg) := by
  simp [State.restTold, gives, releasing, ordinary, Sweep.rested]

theorem restTold_claiming {t : State} (gives : (s.side sd u c w).giveUpLane sd = (t.side sd u' c' w, false)) (claiming : w.state = .claiming) :
    (s.side sd u c w).restTold sd = t.side sd u' c' w := by
  simp [State.restTold, gives, claiming]

theorem restTold_priority {t : State} (gives : (s.side sd u c w).giveUpLane sd = (t.side sd u' c' w, false)) (releasing : w.state = .releasing)
    (priority : w.priority = true) :
    (s.side sd u c w).restTold sd = (t.side sd u' c' { w with state := .waiting }).beginSweep sd := by
  simp [State.restTold, gives, releasing, priority]

/-- A lane granted at rest has a Scheduler in CLAIMING begin its sweep. -/
theorem restTold_granted {t : State} (gives : (s.side sd u c w).giveUpLane sd = (t.side sd u' c' w, true)) (claiming : w.state = .claiming)
    {r : State} {u₁ : CoilUnit} {c₁ : Claim} {w₁ : Sweep} {ends : Bool}
    (begins : ((t.side sd u' c' w).beginList sd).reachHere sd = (r.side sd u₁ c₁ w₁, ends)) (sweeping : w₁.state = .sweeping) :
    (s.side sd u c w).restTold sd = r.side sd u₁ c₁ w₁ := by
  simp only [State.restTold, gives, side_sweeps, PerSide.get_set_self, claiming, and_self, if_true, begins, sweeping, reduceCtorEq, if_false]

/-- An inner-lane side gives up its lane with its RELEASE (R43). -/
theorem giveUpLane_inner (closing : c.state = .resting .closing) (inner : s.facesEnd sd = false) (room : s.line.queue.length < queueSize)
    (new : ∀ f ∈ s.line.queue, f.payload ≠ .release (s.lane sd)) : (s.side sd u c w).giveUpLane sd =
      if afterRelease c = .free then
        ((s.withRelease sd).side sd u { c with
          state := afterRelease c, clash := false, deferredPartner := false, hold := none, rest := none } w).becomeFree sd
      else ((s.withRelease sd).side sd u { c with
          state := afterRelease c, clash := false, deferredPartner := false, hold := none, rest := none } w, false) := by
  simp [State.giveUpLane, closing, inner, side_offerRelease room new]

/-- The claim record of an inner-lane side that has given up its lane and takes no request (R43). -/
def Claim.given (c : Claim) : Claim :=
  { c with state := afterRelease c, clash := false, deferredPartner := false, hold := none, rest := none }

theorem giveUpLane_inner_rests (closing : c.state = .resting .closing) (inner : s.facesEnd sd = false)
    (room : s.line.queue.length < queueSize) (new : ∀ f ∈ s.line.queue, f.payload ≠ .release (s.lane sd))
    (idle : c.request = false ∨ c.clash = true ∨ c.deferredPartner = true) :
    (s.side sd u c w).giveUpLane sd = ((s.withRelease sd).side sd u c.given w, false) := by
  rw [giveUpLane_inner closing inner room new]
  split
  · next free =>
    have unmarked : c.clash = false ∧ c.deferredPartner = false := by
      cases clash : c.clash <;> cases deferred : c.deferredPartner <;> simp [afterRelease, clash, deferred] at free ⊢
    rw [side_becomeFree_idle (by simpa [unmarked] using idle), free, Claim.given, free]
  · rfl

theorem giveUpLane_inner_free (closing : c.state = .resting .closing) (inner : s.facesEnd sd = false)
    (room : s.line.queue.length < queueSize) (new : ∀ f ∈ s.line.queue, f.payload ≠ .release (s.lane sd)) (noClash : c.clash = false)
    (noDefer : c.deferredPartner = false) :
    (s.side sd u c w).giveUpLane sd = ((s.withRelease sd).side sd u c.given w).becomeFree sd := by
  have free : afterRelease c = .free := by simp [afterRelease, noClash, noDefer]
  rw [giveUpLane_inner closing inner room new, if_pos free]
  rfl

theorem giveUpLane_end_clash (closing : c.state = .resting .closing) (faces : s.facesEnd sd = true) (clash : c.clash = true) :
    (s.side sd u c w).giveUpLane sd =
      (s.side sd u { c with state := .resting .backOff, clash := false, hold := none, rest := some s.clashBackOff } w, false) := by
  simp [State.giveUpLane, closing, faces, clash, State.clashBackOff]

theorem giveUpLane_end (closing : c.state = .resting .closing) (faces : s.facesEnd sd = true) (noClash : c.clash = false) :
    (s.side sd u c w).giveUpLane sd = (s.side sd u { c with clash := false, hold := none } w).becomeFree sd := by
  simp [State.giveUpLane, closing, faces, noClash]

/-- A Scheduler that waits for nothing at a position is not told of a drain or a cut wait. -/
theorem resume_none {cause : SweepWait} (other : cause ≠ .none) (unawaited : w.state = .sweeping → w.wait = .none) :
    (s.side sd u c w).resume sd cause = s.side sd u c w := by
  unfold State.resume
  dsimp only
  refine if_neg fun ⟨sweeping, awaited⟩ => other ?_
  rw [side_sweeps, PerSide.get_set_self] at sweeping awaited
  exact awaited.symm.trans (unawaited sweeping)

end

/-- The expiry `ev` of a drain, or of a cut wait, brings a side to rest: its coils `u` become `u'` (R26). -/
def ComesToRest (a : Nat) (sd : Side) (u u' : CoilUnit) (ev : Instr) : Prop :=
  (∃ k, ev = .drainEnd a sd k ∧ (u.coils.get k).drain = some 0 ∧ (u.coils.get k).state = .draining ∧
    (∀ j, j ≠ k → (u.coils.get j).state.hasField = false) ∧ u.cutWait = none ∧
    u' = { u with coils := u.coils.set k { u.coils.get k with state := .idle, drain := none } }) ∨
  (ev = .cutWaitEnd a sd ∧ u.cutWait = some 0 ∧ (∀ j, (u.coils.get j).state.hasField = false) ∧ u' = { u with cutWait := none })

section
variable {a : Nat} {sd : Side} {u u' : CoilUnit} {ev : Instr} (ends : ComesToRest a sd u u' ev)
include ends

theorem ComesToRest.atRest : u'.atRest = true := by
  rcases ends with ⟨k, -, -, -, others, noWait, rfl⟩ | ⟨-, -, dark, rfl⟩
  · refine atRest_iff.2 ⟨fun j => ?_, noWait⟩
    by_cases same : j = k
    · rw [same]; simp [CoilState.hasField]
    · rw [Quad.get_set_of_ne _ _ same]; exact others j same
  · exact atRest_iff.2 ⟨dark, rfl⟩

theorem ComesToRest.dark (j : CoilNumber) : (u'.coils.get j).state.energised = false := by
  have field := (atRest_iff.1 ends.atRest).1 j
  cases at_j : (u'.coils.get j).state <;> simp [at_j, CoilState.hasField] at field ⊢ <;> rfl

/-- The claim unit and the Scheduler are told of the rest. -/
theorem ComesToRest.told {x t : State} {s : State} {u₁ : CoilUnit} {c c₁ : Claim} {w w₁ : Sweep} (now : x.side sd u c w = s.advance a)
    (told : (x.side sd u' c w).restTold sd = t.side sd u₁ c₁ w₁) (unawaited : w₁.state = .sweeping → w₁.wait = .none) :
    exec ev s = .next (t.side sd u₁ c₁ w₁) := by
  have told' := (tellRest_rest ends.atRest).trans told
  rcases ends with ⟨k, rfl, timer, draining, -, -, rfl⟩ | ⟨rfl, timer, -, rfl⟩
  · rw [exec_drainEnd, ← now, drainEnds_side timer draining, CoilUnit.cleared, told', resume_none (cause := .drain) nofun unawaited, ite_self]
  · rw [exec_cutWaitEnd, ← now, cutWaitEnds_side timer, told', resume_none (cause := .cutWait) nofun unawaited]

end

/-- A RELEASE offered as an owed DEFER is given up. -/
theorem withRelease_eq (s : State) (sd : Side) : s.withRelease sd =
    (s.setQueue (s.line.queue ++ [QFrame.fresh (.side sd) (.release (s.lane sd))])).setWaiting
      (s.line.waiting.filter fun e => e ≠ .defer sd && e ≠ .release sd) := by
  rw [← filter_ne_ne]; rfl

theorem normalCount_release (q : List QFrame) (o : Owner) (lane : Nat) : normalCount (q ++ [QFrame.fresh o (.release lane)]) = normalCount q := by
  simp [normalCount, QFrame.fresh, QFrame.urgent, Payload.urgent]

/-- A RELEASE and then a CLAIM offered as an owed DEFER is given up. -/
theorem withRelease_withClaim (s : State) (sd : Side) : (s.withRelease sd).withClaim sd =
    (s.setQueue (s.line.queue ++ [QFrame.fresh (.side sd) (.release (s.lane sd)), QFrame.fresh (.side sd) (.claim (s.lane sd))])).setWaiting
      (s.line.waiting.filter fun e => e ≠ .defer sd && e ≠ .release sd && e ≠ .claim sd) := by
  have waits : (s.line.waiting.filter fun e => e ≠ .defer sd && e ≠ .release sd).filter (· ≠ .claim sd) =
      s.line.waiting.filter fun e => e ≠ .defer sd && e ≠ .release sd && e ≠ .claim sd := by
    rw [List.filter_filter]
    exact List.filter_congr fun e _ => Bool.and_comm ..
  have frames : s.line.queue ++ [QFrame.fresh (.side sd) (.release (s.lane sd))] ++ [QFrame.fresh (.side sd) (.claim (s.lane sd))] =
      s.line.queue ++ [QFrame.fresh (.side sd) (.release (s.lane sd)), QFrame.fresh (.side sd) (.claim (s.lane sd))] := by
    rw [List.append_assoc]; rfl
  rw [← waits, ← frames, withRelease_eq]
  rfl

/-- Settles O12. -/
theorem restInClosingGivesUpTheLane : Obligations.RestInClosingGivesUpTheLane := by
  intro s v a sd u u' c w ev hv hu hc hw ends closing
  replace ends : ComesToRest a sd u u' ev := ends
  obtain ⟨x, rfl⟩ := exists_side hu hc hw
  clear hu hc hw
  rw [side_facesEnd]
  refine ⟨fun inner new => ⟨fun idle releasing ordinary room => ?_, fun w' noClash noDefer room normal goes => ?_⟩,
    fun faces releasing ordinary stays => ?_, fun k ks faces noClash request claiming list idle => ?_⟩
  · have gives := giveUpLane_inner_rests (u := u') (w := w) closing inner room new idle
    rw [ends.told hv (restTold_gap gives releasing ordinary) nofun, withRelease_eq]
    simp only [side_setCoils, side_setClaim, side_setSweep]
    rfl
  · have room' : x.line.queue.length < queueSize := room.trans (by decide)
    have gives := giveUpLane_inner_free (u := u') (w := w) closing inner room' new noClash noDefer
    have inner' : (x.withRelease sd).facesEnd sd = false := by rw [withRelease_eq]; simpa using inner
    have room'' : (x.withRelease sd).NormalRoom := by
      rw [withRelease_eq]
      refine ⟨?_, ?_⟩
      · rw [State.setWaiting_line, State.setQueue_line, List.length_append]
        exact Nat.succ_lt_succ room
      · rw [State.setWaiting_line, State.setQueue_line, normalCount_release]
        exact normal
    rcases goes with ⟨request, claiming, rfl⟩ | ⟨idle, releasing, priority, ⟨k, sound⟩, rfl⟩
    · rw [side_becomeFree_inner (c := c.given) request inner' room'', withRelease_withClaim] at gives
      rw [ends.told hv (restTold_claiming gives claiming) (by rw [claiming]; nofun)]
      simp only [side_setCoils, side_setClaim, side_setSweep]
      rfl
    · rw [side_becomeFree_idle (c := c.given) idle] at gives
      have begins := restTold_priority gives releasing priority
      have request := requestLane_free (s := x.withRelease sd) (sd := sd) (u := u') (c := { c.given with state := .free, rest := none })
        (w := { w with state := .claiming, gap := none }) rfl
      rw [side_takeRequest_inner inner' room'', withRelease_withClaim] at request
      have planned : k ∈ ({ w with state := .waiting } : Sweep).planned (x.withRelease sd).sys.cfg := by
        rw [Sweep.planned, if_pos priority]; exact mem_allCoils k
      rw [beginSweep_asks (w := { w with state := .waiting }) planned sound request] at begins
      rw [ends.told hv begins nofun]
      simp only [side_setCoils, side_setClaim, side_setSweep]
      rfl
  · cases clash : c.clash with
    | true =>
      have backOff : x.clashBackOff = (x.sys.station.toNat + 1) * 5000 := by simp [State.clashBackOff, ms, State.number, Nat.mul_assoc]
      have gives := giveUpLane_end_clash (u := u') (w := w) closing faces clash
      rw [ends.told hv (restTold_gap gives releasing ordinary) nofun, backOff]
      simp only [side_setCoils, side_setClaim, side_setSweep]
      rfl
    | false =>
      have idle : c.request = false := by simpa [clash] using stays
      have gives := giveUpLane_end (u := u') (w := w) closing faces clash
      rw [side_becomeFree_idle (c := { c with clash := false, hold := none }) idle] at gives
      rw [ends.told hv (restTold_gap gives releasing ordinary) nofun]
      simp only [side_setCoils, side_setClaim, side_setSweep]
      rfl
  · have gives := giveUpLane_end (u := u') (w := w) closing faces noClash
    rw [side_becomeFree_end (c := { c with clash := false, hold := none }) request faces] at gives
    have begins := side_begins (s := x) (c := { c with
        clash := false, state := .holding, hold := some claimHoldTime, request := false, rest := none }) list
      (fun _ => side_rampCheck (.inl faces)) idle ends.dark (.inr rfl) (atRest_iff.1 ends.atRest).2
    rw [ends.told hv (restTold_granted gives claiming begins rfl) fun _ => rfl]
    simp only [side_setCoils, side_setClaim, side_setSweep]
    rfl

end Sys2Proof.Machine
end

section
/-! PROOFS. The entry to RUNNING (R12, R31, R66, R143). -/

namespace Sys2Proof.Machine

/-- The coils of a side that start with the initial Q (R31). -/
def CoilUnit.entered (q : Nat) : CoilUnit := CoilUnit.reset.withQ q

theorem entered_get (q : Nat) (k : CoilNumber) : (CoilUnit.entered q).coils.get k = { Coil.reset with q := q } := by
  rcases coilNumber_cases k with rfl | rfl | rfl | rfl <;> rfl

theorem orderedList_head {o : SweepOrder} {len : Nat} (pos : 0 < len) : ∃ ks, orderedList o len 0 = 0 :: ks := by
  have first : (orderedList o len 0)[0]? = some (orderedCoil o len 0 0) := orderedList_getElem? o 0 pos
  have coil : orderedCoil o len 0 0 = 0 := by cases o <;> simp [orderedCoil]
  cases list : orderedList o len 0 with
  | nil => rw [list] at first; cases first
  | cons k ks => rw [list, List.getElem?_cons_zero, coil] at first; exact ⟨ks, by rw [Option.some.inj first]⟩

/-- What the entry to RUNNING makes of the claim, the sweep and the coils of a fitted side, and of the transmit queue. -/
structure Begun (c : Config) (sd : Side) (lane : Nat) (faces : Bool) (u : CoilUnit) (cl : Claim) (w : Sweep) (q : List QFrame) : Prop where
  doze  : w.doze = some (c.dozeDelay * 1000000)
  mode  : w.mode = .active
  beams : ∀ bm, w.beams.get bm = ⟨false, some 5000⟩
  holds : faces = true → cl.state = .holding ∧ cl.hold = some 60000 ∧ w.state = .sweeping ∧ (u.coils.get 0).state = .ramping ∧
    u.ramp = some (c.rampTime * 1000)
  asks  : faces = false → cl.state = .asking ∧ cl.sent = false ∧ w.state = .claiming ∧
    ∃ f ∈ q, f.payload = .claim lane ∧ f.owner = .side sd

theorem Begun.more {c : Config} {sd : Side} {lane : Nat} {faces : Bool} {u : CoilUnit} {cl : Claim} {w : Sweep} {q q' : List QFrame}
    (h : Begun c sd lane faces u cl w q) (more : ∀ f ∈ q, f ∈ q') : Begun c sd lane faces u cl w q' :=
  { h with
    asks := fun inner => by
      obtain ⟨state, sent, claiming, f, hf, own⟩ := h.asks inner
      exact ⟨state, sent, claiming, f, more f hf, own⟩ }

/-- A fitted side begins claiming at once; the queue takes at most its CLAIM. -/
theorem startSide_fitted {t : State} {sd : Side} {q : Nat} (fit : fitted t.sys.cfg sd = true) (length : 0 < t.sys.cfg.sweepLength)
    (room : t.NormalRoom) : ∃ l u cl w, (t.side sd (.entered q) Claim.reset Sweep.reset).startSide sd = State.side { t with line := l } sd u cl w ∧
      (∀ k, (u.coils.get k).q = q) ∧ Begun t.sys.cfg sd (t.lane sd) (t.facesEnd sd) u cl w l.queue ∧ (∀ f ∈ t.line.queue, f ∈ l.queue) ∧
      l.queue.length ≤ t.line.queue.length + 1 ∧ normalCount l.queue ≤ normalCount t.line.queue + 1 := by
  obtain ⟨ks, list⟩ := orderedList_head (o := t.sys.cfg.order) length
  have starts : (t.side sd (.entered q) Claim.reset Sweep.reset).startSide sd =
      (t.side sd (.entered q) Claim.reset (Sweep.started t.sys.cfg Sweep.reset)).beginSweep sd := by
    simp [State.startSide, fit]
  have idle : ((CoilUnit.entered q).coils.get 0).state = .idle := by rw [entered_get]; rfl
  have dark (j : CoilNumber) : ((CoilUnit.entered q).coils.get j).state.energised = false := by rw [entered_get]; rfl
  have planned : (0 : CoilNumber) ∈ (Sweep.started t.sys.cfg Sweep.reset).planned t.sys.cfg := by
    show 0 ∈ orderedList t.sys.cfg.order t.sys.cfg.sweepLength 0
    rw [list]; exact List.mem_cons_self ..
  have request := requestLane_free (s := t) (sd := sd) (u := .entered q) (c := Claim.reset)
    (w := { Sweep.started t.sys.cfg Sweep.reset with state := .claiming, gap := none }) rfl
  have beams : ∀ bm, (Sweep.started t.sys.cfg Sweep.reset).beams.get bm = ⟨false, some 5000⟩ := by rintro (_ | _) <;> rfl
  have doze : (Sweep.started t.sys.cfg Sweep.reset).doze = some (t.sys.cfg.dozeDelay * 1000000) := by
    simp [Sweep.started, ms, Nat.mul_assoc]
  cases faces : t.facesEnd sd with
  | true =>
    rw [side_takeRequest_end faces] at request
    have begins := side_begins (s := t) (sd := sd) (u := .entered q)
      (c := { Claim.reset with state := .holding, hold := some claimHoldTime, request := false })
      (w := { Sweep.started t.sys.cfg Sweep.reset with state := .claiming, gap := none }) list
      (fun _ => side_rampCheck (.inl faces)) idle dark (.inr rfl) rfl
    refine ⟨t.line, (CoilUnit.entered q).ramped 0 (ms t.sys.cfg.rampTime),
      { Claim.reset with state := .holding, hold := some claimHoldTime, request := false },
      Sweep.begun { Sweep.started t.sys.cfg Sweep.reset with state := .claiming, gap := none } (0 :: ks), ?_, fun k => ?_, ⟨doze, rfl, beams, fun _ => ⟨rfl, rfl, rfl, ?_, rfl⟩, nofun⟩,
      fun _ => id, Nat.le_succ _, Nat.le_succ _⟩
    · rw [starts, beginSweep_asks planned (by rw [idle]; nofun) request, if_pos rfl, begins]
      rfl
    · by_cases first : k = 0
      · rw [first, CoilUnit.ramped, Quad.get_set_self, entered_get]
      · rw [CoilUnit.ramped, Quad.get_set_of_ne _ _ first, entered_get]
    · rw [CoilUnit.ramped, Quad.get_set_self]
  | false =>
    rw [side_takeRequest_inner faces room] at request
    refine ⟨(t.withClaim sd).line, .entered q, { Claim.reset with state := .asking, sent := false, request := true },
      { Sweep.started t.sys.cfg Sweep.reset with state := .claiming, gap := none }, ?_, fun k => by rw [entered_get],
      ⟨doze, rfl, beams, nofun, fun _ => ⟨rfl, rfl, rfl, QFrame.fresh (.side sd) (.claim (t.lane sd)), ?_, rfl, rfl⟩⟩, fun f hf => ?_, ?_, ?_⟩
    · rw [starts, beginSweep_asks planned (by rw [idle]; nofun) request, if_neg Bool.false_ne_true]
      rfl
    · simp [State.withClaim]
    · simp [State.withClaim, hf]
    · simp [State.withClaim]
    · simp only [State.withClaim, State.giveUp_line, State.setQueue_line, normalCount, List.filter_append, List.length_append]
      exact Nat.add_le_add_left (List.length_filter_le _ _) _

/-- A side of the station with its Full Reset values at the entry to RUNNING, fitted or not. -/
theorem startSide_spec {t : State} {sd : Side} {q : Nat} (length : 0 < t.sys.cfg.sweepLength) (room : t.NormalRoom) : ∃ l u cl w,
    (t.side sd (.entered q) Claim.reset Sweep.reset).startSide sd = State.side { t with line := l } sd u cl w ∧
      (∀ k, (u.coils.get k).q = q) ∧
      (fitted t.sys.cfg sd = true → Begun t.sys.cfg sd (t.lane sd) (t.facesEnd sd) u cl w l.queue) ∧
      (fitted t.sys.cfg sd = false → cl = Claim.reset ∧ w = Sweep.reset) ∧ (∀ f ∈ t.line.queue, f ∈ l.queue) ∧
      l.queue.length ≤ t.line.queue.length + 1 ∧ normalCount l.queue ≤ normalCount t.line.queue + 1 := by
  cases fit : fitted t.sys.cfg sd with
  | true =>
    obtain ⟨l, u, cl, w, starts, qs, begun, rest⟩ := startSide_fitted (q := q) fit length room
    exact ⟨l, u, cl, w, starts, qs, fun _ => begun, nofun, rest⟩
  | false =>
    refine ⟨t.line, .entered q, Claim.reset, Sweep.reset, ?_, fun k => by rw [entered_get], nofun, fun _ => ⟨rfl, rfl⟩, fun _ => id,
      Nat.le_succ _, Nat.le_succ _⟩
    simp [State.startSide, fit]

/-- Settles O7. -/
theorem entryToRunningStartsEveryBlock : Obligations.EntryToRunningStartsEveryBlock := by
  intro s v a n image c hv reading size sum hc checks coils claims sweeps line
  have length : 0 < c.sweepLength := by
    have : c.sweepLength ∈ [1, 2, 4] := by rw [hc]; exact listed_mem (by decide) (by decide)
    simp only [List.mem_cons, List.not_mem_nil, or_false] at this
    omega
  have taken : exec (.readAttemptComplete a image) s = .next (((v.entered c).startSide .L).startSide .R) := by
    rw [exec_readAttemptComplete, ← hv, readCompletes_of_reading reading size, takeImage_of_right_sum sum, ← hc, if_pos checks,
      enterRunning_eq]
  have sides : v.entered c = (v.entered c).side .L (.entered c.initialQ) Claim.reset Sweep.reset := by
    simp [State.side, State.setCoils, State.setClaim, State.setSweep, State.entered, coils, claims, sweeps, State.reset, PerSide.set,
      CoilUnit.entered]
  obtain ⟨lL, uL, clL, wL, startsL, qL, begunL, unfitL, moreL, lenL, normL⟩ := startSide_spec (t := v.entered c) (sd := .L)
    (q := c.initialQ) length (by
      rw [State.NormalRoom, show (v.entered c).line = v.line from rfl, line]
      exact ⟨by decide, by decide⟩)
  have noneQueued : (v.entered c).line.queue = [] := by rw [show (v.entered c).line = v.line from rfl, line]; rfl
  rw [noneQueued] at lenL normL
  generalize hL : State.side { v.entered c with line := lL } .L uL clL wL = tL at startsL
  have other : tL = tL.side .R (.entered c.initialQ) Claim.reset Sweep.reset := by
    subst hL
    simp [State.side, State.setCoils, State.setClaim, State.setSweep, State.entered, coils, claims, sweeps, State.reset, PerSide.set,
      CoilUnit.entered]
  obtain ⟨lR, uR, clR, wR, startsR, qR, begunR, unfitR, moreR, -, -⟩ := startSide_spec (t := tL) (sd := .R)
    (q := c.initialQ) (by rw [← hL]; exact length) (by
      rw [State.NormalRoom, ← hL]
      exact ⟨lenL.trans_lt (by decide), normL.trans_lt (by decide)⟩)
  rw [← other] at startsR
  rw [← sides] at startsL
  rw [startsL, startsR] at taken
  subst hL
  refine ⟨_, taken, rfl, rfl, rfl, ?_, rfl, ?_, ?_, rfl, rfl, rfl, rfl, rfl⟩
  · rintro (_ | _) k
    · exact qL k
    · exact qR k
  · rintro (_ | _) fit
    · obtain ⟨doze, mode, beams, holds, asks⟩ := (begunL fit).more moreR
      exact ⟨doze, mode, beams, holds, asks⟩
    · obtain ⟨doze, mode, beams, holds, asks⟩ := begunR fit
      exact ⟨doze, mode, beams, holds, asks⟩
  · rintro (_ | _) fit
    · rw [claims, sweeps]; exact unfitL fit
    · rw [claims, sweeps]; exact unfitR fit

end Sys2Proof.Machine
end

section
/-! PROOFS. Sweeps and rounds: the doze timer, beams and the hall level, priority triggers, and slots (chapter 4). -/

namespace Sys2Proof.Machine

/-- Settles O19: each input and each stability timer by the branch that it takes. -/
theorem dozeBeamsAndHallLevelAreDebounced : Obligations.DozeBeamsAndHallLevelAreDebounced := by
  intro s v a sd bm w hv hw
  rw [exec_dozeTimerEnd, exec_beamDebounceEnd, ← hv]
  refine ⟨fun timer => ?_, fun lvl moved run fit => ?_, fun lvl moved unfit => ?_, fun timer unbroken => ?_, fun value moved run => ?_,
    fun value moved stopped => ?_, fun timer => ?_⟩
  · simp [State.dozes, ← hw, timer, isDue]
  · have acts : v.acts sd = true := by simp [State.acts, run, fit]
    rw [exec_beamInputChange, ← hv]
    simp [State.beamChanges, moved, acts, ← hw, beamStableTime, ms]
  · have acts : v.acts sd = false := by simp [State.acts, unfit]
    rw [exec_beamInputChange, ← hv]
    simp [State.beamChanges, moved, acts]
  · have taken : ((v.pins.beamsBroken.get sd).get bm && !(w.beams.get bm).broken) = false := by
      rcases unbroken with whole | broken
      · rw [whole]; rfl
      · rw [broken, Bool.not_true, Bool.and_false]
    simp [State.beamSettles, ← hw, timer, isDue, taken]
  · rw [exec_hallLevelInputChange, ← hv]
    simp [State.hallChanges, moved, run, hallStableTime, ms]
  · rw [exec_hallLevelInputChange, ← hv]
    simp [State.hallChanges, moved, stopped]
  · rw [exec_hallLevelDebounceEnd, ← hv]
    simp [State.hallSettles, timer, isDue]

/-! ### Slots and rounds -/

section
variable {s : State} {sd : Side} {k : CoilNumber} {u : CoilUnit} {c : Claim} {w : Sweep} {r : Round}

/-- The round's tally with one more slot, of `E` empty and `C` collided ones. -/
def Round.tallied (r : Round) (E C : Nat) : Round := { r with ended := r.ended + 1, empties := E, collided := C }

theorem tally_of_outcome {o : SlotOutcome} {E C : Nat}
    (counts : o = .empty ∧ E = r.empties + 1 ∧ C = r.collided ∨ o = .collided ∧ E = r.empties ∧ C = r.collided + 1) :
    r.tally o = r.tallied E C ∧ ∀ t : State, t.slotReply sd k o = t := by
  rcases counts with ⟨rfl, rfl, rfl⟩ | ⟨rfl, rfl, rfl⟩ <;> exact ⟨rfl, fun _ => rfl⟩

theorem slotEnds_side {o : SlotOutcome} (inRound : w.round = some r) (here : w.list[w.position]? = some k) (atEnd : r.slot = 0) :
    (s.side sd u c w).slotEnds sd o = ((s.side sd u c w).slotReply sd k o).afterSlot sd k (r.tally o) := by
  simp [State.slotEnds, inRound, Sweep.coilHere, here, atEnd]

theorem side_holdCheck_iff {q : Nat} (drain : 1 ≤ s.sys.cfg.drainTime) : (s.side sd u c w).holdCheck sd q = true ↔
    s.facesEnd sd = true ∨ ∃ left, c.hold = some left ∧ (60000 - left) + q * 500 + s.sys.cfg.drainTime * 1000 ≤ 60000 := by
  refine ⟨fun check => ?_, side_holdCheck⟩
  rw [State.holdCheck, side_holdSoFar, side_facesEnd, side_sys, Bool.or_eq_true] at check
  refine check.imp_right fun fits => ?_
  replace fits : 60000 - c.hold.getD 0 + q * 500 + s.sys.cfg.drainTime * 1000 ≤ 60000 := of_decide_eq_true fits
  cases hold : c.hold with
  | none =>
    rw [hold, Option.getD_none] at fits
    omega
  | some left => exact ⟨left, rfl, by rwa [hold] at fits⟩

theorem side_liveCheck {q : Nat} : (s.side sd u c w).liveCheck sd q = true ↔ u.live.getD 0 + q * 500 ≤ 40000 := by
  simp [State.liveCheck, maxLiveTime, slotTime, ms]

theorem side_liveSpent : (s.side sd u c w).liveSpent sd = true ↔ 40000 ≤ u.live.getD 0 := by
  simp [State.liveSpent, maxLiveTime, ms]

/-- The conditions of a repeat round (R57, R58). -/
def State.RepeatsRound (s : State) (sd : Side) (u : CoilUnit) (c : Claim) (w : Sweep) (q C : Nat) : Prop :=
  q < 2 * C ∧ q < 16 ∧ w.repeats < s.sys.cfg.repeatLimit ∧ u.live.getD 0 < 40000 ∧ u.live.getD 0 + 2 * q * 500 ≤ 40000 ∧
    (s.facesEnd sd = true ∨ ∃ left, c.hold = some left ∧ (60000 - left) + 2 * q * 500 + s.sys.cfg.drainTime * 1000 ≤ 60000)

/-- The coils of a side with the stored Q that a round's tally gives, its coil drained (R57). -/
def CoilUnit.adapted (u : CoilUnit) (k : CoilNumber) (q drainTime : Nat) : CoilUnit :=
  ({ u with coils := u.coils.set k { u.coils.get k with q := q } } : CoilUnit).drained drainTime k

theorem weighRound_repeats (drain : 1 ≤ s.sys.cfg.drainTime) (again : s.RepeatsRound sd u c w r.q r.collided)
    (goesOn : w.exhausted = false) (uncut : r.cut = false) :
    (s.side sd u c w).weighRound sd k r (r.cut || (s.side sd u c w).liveSpent sd || w.exhausted) =
      s.side sd u c { w with repeats := w.repeats + 1, round := some (Round.fresh (2 * r.q)) } := by
  obtain ⟨collided, small, allowed, inTime, live, hold⟩ := again
  have unspent : (s.side sd u c w).liveSpent sd = false := Bool.eq_false_iff.2 fun spent => by
    have := side_liveSpent.1 spent; omega
  have wants : wantsRepeat r w.repeats s.sys.cfg.repeatLimit = true := by simp [wantsRepeat, collided, small, allowed]
  have more : (r.cut || (s.side sd u c w).liveSpent sd || w.exhausted) = false := by rw [unspent, goesOn, uncut]; rfl
  rw [more]
  simp [State.weighRound, wants, State.startRound, side_liveCheck.2 live, (side_holdCheck_iff drain).2 hold]

/-- A round that is not repeated leaves the coil with its stored Q set and drained, whatever the Scheduler goes on to. -/
theorem weighRound_ends (drain : 1 ≤ s.sys.cfg.drainTime) (last : Bool) (spared : last = false → ¬ s.RepeatsRound sd u c w r.q r.collided)
    (spent : last = false → u.live.getD 0 < 40000)
    (busy : (u.adapted k (adaptedQ r) (ms s.sys.cfg.drainTime)).atRest = false)
    (dark : ∀ j, ((u.adapted k (adaptedQ r) (ms s.sys.cfg.drainTime)).coils.get j).state.energised = false) :
    Moved sd (s.side sd (u.adapted k (adaptedQ r) (ms s.sys.cfg.drainTime)) c { w with round := none })
      ((s.side sd u c w).weighRound sd k r last) := by
  have drained : (((s.side sd u c { w with round := none }).storeQ sd k (adaptedQ r)).drain sd k) =
      s.side sd (u.adapted k (adaptedQ r) (ms s.sys.cfg.drainTime)) c { w with round := none } := by
    rw [side_storeQ, side_drain, ite_self]; rfl
  have moves := moveOn_moved (s := s.side sd (u.adapted k (adaptedQ r) (ms s.sys.cfg.drainTime)) c { w with round := none }) (sd := sd)
    (by simpa using busy) (by simpa using dark)
  have ends := endSweep_moved (s := s.side sd (u.adapted k (adaptedQ r) (ms s.sys.cfg.drainTime)) c { w with round := none }) (sd := sd) true
    (by simpa using busy) (by simpa using dark)
  unfold State.weighRound
  simp only [side_sweeps, PerSide.get_set_self, side_setSweep, side_sys]
  split
  · next wants =>
    obtain ⟨first, wants⟩ := Bool.and_eq_true_iff.1 wants
    have first' : last = false := by simpa using first
    unfold State.startRound
    split
    · next guard =>
      obtain ⟨live, hold⟩ := Bool.and_eq_true_iff.1 guard
      simp only [wantsRepeat, Bool.and_eq_true, decide_eq_true_eq] at wants
      exact absurd ⟨wants.1.1, wants.1.2, wants.2, spent first', side_liveCheck.1 live, (side_holdCheck_iff drain).1 hold⟩ (spared first')
    · dsimp only
      rw [drained]
      split
      · exact moves
      · exact ends
  · rw [drained]; exact moves

end

/-- Settles O21. -/
theorem slotEndTalliesAndEndsTheRound : Obligations.SlotEndTalliesAndEndsTheRound := by
  intro s v a sd k u w r o E C again hv hu hw inRound here atEnd going sweeping goesOn drain counts hagain
  obtain ⟨c, hc⟩ : ∃ c, c = v.claims.get sd := ⟨_, rfl⟩
  obtain ⟨x, rfl⟩ := exists_side hu hc hw
  replace drain : 1 ≤ x.sys.cfg.drainTime := drain
  obtain ⟨tally, silent⟩ := tally_of_outcome (sd := sd) (k := k) counts
  rw [exec_slotEnd, ← hv, slotEnds_side inRound here atEnd, silent, tally]
  replace hagain : again ↔ x.RepeatsRound sd u c w (r.tallied E C).q (r.tallied E C).collided := by
    simpa [State.RepeatsRound, Round.tallied] using hagain
  have after : (x.side sd u c w).afterSlot sd k (r.tallied E C) =
      if r.q ≤ r.ended + 1 then (x.side sd u c w).weighRound sd k (r.tallied E C)
        ((r.tallied E C).cut || (x.side sd u c w).liveSpent sd || w.exhausted)
      else if r.cut then (x.side sd u c { w with round := none }).moveOn sd
      else x.side sd u c { w with round := some { r.tallied E C with slot := slotTime } } := by
    simp [State.afterSlot, Round.tallied, going]
  rw [after, side_setSweep, side_setSweep]
  refine ⟨fun within uncut => ?_, fun last uncut repeats => ?_, fun last ends => ?_⟩
  · rw [if_neg (Nat.not_le_of_lt within), if_neg (Bool.eq_false_iff.1 uncut)]
    rfl
  · rw [if_pos last, weighRound_repeats drain (hagain.1 repeats) goesOn uncut]
    rfl
  · rw [if_pos last]
    have adapted : (u.adapted k (adaptedQ (r.tallied E C)) (ms x.sys.cfg.drainTime)).coils.get k = { u.coils.get k with
        state := .draining, drain := if r.cut then (u.coils.get k).drain else some (x.sys.cfg.drainTime * 1000)
        q := adaptedQ (r.tallied E C) } ∧
        ∀ j, ((u.adapted k (adaptedQ (r.tallied E C)) (ms x.sys.cfg.drainTime)).coils.get j).state.energised = false := by
      rcases ends with ⟨uncut, -, live, unique⟩ | ⟨cut, draining, dark⟩
      · simp only [CoilUnit.adapted, CoilUnit.drained, Quad.get_set_self, live, Quad.set_set, uncut]
        exact ⟨rfl, dark_set unique rfl⟩
      · simp only [CoilUnit.adapted, CoilUnit.drained, Quad.get_set_self, draining, cut]
        exact ⟨rfl, dark_set (fun j lit => by simp [dark j] at lit) (by simp [CoilState.energised])⟩
    have busy : (u.adapted k (adaptedQ (r.tallied E C)) (ms x.sys.cfg.drainTime)).atRest = false :=
      atRest_of_field (j := k) (by rw [adapted.1]; rfl)
    have moved := weighRound_ends (s := x) (sd := sd) (k := k) (c := c) (w := w) (r := r.tallied E C) drain
      ((r.tallied E C).cut || (x.side sd u c w).liveSpent sd || w.exhausted) (fun more => ?_) (fun more => ?_) busy adapted.2
    · refine ⟨_, rfl, ?_, moved.side_round rfl⟩
      rw [moved.side_coil (k := k) (by rw [adapted.1]; nofun), adapted.1]
      rfl
    · obtain ⟨⟨uncut', -⟩, -⟩ : (r.cut = false ∧ _) ∧ _ := by simpa [Round.tallied] using more
      rcases ends with ⟨-, once, -⟩ | ⟨cut, -⟩
      · exact fun repeats => once (hagain.2 repeats)
      · rw [cut] at uncut'; cases uncut'
    · have unspent : (x.side sd u c w).liveSpent sd = false := by
        simp only [Bool.or_eq_false_iff] at more
        exact more.1.2
      exact Nat.lt_of_not_le fun spent => by rw [side_liveSpent.2 spent] at unspent; cases unspent

end Sys2Proof.Machine
end

section
/-! PROOFS. Priority triggers (R63 to R65). -/

namespace Sys2Proof.Machine

/-! ### A CLAIM that is out stays out -/

/-- The side's CLAIM is queued or waits. -/
def ClaimOut (sd : Side) (lane : Nat) (s : State) : Prop :=
  (∃ f ∈ s.line.queue, f.payload = .claim lane ∧ f.owner = .side sd) ∨ (.claim sd) ∈ s.line.waiting

theorem Edited.mem_other {q q' : List QFrame} {f g h : QFrame} (e : Edited q q' f g) (old : h ∈ q) (other : h ≠ f) : h ∈ q' := by
  obtain ⟨⟨a, b, rfl, rfl⟩, -⟩ := e
  simp only [List.mem_append, List.mem_cons] at old ⊢
  tauto

/-- A frame that is no SIGHT, JOIN or DECIDE is edited by no offer. -/
theorem judgeOffer_into_keeps {o : Owner} {p : Payload} {q q' : List QFrame} {left : List OwnSample} (j : judgeOffer o p q = .into q' left)
    {f : QFrame} (plain : 3 ≤ f.payload.sort) (old : f ∈ q) : f ∈ q' := by
  obtain ⟨rfl, -⟩ | ⟨g, n, m, -, other, -, -, e⟩ | ⟨g, n, m, -, other, -, -, -, -, e⟩ | ⟨g, n, m, -, other, -, -, e⟩ := judgeOffer_into j
  · exact old
  all_goals exact e.mem_other old fun same => by rw [same, other] at plain; simp [Payload.sort] at plain

theorem judgeOffer_placed_keeps {o : Owner} {p : Payload} {q q' : List QFrame} {d : Option (JoinMsg × Owner)} (j : judgeOffer o p q = .placed q' d)
    {f : QFrame} (plain : 3 ≤ f.payload.sort) (old : f ∈ q) : f ∈ q' := by
  obtain ⟨-, -, ⟨-, rfl, -⟩ | ⟨a, g, b, m, -, -, rfl, rfl, join, -⟩⟩ := judgeOffer_placed j
  · exact List.mem_append_left _ old
  · have other : f ≠ g := fun same => by rw [same, join] at plain; simp [Payload.sort] at plain
    simp only [List.mem_append, List.mem_cons] at old ⊢
    tauto

theorem judgeOffer_placed_new {o : Owner} {p : Payload} {q q' : List QFrame} {d : Option (JoinMsg × Owner)} (j : judgeOffer o p q = .placed q' d) :
    QFrame.fresh o p ∈ q' := by
  obtain ⟨-, -, ⟨-, rfl, -⟩ | ⟨a, g, b, m, -, -, rfl, rfl, -⟩⟩ := judgeOffer_placed j <;> simp

theorem offer_keeps_frame {s : State} {key : WaitKey} {o : Owner} {p : Payload} {f : QFrame} (plain : 3 ≤ f.payload.sort)
    (old : f ∈ s.line.queue) : f ∈ (s.offer (some key) o p).1.line.queue := by
  unfold State.offer
  cases j : judgeOffer o p s.line.queue with
  | into q left => exact judgeOffer_into_keeps j plain old
  | placed q d =>
    dsimp only
    rw [loseJoin_line]
    exact judgeOffer_placed_keeps j plain old
  | refused =>
    dsimp only [State.enterWaiting]
    split <;> exact old

theorem offer_keeps_waiting {s : State} {key k : WaitKey} {o : Owner} {p : Payload} (other : k ≠ key) (old : k ∈ s.line.waiting) :
    k ∈ (s.offer (some key) o p).1.line.waiting := by
  have filtered : k ∈ s.line.waiting.filter (· ≠ key) := List.mem_filter.2 ⟨old, by simpa using other⟩
  unfold State.offer
  cases j : judgeOffer o p s.line.queue with
  | into q left => exact filtered
  | placed q d =>
    dsimp only
    rw [loseJoin_line]
    exact filtered
  | refused =>
    dsimp only [State.enterWaiting]
    split
    · exact old
    · exact List.mem_append_left _ old

/-- An offer that is no SIGHT, JOIN or DECIDE is queued, or waits. -/
theorem offer_puts {s : State} {key : WaitKey} {o : Owner} {p : Payload} (plain : 3 ≤ p.sort) :
    (∃ f ∈ (s.offer (some key) o p).1.line.queue, f.payload = p ∧ f.owner = o) ∨ key ∈ (s.offer (some key) o p).1.line.waiting := by
  unfold State.offer
  cases j : judgeOffer o p s.line.queue with
  | into q left =>
    obtain ⟨rfl, -, f, hf, payload, owner, -⟩ | ⟨_, _, _, rfl, -⟩ | ⟨_, _, _, rfl, -⟩ | ⟨_, _, _, rfl, -⟩ := judgeOffer_into j
    · exact .inl ⟨f, hf, payload, owner⟩
    all_goals simp [Payload.sort] at plain
  | placed q d =>
    dsimp only
    rw [loseJoin_line]
    exact .inl ⟨_, judgeOffer_placed_new j, rfl, rfl⟩
  | refused =>
    dsimp only [State.enterWaiting]
    split
    · next old => exact .inr (by simpa using old)
    · exact .inr (by simp)

section
variable {sd : Side} {lane : Nat} {s : State}

/-- An offer leaves a CLAIM out; a side's offer of its CLAIM puts it out. -/
theorem offer_claimOut {key : WaitKey} {o : Owner} {p : Payload} (own : key = .claim sd → o = .side sd ∧ p = .claim lane)
    (out : ClaimOut sd lane s ∨ key = .claim sd) : ClaimOut sd lane (s.offer (some key) o p).1 := by
  by_cases mine : key = .claim sd
  · obtain ⟨rfl, rfl⟩ := own mine
    exact (offer_puts (by simp [Payload.sort])).imp id fun waits => mine ▸ waits
  · rcases out with (⟨f, hf, is⟩ | waits) | asked
    · exact .inl ⟨f, offer_keeps_frame (by simp [is.1, Payload.sort]) hf, is⟩
    · exact .inr (offer_keeps_waiting (Ne.symm mine) waits)
    · exact absurd asked mine

theorem takeRequest_claimOut (faced : s.lane sd = lane) (sd' : Side) (out : ClaimOut sd lane s) : ClaimOut sd lane (s.takeRequest sd').1 := by
  unfold State.takeRequest
  dsimp only
  split
  · exact out
  · refine offer_claimOut (fun mine => ?_) (.inl out)
    cases mine
    exact ⟨rfl, congrArg _ faced⟩

theorem giveUp_claimOut {k : WaitKey} (other : k ≠ .claim sd) (out : ClaimOut sd lane s) : ClaimOut sd lane (s.giveUp k) := by
  refine out.imp_right fun waits => List.mem_filter.2 ⟨waits, ?_⟩
  simpa using fun e => other e.symm

theorem endHold_line (s : State) (sd : Side) : (s.endHold sd).line = s.line := by
  have drained (t : State) : (t.drainEnergised sd).line = t.line := by
    unfold State.drainEnergised
    split
    · unfold State.drain
      dsimp only
      split <;> rfl
    · rfl
  unfold State.endHold
  dsimp only
  split
  · split
    · rfl
    · rw [drained]; rfl
  · rfl

theorem becomeFree_claimOut (faced : s.lane sd = lane) (sd' : Side) (out : ClaimOut sd lane s) : ClaimOut sd lane (s.becomeFree sd').1 := by
  unfold State.becomeFree
  dsimp only
  split
  · exact takeRequest_claimOut (s := s.setClaim sd' _) faced sd' out
  · exact out

theorem giveUpLane_claimOut (faced : s.lane sd = lane) (sd' : Side) (out : ClaimOut sd lane s) : ClaimOut sd lane (s.giveUpLane sd').1 := by
  unfold State.giveUpLane
  dsimp only
  split
  · split
    · split
      · exact out
      · exact becomeFree_claimOut (s := s.setClaim sd' _) faced sd' out
    · have released : ClaimOut sd lane ((s.giveUp (.defer sd')).offerRelease sd').1 :=
        offer_claimOut (key := .release sd') nofun (.inl (giveUp_claimOut nofun out))
      have faced' : ((s.giveUp (.defer sd')).offerRelease sd').1.lane sd = lane := by
        have only : OnlyOffers _ ((s.giveUp (.defer sd')).offerRelease sd').1 := offer_onlyOffers _ _ _ _
        rw [State.lane, State.number, only.sys]
        exact faced
      split
      · exact becomeFree_claimOut (s := ((s.giveUp (.defer sd')).offerRelease sd').1.setClaim sd' _) faced' sd' released
      · exact released
  · exact out

/-- What a side's Scheduler and claim unit do leaves a CLAIM out. -/
theorem claimOut_kept (sd : Side) (lane : Nat) : SweepKept fun s => s.lane sd = lane ∧ ClaimOut sd lane s where
  sweep _ _ h := h
  coils _ _ _ h := h
  activate _ h := h
  claim _ _ _ _ _ h := h
  take sd' _ h := ⟨by rw [State.lane, State.number, (takeRequest_onlySide _ sd').sys]; exact h.1, takeRequest_claimOut h.1 sd' h.2⟩
  endHold sd' h := ⟨by rw [State.lane, State.number, (endHold_onlySide _ sd').sys]; exact h.1, by
    rw [ClaimOut, endHold_line]; exact h.2⟩
  giveUpLane sd' h := ⟨by rw [State.lane, State.number, (giveUpLane_onlySide _ sd').sys]; exact h.1, giveUpLane_claimOut h.1 sd' h.2⟩

end

/-! ### A trigger by the state of the sweep -/

/-- What a trigger leaves of a side whose Scheduler stands in `w`, its coils `u` and its claim `c` (R64, R65). -/
structure Triggered (s : State) (sd : Side) (u : CoilUnit) (c : Claim) (w : Sweep) (t : State) : Prop where
  skips   : w.state = .waiting → (∀ k, (u.coils.get k).state = .faulted) →
    t.sweeps.get sd = { w with c0 := w.c0 + 1, priority := false, gap := some (gapOf s.sys.cfg w.mode) } ∧ t.claims.get sd = c ∧ t.coils.get sd = u
  asks    : w.state = .waiting → ∀ k, (u.coils.get k).state ≠ .faulted → s.facesEnd sd = false → c.state = .free →
    t.sweeps.get sd = { w with state := .claiming, priority := true, gap := none } ∧ t.coils.get sd = u ∧
      t.claims.get sd = { c with state := .asking, sent := false, request := true } ∧ ClaimOut sd (s.lane sd) t
  waits   : w.state = .waiting → ∀ k cause, (u.coils.get k).state ≠ .faulted → c.state = .resting cause →
    t.sweeps.get sd = { w with state := .claiming, priority := true, gap := none } ∧ t.coils.get sd = u ∧
      t.claims.get sd = { c with request := true }
  holds   : w.state = .waiting → s.facesEnd sd = true → c.state = .free → (u.coils.get 0).state = .idle →
    (∀ j, (u.coils.get j).state.energised = false) → u.cutWait = none →
    t.claims.get sd = { c with state := .holding, hold := some 60000, request := false } ∧
      t.coils.get sd = u.ramped 0 (s.sys.cfg.rampTime * 1000) ∧
      t.sweeps.get sd = { w with
        state := .sweeping, list := [0, 1, 2, 3], full := true, priority := false, position := 0, repeats := 0, gap := none
        wait := .none, exhausted := false, round := none }
  marks   : w.state = .claiming ∨ w.state = .releasing ∨ (w.state = .sweeping ∧ w.full = false ∧ w.exhausted = true) →
    t.sweeps.get sd = { w with priority := true } ∧ t.claims.get sd = c ∧ t.coils.get sd = u
  full    : w.state = .sweeping → w.full = true → t.sweeps.get sd = w ∧ t.claims.get sd = c ∧ t.coils.get sd = u
  stops   : ∀ r, w.state = .sweeping → w.full = false → w.exhausted = false → w.round = some r →
    t.sweeps.get sd = { w with round := some { r with stopping := true } } ∧ t.claims.get sd = c ∧ t.coils.get sd = u
  restart : w.state = .sweeping → w.full = false → w.exhausted = false → w.round = none →
    t.coils.get sd = ((s.side sd u c w).restartNow sd).coils.get sd ∧ t.claims.get sd = ((s.side sd u c w).restartNow sd).claims.get sd ∧
      t.sweeps.get sd = ((s.side sd u c w).restartNow sd).sweeps.get sd

section
variable {s : State} {sd : Side} {u : CoilUnit} {c : Claim} {w : Sweep}

@[simp] theorem side_acts (u : CoilUnit) (c : Claim) (w : Sweep) : (s.side sd u c w).acts sd = s.acts sd := rfl

theorem priority_waiting (acts : s.acts sd = true) (waiting : w.state = .waiting) : (s.side sd u c w).priorityTrigger sd =
    (s.side sd u c { w with gap := none, priority := true }).beginSweep sd := by
  simp [State.priorityTrigger, acts, waiting]

theorem priority_marks (acts : s.acts sd = true)
    (marks : w.state = .claiming ∨ w.state = .releasing ∨ (w.state = .sweeping ∧ w.full = false ∧ w.exhausted = true)) :
    (s.side sd u c w).priorityTrigger sd = s.side sd u c { w with priority := true } := by
  rcases marks with st | st | ⟨st, ordinary, exhausted⟩
  · simp [State.priorityTrigger, acts, st]
  · simp [State.priorityTrigger, acts, st]
  · simp [State.priorityTrigger, acts, st, ordinary, exhausted]

theorem priority_full (acts : s.acts sd = true) (sweeping : w.state = .sweeping) (full : w.full = true) :
    (s.side sd u c w).priorityTrigger sd = s.side sd u c w := by
  simp [State.priorityTrigger, acts, sweeping, full]

theorem priority_ordinary (acts : s.acts sd = true) (sweeping : w.state = .sweeping) (ordinary : w.full = false)
    (goesOn : w.exhausted = false) : (s.side sd u c w).priorityTrigger sd = (s.side sd u c w).restart sd := by
  simp [State.priorityTrigger, acts, sweeping, ordinary, goesOn]

theorem takeRequest_asks (inner : s.facesEnd sd = false) : (s.side sd u c w).takeRequest sd =
    (((s.side sd u { c with state := .asking, sent := false, request := true } w).offerClaim sd).1, false) := by
  simp [State.takeRequest, inner]

/-- A trigger at a side that acts. -/
theorem priorityTrigger_triggered (acts : s.acts sd = true) : Triggered s sd u c w ((s.side sd u c w).priorityTrigger sd) where
  skips waiting faulted := by
    rw [priority_waiting acts waiting, beginSweep_skipped fun k _ => faulted k]
    simp [waiting]
  asks waiting k sound inner free := by
    have request := requestLane_free (s := s) (sd := sd) (u := u) (w := { w with gap := none, priority := true, state := .claiming }) free
    rw [takeRequest_asks inner] at request
    rw [priority_waiting acts waiting, beginSweep_asks (w := { w with gap := none, priority := true }) (mem_allCoils k) sound request,
      if_neg Bool.false_ne_true]
    generalize hx : s.side sd u { c with state := .asking, sent := false, request := true }
      { w with gap := none, priority := true, state := .claiming } = x
    have only : OnlyOffers x (x.offerClaim sd).1 := offer_onlyOffers _ _ _ _
    have lane : x.lane sd = s.lane sd := by rw [← hx, side_lane]
    refine ⟨?_, ?_, ?_, offer_claimOut (fun _ => ⟨rfl, by rw [lane]⟩) (.inr rfl)⟩
    · rw [only.sweeps, ← hx]; simp
    · rw [only.coils, ← hx]; simp
    · rw [only.claims, ← hx]; simp
  waits waiting k cause sound resting := by
    have request := requestLane_resting (s := s) (sd := sd) (u := u) (w := { w with gap := none, priority := true, state := .claiming }) resting
    rw [priority_waiting acts waiting, beginSweep_asks (w := { w with gap := none, priority := true }) (mem_allCoils k) sound request,
      if_neg Bool.false_ne_true]
    simp
  holds waiting faces free idle dark noWait := by
    have request := requestLane_free (s := s) (sd := sd) (u := u) (w := { w with gap := none, priority := true, state := .claiming }) free
    rw [side_takeRequest_end faces] at request
    have begins := side_begins (s := s) (c := { c with state := .holding, hold := some claimHoldTime, request := false })
      (w := { w with gap := none, priority := true, state := .claiming }) (k := 0) (ks := [1, 2, 3]) rfl (fun _ => side_rampCheck (.inl faces))
      idle dark (.inr rfl) noWait
    rw [priority_waiting acts waiting, beginSweep_asks (w := { w with gap := none, priority := true }) (mem_allCoils 0) (by rw [idle]; nofun)
      request, if_pos rfl, begins, if_neg Bool.false_ne_true]
    simp only [side_claims, side_coils, side_sweeps, PerSide.get_set_self]
    exact ⟨rfl, rfl, rfl⟩
  marks marks := by
    rw [priority_marks acts marks]
    simp
  full sweeping full := by
    rw [priority_full acts sweeping full]
    simp
  stops r sweeping ordinary goesOn inRound := by
    rw [priority_ordinary acts sweeping ordinary goesOn]
    simp [State.restart, inRound]
  restart sweeping ordinary goesOn noRound := by
    rw [priority_ordinary acts sweeping ordinary goesOn]
    simp [State.restart, noRound]

theorem Triggered.moved {t t' : State} (h : Triggered s sd u c w t) (coils : t'.coils.get sd = t.coils.get sd)
    (claims : t'.claims.get sd = t.claims.get sd) (sweeps : t'.sweeps.get sd = t.sweeps.get sd)
    (out : ClaimOut sd (s.lane sd) t → ClaimOut sd (s.lane sd) t') : Triggered s sd u c w t' where
  skips := by rw [coils, claims, sweeps]; exact h.skips
  asks waiting k sound inner free := by
    rw [coils, claims, sweeps]
    obtain ⟨sweep, unit, claim, queued⟩ := h.asks waiting k sound inner free
    exact ⟨sweep, unit, claim, out queued⟩
  waits := by rw [coils, claims, sweeps]; exact h.waits
  holds := by rw [coils, claims, sweeps]; exact h.holds
  marks := by rw [coils, claims, sweeps]; exact h.marks
  full := by rw [coils, claims, sweeps]; exact h.full
  stops := by rw [coils, claims, sweeps]; exact h.stops
  restart := by rw [coils, claims, sweeps]; exact h.restart

theorem lane_of_sys {t : State} (sys : t.sys = s.sys) (sd : Side) : t.lane sd = s.lane sd := by rw [State.lane, State.lane, State.number, State.number, sys]

/-- A trigger at one side, where the PROVISIONAL names its lane (R63). -/
def State.triggerNamed (s : State) (laneA : Nat) (laneB : Option Nat) (sd : Side) : State :=
  if s.lane sd = laneA ∨ some (s.lane sd) = laneB then s.priorityTrigger sd else s

theorem provisionalTriggers_eq (s : State) (laneA : Nat) (laneB : Option Nat) :
    s.provisionalTriggers laneA laneB = (s.triggerNamed laneA laneB .L).triggerNamed laneA laneB .R := rfl

theorem triggerNamed_onlySide (s : State) (laneA : Nat) (laneB : Option Nat) (sd : Side) : OnlySide sd s (s.triggerNamed laneA laneB sd) := by
  unfold State.triggerNamed
  split
  · exact priorityTrigger_onlySide s sd
  · exact .refl sd s

theorem triggerNamed_claimOut {t : State} (sd' : Side) {lane laneA : Nat} {laneB : Option Nat} (faced : t.lane sd = lane)
    (out : ClaimOut sd lane t) : ClaimOut sd lane (t.triggerNamed laneA laneB sd') := by
  unfold State.triggerNamed
  split
  · exact ((claimOut_kept sd lane).priorityTrigger sd' ⟨faced, out⟩).2
  · exact out

/-- A PROVISIONAL DECIDE triggers the side that it names (R63). -/
theorem provisionalTriggers_triggered (acts : s.acts sd = true) (hu : u = s.coils.get sd) (hc : c = s.claims.get sd) (hw : w = s.sweeps.get sd)
    {laneA : Nat} {laneB : Option Nat} (named : s.lane sd = laneA ∨ some (s.lane sd) = laneB) :
    ∃ y : State, y.sys = s.sys ∧ Triggered y sd u c w (s.provisionalTriggers laneA laneB) := by
  have taken {t : State} (sys : t.sys = s.sys) : t.triggerNamed laneA laneB sd = t.priorityTrigger sd := by
    rw [State.triggerNamed, if_pos (by rw [lane_of_sys sys]; exact named)]
  rw [provisionalTriggers_eq]
  cases sd with
  | L =>
    rw [taken rfl]
    obtain ⟨x, rfl⟩ := exists_side hu hc hw
    have first : Triggered x .L u c w ((x.side .L u c w).priorityTrigger .L) := priorityTrigger_triggered acts
    have sys : ((x.side .L u c w).priorityTrigger .L).sys = x.sys := (priorityTrigger_onlySide _ .L).sys
    have other := (triggerNamed_onlySide ((x.side .L u c w).priorityTrigger .L) laneA laneB .R).others .L nofun
    exact ⟨x, rfl, first.moved other.1 other.2.1 other.2.2 (triggerNamed_claimOut .R (lane_of_sys sys .L))⟩
  | R =>
    have before := triggerNamed_onlySide s laneA laneB .L
    rw [taken before.sys]
    obtain ⟨coils, claims, sweeps⟩ := before.others .R nofun
    have acts' : (s.triggerNamed laneA laneB .L).acts .R = true := by rw [State.acts, before.sys]; exact acts
    have sys := before.sys
    obtain ⟨x, e⟩ := exists_side (hu.trans coils.symm) (hc.trans claims.symm) (hw.trans sweeps.symm)
    rw [e] at acts' sys ⊢
    exact ⟨x, sys, priorityTrigger_triggered acts'⟩

end

/-! ### The events that are triggers -/

/-- The coils, the claims, the sweeps and the station's configuration as they stand in `s`. -/
def State.SidesOf (s t : State) : Prop := t.coils = s.coils ∧ t.claims = s.claims ∧ t.sweeps = s.sweeps ∧ t.sys = s.sys

/-- No change of the line, of records, notices, slots, lamps or reports touches a side. -/
theorem sidesOf_closed (s : State) : Closed s.SidesOf := by
  constructor
  case count => exact fun k n h => by rw [State.SidesOf, State.count]; split <;> exact h
  all_goals (intros; assumption)

theorem acts_of_sys {s t : State} (sys : t.sys = s.sys) (sd : Side) : t.acts sd = s.acts sd := by rw [State.acts, State.acts, sys]

section
variable {v : State} {sd : Side} {u : CoilUnit} {c : Claim} {w : Sweep}

/-- A PROVISIONAL taken in a state whose sides stand as in `v`. -/
theorem State.SidesOf.triggered {s : State} (same : v.SidesOf s) (acts : v.acts sd = true) (hu : u = v.coils.get sd) (hc : c = v.claims.get sd)
    (hw : w = v.sweeps.get sd) {laneA : Nat} {laneB : Option Nat} (named : v.lane sd = laneA ∨ some (v.lane sd) = laneB) :
    ∃ y : State, y.sys = v.sys ∧ Triggered y sd u c w (s.provisionalTriggers laneA laneB) := by
  obtain ⟨coils, claims, sweeps, sys⟩ := same
  obtain ⟨y, ySys, triggered⟩ := provisionalTriggers_triggered (s := s) (by rw [acts_of_sys sys]; exact acts)
    (hu.trans (by rw [coils])) (hc.trans (by rw [claims])) (hw.trans (by rw [sweeps])) (by rw [lane_of_sys sys]; exact named)
  exact ⟨y, ySys.trans sys, triggered⟩

theorem facesEnd_of_sys {s t : State} (sys : t.sys = s.sys) (sd : Side) : t.facesEnd sd = s.facesEnd sd := by
  cases sd <;> simp only [State.facesEnd, State.number, sys]

theorem sidesOf_refl (s : State) : s.SidesOf s := ⟨rfl, rfl, rfl, rfl⟩

theorem beamSettles_triggered {bm : Beam} (acts : v.acts sd = true) (hu : u = v.coils.get sd) (hc : c = v.claims.get sd)
    (hw : w = v.sweeps.get sd) (timer : (w.beams.get bm).timer = some 0) (input : (v.pins.beamsBroken.get sd).get bm = true)
    (whole : (w.beams.get bm).broken = false) : ∃ y : State, y.sys = v.sys ∧
    Triggered y sd u c { w with beams := w.beams.set bm ⟨true, none⟩, mode := .active, doze := some (v.sys.cfg.dozeDelay * 1000000) }
      (v.beamSettles sd bm) := by
  obtain ⟨x, rfl⟩ := exists_side hu hc hw
  have settles : (x.side sd u c w).beamSettles sd bm = (x.side sd u c
      { w with beams := w.beams.set bm ⟨true, none⟩, mode := .active, doze := some (x.sys.cfg.dozeDelay * 1000000) }).priorityTrigger sd := by
    replace input : (x.pins.beamsBroken.get sd).get bm = true := input
    have delay : ms (x.sys.cfg.dozeDelay * 1000) = x.sys.cfg.dozeDelay * 1000000 := by simp only [ms]; omega
    simp [State.beamSettles, timer, isDue, input, whole, State.activity, delay]
  rw [settles]
  exact ⟨x, rfl, priorityTrigger_triggered acts⟩

theorem takeDecide_triggered {sender : Address} {stamp : Clock} {b : DecideBody} (hears : v.HearsK16 sender stamp)
    (acts : v.acts sd = true) (hu : u = v.coils.get sd) (hc : c = v.claims.get sd) (hw : w = v.sweeps.get sd)
    (provisional : b.verdict = .provisional) (named : v.lane sd = b.laneA.toNat ∨ (b.laneB ≠ 255 ∧ v.lane sd = b.laneB.toNat)) :
    ∃ y : State, y.sys = v.sys ∧
      Triggered y sd u c w (v.takeFrame sender (.decideBody b) (fun _ t => t.takeDecide b) ignored) := by
  rw [takeFrame_k16 hears rfl rfl, State.takeDecide, if_pos provisional]
  refine State.SidesOf.triggered ?_ acts hu hc hw ?_
  · exact (sidesOf_closed v).alarmDecide _ _ _ _ _ ((sidesOf_closed v).passageDecide _ (sidesOf_refl v))
  · refine named.imp id fun ⟨known, lane⟩ => ?_
    rw [decisionOf, if_neg known, lane]

theorem complete_triggered {att : Attempt} {before behind : List QFrame} {f : QFrame} {m : DecideMsg} (sends : v.Sends att before f behind)
    (ends : att.left = 0) (acts : v.acts sd = true) (hu : u = v.coils.get sd) (hc : c = v.claims.get sd) (hw : w = v.sweeps.get sd)
    (payload : f.payload = .decision m) (provisional : m.decision.verdict = .provisional)
    (named : v.lane sd = m.decision.laneA ∨ some (v.lane sd) = m.decision.laneB) :
    ∃ y : State, y.sys = v.sys ∧ Triggered y sd u c w v.transmitCompletes := by
  have told (t : State) (same : v.SidesOf t) : v.SidesOf (t.frameSent f).1 := by
    rw [State.frameSent, payload]
    refine (sidesOf_closed v).countDecision _ _ ((sidesOf_closed v).alarmDecide _ _ _ _ _ ?_)
    cases f.owner with
    | record x => exact (sidesOf_closed v).decisionSent x m same
    | side _ | slot _ | noRecord | reportUnit => exact same
  rw [complete_eq sends ends, State.afterSent, payload]
  dsimp only
  rw [if_pos provisional]
  exact State.SidesOf.triggered ((sidesOf_closed v).walk (told { v with line := { v.line with phase := .idle 0, backoff := false, queue := before ++ behind } }
    (sidesOf_refl v))) acts hu hc hw named

/-- The end of a slot in which the round is to stop (R65). -/
theorem stopping_triggered {o : SlotOutcome} {r : Round} {k : CoilNumber} (hu : u = v.coils.get sd) (hc : c = v.claims.get sd)
    (hw : w = v.sweeps.get sd) (silent : o = .empty ∨ o = .collided) (inRound : w.round = some r) (atEnd : r.slot = 0)
    (stopping : r.stopping = true) (here : w.list[w.position]? = some k) (sweeping : w.state = .sweeping) (ordinary : w.full = false)
    (goesOn : w.exhausted = false) :
    ∃ y : State, y.sys = v.sys ∧ Triggered y sd u c { w with round := none } (v.slotEnds sd o) := by
  obtain ⟨x, rfl⟩ := exists_side hu hc hw
  have reply : (x.side sd u c w).slotReply sd k o = x.side sd u c w := by
    rcases silent with rfl | rfl <;> rfl
  have tally : (r.tally o).stopping = true := by
    rcases silent with rfl | rfl <;> exact stopping
  have ends : (x.side sd u c w).slotEnds sd o = (x.side sd u c { w with round := none }).restartNow sd := by
    rw [slotEnds_side inRound here atEnd, reply]
    simp [State.afterSlot, tally, goesOn]
  rw [ends]
  refine ⟨x, rfl, ?_⟩
  constructor
  case restart => exact fun _ _ _ _ => ⟨rfl, rfl, rfl⟩
  case marks =>
    rintro (st | st | ⟨-, -, st⟩)
    · cases sweeping.symm.trans st
    · cases sweeping.symm.trans st
    · cases goesOn.symm.trans st
  case full => exact fun _ st => by cases ordinary.symm.trans st
  case stops => exact fun _ _ _ _ no => by cases no
  all_goals exact fun st => by cases sweeping.symm.trans st

end

/-! ### A restart by what the side's coils are doing -/

/-- The Scheduler's record of an ordinary sweep that is restarted as a full one (R65). -/
def Sweep.restarted (w : Sweep) : Sweep := { w with list := [0, 1, 2, 3], full := true, position := 0, repeats := 0, wait := .none, round := none }

/-- The coils of a side as a restart leaves them before it reaches coil 0: dark as they were, or with the energised coil `k` drained. -/
def CoilUnit.Cleared (u : CoilUnit) (d : Nat) (u' : CoilUnit) : Prop :=
  (∀ j, (u.coils.get j).state.energised = false) ∧ u' = u ∨
    ∃ k, k ≠ 0 ∧ (∀ j, (u.coils.get j).state.energised = true → j = k) ∧
      ((u.coils.get k).state = .live ∧ u' = { u with
          coils := u.coils.set k { u.coils.get k with state := .draining, drain := some d }, live := none } ∨
        (u.coils.get k).state = .ramping ∧ u' = { u with
          coils := u.coils.set k { u.coils.get k with state := .draining, drain := some d }, ramp := none })

section
variable {s : State} {sd : Side} {u u' : CoilUnit} {c : Claim} {w : Sweep}

theorem CoilUnit.Cleared.first {d : Nat} (h : u.Cleared d u') : u'.coils.get 0 = u.coils.get 0 := by
  obtain ⟨-, rfl⟩ | ⟨k, other, -, ⟨-, rfl⟩ | ⟨-, rfl⟩⟩ := h
  · rfl
  all_goals exact Quad.get_set_of_ne _ _ other.symm

theorem CoilUnit.Cleared.cutWait {d : Nat} (h : u.Cleared d u') : u'.cutWait = u.cutWait := by
  obtain ⟨-, rfl⟩ | ⟨k, other, -, ⟨-, rfl⟩ | ⟨-, rfl⟩⟩ := h <;> rfl

theorem CoilUnit.Cleared.dark {d : Nat} (h : u.Cleared d u') (j : CoilNumber) : (u'.coils.get j).state.energised = false := by
  obtain ⟨dark, rfl⟩ | ⟨k, -, unique, ⟨-, rfl⟩ | ⟨-, rfl⟩⟩ := h
  · exact dark j
  all_goals exact dark_set unique rfl j

theorem restartNow_clears (h : u.Cleared (ms s.sys.cfg.drainTime) u') :
    (s.side sd u c w).restartNow sd = (s.side sd u' c w.restarted).reach sd := by
  obtain ⟨dark, rfl⟩ | ⟨k, other, unique, ⟨st, rfl⟩ | ⟨st, rfl⟩⟩ := h
  · simp [State.restartNow, energisedCoil_eq_none.2 dark, Sweep.restarted, allCoils]
  all_goals
    have lit : u.energisedCoil = some k := energisedCoil_of_unique (by rw [st]; rfl) unique
    have other' : ¬ k = 0#2 := other
    simp [State.restartNow, lit, other', side_drain, CoilUnit.drained, st, Sweep.restarted, allCoils]

theorem restartNow_ramping (ramping : (u.coils.get 0).state = .ramping) (unique : ∀ j, (u.coils.get j).state.energised = true → j = 0) :
    (s.side sd u c w).restartNow sd = s.side sd u c w.restarted := by
  have lit : u.energisedCoil = some 0 := energisedCoil_of_unique (by rw [ramping]; rfl) unique
  have ramping' : (u.coils.get 0#2).state = .ramping := ramping
  simp [State.restartNow, lit, ramping', Sweep.restarted, allCoils]

theorem restartNow_live (live : (u.coils.get 0).state = .live) (unique : ∀ j, (u.coils.get j).state.energised = true → j = 0)
    (inTime : u.live.getD 0 + (u.coils.get 0).q * 500 ≤ 40000)
    (fits : s.facesEnd sd = true ∨ ∃ left, c.hold = some left ∧
      (60000 - left) + (u.coils.get 0).q * 500 + s.sys.cfg.drainTime * 1000 ≤ 60000) :
    (s.side sd u c w).restartNow sd =
      s.side sd u c { w.restarted with repeats := 0, round := some (Round.fresh (u.coils.get 0).q) } := by
  have lit : u.energisedCoil = some 0 := energisedCoil_of_unique (by rw [live]; rfl) unique
  have again : (s.side sd u c w).restartNow sd =
      (s.side sd u c w.restarted).startRound sd 0 (u.coils.get 0).q 0 (u.coils.get 0).q := by
    have live' : (u.coils.get 0#2).state = .live := live
    simp [State.restartNow, lit, live', Sweep.restarted, allCoils]
  rw [again, State.startRound, side_liveCheck.2 inTime, side_holdCheck fits]
  simp

end

/-- Settles O20. -/
theorem priorityTriggersActBySweepState : Obligations.PriorityTriggersActBySweepState := by
  intro s v a sd ev w w0 u c hv hw hu hc running fit trigger
  have acts : v.acts sd = true := by simp [State.acts, running, fit]
  obtain ⟨t, run, ⟨y, sys, triggered⟩, same⟩ : ∃ t, exec ev s = .next t ∧ (∃ y : State, y.sys = v.sys ∧ Triggered y sd u c w0 t) ∧
      w0.state = w.state ∧ w0.full = w.full ∧ w0.exhausted = w.exhausted ∧ w0.c0 = w.c0 := by
    obtain ⟨bm, rfl, timer, input, whole, rfl⟩ | ⟨sender, stamp, b, rfl, hears, provisional, named, rfl⟩ |
      ⟨att, before, f, behind, m, rfl, sends, ends, payload, provisional, named, rfl⟩ |
      ⟨o, r, k, rfl, silent, inRound, atEnd, stopping, here, sweeping, ordinary, goesOn, rfl⟩ := trigger
    · rw [exec_beamDebounceEnd, ← hv]
      exact ⟨_, rfl, beamSettles_triggered acts hu hc hw timer input whole, rfl, rfl, rfl, rfl⟩
    · rw [exec_heardDecide, ← hv]
      exact ⟨_, rfl, takeDecide_triggered hears acts hu hc hw provisional named, rfl, rfl, rfl, rfl⟩
    · rw [exec_transmitComplete, ← hv]
      exact ⟨_, rfl, complete_triggered sends ends acts hu hc hw payload provisional named, rfl, rfl, rfl, rfl⟩
    · rw [exec_slotEnd, ← hv]
      exact ⟨_, rfl, stopping_triggered hu hc hw silent inRound atEnd stopping here sweeping ordinary goesOn, rfl, rfl, rfl, rfl⟩
  obtain ⟨state, full, exhausted, c0⟩ := same
  have faces : y.facesEnd sd = v.facesEnd sd := facesEnd_of_sys sys sd
  have lane := lane_of_sys sys sd
  rw [← state, ← full, ← exhausted, ← c0, ← faces, ← lane, ← sys]
  refine ⟨t, run, fun waiting => ⟨triggered.skips waiting, fun k sound inner free => ?_, triggered.waits waiting, triggered.holds waiting⟩,
    triggered.marks, triggered.full, triggered.stops, fun full sweeping ordinary goesOn noRound eFull => ?_⟩
  · exact triggered.asks waiting k sound inner free
  have eFull : full = w0.restarted := by rw [eFull, Sweep.restarted, noRound]
  obtain ⟨coils, claims, sweeps⟩ := triggered.restart sweeping ordinary goesOn noRound
  rw [coils, claims, sweeps, eFull]
  refine ⟨fun live unique inTime fits => ?_, fun ramping unique => ?_, fun u' cleared fits => ?_⟩
  · rw [restartNow_live live unique inTime fits]
    simp only [side_claims, side_coils, side_sweeps, PerSide.get_set_self, and_true]
    rfl
  · rw [restartNow_ramping ramping unique]
    simp
  · have clears : u.Cleared (ms y.sys.cfg.drainTime) u' := cleared
    have check : (y.side sd u' c w0.restarted).rampCheckFails sd 0 = false :=
      side_rampCheck (by rw [clears.first]; exact fits.imp_right fun h => h.2)
    rw [restartNow_clears clears]
    refine ⟨fun idle noWait => ?_, fun draining => ?_⟩
    · rw [reach_of_stays (side_reach_ramps (k := 0) rfl check (by rw [clears.first]; exact idle) clears.dark
        (fits.imp_right fun h => h.1) (by rw [clears.cutWait]; exact noWait))]
      simp only [side_claims, side_coils, side_sweeps, PerSide.get_set_self, true_and]
      exact ⟨rfl, rfl⟩
    · rw [reach_of_stays (side_reach_draining (k := 0) rfl check (by rw [clears.first]; exact draining))]
      simp

end Sys2Proof.Machine
end

section
/-! PROOFS. Lamps and sounder (chapter 10), and Hall Clear (R171). -/

namespace Sys2Proof.Machine

/-! ### Hall Clear (O52) -/

theorem fitted_hallClear (c : Config) (w : Sweep) : w.hallClear c true = { w with
    state := .waiting, priority := false, full := false, list := [], position := 0, repeats := 0
    gap := some (gapOf c w.mode), wait := .none, exhausted := false, round := none } := rfl

section
variable (s : State)

theorem hallClear_coils (sd : Side) : s.hallClear.coils.get sd = (s.coils.get sd).hallClear (ms s.sys.cfg.drainTime) := by cases sd <;> rfl

theorem hallClear_claims (sd : Side) : s.hallClear.claims.get sd = Claim.reset := by cases sd <;> rfl

theorem hallClear_sweeps (sd : Side) : s.hallClear.sweeps.get sd = (s.sweeps.get sd).hallClear s.sys.cfg (fitted s.sys.cfg sd) := by
  cases sd <;> rfl

theorem hallClear_lamps (sd : Side) : s.hallClear.lamps.get sd = Lamp.reset := by cases sd <;> rfl

theorem hallClear_coil (sd : Side) (k : CoilNumber) : s.hallClear.coil sd k = (s.coil sd k).hallClear (ms s.sys.cfg.drainTime) := by
  rw [State.coil, hallClear_coils]
  exact Quad.get_map ..

theorem hallClear_record (x : Item) : s.hallClear.record? x = none := by
  have erased (t : List (Option Record)) : findRecord x (t.map fun _ => none) = none := by
    induction t with
    | nil => rfl
    | cons e t ih => simpa [findRecord] using ih
  exact erased s.table

end

/-- Settles O52: what CLEAR HALL makes of each block is that block's own Hall Clear rule. -/
theorem clearHallEmptiesEveryBlock : Obligations.ClearHallEmptiesEveryBlock := by
  intro s v a sender stamp hv hears
  rw [exec_heardClearHall, ← hv, takeFrame_desk hears rfl rfl]
  refine ⟨_, rfl, fun sd k => ?_, fun sd => ⟨?_, ?_, ?_, ?_, ?_, fun fit => ?_⟩, rfl, hallClear_record _, ?_, rfl, rfl, rfl, fun k => ?_,
    rfl, rfl, rfl, rfl, rfl, rfl⟩
  · have field : ((v.coil sd k).state.hasField = true) ↔
        ((v.coil sd k).state = .ramping ∨ (v.coil sd k).state = .live ∨ (v.coil sd k).state = .draining) := by
      cases (v.coil sd k).state <;> simp [CoilState.hasField]
    rw [hallClear_coil, ← if_congr field rfl rfl]
    rfl
  · rw [hallClear_coils]; rfl
  · rw [hallClear_coils]; rfl
  · rw [hallClear_coils]; rfl
  · exact hallClear_claims _ sd
  · exact hallClear_lamps _ sd
  · rw [hallClear_sweeps, show fitted (v.setPhase (.idle 0)).sys.cfg sd = true from fit, fitted_hallClear]
    refine ⟨rfl, rfl, rfl, rfl, rfl, ?_, rfl, rfl, rfl, rfl⟩
    change some (gapOf v.sys.cfg (v.sweeps.get sd).mode) = _
    cases (v.sweeps.get sd).mode <;> rfl
  · exact List.length_map ..
  · have slot : (v.setPhase (.idle 0)).hallClear.queries.slots.get k = (v.queries.slots.get k).hallClear := Quad.get_map ..
    rw [slot, QSlot.hallClear]
    cases (v.queries.slots.get k).use <;> rfl

/-! ### The timers of lamps and sounder (O50) -/

theorem removeHolder_of_mem {l : Lamp} {x : Item} {left : Nat} (held : (⟨x, left⟩ : Holder) ∈ l.holders) :
    l.removeHolder x = { state := l.state.settle (dropHolder x l.holders), holders := dropHolder x l.holders } := by
  rw [Lamp.removeHolder, if_pos (List.any_eq_true.2 ⟨_, held, by simp⟩)]

/-- Settles O50. -/
theorem lampAndCadenceTimersExpire : Obligations.LampAndCadenceTimersExpire := by
  rintro s v a sd l u hv rfl rfl
  rw [exec_lampHoldEnd, exec_flashPhaseEnd, exec_cadenceTimerEnd, ← hv]
  refine ⟨fun steady => ?_, fun lit flashing => ?_, fun x rest held eRest => ?_, fun on => ?_, fun off => ⟨fun more => ?_, fun last again => ?_,
    fun last once => ?_⟩⟩
  · simp [State.lampHoldEnds, steady, Lamp.holdEnd, LampState.afterHold, LampState.flashStart, flashTime, ms]
  · simp [State.flashEnds, flashing, Lamp.phaseEnd, flashTime, ms]
  · have due : (v.lamps.get sd).holders.any (fun h => h.item == x && h.left == 0) = true := List.any_eq_true.2 ⟨_, held, by simp⟩
    have dropped : dropHolder x (v.lamps.get sd).holders = rest := by
      rw [eRest, dropHolder]
      exact List.filter_congr fun h _ => by rw [Bool.eq_iff_iff]; simp
    have expires : exec (.holderExpiry a sd x) s =
        .next (v.setLamp sd { state := (v.lamps.get sd).state.settle rest, holders := rest }) := by
      rw [exec_holderExpiry, ← hv, State.holderExpires, if_pos due, removeHolder_of_mem held, dropped]
    rw [expires]
    exact ⟨fun lit left flashing => by simp [flashing, LampState.settle], fun left steady => by rw [steady]; rfl⟩
  · simp [State.cadenceEnds, on, SounderState.due, Sounder.cadenceEnd, ms]
  · simp [State.cadenceEnds, off, SounderState.due, Sounder.cadenceEnd, more, ms]
  · simp [State.cadenceEnds, off, SounderState.due, Sounder.cadenceEnd, Nat.not_lt.2 last, again, cadenceStart, ms]
  · simp [State.cadenceEnds, off, SounderState.due, Sounder.cadenceEnd, Nat.not_lt.2 last, once]

/-! ### A DECIDE at lamps and sounder (O49) -/

/-- What a DECIDE that is no repeat leaves of a lamp (R159). -/
def Lamp.decided (c : Config) (x : Item) (v : Verdict) (named : Bool) (l : Lamp) : Lamp :=
  if v = .provisional then (if named then l.addHolder x (ms (patienceMs c)) else l)
  else if v = .alarm ∧ named = true then (l.removeHolder x).steady (lampHoldTime c)
  else l.removeHolder x

section
variable {s t : State}

theorem lampDecide_lamp (sd : Side) (x : Item) (v : Verdict) (named : Bool) :
    (s.lampDecide sd x v named).lamps.get sd = (s.lamps.get sd).decided s.sys.cfg x v named := by
  cases v <;> cases named <;> simp [State.lampDecide, Lamp.decided]

theorem lampDecide_other {sd sd' : Side} (other : sd' ≠ sd) (x : Item) (v : Verdict) (named : Bool) :
    (s.lampDecide sd x v named).lamps.get sd' = s.lamps.get sd' := by
  cases v <;> cases named <;> simp [State.lampDecide, PerSide.get_set_of_ne _ _ other]

/-- The lamps and the sounder as they stand in `s`, and all that the Alarm Unit reads besides. -/
def State.alarms (s : State) : Sys × PerSide Lamp × Sounder := (s.sys, s.lamps, s.sounder)

theorem lampDecide_rest (sd : Side) (x : Item) (v : Verdict) (named : Bool) :
    (s.lampDecide sd x v named).sounder = s.sounder ∧ (s.lampDecide sd x v named).sys = s.sys := by
  cases v <;> cases named <;> exact ⟨rfl, rfl⟩

theorem alarmDecide_again (x : Item) (v : Verdict) (laneA : Nat) (laneB : Option Nat) : s.alarmDecide x v laneA laneB true = s := rfl

theorem alarmDecide_lamp (x : Item) (v : Verdict) (laneA : Nat) (laneB : Option Nat) (sd : Side) :
    (s.alarmDecide x v laneA laneB false).lamps.get sd = (s.lamps.get sd).decided s.sys.cfg x v (s.names sd laneA laneB) := by
  have both : (s.alarmDecide x v laneA laneB false).lamps =
      ((s.lampDecide .L x v (s.names .L laneA laneB)).lampDecide .R x v (s.names .R laneA laneB)).lamps := by
    simp only [State.alarmDecide, Bool.false_eq_true, if_false]
    split <;> rfl
  rw [both]
  cases sd with
  | L => rw [lampDecide_other (sd := .R) (sd' := .L) nofun, lampDecide_lamp]
  | R => rw [lampDecide_lamp, lampDecide_other (sd := .L) (sd' := .R) nofun, (lampDecide_rest .L x v _).2]

theorem alarmDecide_sounder (x : Item) (v : Verdict) (laneA : Nat) (laneB : Option Nat) :
    (s.alarmDecide x v laneA laneB false).sounder =
      if v = .alarm ∧ (s.names .L laneA laneB || s.names .R laneA laneB) = true then s.sounder.drive s.sys.cfg else s.sounder := by
  have untouched : ((s.lampDecide .L x v (s.names .L laneA laneB)).lampDecide .R x v (s.names .R laneA laneB)).sounder = s.sounder :=
    (lampDecide_rest .R x v _).1.trans (lampDecide_rest .L x v _).1
  simp only [State.alarmDecide, Bool.false_eq_true, if_false]
  split
  · rw [State.setSounder_sounder, untouched]
  · exact untouched

/-! What comes before and after the Alarm Unit at a DECIDE leaves it alone. -/

theorem OnlyOffers.alarms (h : OnlyOffers s t) : t.alarms = s.alarms := by
  rw [State.alarms, h.sys, h.lamps, h.sounder]; rfl

theorem OnlySide.alarms {sd : Side} (h : OnlySide sd s t) : t.alarms = s.alarms := by
  rw [State.alarms, h.sys, h.lamps, h.sounder]; rfl

theorem OnlyQueries.alarms (h : OnlyQueries s t) : t.alarms = s.alarms := by
  rw [State.alarms, h.sys, h.lamps, h.sounder]; rfl

theorem askRemoval_alarms (s : State) (ok : QFrame → Bool) : (s.askRemoval ok).alarms = s.alarms := (askRemoval_onlyOffers s ok).alarms

theorem closeBy_alarms (s : State) (r : Record) (d : Decision) : (s.closeBy r d).alarms = s.alarms := by
  cases state : r.state with
  | sole _ => simp only [State.closeBy, state]; exact askRemoval_alarms _ _
  | joint _ _ => simp only [State.closeBy, state]; exact askRemoval_alarms _ _
  | lead l =>
    simp only [State.closeBy, state]
    exact (askRemoval_alarms _ _).trans ((endQuery_onlyQueries _ _ _).alarms.trans (askRemoval_alarms _ _))
  | closed _ _ => simp only [State.closeBy, state]

theorem passageDecide_alarms (s : State) (b : DecideBody) : (s.passageDecide b).alarms = s.alarms := by
  unfold State.passageDecide
  dsimp only
  split
  · split
    · exact closeBy_alarms _ _ _
    · rfl
  · rfl

theorem decisionSent_alarms (s : State) (x : Item) (m : DecideMsg) : (s.decisionSent x m).alarms = s.alarms := by
  unfold State.decisionSent
  split
  · split
    · rfl
    · split
      · rfl
      · split <;> rfl
  · rfl

theorem countDecision_alarms (s : State) (v : Verdict) (again : Bool) : (s.countDecision v again).alarms = s.alarms := by
  have counted (t : State) (k : CounterName) : (t.count k 1).alarms = t.alarms := by
    unfold State.count
    split <;> rfl
  unfold State.countDecision
  split
  · rfl
  · cases v with
    | clear | inbound | withdraw => exact counted _ _
    | alarm | linger => exact (counted _ _).trans (counted _ _)
    | provisional => rfl

theorem provisionalTriggers_alarms (s : State) (laneA : Nat) (laneB : Option Nat) : (s.provisionalTriggers laneA laneB).alarms = s.alarms := by
  rw [provisionalTriggers_eq]
  exact (triggerNamed_onlySide _ _ _ _).alarms.trans (triggerNamed_onlySide _ _ _ _).alarms

end

/-- The DECIDE of the event, heard or completed, is the only thing that reaches the Alarm Unit. -/
theorem heardDecide_alarms {v : State} {sender : Address} {stamp : Clock} {b : DecideBody} (hears : v.HearsK16 sender stamp) :
    ∃ u : State, u.alarms = v.alarms ∧ (v.takeFrame sender (.decideBody b) (fun _ t => t.takeDecide b) ignored).alarms =
      (u.alarmDecide b.item b.verdict (decisionOf b).laneA (decisionOf b).laneB b.again).alarms := by
  rw [takeFrame_k16 hears rfl rfl]
  refine ⟨(v.setPhase (.idle 0)).passageDecide b, passageDecide_alarms _ b, ?_⟩
  unfold State.takeDecide
  dsimp only
  split
  · exact provisionalTriggers_alarms _ _ _
  · rfl

theorem complete_alarms {v : State} {att : Attempt} {before behind : List QFrame} {f : QFrame} {m : DecideMsg} (sends : v.Sends att before f behind)
    (ends : att.left = 0) (payload : f.payload = .decision m) : ∃ u : State, u.alarms = v.alarms ∧ v.transmitCompletes.alarms =
      (u.alarmDecide m.item m.decision.verdict m.decision.laneA m.decision.laneB m.again).alarms := by
  have told (t : State) : ∃ u : State, u.alarms = t.alarms ∧ (t.frameSent f).1.alarms =
      (u.alarmDecide m.item m.decision.verdict m.decision.laneA m.decision.laneB m.again).alarms := by
    rw [State.frameSent, payload]
    cases f.owner with
    | record x => exact ⟨t.decisionSent x m, decisionSent_alarms t x m, countDecision_alarms _ _ _⟩
    | side _ | slot _ | noRecord | reportUnit => exact ⟨t, rfl, countDecision_alarms _ _ _⟩
  rw [complete_eq sends ends]
  obtain ⟨u, before, after⟩ := told { v with line := { v.line with phase := .idle 0, backoff := false, queue := before ++ behind } }
  refine ⟨u, before, ?_⟩
  rw [← after, State.afterSent, payload]
  dsimp only
  split
  · exact (provisionalTriggers_alarms _ _ _).trans (walk_onlyOffers _).alarms
  · exact (walk_onlyOffers _).alarms

/-! The holders and the state of a lamp that has taken a DECIDE. -/

section
variable {l : Lamp} {x : Item} {rest : List Holder}

theorem dropHolder_eq (hs : List Holder) (x : Item) : dropHolder x hs = hs.filter fun h => h.item ≠ x :=
  List.filter_congr fun h _ => by rw [Bool.eq_iff_iff]; simp

theorem filter_length_iff (hs : List Holder) : (hs.filter fun h => h.item ≠ x).length = hs.length ↔ hs.any (fun h => h.item == x) = false := by
  rw [List.length_filter_eq_length_iff, Bool.eq_false_iff, ne_eq, List.any_eq_true, not_exists]
  simp

theorem filter_absent {hs : List Holder} (absent : hs.any (fun h => h.item == x) = false) : (hs.filter fun h => h.item ≠ x) = hs :=
  List.filter_eq_self.2 fun h hh => by simpa using List.any_eq_false.1 absent h hh

theorem putHolder_eq (hs : List Holder) (patience : Nat) (hrest : rest = hs.filter fun h => h.item ≠ x) : putHolder x patience hs =
    (if rest.length = hs.length ∧ 4 ≤ hs.length then rest.drop 1 else rest) ++ [⟨x, patience⟩] := by
  unfold putHolder
  cases absent : hs.any fun h => h.item == x with
  | true =>
    have fewer : ¬ rest.length = hs.length := by rw [hrest, filter_length_iff, absent]; simp
    rw [if_pos rfl, if_neg fun h => fewer h.1, dropHolder_eq, ← hrest]
  | false =>
    have same : rest = hs := hrest.trans (filter_absent absent)
    simp only [Bool.false_eq_true, if_false, same, true_and, holderLimit]
    rfl

theorem removeHolder_holders (hrest : rest = l.holders.filter fun h => h.item ≠ x) : (l.removeHolder x).holders = rest := by
  unfold Lamp.removeHolder
  split
  · rw [hrest]; exact dropHolder_eq _ _
  · next absent => rw [hrest]; exact (filter_absent (by simpa using absent)).symm

theorem removeHolder_state (hrest : rest = l.holders.filter fun h => h.item ≠ x) : (l.removeHolder x).state =
    if rest = [] ∧ l.holders ≠ [] then l.state.settle [] else l.state := by
  unfold Lamp.removeHolder
  split
  · next held =>
    have held' : l.holders ≠ [] := by rintro none; rw [none] at held; cases held
    have dropped : dropHolder x l.holders = rest := by rw [dropHolder_eq, hrest]
    dsimp only
    rw [dropped]
    by_cases empty : rest = []
    · rw [if_pos ⟨empty, held'⟩, empty]
    · rw [if_neg fun h => empty h.1]
      cases rest with
      | nil => exact absurd rfl empty
      | cons _ _ => cases l.state <;> rfl
  · next absent =>
    have same : rest = l.holders := by rw [hrest]; exact filter_absent (by simpa using absent)
    rw [same, if_neg fun h => h.2 h.1]

end

theorem decided_final {c : Config} {l : Lamp} {x : Item} {v : Verdict} {named : Bool} (final : v ≠ .provisional) :
    l.decided c x v named = if v = .alarm ∧ named = true then (l.removeHolder x).steady (lampHoldTime c) else l.removeHolder x := if_neg final

/-- Settles O49. -/
theorem decideActsOnLampsAndSounder : Obligations.DecideActsOnLampsAndSounder := by
  intro s v a sd ev x verdict laneA laneB again l rest named hv event hl hrest hnamed
  obtain ⟨t, run, running, u, same, alarms⟩ : ∃ t, exec ev s = .next t ∧ v.sys.run = .running ∧ ∃ u : State, u.alarms = v.alarms ∧
      t.alarms = (u.alarmDecide x verdict laneA laneB again).alarms := by
    obtain ⟨sender, stamp, b, rfl, hears, rfl, rfl, rfl, rfl, rfl⟩ | ⟨att, before, f, behind, m, rfl, sends, ends, running, payload, rfl, rfl, rfl,
      rfl, rfl⟩ := event
    · rw [exec_heardDecide, ← hv]
      exact ⟨_, rfl, hears.1, heardDecide_alarms hears⟩
    · rw [exec_transmitComplete, ← hv]
      exact ⟨_, rfl, running, complete_alarms sends ends payload⟩
  simp only [State.alarms, Prod.mk.injEq] at same alarms
  obtain ⟨sys, lamps, sounder⟩ := same
  obtain ⟨-, lampsAfter, sounderAfter⟩ := alarms
  have names (sd : Side) : u.names sd laneA laneB = named sd := by
    rw [hnamed, State.names, State.acts, lane_of_sys sys, sys, running]; rfl
  refine ⟨t, run, fun repeated => ?_, fun first => ?_⟩
  · rw [lampsAfter, sounderAfter, repeated, alarmDecide_again, lamps, sounder]
    exact ⟨rfl, rfl⟩
  · subst first
    have lamp : t.lamps.get sd = l.decided v.sys.cfg x verdict (named sd) := by
      rw [lampsAfter, alarmDecide_lamp, lamps, sys, names, hl]
    have drive : t.sounder = if verdict = .alarm ∧ (named .L || named .R) = true then v.sounder.drive v.sys.cfg else v.sounder := by
      rw [sounderAfter, alarmDecide_sounder, sounder, sys, names, names]
    rw [lamp, drive]
    refine ⟨fun provisional hit => ⟨?_, ?_⟩, fun provisional spared => ?_, fun final => ?_, fun alarm hit => ?_, fun final spared => ?_,
      fun alarm hit => ?_, fun silent => ?_⟩
    · simp only [Lamp.decided, provisional, hit, if_true, Lamp.addHolder]
      rw [putHolder_eq _ _ hrest]
      rfl
    · simp only [Lamp.decided, provisional, hit, if_true, Lamp.addHolder]
      cases l.state <;> rfl
    · simp [Lamp.decided, provisional, spared]
    · rw [decided_final final]
      split
      · exact removeHolder_holders hrest
      · exact removeHolder_holders hrest
    · rw [decided_final (by rw [alarm]; nofun), if_pos ⟨alarm, hit⟩]
      change LampState.steady (v.sys.cfg.lampHold * 1000 * 1000) = _
      rw [Nat.mul_assoc]
    · rw [decided_final final, if_neg spared, removeHolder_state hrest]
      cases l.state <;> simp [LampState.settle]
    · rw [if_pos ⟨alarm, by cases sd <;> simp [hit]⟩]
      cases silent : v.sounder.state <;> simp [Sounder.drive, silent, cadenceStart, ms]
    · rw [if_neg]
      rintro ⟨alarm, hit⟩
      obtain other | ⟨left, right⟩ := silent
      · exact other alarm
      · rw [left, right] at hit; cases hit

end Sys2Proof.Machine
end

section
/-! PROOFS. Offers at a queue with room (R74, R75), and the REPORT (chapter 11). -/

namespace Sys2Proof.Machine

/-! ### An offer that takes a position of its own -/

/-- Whether a queued frame may take an offer in, or bar it (R75 cases 1 and 2): a SIGHT, JOIN or DECIDE for the same item, a DEFER or RELEASE
for the same lane. -/
def Payload.meets : Payload → Payload → Bool
  | .sight m, .sight n => n.item == m.item
  | .join m, .join n => n.item == m.item
  | .decision m, .decision n => n.item == m.item
  | .defer m, .defer n => n == m
  | .release m, .release n => n == m
  | _, _ => false

/-- A queue in which nothing takes the offer in or bars it, with a position for it (R75 case 4). -/
structure TakesFresh (p : Payload) (q : List QFrame) : Prop where
  apart  : ∀ g ∈ q, p.meets g.payload = false
  length : q.length < queueSize
  normal : p.urgent = false → normalCount q < normalShare

section
variable {o : Owner} {p : Payload} {q : List QFrame}

theorem mergeSight_apart {m : SightMsg} (apart : ∀ g ∈ q, (Payload.sight m).meets g.payload = false) : mergeSight o m q = none := by
  cases merged : mergeSight o m q with
  | none => rfl
  | some t =>
    obtain ⟨f, n, payload, item, -, edited⟩ := mergeSight_some (q' := t.1) (left := t.2) merged
    have := apart f edited.mem
    simp [payload, Payload.meets, item] at this

theorem mergeJoin_apart {m : JoinMsg} (apart : ∀ g ∈ q, (Payload.join m).meets g.payload = false) : mergeJoin o m q = none := by
  cases merged : mergeJoin o m q with
  | none => rfl
  | some t =>
    obtain ⟨f, n, payload, item, -, -, -, edited⟩ := mergeJoin_some (q' := t.1) (left := t.2) merged
    have := apart f edited.mem
    simp [payload, Payload.meets, item] at this

theorem replaceDecide_apart {m : DecideMsg} (apart : ∀ g ∈ q, (Payload.decision m).meets g.payload = false) : replaceDecide o m q = none := by
  cases replaced : replaceDecide o m q with
  | none => rfl
  | some t =>
    obtain ⟨f, n, payload, item, edited⟩ := replaceDecide_some replaced
    have := apart f edited.mem
    simp [payload, Payload.meets, item] at this

theorem absorbs_apart (self : p.meets p = true) (apart : ∀ g ∈ q, p.meets g.payload = false) : q.any (absorbs o p) = false :=
  List.any_eq_false.2 fun g hg absorbed => by
    have met := apart g hg
    simp only [absorbs, Bool.and_eq_true, beq_iff_eq] at absorbed
    rw [absorbed.1.1, self] at met
    cases met

theorem mergeOrReplace_apart (apart : ∀ g ∈ q, p.meets g.payload = false) : mergeOrReplace o p q = none := by
  cases p with
  | sight m => exact mergeSight_apart apart
  | join m => exact mergeJoin_apart apart
  | decision m => simp [mergeOrReplace, replaceDecide_apart apart]
  | defer lane | release lane =>
    rw [mergeOrReplace, absorbs_apart (by simp [Payload.meets]) apart]
    rfl
  | claim _ | query _ _ _ | report => rfl

theorem barred_apart (apart : ∀ g ∈ q, p.meets g.payload = false) : q.any (barredBy p) = false := by
  refine List.any_eq_false.2 fun g hg barred => ?_
  have met := apart g hg
  unfold barredBy at barred
  split at barred
  · next payload => simp_all [Payload.meets]
  · next payload => simp_all [Payload.meets]
  · simp at barred

theorem judgeOffer_fresh (fresh : TakesFresh p q) : judgeOffer o p q = .placed (q ++ [QFrame.fresh o p]) none := by
  rw [judgeOffer, mergeOrReplace_apart fresh.apart, barred_apart fresh.apart]
  simp only [Bool.false_eq_true, if_false, fresh.length, if_true, true_and]
  cases urgent : p.urgent with
  | true => rfl
  | false => rw [if_neg nofun, if_pos (fresh.normal urgent)]

/-- R75 case 4: an offer takes a position, and its waiting entry goes. -/
theorem offer_fresh {s : State} {k : WaitKey} (fresh : TakesFresh p s.line.queue) :
    s.offer (some k) o p = ((s.setQueue (s.line.queue ++ [QFrame.fresh o p])).giveUp k, .taken) := by
  rw [State.offer, judgeOffer_fresh fresh]
  rfl

theorem takesFresh_of_room {s : State} (room : s.NormalRoom) (apart : ∀ g ∈ s.line.queue, p.meets g.payload = false) :
    TakesFresh p s.line.queue := ⟨apart, room.1, fun _ => room.2⟩

end

/-! ### The REPORT (O51) -/

section
variable {s : State}

theorem offerReport_fresh (room : s.NormalRoom) : s.offerReport =
    (((s.setQueue (s.line.queue ++ [QFrame.fresh .reportUnit .report])).giveUp .report).setReport { s.report with request := .queued },
      .taken) := by
  rw [State.offerReport, offer_fresh (takesFresh_of_room room fun _ _ => rfl)]
  rfl

theorem takePoll_fresh (clear : Bool) (noRequest : s.report.request = .none) (room : s.NormalRoom) : s.takePoll clear =
    ((s.setQueue (s.line.queue ++ [QFrame.fresh .reportUnit .report])).giveUp .report).setReport
      { s.report with request := .queued, clear := clear } := by
  rw [State.takePoll, noRequest]
  dsimp only
  rw [offerReport_fresh (s := s.setReport { s.report with clear := clear }) room]
  rfl

theorem takePoll_asked (clear : Bool) (asked : s.report.request ≠ .none) :
    s.takePoll clear = s.setReport { s.report with clear := s.report.clear || clear } := by
  unfold State.takePoll
  split
  · next none => exact absurd none asked
  all_goals rfl

/-- A POLL for this station is taken in RUNNING and in CONFIG FAULT (R14, R168). -/
theorem heardPoll_taken {sender : Address} {stamp : Clock} {b : PollBody} (receiving : s.line.phase = .receiving stamp)
    (run : s.sys.run = .running ∨ s.sys.run = .configFault) (desk : 16 ≤ sender.toNat)
    (target : b.target.toNat = s.sys.station.toNat ∨ b.target = 255) :
    s.takeFrame sender (.pollBody b) (fun _ t => if t.polled b.target then t.takePoll b.clear else t)
      (fun t => t.pollInFault sender b) = (s.setPhase (.idle 0)).takePoll b.clear := by
  have polled : (s.setPhase (.idle 0)).polled b.target = true := by
    simp only [State.polled, State.number, Bool.or_eq_true, beq_iff_eq]
    exact target
  rcases run with running | fault
  · rw [takeFrame_desk ⟨running, receiving, desk⟩ rfl rfl, if_pos polled]
  · simp [State.takeFrame, receiving, fault, State.pollInFault, desk, polled]

theorem faultBits_lt (u : CoilUnit) : u.faultBits < 2 ^ 4 := by
  have bounded : ∀ a b c d : Bool, bit a 0 + bit b 1 + bit c 2 + bit d 3 < 2 ^ 4 := by decide
  exact bounded _ _ _ _

theorem faultBits_testBit (u : CoilUnit) (k : Fin 4) : u.faultBits.testBit k = (u.coils.get (BitVec.ofNat 2 k)).faultMark := by
  have bits : ∀ a b c d : Bool, (bit a 0 + bit b 1 + bit c 2 + bit d 3).testBit 0 = a ∧ (bit a 0 + bit b 1 + bit c 2 + bit d 3).testBit 1 = b ∧
      (bit a 0 + bit b 1 + bit c 2 + bit d 3).testBit 2 = c ∧ (bit a 0 + bit b 1 + bit c 2 + bit d 3).testBit 3 = d := by decide
  obtain ⟨b0, b1, b2, b3⟩ := bits u.coils.v0.faultMark u.coils.v1.faultMark u.coils.v2.faultMark u.coils.v3.faultMark
  match k with
  | 0 => exact b0
  | 1 => exact b1
  | 2 => exact b2
  | 3 => exact b3

/-- The coil fault set shows side L in its low bits and side R in its high ones (R29, R87). -/
theorem faultSet_getLsbD (s : State) (k : Fin 4) : s.faultSet.getLsbD k = (s.coil .L (BitVec.ofNat 2 k)).faultMark ∧
    s.faultSet.getLsbD (k + 4) = (s.coil .R (BitVec.ofNat 2 k)).faultMark := by
  have sides : s.coils.left.faultBits + 16 * s.coils.right.faultBits = 2 ^ 4 * s.coils.right.faultBits + s.coils.left.faultBits := by omega
  have low : (k : Nat) < 8 ∧ (k : Nat) < 4 ∧ (k : Nat) + 4 < 8 ∧ ¬ (k : Nat) + 4 < 4 := by omega
  simp only [State.faultSet, BitVec.getLsbD_ofNat, sides, Nat.testBit_two_pow_mul_add _ (faultBits_lt _), low, decide_true, Bool.true_and,
    if_true, if_false, Nat.add_sub_cancel, faultBits_testBit]
  exact ⟨rfl, rfl⟩

end

/-- Settles O51. -/
theorem pollDrawsOneReport : Obligations.PollDrawsOneReport := by
  intro s v a hv
  refine ⟨fun sender stamp b receiving run desk target => ?_, fun running => ?_, faultSet_getLsbD v, fun fault => ?_,
    fun att before f behind sends ends report noWait => ?_⟩
  · rw [exec_heardPoll, ← hv, heardPoll_taken receiving run desk target]
    refine ⟨fun noRequest room => ?_, fun asked => ?_⟩
    · rw [takePoll_fresh (s := v.setPhase (.idle 0)) _ noRequest room]
      rfl
    · rw [takePoll_asked (s := v.setPhase (.idle 0)) _ asked]
      rfl
  · rw [State.reportBody, if_neg (by rw [running]; nofun)]
    rfl
  · rw [State.reportBody, if_pos fault]
    rfl
  · rw [exec_transmitComplete, ← hv, complete_eq sends ends]
    refine ⟨_, rfl, ?_⟩
    simp only [State.frameSent, report, State.afterSent]
    rw [walk_empty (s := State.reportSent { v with line := { v.line with phase := .idle 0, backoff := false, queue := before ++ behind } }) noWait]
    refine ⟨rfl, rfl, rfl, fun k => ?_⟩
    simp only [State.reportSent, State.setReport_report]
    split
    · exact counterAt_minus _ _ k
    · rfl

end Sys2Proof.Machine
end

section
/-! PROOFS. The bytes of a frame (R69, R87, R88). -/

namespace Sys2Proof.Machine

/-! ### Numbers and codes of one or more bytes -/

theorem itemOf_itemBytes (x : Item) :
    itemOf (x.extractLsb' 32 8) (x.extractLsb' 24 8) (x.extractLsb' 16 8) (x.extractLsb' 8 8) (x.extractLsb' 0 8) = x := by
  apply BitVec.eq_of_getLsbD_eq
  intro i hi
  simp only [itemOf, BitVec.getLsbD_append, BitVec.getLsbD_extractLsb']
  grind

theorem wordOf_wordBytes (w : BitVec 16) : wordOf (w.extractLsb' 8 8) (w.extractLsb' 0 8) = w := by
  apply BitVec.eq_of_getLsbD_eq
  intro i hi
  simp only [wordOf, BitVec.getLsbD_append, BitVec.getLsbD_extractLsb']
  grind

theorem age_split (a : BitVec 12) : a.extractLsb' 8 4 ++ a.extractLsb' 0 8 = a := by
  apply BitVec.eq_of_getLsbD_eq
  intro i hi
  simp only [BitVec.getLsbD_append, BitVec.getLsbD_extractLsb']
  grind

theorem bitByte_getLsbD (b : Bool) : (bitByte b).getLsbD 0 = b := by cases b <;> rfl

theorem modeByte_getLsbD (l r : Bool) : (modeByte l r).getLsbD 0 = l ∧ (modeByte l r).getLsbD 1 = r := by
  cases l <;> cases r <;> exact ⟨rfl, rfl⟩

theorem verdictOf_verdictCode (v : Verdict) : verdictOf (verdictCode v) = some v := by cases v <;> rfl

theorem reasonOf_reasonCode (r : Reason) : reasonOf (reasonCode r) = some r := by cases r <;> rfl

theorem statusOf_statusCode (st : AnswerStatus) : statusOf (statusCode st) = some st := by cases st <;> rfl

theorem runOf_runCode (r : ReportedRun) : runOf (runCode r) = some r := by cases r <;> rfl

theorem sideOf_sideBit (sd : Side) : sideOf (sideBit sd) = sd := by cases sd <;> rfl

theorem markOf_markBit (m : IssueMark) : markOf (markBit m) = m := by cases m <;> rfl

/-! ### Samples and items -/

theorem sampleFrom_sampleBytes (w : WireSample) : sampleFrom w.strength (sampleByte w) (w.age.extractLsb' 0 8) = w := by
  have fields : ∀ (s : BitVec 1) (c : BitVec 2) (h : BitVec 4), (((s ++ c) ++ (0 : BitVec 1)) ++ h).extractLsb' 7 1 = s ∧
      (((s ++ c) ++ (0 : BitVec 1)) ++ h).extractLsb' 5 2 = c ∧ (((s ++ c) ++ (0 : BitVec 1)) ++ h).extractLsb' 0 4 = h := by decide
  obtain ⟨side, coil, high⟩ := fields (sideBit w.side) w.coil (w.age.extractLsb' 8 4)
  rw [sampleFrom, sampleByte, side, coil, high, age_split, sideOf_sideBit]

theorem samplesFrom_samplesBytes (ws : List WireSample) : samplesFrom (samplesBytes ws) = some ws := by
  induction ws with
  | nil => rfl
  | cons w ws ih =>
    change (samplesFrom (samplesBytes ws)).map (sampleFrom w.strength (sampleByte w) (w.age.extractLsb' 0 8) :: ·) = _
    rw [ih, sampleFrom_sampleBytes]
    rfl

theorem samplesBytes_length (ws : List WireSample) : (samplesBytes ws).length = 3 * ws.length := by
  induction ws with
  | nil => rfl
  | cons w ws ih => simp only [samplesBytes, sampleBytes, List.length_append, ih, List.length_cons, List.length_nil]; omega

theorem itemsFrom_itemsBytes (xs : List Item) : itemsFrom (itemsBytes xs) = some xs := by
  induction xs with
  | nil => rfl
  | cons x xs ih =>
    change (itemsFrom (itemsBytes xs)).map (itemOf _ _ _ _ _ :: ·) = _
    rw [ih, itemOf_itemBytes]
    rfl

theorem itemsBytes_length (xs : List Item) : (itemsBytes xs).length = 5 * xs.length := by
  induction xs with
  | nil => rfl
  | cons x xs ih => simp only [itemsBytes, itemBytes, List.length_append, ih, List.length_cons, List.length_nil]; omega

/-! ### Bodies -/

theorem decideFrom_bytes (b : DecideBody) : decideFrom (bodyBytes (.decideBody b)) = some b := by
  simp only [bodyBytes, itemBytes, List.cons_append, List.nil_append, decideFrom, verdictOf_verdictCode, reasonOf_reasonCode,
    itemOf_itemBytes, bitByte_getLsbD]

theorem sightFrom_bytes (b : SightBody) : sightFrom (bodyBytes (.sightBody b)) = some b := by
  have fields : ∀ (m : BitVec 1) (l : BitVec 2) (t a : Bool),
      ((((m ++ l) ++ (0 : BitVec 3)) ++ BitVec.ofBool t) ++ BitVec.ofBool a).extractLsb' 7 1 = m ∧
      ((((m ++ l) ++ (0 : BitVec 3)) ++ BitVec.ofBool t) ++ BitVec.ofBool a).extractLsb' 5 2 = l ∧
      ((((m ++ l) ++ (0 : BitVec 3)) ++ BitVec.ofBool t) ++ BitVec.ofBool a).getLsbD 1 = t ∧
      ((((m ++ l) ++ (0 : BitVec 3)) ++ BitVec.ofBool t) ++ BitVec.ofBool a).getLsbD 0 = a := by decide
  obtain ⟨mark, level, takeover, again⟩ := fields (markBit b.mark) b.level b.takeover b.again
  simp only [bodyBytes, itemBytes, List.cons_append, List.nil_append, sightFrom, samplesFrom_samplesBytes, Option.map_some,
    itemOf_itemBytes, sightFlags, mark, level, takeover, again, markOf_markBit]

theorem joinFrom_bytes (b : JoinBody) : joinFrom (bodyBytes (.joinBody b)) = some b := by
  simp only [bodyBytes, itemBytes, List.cons_append, List.nil_append, joinFrom, samplesFrom_samplesBytes, Option.map_some,
    itemOf_itemBytes]

theorem queryFrom_bytes (b : QueryBody) : queryFrom (bodyBytes (.queryBody b)) = some b := by
  simp only [bodyBytes, itemBytes, List.cons_append, List.nil_append, queryFrom, itemOf_itemBytes]

theorem answerFrom_bytes (b : AnswerBody) : answerFrom (bodyBytes (.answerBody b)) = some b := by
  simp only [bodyBytes, itemBytes, List.cons_append, List.nil_append, answerFrom, statusOf_statusCode, Option.map_some,
    itemOf_itemBytes, bitByte_getLsbD]

theorem reportFrom_bytes (b : ReportBody) : reportFrom (bodyBytes (.reportBody b)) = some b := by
  simp only [bodyBytes, wordBytes, counterBytes, List.cons_append, List.nil_append, reportFrom, runOf_runCode, Option.map_some,
    wordOf_wordBytes, modeByte_getLsbD]

theorem pollFrom_bytes (b : PollBody) : pollFrom (bodyBytes (.pollBody b)) = some b := by
  simp only [bodyBytes, pollFrom, bitByte_getLsbD]

/-- A body of an allowed size is read back from its bytes under its kind (R82). -/
theorem bodyFrom_bodyBytes {b : Body} (allowed : sizeAllowed b = true) : bodyFrom (kindCode b) (bodyBytes b) = some b := by
  have kept (o : Option Body) (read : o = some b) : o.filter sizeAllowed = some b := by rw [read, Option.filter_some_pos allowed]
  refine kept _ ?_
  cases b with
  | deferBody b | releaseBody b | claimBody b | clearHallBody => rfl
  | decideBody b => exact congrArg (Option.map Body.decideBody) (decideFrom_bytes b)
  | sightBody b => exact congrArg (Option.map Body.sightBody) (sightFrom_bytes b)
  | joinBody b => exact congrArg (Option.map Body.joinBody) (joinFrom_bytes b)
  | queryBody b => exact congrArg (Option.map Body.queryBody) (queryFrom_bytes b)
  | reportBody b => exact congrArg (Option.map Body.reportBody) (reportFrom_bytes b)
  | issueBody xs => exact congrArg (Option.map Body.issueBody) (itemsFrom_itemsBytes xs)
  | returnBody xs => exact congrArg (Option.map Body.returnBody) (itemsFrom_itemsBytes xs)
  | answerBody b => exact congrArg (Option.map Body.answerBody) (answerFrom_bytes b)
  | pollBody b => exact congrArg (Option.map Body.pollBody) (pollFrom_bytes b)

theorem bodyBytes_length {b : Body} (allowed : sizeAllowed b = true) : (bodyBytes b).length ≤ maxBody := by
  cases b with
  | deferBody b | releaseBody b | claimBody b | clearHallBody | decideBody b | queryBody b | reportBody b | answerBody b | pollBody b =>
    exact Nat.le_of_ble_eq_true rfl
  | sightBody b =>
    have few : b.samples.length ≤ 4 := by simpa [sizeAllowed, SightBody.wellFormed] using allowed
    simp only [bodyBytes, itemBytes, List.length_append, List.length_cons, List.length_nil, samplesBytes_length, maxBody]
    omega
  | joinBody b =>
    have few : b.samples.length ≤ 4 := by
      have := allowed
      simp [sizeAllowed, JoinBody.wellFormed] at this
      omega
    simp only [bodyBytes, itemBytes, List.length_append, List.length_cons, List.length_nil, samplesBytes_length, maxBody]
    omega
  | issueBody xs | returnBody xs =>
    have few : xs.length ≤ 9 := by
      have := allowed
      simp [sizeAllowed, itemsWellFormed] at this
      omega
    simp only [bodyBytes, itemsBytes_length, maxBody]
    omega

/-! ### Frames -/

theorem frameFrom_frameBytes {f : Frame} (allowed : sizeAllowed f.body = true) : frameFrom (frameBytes f) = some f := by
  have short := bodyBytes_length allowed
  have len : (BitVec.ofNat 8 (bodyBytes f.body).length).toNat = (bodyBytes f.body).length := by
    have : (bodyBytes f.body).length ≤ 48 := short
    rw [BitVec.toNat_ofNat]
    omega
  have sender : (f.sender.setWidth 8).setWidth 5 = f.sender := by
    apply BitVec.eq_of_toNat_eq
    have := f.sender.isLt
    simp only [BitVec.toNat_setWidth]
    omega
  have crc (w : BitVec 16) : (wordBytes w).length = 2 := rfl
  simp only [frameBytes, coveredBytes, List.cons_append, frameFrom, List.length_append, crc, Nat.add_sub_cancel, List.take_left, List.drop_left,
    len, short, bodyFrom_bodyBytes allowed, sender, Option.map_some, and_self, Nat.le_add_left, if_true]

/-- Settles O31: a frame is read back from its bytes kind by kind, its length and CRC being those of the bytes it was built with. -/
theorem receivedBytesGiveBackTheFrame : Obligations.ReceivedBytesGiveBackTheFrame := by
  intro f allowed
  exact frameFrom_frameBytes allowed

/-! ### Frames that are discarded or ignored (O30) -/

section
variable {v : State}

/-- A heard frame of any kind goes through the receive checks with its own body; only a POLL is looked at in CONFIG FAULT (R14, R82 to R84). -/
theorem exec_frameCommand (a : Nat) (sender : Address) (b : Body) (s : State) : ∃ act fault,
    exec (frameCommand a sender b) s = .next ((s.advance a).takeFrame sender b act fault) ∧ ((∀ p, b ≠ .pollBody p) → fault = ignored) := by
  cases b with
  | pollBody p => exact ⟨_, _, rfl, fun other => absurd rfl (other p)⟩
  | deferBody _ | releaseBody _ | claimBody _ | decideBody _ | sightBody _ | joinBody _ | queryBody _ | reportBody _ | issueBody _
  | returnBody _ | answerBody _ | clearHallBody => exact ⟨_, _, rfl, fun _ => rfl⟩

theorem fromK16_iff (b : Body) : fromK16 b = true ↔ kindCode b < 64 := by
  cases b <;> simp [fromK16, kindCode]

/-- A frame of an allowed size that fails the sender check is counted (R83). -/
theorem takeFrame_stranger {sender : Address} {stamp : Clock} {b : Body} {act : Clock → State → State} {fault : State → State}
    (receiving : v.line.phase = .receiving stamp) (running : v.sys.run = .running)
    (stranger : if kindCode b < 64 then v.sys.cfg.n ≤ sender.toNat ∨ sender.toNat = v.sys.station.toNat else sender.toNat < 16) :
    v.takeFrame sender b act fault = (v.setPhase (.idle 0)).count .framesBad 1 := by
  have refused : v.senderOk sender b = false := by
    rw [State.senderOk]
    by_cases k16 : kindCode b < 64
    · rw [if_pos k16] at stranger
      rw [if_pos ((fromK16_iff b).2 k16), Bool.and_eq_false_iff, decide_eq_false_iff_not, bne_eq_false_iff_eq]
      exact stranger.imp Nat.not_lt.2 id
    · rw [if_neg k16] at stranger
      rw [if_neg (mt (fromK16_iff b).1 k16), decide_eq_false_iff_not]
      exact Nat.not_le.2 stranger
  simp [State.takeFrame, receiving, running, refused]

theorem takeFrame_fault {sender : Address} {stamp : Clock} {b : Body} {act : Clock → State → State}
    (receiving : v.line.phase = .receiving stamp) (fault : v.sys.run = .configFault) :
    v.takeFrame sender b act ignored = v.setPhase (.idle 0) := by
  simp [State.takeFrame, receiving, fault, ignored]

end

/-- Settles O30. -/
theorem framesAreStampedDiscardedOrIgnored : Obligations.FramesAreStampedDiscardedOrIgnored := by
  intro s v a hv
  rw [exec_sofStamp, ← hv]
  refine ⟨fun since idle => ?_, fun stamp raw receiving running bad => ?_, fun stamp sender b receiving running allowed stranger => ?_,
    fun stamp sender b receiving fault other => ?_, fun sender stamp b hears => ?_, fun sender stamp b hears => ?_,
    fun sender stamp b hears other => ?_, fun sender stamp b hears other all => ?_⟩
  · simp [State.frameBegins, idle]
  · have discards : v.discards raw = true := by simp [State.discards, bad]
    rw [exec_badFrame, ← hv]
    simp only [State.badFrameEnds, receiving, discards, if_true]
    rw [State.count_running (s := v.setPhase (.idle 0)) running]
    rfl
  · obtain ⟨act, fault, run, -⟩ := exec_frameCommand a sender b s
    rw [run, ← hv, takeFrame_stranger receiving running stranger, State.count_running (s := v.setPhase (.idle 0)) running]
    rfl
  · obtain ⟨act, taken, run, ignores⟩ := exec_frameCommand a sender b s
    rw [run, ← hv, ignores other, takeFrame_fault receiving fault]
  · rw [exec_heardQuery, ← hv, takeFrame_k16 hears rfl rfl]
  · rw [exec_heardReport, ← hv, takeFrame_k16 hears rfl rfl]
  · rw [exec_heardAnswer, ← hv, takeFrame_desk hears rfl rfl, if_neg (show ¬ b.receiver.toNat = (v.setPhase (.idle 0)).number from other)]
  · have unpolled : (v.setPhase (.idle 0)).polled b.target = false := by
      simp only [State.polled, State.number, Bool.or_eq_false_iff, beq_eq_false_iff_ne]
      exact ⟨other, all⟩
    rw [exec_heardPoll, ← hv, takeFrame_desk hears rfl rfl, unpolled]
    rfl

/-! ### The start of an attempt (O24) -/

section
variable {v : State} {f : QFrame}

theorem attemptHead_eq {since : Nat} (idle : v.line.phase = .idle since) (may : v.sys.run = .running ∨ v.sys.run = .configFault)
    (head : headOf v.line.queue = some f) :
    v.attemptHead = if v.accessDelay f ≤ since ∧ since % 10 = 0 then some f else none := by
  have maySend : v.maySend = true := by
    rcases may with run | run <;> simp [State.maySend, run]
  simp only [State.attemptHead, idle, head, maySend, Bool.true_and, lineSlot]
  by_cases late : v.accessDelay f ≤ since <;> by_cases boundary : since % 10 = 0 <;> simp [late, boundary]

theorem startAttempt_eq (v : State) (f : QFrame) : v.startAttempt f = { v with
    line := { v.line with
      phase := .sending { frame := v.fillFrame f, bytes := frameBytes (v.fillFrame f), left := (frameBytes (v.fillFrame f)).length * 10 + 30
                          stamp := v.time.clock }
      queue := startFrame f v.line.queue }
    report := { v.report with carried := if f.payload = .report then v.report.counters else v.report.carried } } := by
  unfold State.startAttempt
  cases payload : f.payload <;> rfl

theorem fillFrame_sender (v : State) (f : QFrame) : (v.fillFrame f).sender.toNat = v.sys.station.toNat := by
  have := v.sys.station.isLt
  simp only [State.fillFrame, BitVec.toNat_setWidth]
  omega

/-- The remaining hold that a DEFER carries, by claim state (R41; log 17). -/
theorem remainingHold_eq (v : State) (sd : Side) (c : Claim) (hc : c = v.claims.get sd) :
    (c.state = .asking → v.remainingHold sd = if c.sent then 60 else 0) ∧
    (∀ left, c.state = .holding ∨ c.state = .resting .closing → c.hold = some left → v.remainingHold sd = (left + 999) / 1000) ∧
    (c.state = .resting .closing → c.hold = none → v.remainingHold sd = 0) ∧
    (c.state = .free ∨ (∃ cause, c.state = .resting cause ∧ cause ≠ .closing) → v.remainingHold sd = 0) := by
  rw [State.remainingHold, ← hc]
  refine ⟨fun st => by rw [st], fun left st hold => ?_, fun st hold => by rw [st, hold], fun st => ?_⟩
  · rcases st with st | st <;> rw [st, hold]
  · rcases st with st | ⟨cause, st, other⟩
    · rw [st]
    · rw [st]
      cases cause <;> first | rfl | exact absurd rfl other

end

/-- Settles O24. -/
theorem attemptStartsAfterTheAccessDelay : Obligations.AttemptStartsAfterTheAccessDelay := by
  intro s v a since delay f wire hv idle may head hdelay hwire
  have accessDelay : v.accessDelay f = delay := hdelay.symm
  rw [exec_attemptStart, ← hv, State.attemptStarts, attemptHead_eq idle may head, accessDelay]
  refine ⟨fun late boundary => ?_, fun early => ?_⟩
  · have samples (cs : List OwnSample) : cs.map (OwnSample.wire v.time.clock) = cs.map wire := by rw [hwire]; rfl
    rw [if_pos ⟨late, boundary⟩]
    refine ⟨v.fillFrame f, fillFrame_sender v f, congrArg _ (startAttempt_eq v f), ?_⟩
    simp only [State.fillFrame, State.fillBody]
    refine ⟨fun m payload => ?_, fun m payload => ?_, fun m payload => ?_, fun lane payload => ?_, fun lane payload => ?_,
      fun receiver tag x payload => ?_, fun payload => ?_, fun lane sd c payload owner hc => ?_⟩
    · rw [payload, ← samples]
    · rw [payload, ← samples]; rfl
    · have laneB : (m.decision.laneB.map (BitVec.ofNat 8)).getD 255 = laneBByte m.decision.laneB := by cases m.decision.laneB <;> rfl
      rw [payload, laneB]
      rfl
    · rw [payload]; rfl
    · rw [payload]; rfl
    · rw [payload]; rfl
    · rw [payload]
    · rw [payload, owner]
      exact ⟨v.remainingHold sd, rfl, remainingHold_eq v sd c hc⟩
  · rw [if_neg]
    rintro ⟨late, boundary⟩
    omega

end Sys2Proof.Machine
end

section
/-! PROOFS. Completions: a frame's owner is told what became of it (R73). -/

namespace Sys2Proof.Machine

/-! ### The sent flag of one carried sample (R91) -/

section
variable {me : Nat} {ok : SentFlag → Bool} {dest : SentFlag} {c : OwnSample} {p : Sample} {pre post : List Sample}

/-- Whether a sample of the list is one that a frame of the station carried as `c`. -/
def Sample.Carried (me : Nat) (c : OwnSample) (p : Sample) : Prop := p.station = me ∧ p.content = c

theorem flagFirst_none {ps : List Sample} (absent : ∀ q ∈ ps, q.Carried me c → ok q.flag = false) : flagFirst me ok dest c ps = none := by
  induction ps with
  | nil => rfl
  | cons q ps ih =>
    rw [flagFirst, if_neg, ih fun r hr => absent r (List.mem_cons_of_mem q hr), Option.map_none]
    intro found
    simp only [Bool.and_eq_true, Sample.own, beq_iff_eq] at found
    rw [absent q List.mem_cons_self found.1] at found
    cases found.2

theorem flagFirst_skip {ps : List Sample} (absent : ∀ q ∈ pre, q.Carried me c → ok q.flag = false) :
    flagFirst me ok dest c (pre ++ ps) = (flagFirst me ok dest c ps).map (pre ++ ·) := by
  induction pre with
  | nil => simp
  | cons q pre ih =>
    rw [List.cons_append, flagFirst, if_neg, ih fun r hr => absent r (List.mem_cons_of_mem q hr), Option.map_map]
    · rfl
    · intro found
      simp only [Bool.and_eq_true, Sample.own, beq_iff_eq] at found
      rw [absent q List.mem_cons_self found.1] at found
      cases found.2

theorem flagFirst_head (mine : p.Carried me c) (passes : ok p.flag = true) :
    flagFirst me ok dest c (p :: post) = some ({ p with flag := dest } :: post) := by
  rw [flagFirst, if_pos]
  simp [Sample.own, mine.1, mine.2, passes]

/-- The entry that stands for a carried sample takes what became of its frame, WHATEVER its flag: where another entry has the same content,
the QUEUED one (log 22). -/
theorem settleFlags_one (mine : p.Carried me c)
    (only : (p.flag = .queued ∧ ∀ q ∈ pre, q.flag ≠ .queued) ∨ ∀ q ∈ pre ++ post, ¬ q.Carried me c) :
    settleFlags me dest [c] (pre ++ p :: post) = pre ++ { p with flag := dest } :: post := by
  have queued (is : p.flag = .queued) (before : ∀ q ∈ pre, q.Carried me c → isQueued q.flag = false) :
      flagFirst me isQueued dest c (pre ++ p :: post) = some (pre ++ { p with flag := dest } :: post) := by
    rw [flagFirst_skip before, flagFirst_head mine (by rw [is]; rfl)]
    rfl
  rw [settleFlags, List.foldl_cons, List.foldl_nil]
  rcases only with ⟨is, before⟩ | alone
  · rw [queued is fun q hq _ => by simpa [isQueued] using before q hq]
    rfl
  · have notBefore (q : Sample) (hq : q ∈ pre) : ¬ q.Carried me c := alone q (List.mem_append_left _ hq)
    have notBehind (q : Sample) (hq : q ∈ post) : ¬ q.Carried me c := alone q (List.mem_append_right _ hq)
    by_cases is : p.flag = .queued
    · rw [queued is fun q hq carried => absurd carried (notBefore q hq)]
      rfl
    · have unqueued : flagFirst me isQueued dest c (pre ++ p :: post) = none := flagFirst_none fun q hq carried => by
        rcases List.mem_append.1 hq with hq | hq
        · exact absurd carried (notBefore q hq)
        · rcases List.mem_cons.1 hq with rfl | hq
          · simpa [isQueued] using is
          · exact absurd carried (notBehind q hq)
      rw [unqueued, Option.none_or]
      by_cases already : p.flag = dest
      · rw [flagFirst_none fun q hq carried => ?_]
        · rw [Option.getD_none, ← already]
        · rcases List.mem_append.1 hq with hq | hq
          · exact absurd carried (notBefore q hq)
          · rcases List.mem_cons.1 hq with rfl | hq
            · simpa using already
            · exact absurd carried (notBehind q hq)
      · rw [flagFirst_skip fun q hq carried => absurd carried (notBefore q hq), flagFirst_head mine (by simpa using already)]
        rfl

end

/-! ### Completions of claim frames, queries and JOINs (O26) -/

section
variable {v : State}

/-- The line once the frame under transmission has been sent (R73). -/
def State.afterFrame (v : State) (q : List QFrame) : State := { v with line := { v.line with phase := .idle 0, backoff := false, queue := q } }

theorem complete_of {att : Attempt} {before behind : List QFrame} {f : QFrame} (sends : v.Sends att before f behind) (ends : att.left = 0) :
    v.transmitCompletes = (((v.afterFrame (before ++ behind)).frameSent f).1.walk).afterSent f ((v.afterFrame (before ++ behind)).frameSent f).2 :=
  complete_eq sends ends

theorem afterFrame_unwaited (q : List QFrame) (noWait : v.line.waiting = []) :
    v.afterFrame q = { v with line := { phase := .idle 0, queue := q, waiting := [], backoff := false } } := by
  simp only [State.afterFrame, noWait]

theorem claimTransmitted_asking {sd : Side} (asking : (v.claims.get sd).state = .asking) :
    v.claimTransmitted sd = v.setClaim sd { v.claims.get sd with sent := true, wait := some 3000 } := by
  rw [State.claimTransmitted, if_pos asking]
  rfl

theorem claimTransmitted_other {sd : Side} (other : (v.claims.get sd).state ≠ .asking) : v.claimTransmitted sd = v := by
  rw [State.claimTransmitted, if_neg other]

/-- The rest timer that a RELEASE's completion, or its drop, starts (R43). -/
theorem releaseSettled_starts {sd : Side} (noRest : (v.claims.get sd).rest = none) :
    ((v.claims.get sd).state = .resting .gap → v.releaseSettled sd = v.setClaim sd { v.claims.get sd with rest := some 20000 }) ∧
    ((v.claims.get sd).state = .resting .backOff →
      v.releaseSettled sd = v.setClaim sd { v.claims.get sd with rest := some ((v.sys.station.toNat + 1) * 5000) }) := by
  unfold State.releaseSettled
  refine ⟨fun gap => ?_, fun backOff => ?_⟩
  · simp only [gap, noRest, if_true]
    rfl
  · have time : v.clashBackOff = (v.sys.station.toNat + 1) * 5000 := by
      simp only [State.clashBackOff, State.number, ms]
      omega
    simp only [backOff, noRest, if_true, time]

/-- A walk leaves the line's phase and back-off, the claims, the sweeps and the coils. -/
theorem walk_sides (s : State) : s.walk.line.phase = s.line.phase ∧ s.walk.line.backoff = s.line.backoff ∧ s.walk.claims = s.claims ∧
    s.walk.sweeps = s.sweeps ∧ s.walk.coils = s.coils :=
  have only := walk_onlyOffers s
  ⟨only.phase, only.backoff, only.claims, only.sweeps, only.coils⟩

theorem settleSamples_one {x : Item} {r : Record} {p : Sample} {pre post : List Sample} (dest : SentFlag) (record : v.record? x = some r)
    (samples : r.samples = pre ++ p :: post) (mine : p.station = v.sys.station.toNat)
    (only : (p.flag = .queued ∧ ∀ q ∈ pre, q.flag ≠ .queued) ∨
      ∀ q ∈ pre ++ post, ¬ (q.station = p.station ∧ q.side = p.side ∧ q.coil = p.coil ∧ q.strength = p.strength ∧ q.time = p.time)) :
    v.settleSamples x dest [⟨p.side, p.coil, p.strength, p.time⟩] =
      v.putRecord { r with samples := pre ++ { p with flag := dest } :: post } := by
  have flags := settleFlags_one (me := v.number) (dest := dest) (c := p.content) (p := p) (pre := pre) (post := post) ⟨mine, rfl⟩
    (only.imp_right fun alone q hq carried => alone q hq (by
      obtain ⟨station, content⟩ := carried
      simp only [Sample.content, OwnSample.mk.injEq] at content
      exact ⟨station.trans mine.symm, content⟩))
  rw [Sample.content] at flags
  simp only [State.settleSamples, record, samples, flags]

end

/-- Settles O26. -/
theorem completionsTellTheirOwners : Obligations.CompletionsTellTheirOwners := by
  intro s v a att before behind f hv sends ends
  rw [exec_transmitComplete, ← hv, complete_of sends ends]
  refine ⟨fun sd c lane hc owner => ⟨fun payload asking => ?_, fun payload other => ?_, fun payload noRest gap => ?_,
    fun payload noRest backOff => ?_⟩, fun noWait => ⟨fun silent => ?_, fun m r p pre post payload owner record samples mine carried only => ?_⟩⟩
  all_goals try subst hc
  · obtain ⟨phase, backoff, claims, sweeps, coils⟩ := walk_sides ((v.afterFrame (before ++ behind)).claimTransmitted sd)
    simp only [State.frameSent, payload, owner, State.afterSent]
    refine ⟨_, rfl, ?_⟩
    rw [phase, backoff, claims, sweeps, coils, claimTransmitted_asking (v := v.afterFrame (before ++ behind)) asking]
    exact ⟨rfl, rfl, rfl, rfl, rfl⟩
  · obtain ⟨phase, backoff, claims, -, -⟩ := walk_sides ((v.afterFrame (before ++ behind)).claimTransmitted sd)
    simp only [State.frameSent, payload, owner, State.afterSent]
    refine ⟨_, rfl, ?_⟩
    rw [phase, backoff, claims, claimTransmitted_other (v := v.afterFrame (before ++ behind)) other]
    exact ⟨rfl, rfl, rfl⟩
  · obtain ⟨phase, backoff, claims, -, -⟩ := walk_sides ((v.afterFrame (before ++ behind)).releaseSettled sd)
    simp only [State.frameSent, payload, owner, State.afterSent]
    refine ⟨_, rfl, ?_⟩
    rw [phase, backoff, claims, (releaseSettled_starts (v := v.afterFrame (before ++ behind)) noRest).1 gap]
    exact ⟨rfl, rfl, rfl⟩
  · obtain ⟨phase, backoff, claims, -, -⟩ := walk_sides ((v.afterFrame (before ++ behind)).releaseSettled sd)
    simp only [State.frameSent, payload, owner, State.afterSent]
    refine ⟨_, rfl, ?_⟩
    rw [phase, backoff, claims, (releaseSettled_starts (v := v.afterFrame (before ++ behind)) noRest).2 backOff]
    exact ⟨rfl, rfl, rfl⟩
  · have alone : (v.afterFrame (before ++ behind)).frameSent f = (v.afterFrame (before ++ behind), none) ∧
        ∀ t : State, t.afterSent f none = t := by
      obtain ⟨lane, payload⟩ | ⟨receiver, tag, x, payload⟩ | ⟨m, payload, owner⟩ := silent
      · exact ⟨by simp only [State.frameSent, payload], fun t => by simp only [State.afterSent, payload]⟩
      · exact ⟨by simp only [State.frameSent, payload], fun t => by simp only [State.afterSent, payload]⟩
      · exact ⟨by simp only [State.frameSent, payload, owner], fun t => by simp only [State.afterSent, payload]⟩
    obtain ⟨sent, after⟩ := alone
    rw [sent, after, walk_empty (s := v.afterFrame (before ++ behind)) noWait, afterFrame_unwaited _ noWait]
  · simp only [State.frameSent, payload, owner, State.afterSent, State.samplesSent, carried]
    rw [settleSamples_one (v := v.afterFrame (before ++ behind)) .sent record samples mine only, walk_empty (by exact noWait),
      afterFrame_unwaited _ noWait]

/-! ### Completion of a DECIDE (O29) -/

section
variable {s t : State}

theorem lampDecide_eq (s : State) (sd : Side) (x : Item) (v : Verdict) (named : Bool) : ∃ lamps, s.lampDecide sd x v named = { s with lamps := lamps } := by
  cases v <;> cases named <;> exact ⟨_, rfl⟩

/-- The Alarm Unit changes lamps and sounder alone. -/
theorem alarmDecide_eq (s : State) (x : Item) (v : Verdict) (laneA : Nat) (laneB : Option Nat) (again : Bool) :
    ∃ lamps sounder, s.alarmDecide x v laneA laneB again = { s with lamps := lamps, sounder := sounder } := by
  unfold State.alarmDecide
  split
  · exact ⟨_, _, rfl⟩
  · obtain ⟨first, left⟩ := lampDecide_eq s .L x v (s.names .L laneA laneB)
    obtain ⟨second, right⟩ := lampDecide_eq { s with lamps := first } .R x v (s.names .R laneA laneB)
    dsimp only
    rw [left, right]
    split <;> exact ⟨_, _, rfl⟩

/-- From `s` to `t` every record keeps all but what offers move, and no counter but SAMPLES LOST moves. -/
structure RecordsStand (s t : State) : Prop where
  records : ∀ x, (t.record? x).map Record.bare = (s.record? x).map Record.bare
  counter : ∀ k, k ≠ .samplesLost → counterAt t.report.counters k = counterAt s.report.counters k

theorem RecordsStand.trans {u : State} (h : RecordsStand s t) (k : RecordsStand t u) : RecordsStand s u :=
  ⟨fun x => (k.records x).trans (h.records x), fun c hc => (k.counter c hc).trans (h.counter c hc)⟩

theorem OnlyOffers.stand (h : OnlyOffers s t) : RecordsStand s t := ⟨h.records, fun _ hc => h.counter hc⟩

theorem OnlySide.stand {sd : Side} (h : OnlySide sd s t) : RecordsStand s t := ⟨h.records, fun _ hc => h.counter hc⟩

theorem provisionalTriggers_stand (s : State) (laneA : Nat) (laneB : Option Nat) : RecordsStand s (s.provisionalTriggers laneA laneB) := by
  rw [provisionalTriggers_eq]
  exact (triggerNamed_onlySide _ _ _ _).stand.trans (triggerNamed_onlySide _ _ _ _).stand

theorem RecordsStand.record {x : Item} {r : Record} (h : RecordsStand s t) (record : s.record? x = some r) :
    ∃ r', t.record? x = some r' ∧ r'.bare = r.bare := by
  have same := h.records x
  rw [record, Option.map_some, Option.map_eq_some_iff] at same
  exact same

theorem closed_of_bare {r r' : Record} {d : Decision} {time : Clock} (bare : r'.bare = r.bare) (closed : r.state = .closed d time) :
    r'.state = .closed d time := by
  have states := congrArg Record.state bare
  simp only [Record.bare, closed] at states
  cases st : r'.state <;> rw [st] at states <;> simp only [RecState.bare] at states <;> cases states
  rfl

theorem lead_of_bare {r r' : Record} {l : Lead} (bare : r'.bare = r.bare) (lead : r.state = .lead l) :
    ∃ l', r'.state = .lead l' ∧ { l' with owed := none } = { l with owed := none } := by
  have states := congrArg Record.state bare
  simp only [Record.bare, lead] at states
  cases st : r'.state with
  | lead l' =>
    rw [st] at states
    exact ⟨l', rfl, RecState.lead.inj states⟩
  | sole _ | joint _ _ | closed _ _ => rw [st] at states; cases states

theorem record?_putRecState {x : Item} {r : Record} (record : s.record? x = some r) (st : RecState) :
    (s.putRecState r st).record? x = some { r with state := st } := by
  have item := record?_item record
  rw [State.putRecState, record?_putRecord (r := r) (by simpa [item] using record), if_pos item.symm]

/-- What a final DECIDE's completion, or a PROVISIONAL's, makes of its LEAD record (R106). -/
theorem decisionSent_record {x : Item} {r : Record} {l : Lead} {m : DecideMsg} (lead : s.lead? x = some (r, l)) (first : m.again = false) :
    ∃ r', (s.decisionSent x m).record? x = some r' ∧ (s.decisionSent x m).report = s.report ∧ (s.decisionSent x m).sys = s.sys ∧
      (Verdict.isFinal m.decision.verdict = true → r'.state = .closed m.decision s.time.clock) ∧
      (m.decision.verdict = .provisional → r'.state = .lead { l with provSent := true }) ∧
      (m.decision.verdict = .withdraw → r'.state = .lead l) := by
  obtain ⟨record, state⟩ := lead?_eq_some.1 lead
  rw [State.decisionSent, lead]
  simp only [first, Bool.false_eq_true, if_false]
  cases verdict : m.decision.verdict with
  | clear | alarm | inbound | linger =>
    exact ⟨_, record?_putRecState record _, rfl, rfl, fun _ => rfl, nofun, nofun⟩
  | provisional => exact ⟨_, record?_putRecState record (.lead { l with provSent := true }), rfl, rfl, nofun, fun _ => rfl, nofun⟩
  | withdraw => exact ⟨r, record, rfl, rfl, nofun, nofun, fun _ => state⟩

theorem counterAt_count (running : s.sys.run = .running) (j k : CounterName) (n : Nat) :
    counterAt (s.count j n).report.counters k =
      if k = j then min 65535 (counterAt s.report.counters k + n) else counterAt s.report.counters k := by
  rw [State.count_running running, State.setReport_report]
  by_cases same : k = j
  · rw [if_pos same, same, counterAt_putCounter_self]
  · rw [if_neg same, counterAt_putCounter_of_ne _ _ same]

/-- The decision counters at a DECIDE of the station that is no repeat (R157). -/
theorem countDecision_counters (running : s.sys.run = .running) (verdict : Verdict) (k : CounterName) :
    counterAt (s.countDecision verdict false).report.counters k =
      if (k = .led ∧ Verdict.isFinal verdict = true) ∨ (k = .alarms ∧ verdict = .alarm) ∨ (k = .lingers ∧ verdict = .linger) ∨
        (k = .withdrawn ∧ verdict = .withdraw)
      then min 65535 (counterAt s.report.counters k + 1) else counterAt s.report.counters k := by
  have again (j : CounterName) : (s.count j 1).sys.run = .running := by rw [State.count_sys, running]
  cases verdict with
  | clear | inbound | withdraw | provisional => cases k <;> simp [State.countDecision, counterAt_count running, Verdict.isFinal]
  | alarm | linger => cases k <;> simp [State.countDecision, counterAt_count running, counterAt_count (again _), Verdict.isFinal]

theorem countDecision_table (s : State) (verdict : Verdict) (again : Bool) : (s.countDecision verdict again).table = s.table := by
  unfold State.countDecision
  split
  · rfl
  · cases verdict <;> simp

end

theorem isFinal_iff {v : Verdict} : Verdict.isFinal v = true ↔ v ∈ [.clear, .alarm, .inbound, .linger] := by
  cases v <;> decide

/-- Settles O29. -/
theorem decideCompletionClosesAndCounts : Obligations.DecideCompletionClosesAndCounts := by
  intro s v a att before behind f m r l hv sends ends payload owner lead running first
  rw [exec_transmitComplete, ← hv, complete_of sends ends]
  obtain ⟨r1, record, report, sys, final, provisional, withdraw⟩ := decisionSent_record (s := v.afterFrame (before ++ behind)) (m := m) lead first
  obtain ⟨lamps, sounder, alarms⟩ := alarmDecide_eq ((v.afterFrame (before ++ behind)).decisionSent m.item m) m.item m.decision.verdict
    m.decision.laneA m.decision.laneB false
  generalize hu : (v.afterFrame (before ++ behind)).decisionSent m.item m = u at record report sys alarms
  obtain ⟨t, told, stand⟩ : ∃ t, ((((v.afterFrame (before ++ behind)).frameSent f).1.walk).afterSent f
      ((v.afterFrame (before ++ behind)).frameSent f).2) = t ∧
      RecordsStand ({ u with lamps := lamps, sounder := sounder }.countDecision m.decision.verdict false) t := by
    refine ⟨_, rfl, ?_⟩
    simp only [State.frameSent, State.afterSent, payload, owner, first, hu, alarms]
    split
    · exact (walk_onlyOffers _).stand.trans (provisionalTriggers_stand _ _ _)
    · exact (walk_onlyOffers _).stand
  rw [told]
  have runs : ({ u with lamps := lamps, sounder := sounder } : State).sys.run = .running := by
    rw [← running]
    exact congrArg Sys.run sys
  have counters (k : CounterName) (other : k ≠ .samplesLost) := (stand.counter k other).trans (countDecision_counters runs m.decision.verdict k)
  have recorded : ({ u with lamps := lamps, sounder := sounder }.countDecision m.decision.verdict false).record? m.item = some r1 := by
    rw [State.record?, countDecision_table]
    exact record
  obtain ⟨r', found, bare⟩ := stand.record recorded
  have counted : ∀ k, counterAt u.report.counters k = counterAt v.report.counters k := fun k => by rw [report]; rfl
  refine ⟨t, r', rfl, found, fun isFinal => ?_, fun isProvisional => ?_, fun isWithdraw => ?_, ?_, ?_, ?_, ?_⟩
  · exact closed_of_bare bare (final (isFinal_iff.2 isFinal))
  · obtain ⟨l', state, same⟩ := lead_of_bare bare (provisional isProvisional)
    exact ⟨l', state, congrArg Lead.provSent same⟩
  · obtain ⟨l', state, same⟩ := lead_of_bare bare (withdraw isWithdraw)
    simp only [Lead.mk.injEq] at same
    exact ⟨l', state, same.2.1, same.1⟩
  · refine (counters .led nofun).trans ?_
    simp only [counted, ← isFinal_iff]
    simp [counterAt]
  · refine (counters .alarms nofun).trans ?_
    simp only [counted]
    simp [counterAt]
  · refine (counters .lingers nofun).trans ?_
    simp only [counted]
    simp [counterAt]
  · refine (counters .withdrawn nofun).trans ?_
    simp only [counted]
    simp [counterAt]

end Sys2Proof.Machine
end

section
/-! PROOFS. A heard DECIDE at the Passage Engine (O35). -/

namespace Sys2Proof.Machine

/-! ### A record that closes -/

section
variable {s t : State} {x : Item} {r : Record}

theorem OnlyQueries.record (h : OnlyQueries s t) (record : s.record? x = some r) : ∃ r', t.record? x = some r' ∧ r'.unslotted = r.unslotted := by
  have same := h.records x
  rwa [record, Option.map_some, Option.map_eq_some_iff] at same

/-- A record that is closed, but for the frames and the slot given up, is one stored as CLOSED (R104). -/
theorem closeBy_onlyQueries (d : Decision) (undecided : ∀ d' close, r.state ≠ .closed d' close) :
    OnlyQueries (s.putRecState r (.closed d s.time.clock)) (s.closeBy r d) := by
  have given (t : State) : OnlyOffers t (((t.giveUp (.sight r.item)).giveUp (.join r.item)).giveUp (.decision r.item)) :=
    ((giveUp_onlyOffers _ _).trans (giveUp_onlyOffers _ _)).trans (giveUp_onlyOffers _ _)
  cases state : r.state with
  | sole _ => simp only [State.closeBy, state]; exact ((given _).trans (askRemoval_onlyOffers _ _)).queryFree
  | joint _ _ => simp only [State.closeBy, state]; exact ((given _).trans (askRemoval_onlyOffers _ _)).queryFree
  | lead l =>
    simp only [State.closeBy, state]
    exact (((given _).trans (askRemoval_onlyOffers _ _)).queryFree.trans (endQuery_onlyQueries _ _ _)).trans (askRemoval_onlyOffers _ _).queryFree
  | closed d' close => exact absurd state (undecided d' close)

theorem closeBy_closed {d d' : Decision} {close : Clock} (closed : r.state = .closed d' close) : s.closeBy r d = s := by
  simp only [State.closeBy, closed]

theorem closed_of_unslotted {r r' : Record} {d : Decision} {time : Clock} (same : r'.unslotted = r.unslotted) (closed : r.state = .closed d time) :
    r'.state = .closed d time := by
  have states := congrArg Record.state same
  simp only [Record.unslotted, closed] at states
  cases st : r'.state <;> rw [st] at states <;> simp only [RecState.unslotted] at states <;> cases states
  rfl

end

/-! ### A heard DECIDE, block by block -/

section
variable {v : State} {b : DecideBody}

/-- A heard DECIDE that is no PROVISIONAL leaves the records and the directory as the Passage Engine left them. -/
theorem takeDecide_passage (other : b.verdict ≠ .provisional) :
    (v.takeDecide b).table = (v.passageDecide b).table ∧ (v.takeDecide b).directory = (v.passageDecide b).directory := by
  obtain ⟨lamps, sounder, alarms⟩ := alarmDecide_eq (v.passageDecide b) b.item b.verdict (decisionOf b).laneA (decisionOf b).laneB b.again
  simp only [State.takeDecide, other, if_false, alarms, and_self]

theorem passageDecide_final (final : Verdict.isFinal b.verdict = true) {r : Record} (record : v.record? b.item = some r) :
    v.passageDecide b = v.closeBy r (decisionOf b) := by
  simp only [State.passageDecide, final, if_true, record]

theorem passageDecide_unknown (final : Verdict.isFinal b.verdict = true) (record : v.record? b.item = none) :
    v.passageDecide b = v.setDirectory (dirRemove b.item v.directory) := by
  simp only [State.passageDecide, final, if_true, record]

theorem passageDecide_open (ongoing : Verdict.isFinal b.verdict = false) :
    v.passageDecide b = v.setDirectory (dirRefresh b.item v.time.clock v.directory) := by
  simp only [State.passageDecide, ongoing, Bool.false_eq_true, if_false]

theorem dirRemove_eq (x : Item) (d : List DirEntry) : dirRemove x d = d.filter fun e => e.item ≠ x :=
  List.filter_congr fun e _ => by rw [Bool.eq_iff_iff]; simp

theorem dirRefresh_known {x : Item} {now : Clock} {d : List DirEntry} {e : DirEntry} (known : d.find? (fun e => e.item == x) = some e) :
    dirRefresh x now d = (d.filter fun e => e.item ≠ x) ++ [⟨x, e.lead, now⟩] := by
  have entry : dirEntry x d = some e := known
  simp only [dirRefresh, entry, dirPut, Option.isNone_some, Bool.false_eq_true, false_and, if_false, dirRemove_eq]

theorem dirRefresh_unknown {x : Item} {now : Clock} {d : List DirEntry} (unknown : d.find? (fun e => e.item == x) = none) :
    dirRefresh x now d = d := by
  have entry : dirEntry x d = none := unknown
  simp only [dirRefresh, entry]

end

/-! ### A trigger leaves the records as they were but for sent flags -/

/-- A record without its sent flags. -/
def Record.flagless (r : Record) : Record := { r with samples := r.samples.map fun q => { q with flag := SentFlag.sent } }

/-- The records of `t` are those of `s` but for sent flags. -/
def State.FlagsMove (s t : State) : Prop := ∀ x, (t.record? x).map Record.flagless = (s.record? x).map Record.flagless

section
variable {s t : State}

theorem settleFlags_flagless (me : Nat) (dest : SentFlag) (cs : List OwnSample) (ps : List Sample) :
    (settleFlags me dest cs ps).map (fun p => { p with flag := SentFlag.sent }) = ps.map (fun p => { p with flag := SentFlag.sent }) := by
  have bare := congrArg (List.map fun p : Sample => { p with flag := SentFlag.sent }) (settleFlags_bare me dest cs ps)
  rw [List.map_map, List.map_map] at bare
  exact bare

theorem settleSamples_flagsMove (x : Item) (dest : SentFlag) (cs : List OwnSample) : t.FlagsMove (t.settleSamples x dest cs) := by
  intro y
  unfold State.settleSamples
  split
  · next r record =>
    have item := record?_item record
    rw [record?_putRecord (r := r) (by simpa [item] using record)]
    split
    · next here =>
      rw [here.trans item, record, Option.map_some, Option.map_some]
      exact congrArg some (congrArg (fun ps => { r with samples := ps }) (settleFlags_flagless _ _ _ _))
    · rfl
  · rfl

theorem offer_flagsMove (key : Option WaitKey) (o : Owner) (p : Payload) : t.FlagsMove (t.offer key o p).1 := by
  have taken (q : List QFrame) (ks : List WaitKey) (d : Option (JoinMsg × Owner)) : t.FlagsMove (((t.setQueue q).setWaiting ks).loseJoin d) := by
    have counted (u : State) (n : Nat) : (u.count .samplesLost n).table = u.table := State.count_table _ _ _
    cases d with
    | none => exact fun _ => rfl
    | some d =>
      obtain ⟨m, o⟩ := d
      cases o with
      | record x =>
        intro y
        refine (settleSamples_flagsMove x .sent m.samples y).trans ?_
        rw [State.record?, counted]
        rfl
      | side _ | noRecord | slot _ | reportUnit =>
        intro y
        simp only [State.loseJoin, State.record?, counted]
        rfl
  unfold State.offer
  cases judgeOffer o p t.line.queue with
  | into q left => cases key <;> exact fun _ => rfl
  | placed q d =>
    cases key with
    | none => exact taken q t.line.waiting d
    | some k => exact taken q _ d
  | refused =>
    cases key with
    | none => exact fun _ => rfl
    | some k =>
      intro y
      simp only [State.enterWaiting]
      split <;> rfl

theorem State.FlagsMove.offer (h : s.FlagsMove t) (key : Option WaitKey) (o : Owner) (p : Payload) : s.FlagsMove (t.offer key o p).1 :=
  fun x => (offer_flagsMove key o p x).trans (h x)

theorem takeRequest_flagsMove (sd : Side) (h : s.FlagsMove t) : s.FlagsMove (t.takeRequest sd).1 := by
  unfold State.takeRequest
  dsimp only
  split
  · exact h
  · exact State.FlagsMove.offer (t := t.setClaim sd _) h _ _ _

theorem becomeFree_flagsMove (sd : Side) (h : s.FlagsMove t) : s.FlagsMove (t.becomeFree sd).1 := by
  unfold State.becomeFree
  dsimp only
  split
  · exact takeRequest_flagsMove (t := t.setClaim sd _) sd h
  · exact h

theorem endHold_table (s : State) (sd : Side) : (s.endHold sd).table = s.table := by
  have drained (t : State) : (t.drainEnergised sd).table = t.table := by
    unfold State.drainEnergised
    split
    · unfold State.drain
      dsimp only
      split <;> rfl
    · rfl
  unfold State.endHold
  dsimp only
  split
  · split
    · rfl
    · exact drained _
  · rfl

/-- What a side's Scheduler and claim unit do moves sent flags at most. -/
theorem flagsMove_kept (s : State) : SweepKept s.FlagsMove where
  sweep _ _ h := h
  coils _ _ _ h := h
  activate _ h := h
  claim _ _ _ _ _ h := h
  take sd _ h := takeRequest_flagsMove sd h
  endHold sd h := fun x => by rw [State.record?, endHold_table]; exact h x
  giveUpLane {t} sd h := by
    have released : s.FlagsMove ((t.giveUp (.defer sd)).offerRelease sd).1 := State.FlagsMove.offer (t := t.giveUp (.defer sd)) h _ _ _
    unfold State.giveUpLane
    dsimp only
    split
    · split
      · split
        · exact h
        · exact becomeFree_flagsMove (t := t.setClaim sd _) sd h
      · split
        · exact becomeFree_flagsMove (t := State.setClaim _ sd _) sd released
        · exact released
    · exact h

end

theorem provisionalTriggers_directory (s : State) (laneA : Nat) (laneB : Option Nat) :
    (s.provisionalTriggers laneA laneB).directory = s.directory := by
  rw [provisionalTriggers_eq, (triggerNamed_onlySide _ _ _ _).directory, (triggerNamed_onlySide _ _ _ _).directory]

/-- Settles O35. -/
theorem heardDecideClosesThePassage : Obligations.HeardDecideClosesThePassage := by
  intro s v a sender stamp b d hv hears hd
  rw [exec_heardDecide, ← hv, takeFrame_k16 hears rfl rfl]
  have decision : decisionOf b = d := hd.symm
  generalize hu : v.setPhase (.idle 0) = u
  have same : u.table = v.table ∧ u.directory = v.directory ∧ u.time = v.time ∧ ∀ x, u.record? x = v.record? x := by
    rw [← hu]; exact ⟨rfl, rfl, rfl, fun _ => rfl⟩
  obtain ⟨table, directory, time, records⟩ := same
  have ended (final : b.verdict ∈ [.clear, .alarm, .inbound, .linger]) : b.verdict ≠ .provisional ∧ Verdict.isFinal b.verdict = true :=
    ⟨fun e => by rw [e] at final; simp at final, isFinal_iff.2 final⟩
  refine ⟨fun r final record undecided => ?_, fun r d' close final record closed => ?_, fun final unknown => ?_, fun ongoing => ?_⟩
  · obtain ⟨other, isFinal⟩ := ended final
    obtain ⟨sameTable, sameDirectory⟩ := takeDecide_passage (v := u) other
    rw [← records] at record
    have only := closeBy_onlyQueries (s := u) (r := r) d undecided
    obtain ⟨r', found, unslotted⟩ := only.record (record?_putRecState record _)
    have samples := congrArg (fun r => r.samples.length) unslotted
    simp only [Record.unslotted, List.length_map] at samples
    rw [passageDecide_final isFinal record, decision] at sameTable sameDirectory
    refine ⟨_, r', rfl, ?_, ?_, ?_, samples, ?_⟩
    · rw [State.record?, sameTable]; exact found
    · rw [← time]; exact closed_of_unslotted unslotted rfl
    · have mark := congrArg Record.mark unslotted
      simpa only [Record.unslotted] using mark
    · rw [sameDirectory, only.directory]; exact directory
  · obtain ⟨other, isFinal⟩ := ended final
    obtain ⟨sameTable, sameDirectory⟩ := takeDecide_passage (v := u) other
    rw [passageDecide_final isFinal (records _ ▸ record), closeBy_closed closed] at sameTable sameDirectory
    exact ⟨_, rfl, sameTable.trans table, sameDirectory.trans directory⟩
  · obtain ⟨other, isFinal⟩ := ended final
    obtain ⟨sameTable, sameDirectory⟩ := takeDecide_passage (v := u) other
    rw [passageDecide_unknown isFinal (records _ ▸ unknown)] at sameTable sameDirectory
    refine ⟨_, rfl, sameTable.trans table, ?_⟩
    rw [sameDirectory, ← directory]
    exact dirRemove_eq _ _
  · have isOpen : Verdict.isFinal b.verdict = false := by
      rcases List.mem_cons.1 ongoing with e | e
      · rw [e]; rfl
      · rw [List.mem_singleton.1 e]; rfl
    obtain ⟨lamps, sounder, alarms⟩ := alarmDecide_eq (u.passageDecide b) b.item b.verdict (decisionOf b).laneA (decisionOf b).laneB b.again
    have start : u.FlagsMove { u.setDirectory (dirRefresh b.item v.time.clock v.directory) with lamps := lamps, sounder := sounder } := fun _ => rfl
    have after : (u.takeDecide b).directory = dirRefresh b.item v.time.clock v.directory ∧ u.FlagsMove (u.takeDecide b) ∧
        (b.verdict = .withdraw → (u.takeDecide b).table = u.table) := by
      rw [passageDecide_open isOpen, time, directory] at alarms
      simp only [State.takeDecide, passageDecide_open isOpen, time, directory, alarms]
      split
      · next provisional =>
        refine ⟨(provisionalTriggers_directory _ _ _), (flagsMove_kept u).provisionalTriggers _ _ start, fun e => ?_⟩
        rw [provisional] at e; cases e
      · exact ⟨rfl, fun _ => rfl, fun _ => rfl⟩
    obtain ⟨refreshed, moved, withdrawn⟩ := after
    refine ⟨_, rfl, fun e known => ?_, fun unknown => ?_, fun withdraw => (withdrawn withdraw).trans table, fun x bare hbare => ?_⟩
    · rw [refreshed, dirRefresh_known known]
    · rw [refreshed, dirRefresh_unknown unknown]
    · rw [hbare, ← records]
      exact moved x

end Sys2Proof.Machine
end

section
/-! PROOFS. The expiries of the Passage Engine (O36). -/

namespace Sys2Proof.Machine

/-! ### A stable sort, by the places of what is sorted -/

section
variable {α : Type} (key : α → Nat)

/-- Of two entries with their places the first goes before: a greater key, or the same key and an earlier place. -/
def Ahead (p q : α × Nat) : Prop := key q.1 < key p.1 ∨ key q.1 = key p.1 ∧ p.2 < q.2

theorem Ahead.trans {p q r : α × Nat} (h : Ahead key p q) (k : Ahead key q r) : Ahead key p r := by
  unfold Ahead at *
  omega

theorem insertDesc_map {β : Type} (g : β → α) (b : β) (l : List β) :
    (insertDesc (fun b => key (g b)) b l).map g = insertDesc key (g b) (l.map g) := by
  induction l with
  | nil => rfl
  | cons c l ih =>
    simp only [insertDesc, List.map_cons]
    split
    · rfl
    · rw [List.map_cons, ih]

theorem sortDesc_map {β : Type} (g : β → α) (l : List β) : (sortDesc (fun b => key (g b)) l).map g = sortDesc key (l.map g) := by
  induction l with
  | nil => rfl
  | cons b l ih =>
    simp only [sortDesc, List.foldr_cons, List.map_cons] at ih ⊢
    rw [insertDesc_map, ih]

theorem insertDesc_perm (a : α) (l : List α) : (insertDesc key a l).Perm (a :: l) := by
  induction l with
  | nil => exact .refl _
  | cons b l ih =>
    simp only [insertDesc]
    split
    · exact .refl _
    · exact (ih.cons b).trans (.swap a b l)

theorem sortDesc_perm (l : List α) : (sortDesc key l).Perm l := by
  induction l with
  | nil => exact .refl _
  | cons a l ih => exact (insertDesc_perm key a _).trans (ih.cons a)

theorem insertDesc_ahead {a : α × Nat} {l : List (α × Nat)} (sorted : l.Pairwise (Ahead key)) (first : ∀ b ∈ l, a.2 < b.2) :
    (insertDesc (fun b => key b.1) a l).Pairwise (Ahead key) := by
  induction l with
  | nil => exact List.pairwise_singleton _ _
  | cons b l ih =>
    obtain ⟨above, rest⟩ := List.pairwise_cons.1 sorted
    simp only [insertDesc]
    split
    · next le =>
      have ahead : Ahead key a b := by
        have := first b List.mem_cons_self
        unfold Ahead
        omega
      refine List.pairwise_cons.2 ⟨fun c hc => ?_, sorted⟩
      rcases List.mem_cons.1 hc with rfl | hc
      · exact ahead
      · exact ahead.trans key (above c hc)
    · next gt =>
      refine List.pairwise_cons.2 ⟨fun c hc => ?_, ih rest fun c hc => first c (List.mem_cons_of_mem b hc)⟩
      rcases List.mem_cons.1 ((insertDesc_perm _ a l).mem_iff.1 hc) with rfl | hc
      · exact .inl (Nat.lt_of_not_le gt)
      · exact above c hc

theorem sortDesc_ahead {l : List (α × Nat)} (placed : l.Pairwise fun a b => a.2 < b.2) : (sortDesc (fun b => key b.1) l).Pairwise (Ahead key) := by
  induction l with
  | nil => exact .nil
  | cons a l ih =>
    obtain ⟨first, rest⟩ := List.pairwise_cons.1 placed
    exact insertDesc_ahead key (ih rest) fun b hb => first b ((sortDesc_perm _ l).mem_iff.1 hb)

/-- The first `n` of a stable descending sort, by their places: each goes before every entry that is left out. -/
theorem sortDesc_places (l : List α) (n : Nat) : ∃ places : List Nat, places.Nodup ∧ places.length = min n l.length ∧
    ((sortDesc key l).take n).map some = places.map (fun i => l[i]?) ∧
    ∀ i ∈ places, ∀ j p q, j ∉ places → l[i]? = some p → l[j]? = some q → Ahead key (p, i) (q, j) := by
  have places : (l.zipIdx.Pairwise fun a b => a.2 < b.2) := by
    rw [← List.pairwise_map (f := Prod.snd) (R := fun a b => a < b), List.zipIdx_map_snd]
    exact List.pairwise_lt_range'
  have perm := sortDesc_perm (fun b : α × Nat => key b.1) l.zipIdx
  have sorted := sortDesc_ahead key places
  have mem (a : α × Nat) : a ∈ sortDesc (fun b : α × Nat => key b.1) l.zipIdx ↔ l[a.2]? = some a.1 := by
    rw [perm.mem_iff, List.mem_zipIdx_iff_getElem?]
  have values : sortDesc key l = (sortDesc (fun b : α × Nat => key b.1) l.zipIdx).map Prod.fst := by
    rw [sortDesc_map key Prod.fst, List.zipIdx_map_fst]
  have distinct : ((sortDesc (fun b : α × Nat => key b.1) l.zipIdx).map Prod.snd).Nodup := by
    rw [(perm.map Prod.snd).nodup_iff, List.zipIdx_map_snd]
    exact List.nodup_range'
  generalize sortDesc (fun b : α × Nat => key b.1) l.zipIdx = sortedPairs at *
  refine ⟨(sortedPairs.take n).map Prod.snd, distinct.sublist ((List.take_sublist n _).map _), ?_, ?_, ?_⟩
  · rw [List.length_map, List.length_take, perm.length_eq, List.length_zipIdx]
  · rw [values, ← List.map_take, List.map_map, List.map_map]
    refine List.map_congr_left fun a ha => ?_
    exact ((mem a).1 (List.mem_of_mem_take ha)).symm
  · intro i hi j p q hj hp hq
    obtain ⟨⟨p', i'⟩, inside, rfl⟩ := List.mem_map.1 hi
    have same : p' = p := Option.some.inj (((mem _).1 (List.mem_of_mem_take inside)).symm.trans hp)
    have behind : (q, j) ∈ sortedPairs.drop n := by
      have all : (q, j) ∈ sortedPairs.take n ++ sortedPairs.drop n := by
        rw [List.take_append_drop]
        exact (mem _).2 hq
      rcases List.mem_append.1 all with taken | left
      · exact absurd (List.mem_map.2 ⟨_, taken, rfl⟩) hj
      · exact left
    rw [← List.take_append_drop n sortedPairs] at sorted
    rw [← same]
    exact (List.pairwise_append.1 sorted).2.2 _ inside _ behind

end

/-! ### Freeing a record (R96, R100, R110) -/

section
variable {s : State} {x : Item} {q : List QFrame}

theorem orphan_payload (x : Item) (q : List QFrame) : (orphan x q).map QFrame.payload = q.map QFrame.payload := by
  rw [orphan, List.map_map]
  refine List.map_congr_left fun f _ => ?_
  simp only [Function.comp]
  split <;> rfl

theorem freeRecord_record (s : State) (x : Item) : (s.freeRecord x).record? x = none ∧
    ∀ y, y ≠ x → (s.freeRecord x).record? y = s.record? y :=
  ⟨findRecord_replace_none x s.table, fun _ other => findRecord_replace_of_ne other (fun _ e => by cases e) s.table⟩

theorem freeRecord_waiting (s : State) (x : Item) : (.decision x) ∉ (s.freeRecord x).line.waiting := by
  simp [State.freeRecord, State.giveUp]

/-- The SIGHT of a freed record that is not under transmission is still its own (log 23). -/
theorem orphan_sights (unsent : ∀ f ∈ q, f.underTx = false) :
    ((orphan x q).filter fun f => !(ofRecord x f && isSight f)).map QFrame.payload =
      (q.filter fun f => f.owner ≠ .record x || !isSight f).map QFrame.payload := by
  rw [orphan, List.filter_map, List.map_map]
  have kept : (q.filter ((fun f => !(ofRecord x f && isSight f)) ∘
      fun f => if ofRecord x f && !(isSight f && !f.underTx) then { f with owner := .noRecord } else f)) =
      q.filter fun f => f.owner ≠ .record x || !isSight f := by
    refine List.filter_congr fun f hf => ?_
    simp only [Function.comp, unsent f hf, Bool.not_false, Bool.and_true]
    by_cases own : f.owner = .record x <;> cases sight : isSight f <;> simp [ofRecord, own, sight]
  rw [kept]
  refine List.map_congr_left fun f _ => ?_
  simp only [Function.comp]
  split <;> rfl

/-- A SOLE record that is freed while none waits and none of its SIGHTs is under transmission (R100). -/
theorem freeSole_unwaited {r : Record} (running : s.sys.run = .running) (unsent : ∀ f ∈ s.line.queue, f.underTx = false)
    (unwaited : s.line.waiting = []) (fits : s.line.queue.length ≤ 8) :
    (s.freeSole r).record? r.item = none ∧ (∀ y, y ≠ r.item → (s.freeSole r).record? y = s.record? y) ∧
      (s.freeSole r).line.queue.map QFrame.payload =
        (s.line.queue.filter fun f => f.owner ≠ .record r.item || !isSight f).map QFrame.payload ∧
      (s.freeSole r).report.counters.samplesLost = min 65535 (s.report.counters.samplesLost + r.samples.length) := by
  have line : ((s.freeRecord r.item).count .samplesLost r.samples.length).line = (s.freeRecord r.item).line := State.count_line _ _ _
  have none : (s.freeRecord r.item).line.waiting = [] := by simp [State.freeRecord, State.giveUp, unwaited]
  have queue : (s.freeRecord r.item).line.queue = orphan r.item s.line.queue := rfl
  have stillUnsent : ∀ f ∈ orphan r.item s.line.queue, f.underTx = false := by
    intro f hf
    obtain ⟨g, hg, rfl⟩ := List.mem_map.1 hf
    split <;> exact unsent g hg
  have freed : s.freeSole r = ((s.freeRecord r.item).count .samplesLost r.samples.length).setQueue
      ((orphan r.item s.line.queue).filter fun f => !(ofRecord r.item f && isSight f)) := by
    rw [State.freeSole, askRemoval_unwaited (by rw [line, none]) (by rw [line, queue, orphan, List.length_map]; exact fits)
      (fun f hf _ => stillUnsent f (by rw [line, queue] at hf; exact hf)), line, queue]
  obtain ⟨gone, others⟩ := freeRecord_record s r.item
  have record (y : Item) : (s.freeSole r).record? y = (s.freeRecord r.item).record? y := by
    rw [freed]
    exact congrArg (findRecord y) (State.count_table _ _ _)
  refine ⟨(record _).trans gone, fun y other => (record y).trans (others y other), ?_, ?_⟩
  · rw [freed]
    exact orphan_sights unsent
  · rw [freed]
    exact counterAt_count (s := s.freeRecord r.item) running .samplesLost .samplesLost r.samples.length

/-- Of a queue with one frame under transmission a removal holds that one alone. -/
theorem holdRemoval_sent {ok : QFrame → Bool} {before behind : List QFrame} {f : QFrame} (kind : ok f = true) (sent : f.underTx = true)
    (front : ∀ g ∈ before, g.underTx = false) (back : ∀ g ∈ behind, g.underTx = false) :
    holdRemoval ok (before ++ f :: behind) = before ++ { f with asked := .remove } :: behind := by
  have same {q : List QFrame} (unsent : ∀ g ∈ q, g.underTx = false) : holdRemoval ok q = q := holdRemoval_unsent fun g hg _ => unsent g hg
  have split : holdRemoval ok (before ++ f :: behind) =
      holdRemoval ok before ++ (if ok f && f.underTx then { f with asked := .remove } else f) :: holdRemoval ok behind := by
    simp only [holdRemoval, List.map_append, List.map_cons]
  rw [split, same front, same back, kind, sent]
  rfl

end

/-! ### A takeover SIGHT (R108) -/

section
variable {s : State} {r : Record}

theorem sight_apart {q : List QFrame} {m : SightMsg} (apart : ∀ f ∈ q, ∀ n, f.payload = .sight n → n.item ≠ m.item) :
    ∀ f ∈ q, (Payload.sight m).meets f.payload = false := by
  intro f hf
  cases payload : f.payload with
  | sight n => simpa [Payload.meets] using apart f hf n payload
  | join _ | decision _ | claim _ | defer _ | release _ | query _ _ _ | report => rfl

theorem offerTakeover_fresh (room : s.NormalRoom) (apart : ∀ f ∈ s.line.queue, ∀ m, f.payload = .sight m → m.item ≠ r.item) :
    s.offerTakeover r = ((((s.setQueue (s.line.queue ++
      [QFrame.fresh (.record r.item) (.sight (sightOf r true false (s.strongestOwn r)))])).giveUp (.sight r.item)).flagSamples r.item anyFlag
        .queued (s.strongestOwn r)), .taken) := by
  rw [State.offerTakeover, offer_fresh (takesFresh_of_room room (sight_apart apart))]

theorem flagSamples_record {x : Item} {r : Record} {ok : SentFlag → Bool} {dest : SentFlag} {cs : List OwnSample} (record : s.record? x = some r) :
    ∃ r', (s.flagSamples x ok dest cs).record? x = some r' ∧ r'.state = r.state := by
  have item := record?_item record
  rw [State.flagSamples, record]
  refine ⟨_, (record?_putRecord (r := r) (by simpa [item] using record) x).trans (if_pos item.symm), rfl⟩

/-- The samples of a takeover SIGHT: the strongest own ones, ties to the earlier time and then to the place nearer the start. -/
theorem strongestOwn_places (s : State) (r : Record) (own : List Sample) (hown : own = r.samples.filter fun p => p.station == s.sys.station.toNat) :
    ∃ places : List Nat, places.Nodup ∧ places.length = min 4 own.length ∧
      (s.strongestOwn r).map some = places.map (fun i => own[i]?.map fun p => ⟨p.side, p.coil, p.strength, p.time⟩) ∧
      ∀ i ∈ places, ∀ j p q, j ∉ places → own[i]? = some p → own[j]? = some q →
        q.strength.toNat < p.strength.toNat ∨ q.strength = p.strength ∧
          ((s.time.clock - q.time).toNat < (s.time.clock - p.time).toNat ∨ q.time = p.time ∧ i < j) := by
  obtain ⟨places, nodup, length, values, ahead⟩ := sortDesc_places (fun p : Sample => p.strength.toNat * 65536 + s.since p.time) own 4
  refine ⟨places, nodup, length, ?_, fun i hi j p q hj hp hq => ?_⟩
  · have listed := congrArg (List.map (Option.map Sample.content)) values
    rw [List.map_map, List.map_map] at listed
    rw [State.strongestOwn, List.map_map, show (r.samples.filter fun p => p.own s.number) = own from hown.symm]
    exact listed
  · have order := ahead i hi j p q hj hp hq
    have recent : (s.time.clock - p.time).toNat < 65536 := (s.time.clock - p.time).isLt
    have recent' : (s.time.clock - q.time).toNat < 65536 := (s.time.clock - q.time).isLt
    simp only [Ahead, State.since, elapsedMs] at order
    rcases Nat.lt_trichotomy q.strength.toNat p.strength.toNat with less | same | more
    · exact .inl less
    · refine .inr ⟨BitVec.eq_of_toNat_eq same, ?_⟩
      rw [same] at order
      rcases order with earlier | ⟨together, place⟩
      · exact .inl (by omega)
      · refine .inr ⟨?_, place⟩
        have times : s.time.clock - q.time = s.time.clock - p.time := BitVec.eq_of_toNat_eq (by omega)
        exact sub_right_injective times
    · omega

end

/-- Settles O36. -/
theorem passageExpiriesFreeOrTakeOver : Obligations.PassageExpiriesFreeOrTakeOver := by
  intro s v a x hv
  rw [exec_directoryExpiry, exec_closeHoldEnd, exec_solePatienceEnd, exec_patienceTimerEnd, ← hv]
  refine ⟨fun e known old => ?_, fun r d close record closed old => ?_, fun r waiting record sole running old unsent unwaited fits => ?_,
    fun r waiting att before f behind m record sole old sends back payload owner => ?_, fun r y record joint room apart => ?_⟩
  · have entry : dirEntry x v.directory = some e := known
    have reached : v.reached (patienceMs v.sys.cfg) e.heard = true := decide_eq_true old
    simp only [State.directoryExpires, entry, reached, if_true, dirRemove_eq]
  · have reached : v.reached v.sys.cfg.closeHold close = true := decide_eq_true old
    have expires : v.closeExpires x = v.freeRecord x := by simp only [State.closeExpires, record, closed, reached, if_true]
    rw [expires]
    obtain ⟨gone, others⟩ := freeRecord_record v x
    exact ⟨_, rfl, gone, freeRecord_waiting v x, orphan_payload x _, rfl, others⟩
  · have reached : v.reached (patienceMs v.sys.cfg) r.created = true := decide_eq_true old
    have idle : sightUnderTx r.item v.line.queue = false := List.any_eq_false.2 fun f hf => by simp [unsent f hf]
    have expires : v.soleExpires x = v.freeSole r := by
      simp only [State.soleExpires, record, sole, reached, if_true, State.solePatience, idle, Bool.false_eq_true, if_false]
    obtain rfl := record?_item record
    obtain ⟨gone, others, queue, lost⟩ := freeSole_unwaited (r := r) running unsent unwaited fits
    rw [expires]
    exact ⟨_, rfl, gone, queue, lost, others⟩
  · have reached : v.reached (patienceMs v.sys.cfg) r.created = true := decide_eq_true old
    obtain rfl := record?_item record
    obtain ⟨-, queue, front, sent⟩ := sends
    have mine : (ofRecord r.item f && isSight f) = true := by simp [ofRecord, owner, isSight, payload]
    have busy : sightUnderTx r.item v.line.queue = true := by
      rw [queue]
      exact List.any_eq_true.2 ⟨f, by simp, by simp only [mine, sent, Bool.and_self]⟩
    simp only [State.soleExpires, record, sole, reached, if_true, State.solePatience, busy]
    rw [queue, holdRemoval_sent (ok := fun f => ofRecord r.item f && isSight f) mine sent front back]
  · obtain rfl := record?_item record
    have expires : v.patienceEnds r.item =
        ((v.putRecord { r with state := .joint y none }).offerTakeover { r with state := .joint y none }).1 := by
      simp only [State.patienceEnds, record, joint, isDue, beq_self_eq_true, if_true]
    have stored : (v.putRecord { r with state := .joint y none }).record? r.item = some { r with state := .joint y none } :=
      (record?_putRecord (r' := { r with state := .joint y none }) record r.item).trans (if_pos rfl)
    rw [expires, offerTakeover_fresh (s := v.putRecord { r with state := .joint y none }) (r := { r with state := .joint y none }) room apart]
    obtain ⟨r', found, state⟩ := flagSamples_record (s := ((v.putRecord { r with state := .joint y none }).setQueue (v.line.queue ++
      [QFrame.fresh (.record r.item) (.sight (sightOf { r with state := .joint y none } true false
        (v.strongestOwn r)))])).giveUp (.sight r.item)) (ok := anyFlag) (dest := .queued) (cs := v.strongestOwn r) stored
    refine ⟨_, r', sightOf { r with state := .joint y none } true false (v.strongestOwn r), rfl, found, state, ?_, rfl, rfl, rfl, rfl, rfl, rfl,
      fun own hown => strongestOwn_places v r own hown⟩
    exact congrArg Line.queue (flagSamples_line _ _ _ _ _)

end Sys2Proof.Machine
end

section
/-! PROOFS. Notices that age, and records that are judged (chapters 8 and 9): the seconds tick, final evaluations, the end of a hold. -/

namespace Sys2Proof.Machine

/-! ### The seconds tick (O42) -/

/-- In a cache kept in order of age the entries that have reached the lifetime stand at its oldest end. -/
theorem expireNotices_eq {c : List Notice} (ordered : c.Pairwise fun e f => f.age ≤ e.age) (lifetime : Nat) :
    expireNotices lifetime c = c.filter fun e => e.age < lifetime := by
  unfold expireNotices
  induction c with
  | nil => rfl
  | cons e c ih =>
    obtain ⟨oldest, rest⟩ := List.pairwise_cons.1 ordered
    by_cases old : lifetime ≤ e.age
    · rw [List.dropWhile_cons_of_pos (by simpa using old), ih rest, List.filter_cons_of_neg (by simpa using old)]
    · have young : ∀ f ∈ e :: c, f.age < lifetime := by
        intro f hf
        rcases List.mem_cons.1 hf with rfl | hf
        · exact Nat.lt_of_not_le old
        · exact (oldest f hf).trans_lt (Nat.lt_of_not_le old)
      rw [List.dropWhile_cons_of_neg (by simpa using old), List.filter_eq_self.2 fun f hf => by simpa using young f hf]

theorem ageNotices_ordered {c : List Notice} (ordered : c.Pairwise fun e f => f.age ≤ e.age) :
    (ageNotices c).Pairwise fun e f => f.age ≤ e.age :=
  List.pairwise_map.2 (ordered.imp fun h => Nat.succ_le_succ h)

/-- Settles O42. -/
theorem secondsTickAgesAndExpiresNotices : Obligations.SecondsTickAgesAndExpiresNotices := by
  intro s v a hv ordered
  rw [exec_secondsTick, exec_noticeExpiry, ← hv]
  refine ⟨fun due => ?_, ?_⟩
  · have isDue : isDue v.time.secondTimer = true := by rw [due]; rfl
    rw [State.tick, if_pos isDue, expireNotices_eq (ageNotices_ordered ordered)]
    rfl
  · rw [State.expireCache, expireNotices_eq ordered]
    rfl

/-! ### A decision is offered -/

section
variable {s t : State} {x : Item} {r : Record} {l : Lead}

theorem offerFinal_eq (lead : s.lead? x = some (r, l)) (d : Decision) :
    s.offerFinal x d = ((s.putLead r { l with stage := .openStage, final := some d }).offerDecision x d).1 := by
  simp only [State.offerFinal, lead]

/-- Beside the record and the line an offered decision leaves all but SAMPLES LOST. -/
theorem offerFinal_rest (lead : s.lead? x = some (r, l)) (d : Decision) :
    (s.offerFinal x d).queries = s.queries ∧ (s.offerFinal x d).cache = s.cache ∧ (s.offerFinal x d).line.phase = s.line.phase ∧
      (s.offerFinal x d).report.counters.answersMissed = s.report.counters.answersMissed := by
  have only := offerDecision_onlyOffers (s.putLead r { l with stage := .openStage, final := some d }) x d
  rw [offerFinal_eq lead]
  exact ⟨only.queries, only.cache, only.phase, only.counter (k := .answersMissed) nofun⟩

/-- A record that has been decided: OPEN, the decision kept, its DECIDE queued, or owed (R153). -/
theorem offerFinal_decided (lead : s.lead? x = some (r, l)) (d : Decision) :
    ∃ r' l', (s.offerFinal x d).record? x = some r' ∧ r'.state = .lead l' ∧ l'.stage = .openStage ∧ l'.final = some d ∧
      (s.offerFinal x d).DecideOffered x d l' ∧ l'.slot = l.slot := by
  obtain ⟨r', l', lead', same, -, offered⟩ := offerFinal_spec d lead
  obtain ⟨record, state⟩ := lead?_eq_some.1 lead'
  simp only [Lead.mk.injEq] at same
  exact ⟨r', l', record, state, same.1, same.2.2.2.2.2.2.1, offered, same.2.2.1⟩

theorem OnlyQueries.decided (h : OnlyQueries s t) (lead : s.lead? x = some (r, l)) (d : Decision) :
    ∃ r' l', (t.offerFinal x d).record? x = some r' ∧ r'.state = .lead l' ∧ l'.stage = .openStage ∧ l'.final = some d ∧
      (t.offerFinal x d).DecideOffered x d l' := by
  obtain ⟨r1, l1, lead1, -, -⟩ := h.lead lead
  obtain ⟨r', l', record, state, stage, final, offered, -⟩ := offerFinal_decided lead1 d
  exact ⟨r', l', record, state, stage, final, offered⟩

/-! ### A query slot that is taken (R132, R133) -/

theorem ofItem_replaced (x y : Item) {r' : Record} (item : r'.item = y) (e : Option Record) :
    ofItem x (if ofItem y e then some r' else e) = ofItem x e := by
  split
  · next mine =>
    cases e with
    | none => cases mine
    | some a => simp only [ofItem_some, beq_iff_eq] at mine ⊢; rw [item, mine]
  · rfl

theorem positionOf_putRecord (s : State) (r : Record) (x : Item) : (s.putRecord r).positionOf x = s.positionOf x := by
  have places (t : List (Option Record)) : (replaceRecord r.item (some r) t).findIdx (ofItem x) = t.findIdx (ofItem x) := by
    rw [replaceRecord, List.findIdx_map]
    exact congrArg (fun p => t.findIdx p) (funext fun e => ofItem_replaced x r.item rfl e)
  exact places s.table

theorem positionOf_eq {i : Nat} (place : s.table[i]? = some (some r)) (item : r.item = x)
    (first : ∀ n, n < i → ∀ r0, s.table[n]? = some (some r0) → r0.item ≠ x) : s.positionOf x = i := by
  obtain ⟨inside, here⟩ := List.getElem?_eq_some_iff.1 place
  refine (List.findIdx_eq inside).2 ⟨by rw [here]; simpa using item, fun n hn => ?_⟩
  have there : s.table[n]? = some s.table[n] := List.getElem?_eq_getElem (hn.trans inside)
  cases e : s.table[n] with
  | none => rfl
  | some r0 =>
    rw [e] at there
    simpa using first n hn r0 there

theorem setSlotField_lead (lead : s.lead? x = some (r, l)) (k : Option (BitVec 2)) : s.setSlotField x k = s.putLead r { l with slot := k } := by
  simp only [State.setSlotField, lead]

/-- The QUERY that a slot WAITING for a record offers is queued, or waits. -/
theorem offerQuery_offered {k : BitVec 2} {u : SlotUse} (use : (s.queries.slots.get k).use = some u) :
    (s.offerQuery k).1.QueryOffered k u.tag u.item := by
  have put := offer_puts (s := s) (key := .query k) (o := .slot k) (p := .query s.sys.cfg.registry u.tag u.item) (by simp [Payload.sort])
  have sys : (s.offerQuery k).1.sys = s.sys := (offerQuery_onlyOffers s k).sys
  unfold State.QueryOffered
  rw [sys]
  simp only [State.offerQuery, use]
  exact put

/-- A FREE slot that becomes WAITING for a LEAD record: the slot's use, the record's field and the offered QUERY. -/
theorem takeSlot_spec (lead : s.lead? x = some (r, l)) (k : BitVec 2) :
    (s.takeSlot k x).queries = { s.queries with slots := s.queries.slots.set k { s.queries.slots.get k with
        use := some ⟨x, s.positionOf x, k.toNat * 4 + (s.queries.slots.get k).seq.toNat⟩ } } ∧
      (s.takeSlot k x).QueryOffered k (k.toNat * 4 + (s.queries.slots.get k).seq.toNat) x ∧
      ∃ r' l', (s.takeSlot k x).lead? x = some (r', l') ∧ { l' with owed := none } = { l with owed := none, slot := some k } := by
  obtain ⟨u, hu⟩ : ∃ u : SlotUse, u = ⟨x, s.positionOf x, k.toNat * 4 + (s.queries.slots.get k).seq.toNat⟩ := ⟨_, rfl⟩
  obtain ⟨w, hw⟩ : ∃ w, w = (s.setQueries { s.queries with slots := s.queries.slots.set k { s.queries.slots.get k with use := some u } }).putLead r
    { l with slot := some k } := ⟨_, rfl⟩
  have taken : s.takeSlot k x = (w.offerQuery k).1 := by
    have field := setSlotField_lead (s := s.setQueries { s.queries with
      slots := s.queries.slots.set k { s.queries.slots.get k with use := some u } }) lead (some k)
    rw [hw, ← field, hu]
    rfl
  have queries : w.queries = { s.queries with slots := s.queries.slots.set k { s.queries.slots.get k with use := some u } } := by rw [hw]; rfl
  have only := offerQuery_onlyOffers w k
  rw [taken, ← hu]
  refine ⟨only.queries.trans queries, ?_, ?_⟩
  · have offered := offerQuery_offered (s := w) (k := k) (u := u) (by rw [queries]; simp)
    rw [hu] at offered
    exact offered
  · have stored : w.lead? x = some ({ r with state := .lead { l with slot := some k } }, { l with slot := some k }) := by
      rw [hw]
      exact lead?_putLead (s := s.setQueries _) lead
    obtain ⟨r', l', lead', same, -⟩ := only.lead stored
    exact ⟨r', l', lead', same⟩

/-! ### A final evaluation (R147 to R150) -/

theorem finalEvaluation_checked (lead : s.lead? x = some (r, l)) (undecided : l.undecided = true) {d : Decision}
    (checked : s.checkRecord r = .decided d) : s.finalEvaluation x = s.offerFinal x d := by
  simp only [State.finalEvaluation, lead, undecided, if_true, checked]

/-- The state after the issue check of a class that may hold (R130). -/
def State.asked (s : State) (x : Item) (slot : Option (BitVec 2)) (e : ClassEntry) (o : IssueStatus) : State :=
  if holdLimit e = 0 then s else s.actOnStatus x slot o

theorem asked_onlyQueries (s : State) (x : Item) (slot : Option (BitVec 2)) (e : ClassEntry) (o : IssueStatus) :
    OnlyQueries s (s.asked x slot e o) := by
  unfold State.asked
  split
  · exact .refl s
  · exact actOnStatus_onlyQueries _ _ _ _

theorem finalEvaluation_issue (lead : s.lead? x = some (r, l)) (undecided : l.undecided = true) {e : ClassEntry}
    (checked : s.checkRecord r = .toIssue e) {v : Verdict} {w : Reason} (verdict : issueVerdict e (s.issueStatusOf r) = some (v, w)) :
    s.finalEvaluation x = (s.asked x l.slot e (s.issueStatusOf r)).offerFinal x ⟨v, w, (s.estimateOf r).laneA, (s.estimateOf r).laneB⟩ := by
  simp only [State.finalEvaluation, lead, undecided, if_true, checked, verdict, State.asked]

theorem finalEvaluation_holds (lead : s.lead? x = some (r, l)) (undecided : l.undecided = true) {e : ClassEntry}
    (checked : s.checkRecord r = .toIssue e) (asks : s.issueStatusOf r = .ask) (holds : holdLimit e ≠ 0) :
    s.finalEvaluation x = (s.actOnStatus x l.slot .ask).holdRecord x (s.estimateOf r).laneA (s.estimateOf r).laneB e := by
  simp only [State.finalEvaluation, lead, undecided, if_true, checked, asks, issueVerdict, holds, if_false]

theorem finalEvaluation_skips (lead : s.lead? x = some (r, l)) (decided : l.undecided = false) : s.finalEvaluation x = s := by
  simp only [State.finalEvaluation, lead, decided, Bool.false_eq_true, if_false]

/-- An undecided record whose checks, or whose issue status, give a decision is decided. -/
theorem finalEvaluation_decides (lead : s.lead? x = some (r, l)) (undecided : l.undecided = true) {d : Decision}
    (judged : s.checkRecord r = .decided d ∨ ∃ e, s.checkRecord r = .toIssue e ∧ issueVerdict e (s.issueStatusOf r) = some (d.verdict, d.reason) ∧
      d.laneA = (s.estimateOf r).laneA ∧ d.laneB = (s.estimateOf r).laneB) :
    ∃ r' l', (s.finalEvaluation x).record? x = some r' ∧ r'.state = .lead l' ∧ l'.stage = .openStage ∧ l'.final = some d ∧
      (s.finalEvaluation x).DecideOffered x d l' := by
  rcases judged with checked | ⟨e, checked, verdict, laneA, laneB⟩
  · rw [finalEvaluation_checked lead undecided checked]
    exact (OnlyQueries.refl s).decided lead d
  · rw [finalEvaluation_issue lead undecided checked verdict, ← laneA, ← laneB]
    exact (asked_onlyQueries s x l.slot e _).decided lead d

theorem freeSlot_lowest {q : Queries} {j : BitVec 2} (free : (q.slots.get j).use = none) (lowest : ∀ i, i.toNat < j.toNat → (q.slots.get i).use ≠ none) :
    q.freeSlot = some j := by
  have listed : ∀ j : BitVec 2, allSlots = allSlots.take j.toNat ++ j :: allSlots.drop (j.toNat + 1) := by decide
  have before : ∀ j : BitVec 2, ∀ i ∈ allSlots.take j.toNat, i.toNat < j.toNat := by decide
  rw [Queries.freeSlot, listed j, List.find?_append, List.find?_eq_none.2 fun i hi => ?_, Option.none_or,
    List.find?_cons_of_pos (by rw [free]; rfl)]
  simpa using lowest i (before j i hi)

theorem freeSlot_none {q : Queries} (busy : ∀ j, (q.slots.get j).use ≠ none) : q.freeSlot = none :=
  List.find?_eq_none.2 fun j _ => by simpa using busy j

/-- A record that must be asked for, with a slot FREE or with none (R130, R132). -/
theorem actOnStatus_takes (noSlot : l.slot = none) (unlisted : x ∉ s.queries.wait) {k : BitVec 2} (free : s.queries.freeSlot = some k) :
    s.actOnStatus x l.slot .ask = s.takeSlot k x := by
  simp [State.actOnStatus, noSlot, unlisted, free]

theorem actOnStatus_waits (noSlot : l.slot = none) (unlisted : x ∉ s.queries.wait) (none : s.queries.freeSlot = none) :
    s.actOnStatus x l.slot .ask = s.setQueries { s.queries with wait := s.queries.wait ++ [x] } := by
  simp [State.actOnStatus, noSlot, unlisted, none]

theorem holdRecord_lead (lead : s.lead? x = some (r, l)) (a : Nat) (b : Option Nat) (e : ClassEntry) :
    (s.holdRecord x a b e).lead? x = some ({ r with state := .lead { l with stage := .held a b e (ms (holdLimit e)) } },
        { l with stage := .held a b e (ms (holdLimit e)) }) ∧
      (s.holdRecord x a b e).queries = s.queries ∧ ∀ k tag y, s.QueryOffered k tag y → (s.holdRecord x a b e).QueryOffered k tag y := by
  simp only [State.holdRecord, lead]
  exact ⟨lead?_putLead lead, rfl, fun _ _ _ offered => offered⟩

end

/-- The verdict of an issue status that decides, or of a class that does not hold (R150, table). -/
theorem issueVerdict_of {k : ClassEntry} {st : IssueStatus} {v : Verdict} {w : Reason}
    (table : st = .byMark ∧ (v, w) = (.clear, .issuedMark) ∨ st = .byNotice ∧ (v, w) = (.clear, .issuedNotice) ∨
      st = .unissued ∧ (v, w) = (.alarm, .unissued) ∨ st = .returned ∧ (v, w) = (.alarm, .returned) ∨
      st = .ask ∧ k.holdValue = 0 ∧ k.granularity = .fine ∧ (v, w) = (if k.policy = .alarm then .alarm else .clear, .noAnswer)) :
    issueVerdict k st = some (v, w) := by
  obtain ⟨rfl, e⟩ | ⟨rfl, e⟩ | ⟨rfl, e⟩ | ⟨rfl, e⟩ | ⟨rfl, value, fine, e⟩ := table
  · rw [e]; rfl
  · rw [e]; rfl
  · rw [e]; rfl
  · rw [e]; rfl
  · have none : holdLimit k = 0 := by simp [holdLimit, fine, value]
    rw [e, issueVerdict, if_pos none]
    cases k.policy <;> rfl

theorem holdLimit_pos {k : ClassEntry} (holds : k.holdValue ≠ 0 ∨ k.granularity = .coarse) : holdLimit k ≠ 0 := by
  unfold holdLimit
  rcases holds with value | coarse
  · cases k.granularity with
    | fine => exact fun none => value (BitVec.eq_of_toNat_eq none)
    | coarse => exact Nat.succ_ne_zero _
  · rw [coarse]
    exact Nat.succ_ne_zero _

theorem holdLimit_time (k : ClassEntry) :
    ms (holdLimit k) = (if k.granularity = .fine then k.holdValue.toNat else k.holdValue.toNat * 8 + 7) * 1000 := by
  unfold holdLimit
  cases k.granularity <;> rfl

theorem undecided_iff {l : Lead} : l.undecided = true ↔ l.final = none ∧ (l.stage = .openStage ∨ l.stage = .provisional) := by
  unfold Lead.undecided
  cases l.stage <;> simp

/-- An evaluation that the quiet timer's expiry, or the dwell, calls for, from the state that it is made in. -/
theorem evaluation_called {s v : State} {a : Nat} {x : Item} {r : Record} {l : Lead} {c : Instr} (hv : v = s.advance a)
    (lead : v.lead? x = some (r, l))
    (called : c = .quietTimerEnd a x ∧ l.quiet = some 0 ∨ c = .dwellReached a x ∧ v.sys.cfg.maxDwell ≤ dwellOf v.time.clock r.samples) :
    ∃ u r1 l1, exec c s = .next (u.finalEvaluation x) ∧ u.lead? x = some (r1, l1) ∧ { r1 with state := r.state } = r ∧
      (l1.final = l.final ∧ l1.stage = l.stage ∧ l1.slot = l.slot) ∧ u = (if c = .quietTimerEnd a x then v.putLead r { l with quiet := none } else v) ∧
      u.positionOf x = v.positionOf x := by
  rcases called with ⟨rfl, due⟩ | ⟨rfl, reached⟩
  · have isDue : isDue l.quiet = true := by rw [due]; rfl
    refine ⟨v.putLead r { l with quiet := none }, _, _, ?_, lead?_putLead lead, rfl, ⟨rfl, rfl, rfl⟩, (if_pos rfl).symm, positionOf_putRecord _ _ _⟩
    rw [exec_quietTimerEnd, ← hv]
    simp only [State.quietEnds, lead, isDue, if_true]
  · refine ⟨v, r, l, ?_, lead, rfl, ⟨rfl, rfl, rfl⟩, (if_neg nofun).symm, rfl⟩
    rw [exec_dwellReached, ← hv]
    simp only [State.dwellReached, lead, reached, if_true]

/-- Settles O46. -/
theorem finalEvaluationDecidesOrHolds : Obligations.FinalEvaluationDecidesOrHolds := by
  intro s v a x r l c e checked st hv lead he hchecked hst called
  obtain ⟨u, r1, l1, run, lead1, same, ⟨sameFinal, sameStage, sameSlot⟩, hu, position⟩ := evaluation_called hv lead called
  have read : u.checkRecord r1 = checked ∧ u.estimateOf r1 = e ∧ u.issueStatusOf r1 = st ∧ u.queries = v.queries := by
    rw [hchecked, hst, he, hu, ← same]
    split <;> exact ⟨rfl, rfl, rfl, rfl⟩
  obtain ⟨check, estimated, status, queries⟩ := read
  refine ⟨fun final stage => ?_, fun judged => ?_⟩
  · have undecided : l1.undecided = true := undecided_iff.2 ⟨sameFinal.trans final, by rw [sameStage]; exact stage⟩
    refine ⟨fun d decided => ?_, fun k toIssue asks holds => ?_⟩
    · obtain ⟨r', l', record, state, stage', final', offered⟩ := finalEvaluation_decides (d := d) lead1 undecided (by
        rw [check, estimated, status]
        exact decided.imp id fun ⟨k, toIssue, laneA, laneB, table⟩ => ⟨k, toIssue, issueVerdict_of table, laneA, laneB⟩)
      exact ⟨_, r', l', run, record, state, stage', final', offered⟩
    · rw [run, finalEvaluation_holds lead1 undecided (check.trans toIssue) (status.trans asks) (holdLimit_pos holds), estimated]
      obtain ⟨r2, l2, lead2, same2, -⟩ := (actOnStatus_onlyQueries u x l1.slot .ask).lead lead1
      obtain ⟨lead3, queries3, offered3⟩ := holdRecord_lead lead2 e.laneA e.laneB k
      obtain ⟨record, state⟩ := lead?_eq_some.1 lead3
      simp only [Lead.mk.injEq] at same2
      refine ⟨_, _, _, rfl, record, state, same2.2.2.2.2.2.2.1.trans (sameFinal.trans final), by rw [holdLimit_time],
        fun j seq i noSlot unlisted free lowest place first => ?_, fun noSlot unlisted busy => ?_⟩
      · have free' : u.queries.freeSlot = some j := by
          rw [queries]
          exact freeSlot_lowest (by rw [free]) lowest
        have takes := actOnStatus_takes (sameSlot.trans noSlot) (by rw [queries]; exact unlisted) free'
        obtain ⟨taken, offered, r4, l4, lead4, same4⟩ := takeSlot_spec lead1 j
        rw [takes] at lead2 queries3 offered3
        obtain ⟨rfl, rfl⟩ := Prod.mk.inj (Option.some.inj (lead2.symm.trans lead4))
        rw [queries, free, position, positionOf_eq place (record?_item (lead?_eq_some.1 lead).1) first] at taken
        rw [queries, free] at offered
        rw [takes]
        simp only [Lead.mk.injEq] at same4
        exact ⟨same4.2.2.1, queries3.trans taken, offered3 _ _ _ offered⟩
      · have waits := actOnStatus_waits (sameSlot.trans noSlot) (by rw [queries]; exact unlisted)
          (freeSlot_none (q := u.queries) (by rw [queries]; exact busy))
        rw [waits] at lead2 queries3 ⊢
        obtain ⟨rfl, rfl⟩ := Prod.mk.inj (Option.some.inj (lead2.symm.trans lead1))
        exact ⟨sameSlot.trans noSlot, queries3.trans (by simp only [State.setQueries_queries, queries])⟩
  · have decided : l1.undecided = false := Bool.eq_false_iff.2 fun undecided => by
      obtain ⟨final, stage⟩ := undecided_iff.1 undecided
      rw [sameFinal] at final
      rw [sameStage] at stage
      rcases judged with decided | ⟨p, q, k, left, held⟩
      · exact decided final
      · rw [held] at stage
        rcases stage with st | st <;> cases st
    rw [run, finalEvaluation_skips lead1 decided, hu]

end Sys2Proof.Machine
end

section
/-! PROOFS. What a walk and a removal keep, offer by offer (R79, R80). -/

namespace Sys2Proof.Machine

/-- A record that gathers samples under no verdict of this station: SOLE or JOINT. -/
def RecState.gathers : RecState → Bool
  | .sole _ | .joint _ _ => true
  | .lead _ | .closed _ _ => false

theorem RecState.bare_gathers (t : RecState) : t.bare.gathers = t.gathers := by cases t <;> rfl

/-- The offers of the owners of a walk, each kept by the property. A record that leads changes only by its owed DECIDE, a CLOSED one not. -/
structure WalkKept (I : State → Prop) : Prop where
  giveUp : ∀ {s : State} (k : WaitKey), I s → I (s.giveUp k)
  offer : ∀ {s : State} (k : WaitKey) (o : Owner) {p : Payload}, p.sort ≠ 2 → I s → I (s.offer (some k) o p).1
  put : ∀ {s : State} {r r0 : Record}, s.record? r.item = some r0 → r0.state.gathers = true → r.state.gathers = true → I s → I (s.putRecord r)
  decision : ∀ {s : State} {x : Item} {r : Record} {l : Lead} {d : Decision}, s.lead? x = some (r, l) → l.owed = some d →
    l.stillOwes d = true → I s → I (s.offerDecision x d).1
  disown : ∀ {s : State} {x : Item} {r : Record} {l : Lead}, s.lead? x = some (r, l) → I s → I (s.putLead r { l with owed := none })
  repeatDecide : ∀ {s : State} {x : Item} {r : Record} {d : Decision} {t : Clock}, s.record? x = some r → r.state = .closed d t →
    I s → I (s.offerRepeatDecide x d).1
  request : ∀ {s : State} (r : ReportRequest), I s → I (s.setReport { s.report with request := r })

/-- The queue changes of a removal besides (R80). -/
structure RemovalKept (I : State → Prop) : Prop extends WalkKept I where
  drop : ∀ {s : State} {ok : QFrame → Bool} {q : List QFrame}, dropFirst ok s.line.queue = some q → I s → I (s.setQueue q)
  hold : ∀ {s : State} (ok : QFrame → Bool), I s → I (s.setQueue (holdRemoval ok s.line.queue))

section
variable {I : State → Prop} (K : WalkKept I)
include K

omit K in
theorem OnlyOffers.gathers {s t : State} (h : OnlyOffers s t) {x : Item} {r : Record} (record : s.record? x = some r)
    (gathers : r.state.gathers = true) : ∃ r0, t.record? x = some r0 ∧ r0.state.gathers = true := by
  obtain ⟨r0, found, bare⟩ := h.record_exists record
  refine ⟨r0, found, ?_⟩
  have states : r0.state.bare = r.state.bare := congrArg Record.state bare
  rw [← RecState.bare_gathers, states, RecState.bare_gathers, gathers]

theorem WalkKept.flagSamples {s : State} {x : Item} {r : Record} (record : s.record? x = some r) (gathers : r.state.gathers = true)
    (ok : SentFlag → Bool) (dest : SentFlag) (cs : List OwnSample) (h : I s) : I (s.flagSamples x ok dest cs) := by
  simp only [State.flagSamples, record]
  exact K.put (r0 := r) (by simpa [record?_item record] using record) gathers gathers h

theorem WalkKept.offerSight {s : State} {r : Record} {w : Bool} (record : s.record? r.item = some r) (sole : r.state = .sole w) (h : I s) :
    I (s.offerSight r).1 := by
  have only := offer_onlyOffers s (some (.sight r.item)) (.record r.item) (.sight (sightOf r false false ((s.unsentOwn r).take frameSamples)))
  obtain ⟨r0, found, gathers⟩ := only.gathers record (by rw [sole]; rfl)
  have offered := K.offer (.sight r.item) (.record r.item)
    (p := .sight (sightOf r false false ((s.unsentOwn r).take frameSamples))) nofun h
  have store {r' : Record} (item : r'.item = r.item) (state : r'.state.gathers = true) : I ((s.offer (some (.sight r.item)) (.record r.item)
      (.sight (sightOf r false false ((s.unsentOwn r).take frameSamples)))).1.putRecord r') :=
    K.put (by rw [item]; exact found) gathers state offered
  unfold State.offerSight
  dsimp only
  split <;> exact store rfl rfl

theorem WalkKept.offerTakeover {s : State} {r : Record} {y : Nat} {patience : Timer} (record : s.record? r.item = some r)
    (joint : r.state = .joint y patience) (h : I s) : I (s.offerTakeover r).1 := by
  have only := offer_onlyOffers s (some (.sight r.item)) (.record r.item) (.sight (sightOf r true false (s.strongestOwn r)))
  obtain ⟨r0, found, gathers⟩ := only.gathers record (by rw [joint]; rfl)
  have offered := K.offer (.sight r.item) (.record r.item) (p := .sight (sightOf r true false (s.strongestOwn r))) nofun h
  unfold State.offerTakeover
  dsimp only
  split
  · exact K.flagSamples found gathers _ _ _ offered
  · exact K.flagSamples found gathers _ _ _ offered
  · exact offered

theorem WalkKept.offerJoinOnce {s : State} {x : Item} {o : State × OfferResult} (once : s.offerJoinOnce x = some o) (h : I s) : I o.1 := by
  unfold State.offerJoinOnce at once
  split at once
  · cases once
  · next r record =>
    split at once
    · next lead patience joint =>
      split at once
      · cases once
      · next c cs _ =>
        have only := offer_onlyOffers s (some (.join x)) (.record x) (.join { item := x, lead := lead, samples := c :: cs })
        obtain ⟨r0, found, gathers⟩ := only.gathers record (by rw [joint]; rfl)
        have offered := K.offer (.join x) (.record x) (p := .join { item := x, lead := lead, samples := c :: cs }) nofun h
        dsimp only at once
        split at once <;> cases once
        · exact K.flagSamples found gathers _ _ _ offered
        · exact K.flagSamples found gathers _ _ _ offered
        · exact offered
    · cases once

theorem WalkKept.offerJoinsFuel (x : Item) (fuel : Nat) {s : State} {used : Bool} (h : I s) : I (State.offerJoinsFuel x fuel s used).1 := by
  induction fuel generalizing s used with
  | zero => exact h
  | succ n ih =>
    unfold State.offerJoinsFuel
    split
    · exact h
    · next once => exact K.offerJoinOnce once h
    · next once => exact ih (K.offerJoinOnce once h)
    · next once => exact ih (K.offerJoinOnce once h)

theorem WalkKept.offerJoins {s : State} (x : Item) (h : I s) : I (s.offerJoins x) := by
  unfold State.offerJoins
  split
  · exact h
  · exact K.offerJoinsFuel _ _ h

theorem WalkKept.offerQuery {s : State} (k : BitVec 2) (h : I s) : I (s.offerQuery k).1 := by
  unfold State.offerQuery
  split
  · exact K.offer _ _ nofun h
  · exact K.giveUp _ h

theorem WalkKept.offerReport {s : State} (h : I s) : I s.offerReport.1 :=
  K.request (s := (s.offer (some .report) .reportUnit .report).1) _ (K.offer _ _ nofun h)

theorem WalkKept.askAgain {s : State} (k : WaitKey) (h : I s) : I (s.askAgain k).1 := by
  cases k with
  | claim sd =>
    simp only [State.askAgain]
    split
    · exact K.offer _ _ nofun h
    · exact K.giveUp _ h
  | defer sd => exact K.offer _ _ nofun h
  | release sd => exact K.offer _ _ nofun h
  | sight x =>
    simp only [State.askAgain]
    split
    · next r record =>
      obtain rfl := record?_item record
      split
      · next sole => exact K.offerSight record sole h
      · exact K.offer _ _ nofun h
      · next joint => exact K.offerTakeover record joint h
      · exact K.giveUp _ h
    · exact K.giveUp _ h
  | join x =>
    simp only [State.askAgain]
    split
    · exact K.giveUp _ h
    · exact K.offerJoinsFuel _ _ h
  | decision x =>
    simp only [State.askAgain]
    split
    · next r record =>
      split
      · next l lead =>
        split
        · next d owed =>
          split
          · next owes => exact K.decision (lead?_eq_some.2 ⟨record, lead⟩) owed owes h
          · exact K.giveUp _ (K.disown (lead?_eq_some.2 ⟨record, lead⟩) h)
        · exact K.giveUp _ h
      · next closed => exact K.repeatDecide record closed h
      · exact K.giveUp _ h
    · exact K.giveUp _ h
  | query q => exact K.offerQuery q h
  | report =>
    simp only [State.askAgain]
    split
    · exact K.offerReport h
    · exact K.giveUp _ h

theorem WalkKept.walkList (ks : List WaitKey) {s : State} (h : I s) : I (State.walkList ks s) := by
  induction ks generalizing s with
  | nil => exact h
  | cons k ks ih =>
    unfold State.walkList
    split
    · dsimp only
      split
      · exact K.askAgain k h
      · exact ih (K.askAgain k h)
    · exact ih h

theorem WalkKept.walk {s : State} (h : I s) : I s.walk := K.walkList _ h

omit K in
theorem RemovalKept.removeLoop (K : RemovalKept I) (ok : QFrame → Bool) (fuel : Nat) {s : State} (h : I s) : I (State.removeLoop ok fuel s) := by
  induction fuel generalizing s with
  | zero => exact h
  | succ n ih =>
    unfold State.removeLoop
    split
    · exact h
    · next dropped => exact ih (K.walk (K.drop dropped h))

omit K in
theorem RemovalKept.askRemoval (K : RemovalKept I) {s : State} (ok : QFrame → Bool) (h : I s) : I (s.askRemoval ok) :=
  K.removeLoop _ _ (K.hold ok h)

end

/-! ### Places of records in the table -/

section
variable {s : State} {x : Item} {i : Nat}

theorem settleSamples_position (y : Item) (dest : SentFlag) (cs : List OwnSample) : (s.settleSamples y dest cs).positionOf x = s.positionOf x := by
  unfold State.settleSamples
  split
  · exact positionOf_putRecord _ _ _
  · rfl

theorem loseJoin_position (d : Option (JoinMsg × Owner)) : (s.loseJoin d).positionOf x = s.positionOf x := by
  have counted (n : Nat) : (s.count .samplesLost n).positionOf x = s.positionOf x := by rw [State.positionOf, State.count_table]; rfl
  unfold State.loseJoin
  split
  · rfl
  · dsimp only
    split
    · exact (settleSamples_position _ _ _).trans (counted _)
    · exact counted _

theorem offer_position (k : WaitKey) (o : Owner) (p : Payload) : (s.offer (some k) o p).1.positionOf x = s.positionOf x := by
  unfold State.offer
  cases judgeOffer o p s.line.queue with
  | into q left => rfl
  | placed q d => exact loseJoin_position _
  | refused =>
    dsimp only [State.enterWaiting]
    split <;> rfl

/-- Walks and removals leave every record its place. -/
theorem position_kept (x : Item) (i : Nat) : RemovalKept fun s => s.positionOf x = i where
  giveUp _ h := h
  offer _ _ _ _ h := (offer_position _ _ _).trans h
  put _ _ _ h := (positionOf_putRecord _ _ _).trans h
  decision _ _ _ h := by
    unfold State.offerDecision
    dsimp only
    split
    · exact (positionOf_putRecord _ _ _).trans ((offer_position _ _ _).trans h)
    · exact (offer_position _ _ _).trans h
  disown _ h := (positionOf_putRecord _ _ _).trans h
  repeatDecide _ _ h := (offer_position _ _ _).trans h
  request _ h := h
  drop _ h := h
  hold _ h := h

end

/-! ### A slot that is freed (R134) -/

section
variable {s : State} {x y : Item} {r : Record} {l : Lead} {k : BitVec 2} {u : SlotUse}

/-- The state in which a freed slot is handed on: its QUERY removed and the field of the record that it served cleared. -/
def State.unserved (s : State) (k : BitVec 2) (u : SlotUse) : State := ((s.giveUp (.query k)).askRemoval (ofSlot k)).setSlotField u.item none

theorem setSlotField_queries (s : State) (x : Item) (k : Option (BitVec 2)) : (s.setSlotField x k).queries = s.queries := by
  unfold State.setSlotField
  split <;> rfl

theorem unserved_queries (s : State) (k : BitVec 2) (u : SlotUse) : (s.unserved k u).queries = s.queries :=
  (setSlotField_queries _ _ _).trans (askRemoval_onlyOffers (s.giveUp (.query k)) (ofSlot k)).queries

theorem unserved_position (s : State) (k : BitVec 2) (u : SlotUse) (y : Item) : (s.unserved k u).positionOf y = s.positionOf y := by
  have removed := (position_kept y (s.positionOf y)).askRemoval (s := s.giveUp (.query k)) (ofSlot k) rfl
  unfold State.unserved State.setSlotField
  split
  · exact (positionOf_putRecord _ _ _).trans removed
  · exact removed

theorem record?_setSlotField_of_ne (other : y ≠ x) (k : Option (BitVec 2)) : (s.setSlotField x k).record? y = s.record? y := by
  unfold State.setSlotField
  split
  · next r l lead =>
    obtain ⟨record, -⟩ := lead?_eq_some.1 lead
    have item := record?_item record
    rw [State.putLead, State.putRecState, record?_putRecord (r := r) (by simpa [item] using record), if_neg (by rw [item]; exact other)]
  · rfl

theorem unserved_lead (other : y ≠ u.item) (lead : s.lead? y = some (r, l)) :
    ∃ r' l', (s.unserved k u).lead? y = some (r', l') ∧ { l' with owed := none } = { l with owed := none } := by
  have only : OnlyOffers s ((s.giveUp (.query k)).askRemoval (ofSlot k)) := (giveUp_onlyOffers _ _).trans (askRemoval_onlyOffers _ _)
  obtain ⟨r', l', lead', same, -⟩ := only.lead lead
  obtain ⟨record, state⟩ := lead?_eq_some.1 lead'
  exact ⟨r', l', lead?_eq_some.2 ⟨(record?_setSlotField_of_ne other none).trans record, state⟩, same⟩

theorem unserved_lead_self (lead : s.lead? u.item = some (r, l)) :
    ∃ r' l', (s.unserved k u).lead? u.item = some (r', l') ∧ { l' with owed := none } = { l with owed := none, slot := none } ∧
      r'.code = r.code ∧ r'.mark = r.mark ∧ r'.item = r.item := by
  have only : OnlyOffers s ((s.giveUp (.query k)).askRemoval (ofSlot k)) := (giveUp_onlyOffers _ _).trans (askRemoval_onlyOffers _ _)
  obtain ⟨r', l', lead', same, bare⟩ := only.lead lead
  have stored := lead?_putLead (l' := { l' with slot := none }) lead'
  rw [← setSlotField_lead lead'] at stored
  simp only [Lead.mk.injEq] at same
  obtain ⟨stage, provSent, slot, quiet, provMade, provLanes, final, -⟩ := same
  simp only [Record.bare, Record.mk.injEq] at bare
  exact ⟨_, _, stored, by simp [stage, provSent, quiet, provMade, provLanes, final], bare.2.1, bare.2.2.2.1, bare.1⟩

theorem freeSlot_idle (use : (s.queries.slots.get k).use = some u) (unwaited : s.queries.wait = []) : s.freeSlot k =
    (s.unserved k u).setQueries { slots := s.queries.slots.set k ⟨(s.queries.slots.get k).seq + 1, none⟩, wait := [] } :=
  freeSlot_alone use unwaited

theorem freeSlot_handed (use : (s.queries.slots.get k).use = some u) {ys : List Item} (waits : s.queries.wait = y :: ys) : s.freeSlot k =
    ((s.unserved k u).setQueries { slots := s.queries.slots.set k ⟨(s.queries.slots.get k).seq + 1, none⟩, wait := ys }).takeSlot k y := by
  have queries := unserved_queries s k u
  simp only [State.unserved] at queries
  simp only [State.freeSlot, use, queries, State.setQueries_queries, waits, State.unserved]
  rfl

/-! ### The end of a hold (O48) -/

theorem offerDecision_keeps_query {tag : Nat} (d : Decision) (out : s.QueryOffered k tag y) : (s.offerDecision x d).1.QueryOffered k tag y := by
  have offered : (s.offer (some (.decision x)) (.record x) (.decision ⟨x, d, false⟩)).1.QueryOffered k tag y := by
    have sys : (s.offer (some (.decision x)) (.record x) (.decision ⟨x, d, false⟩)).1.sys = s.sys := (offer_onlyOffers _ _ _ _).sys
    rw [State.QueryOffered, sys]
    exact out.imp (fun ⟨f, hf, is⟩ => ⟨f, offer_keeps_frame (by simp [is.1, Payload.sort]) hf, is⟩) (offer_keeps_waiting nofun)
  unfold State.offerDecision
  dsimp only
  split
  · exact offered
  · exact offered

theorem holdExpired_eq (lead : s.lead? x = some (r, l)) {laneA : Nat} {laneB : Option Nat} {e : ClassEntry} {left : Nat}
    (held : l.stage = .held laneA laneB e left) : s.holdExpired x =
      ((if l.slot.isSome then s.count .answersMissed 1 else s).endQuery x l.slot).offerFinal x ⟨policyVerdict e.policy, .noAnswer, laneA, laneB⟩ := by
  simp only [State.holdExpired, lead, held]

end

/-- Settles O48. -/
theorem holdExpiryAppliesTheUnknownPolicy : Obligations.HoldExpiryAppliesTheUnknownPolicy := by
  intro s v a x r l laneA laneB e d hv lead held running hd
  have policy : (⟨policyVerdict e.policy, .noAnswer, laneA, laneB⟩ : Decision) = d := by
    rw [hd]
    cases e.policy <;> rfl
  have run : exec (.holdTimerEnd a x) s =
      .next (((if l.slot.isSome then v.count .answersMissed 1 else v).endQuery x l.slot).offerFinal x d) := by
    rw [exec_holdTimerEnd, ← hv, ← policy, ← holdExpired_eq lead held]
    simp only [State.holdEnds, lead, held, if_true]
  rw [run]
  obtain ⟨w, hw⟩ : ∃ w, w = if l.slot.isSome then v.count .answersMissed 1 else v := ⟨_, rfl⟩
  have counted : OnlyQueries w (w.endQuery x l.slot) := endQuery_onlyQueries _ _ _
  have lead1 : w.lead? x = some (r, l) := by
    rw [hw]
    split
    · rw [State.lead?, State.record?, State.count_table]; exact lead
    · exact lead
  obtain ⟨r2, l2, lead2, -, -⟩ := counted.lead lead1
  obtain ⟨r', l', record, state, stage, final, offered, -⟩ := offerFinal_decided lead2 d
  obtain ⟨queries, -, -, missed⟩ := offerFinal_rest lead2 d
  have missed' := missed.trans (counted.counter (k := .answersMissed) nofun)
  rw [← hw]
  refine ⟨_, r', l', rfl, record, state, stage, final, offered, fun noSlot => ⟨?_, ?_⟩, fun k seq u slot use => ⟨?_, fun unwaited => ?_,
    fun y ys i ry ly waits other item leadY place first => ?_⟩⟩
  · rw [queries, noSlot]
    simp [State.endQuery, State.leaveSlotWait]
  · rw [missed', hw, noSlot]
    rfl
  all_goals
    rw [slot] at hw
    have wQueries : w.queries = v.queries := by rw [hw]; exact State.count_queries _ _ _
    have used : (w.queries.slots.get k).use = some u := by rw [wQueries, use]
    have ends : w.endQuery x l.slot = w.freeSlot k := by rw [slot]; rfl
  · rw [missed', hw]
    exact counterAt_count running .answersMissed .answersMissed 1
  · rw [queries, ends, freeSlot_idle used (by rw [wQueries, unwaited]), wQueries, use, State.setQueries_queries]
    simp only [unwaited]
  · have handed := freeSlot_handed used (by rw [wQueries, waits])
    rw [wQueries, use] at handed
    have table : w.table = v.table := by rw [hw]; exact State.count_table _ _ _
    have leadW : w.lead? y = some (ry, ly) := by rw [State.lead?, State.record?, table]; exact leadY
    have position : w.positionOf y = i :=
      positionOf_eq (by rw [table]; exact place) (record?_item (lead?_eq_some.1 leadY).1) (by rw [table]; exact first)
    obtain ⟨r3, l3, lead3, -⟩ := unserved_lead (k := k) (by rw [item]; exact other) leadW
    obtain ⟨taken, out, r4, l4, lead4, same4⟩ := takeSlot_spec (s := (w.unserved k u).setQueries
      { slots := v.queries.slots.set k ⟨seq + 1, none⟩, wait := ys }) lead3 k
    rw [← handed, ← ends] at taken out lead4
    have stored := record?_putRecord (y := y) (s := w.endQuery x l.slot)
      (r' := { r2 with state := .lead { l2 with stage := .openStage, final := some d } }) (r := r2) (by
        simpa only [record?_item (lead?_eq_some.1 lead2).1] using (lead?_eq_some.1 lead2).1)
    rw [if_neg (by simpa [record?_item (lead?_eq_some.1 lead2).1] using other)] at stored
    have leadStored : ((w.endQuery x l.slot).putLead r2 { l2 with stage := .openStage, final := some d }).lead? y = some (r4, l4) :=
      lead?_eq_some.2 ⟨stored.trans (lead?_eq_some.1 lead4).1, (lead?_eq_some.1 lead4).2⟩
    obtain ⟨r5, l5, lead5, same5, -⟩ := (offerDecision_onlyOffers _ x d).lead leadStored
    refine ⟨?_, ?_, r5, l5, (by rw [offerFinal_eq lead2]; exact lead5), ?_⟩
    · rw [queries, taken, ← position, ← unserved_position w k u y]
      simp [State.positionOf]
    · rw [offerFinal_eq lead2]
      refine offerDecision_keeps_query d ?_
      rw [State.setQueries_queries, Quad.get_set_self] at out
      exact out
    · simp only [Lead.mk.injEq] at same5 same4
      exact same5.2.2.1.trans same4.2.2.1

end Sys2Proof.Machine
end

section
/-! PROOFS. Notices and answers at the records that they concern (chapter 8, R151, R156). -/

namespace Sys2Proof.Machine

/-! ### The cache (R125, R127) -/

/-- A notice of the item, among the newest `n` entries and the only one of the item before them. -/
def Newest (c : List Notice) (x : Item) (st : NoticeStatus) (n : Nat) : Prop :=
  ∃ older newer, c = older ++ ⟨x, st, 0⟩ :: newer ∧ (∀ e ∈ older, e.item ≠ x) ∧ newer.length < n

theorem Newest.find {c : List Notice} {x : Item} {st : NoticeStatus} {n : Nat} (h : Newest c x st n) :
    c.find? (fun e => e.item == x) = some ⟨x, st, 0⟩ := by
  obtain ⟨older, newer, rfl, before, -⟩ := h
  have away : older.find? (fun e => e.item == x) = none := List.find?_eq_none.2 fun e he => by simpa using before e he
  simp [away]

theorem newest_enterNotice (st : NoticeStatus) (c : List Notice) (x : Item) : Newest (enterNotice st c x) x st 1 := by
  refine ⟨_, [], rfl, fun e he => ?_, Nat.one_pos⟩
  split at he
  · simpa using (List.mem_filter.1 he).2
  · next absent =>
    have away : ∀ e ∈ c, e.item ≠ x := by simpa using absent
    split at he
    · exact away e (List.mem_of_mem_drop he)
    · exact away e he

theorem noticeOf_enterNotice (st : NoticeStatus) (c : List Notice) (x : Item) : noticeOf x (enterNotice st c x) = some st := by
  rw [noticeOf, (newest_enterNotice st c x).find, Option.map_some]

/-! ### The re-evaluation of a HELD record (R151) -/

section
variable {s : State} {x : Item} {r : Record} {l : Lead} {laneA : Nat} {laneB : Option Nat} {e : ClassEntry} {left : Nat}

theorem reEvaluateHeld_decides (lead : s.lead? x = some (r, l)) (held : l.stage = .held laneA laneB e left) {answer : Option IssueStatus}
    {o : IssueStatus} (status : withAnswer answer (s.issueStatusOf r) = o) (known : o ≠ .ask) {v : Verdict} {w : Reason}
    (verdict : issueVerdict e o = some (v, w)) :
    s.reEvaluateHeld x answer = (s.endQuery x l.slot).offerFinal x ⟨v, w, laneA, laneB⟩ := by
  simp only [State.reEvaluateHeld, lead, held, status, State.actOnStatus, if_neg known]
  cases o with
  | ask => exact absurd rfl known
  | byMark | byNotice | byAnswer | unissued | returned | unknown => simp only [verdict]

/-- A known status always has a verdict (R151). -/
theorem issueVerdict_known {o : IssueStatus} (known : o ≠ .ask) (e : ClassEntry) : ∃ v w, issueVerdict e o = some (v, w) := by
  cases o with
  | ask => exact absurd rfl known
  | byMark | byNotice | byAnswer | unissued | returned | unknown => exact ⟨_, _, rfl⟩

theorem answered_known (st : AnswerStatus) (error : Bool) (table : IssueStatus) : withAnswer (some (answerOutcome st error)) table ≠ .ask := by
  cases table <;> cases error <;> cases st <;> decide

theorem noticeStatus_cases (entry : Option NoticeStatus) : entry = none ∨ entry = some .issued ∨ entry = some .returned := by
  rcases entry with - | - | - <;> simp

/-- An ANSWER's outcome stands where neither the mark nor a RETURN notice decides (R135). -/
theorem withAnswer_open (a : IssueStatus) {entry : Option NoticeStatus} (unreturned : entry ≠ some .returned) (registry : Nat) :
    withAnswer (some a) (issueStatus .notIssued entry registry) = a := by
  obtain rfl | rfl | rfl := noticeStatus_cases entry
  · simp only [issueStatus]
    split <;> rfl
  · rfl
  · exact absurd rfl unreturned

end

/-- Settles O43. -/
theorem matchingAnswerSettlesTheHeldRecord : Obligations.MatchingAnswerSettlesTheHeldRecord := by
  intro s v a sender stamp b k seq pos r l laneA laneB e left entry hv hears forMe small hk use unwaited lead held slot hentry
  obtain ⟨u, hu⟩ : ∃ u : State, u = v.setPhase (.idle 0) := ⟨_, rfl⟩
  have queries : u.queries = v.queries := by rw [hu]; rfl
  have used : (u.queries.slots.get k).use = some ⟨b.item, pos, b.tag.toNat⟩ := by rw [queries, use]
  have leadU : u.lead? b.item = some (r, l) := by rw [hu]; exact lead
  obtain ⟨w, hw⟩ : ∃ w, w = if b.status = .issued ∧ b.error = false then (u.freeSlot k).setCache (enterNotice .issued (u.freeSlot k).cache b.item)
    else u.freeSlot k := ⟨_, rfl⟩
  have run : exec (.heardAnswer a sender b) s = .next (w.reEvaluateHeld b.item (some (answerOutcome b.status b.error))) := by
    have matches' : u.matchingSlot b = some k := by
      simp only [State.matchingSlot, ← hk, used]
      simp [small]
    rw [exec_heardAnswer, ← hv, takeFrame_desk hears rfl rfl, ← hu, if_pos (show b.receiver.toNat = u.number by rw [hu]; exact forMe),
      State.takeAnswer, matches']
    simp only [hw]
  have freed := freeSlot_idle used (by rw [queries, unwaited])
  obtain ⟨r1, l1, lead1, same, -, mark, -⟩ := unserved_lead_self (k := k) (u := ⟨b.item, pos, b.tag.toNat⟩) leadU
  have leadW : w.lead? b.item = some (r1, l1) := by
    rw [hw, freed]
    split <;> exact lead1
  have cache : w.cache = if b.status = .issued ∧ b.error = false then enterNotice .issued v.cache b.item else v.cache := by
    have kept : (u.freeSlot k).cache = v.cache := by rw [(freeSlot_onlyQueries u k).cache, hu]; rfl
    rw [hw]
    split
    · rw [kept]; rfl
    · exact kept
  have notice : noticeOf b.item w.cache = if b.status = .issued ∧ b.error = false then some .issued else entry := by
    rw [cache]
    split
    · exact noticeOf_enterNotice _ _ _
    · exact hentry.symm
  have slots : w.queries = { slots := v.queries.slots.set k ⟨seq + 1, none⟩, wait := [] } := by
    have one : (u.freeSlot k).queries = { slots := v.queries.slots.set k ⟨seq + 1, none⟩, wait := [] } := by
      rw [freed, State.setQueries_queries, queries, use]
    rw [hw]
    split <;> exact one
  simp only [Lead.mk.injEq] at same
  have heldW : l1.stage = .held laneA laneB e left := same.1.trans held
  have known := answered_known b.status b.error (w.issueStatusOf r1)
  obtain ⟨vd, why, verdict⟩ := issueVerdict_known known e
  have decides := reEvaluateHeld_decides leadW heldW rfl known verdict
  have ends : w.endQuery b.item l1.slot = w.leaveSlotWait b.item := by rw [same.2.2.1]; rfl
  obtain ⟨r', l', record, state, stage, final, -, slotless⟩ := offerFinal_decided (s := w.leaveSlotWait b.item) leadW ⟨vd, why, laneA, laneB⟩
  obtain ⟨queriesT, -⟩ := offerFinal_rest (s := w.leaveSlotWait b.item) leadW ⟨vd, why, laneA, laneB⟩
  rw [State.issueStatusOf, mark, record?_item (lead?_eq_some.1 leadW).1, notice] at verdict
  refine ⟨_, r', l', _, run, ?_, (by rw [decides, ends]; exact record), state, slotless.trans same.2.2.1, stage, final, rfl, rfl, ?_⟩
  · rw [decides, ends, queriesT, State.leaveSlotWait, State.setQueries_queries, slots, Quad.get_set_self]
  · refine ⟨fun issued clean unmarked => ?_, fun other returned => ?_, fun other marked unreturned => ?_, fun not clean unmarked unreturned => ?_,
      fun unknown unmarked unreturned => ?_⟩
    · rw [if_pos ⟨issued, clean⟩, issued, clean, unmarked] at verdict
      simpa [answerOutcome, issueStatus, withAnswer, issueVerdict, eq_comm] using verdict
    · rw [if_neg other, returned] at verdict
      simpa [issueStatus, withAnswer, issueVerdict, eq_comm] using verdict
    · rw [if_neg other, marked] at verdict
      obtain rfl | rfl | rfl := noticeStatus_cases entry
      · simpa [issueStatus, withAnswer, issueVerdict, eq_comm] using verdict
      · simpa [issueStatus, withAnswer, issueVerdict, eq_comm] using verdict
      · exact absurd rfl unreturned
    · rw [if_neg (by simp [not]), not, clean, unmarked, withAnswer_open _ unreturned] at verdict
      simpa [answerOutcome, issueVerdict, eq_comm] using verdict
    · have outcome : answerOutcome b.status b.error = .unknown := by
        obtain open' | error := unknown
        · rw [open']; cases b.error <;> rfl
        · rw [error]; rfl
      have other : ¬ (b.status = .issued ∧ b.error = false) := by
        rintro ⟨issued, clean⟩
        rw [issued, clean] at outcome
        cases outcome
      rw [if_neg other, outcome, unmarked, withAnswer_open _ unreturned] at verdict
      simp only [issueVerdict, Option.some.injEq, Prod.mk.injEq] at verdict
      refine ⟨verdict.2.symm, ?_⟩
      rw [← verdict.1]
      cases e.policy <;> rfl

/-! ### Notices (O41) -/

theorem Newest.enterNotice {c : List Notice} {x y : Item} {st : NoticeStatus} {n : Nat} (h : Newest c x st n) (few : n < cacheSize)
    (st' : NoticeStatus) (other : y ≠ x) : Newest (enterNotice st' c y) x st (n + 1) := by
  obtain ⟨older, newer, rfl, none, near⟩ := h
  unfold Machine.enterNotice
  dsimp only
  split
  · refine ⟨older.filter (fun e => e.item != y), newer.filter (fun e => e.item != y) ++ [⟨y, st', 0⟩], ?_,
      fun e he => none e (List.mem_filter.1 he).1, ?_⟩
    · simp [other.symm]
    · have shorter := List.length_filter_le (fun e : Notice => e.item != y) newer
      simp only [List.length_append, List.length_singleton]
      omega
  · have longer : (newer ++ [(⟨y, st', 0⟩ : Notice)]).length < n + 1 := by simpa using near
    split
    · next full =>
      cases older with
      | nil =>
        simp only [List.nil_append, List.length_cons] at full
        omega
      | cons e older => exact ⟨older, _, by simp, fun e he => none e (List.mem_cons_of_mem _ he), longer⟩
    · exact ⟨older, _, by simp, none, longer⟩

theorem newest_foldl (st : NoticeStatus) (c : List Notice) (items : List Item) (few : items.length ≤ cacheSize) :
    ∀ x ∈ items, Newest (items.foldl (enterNotice st) c) x st items.length := by
  induction items using List.reverseRecOn with
  | nil => simp
  | append_singleton ys y ih =>
    simp only [List.length_append, List.length_singleton] at few
    intro x hx
    rw [List.foldl_append, List.foldl_cons, List.foldl_nil, List.length_append, List.length_singleton]
    by_cases same : y = x
    · subst same
      obtain ⟨older, newer, shape, none, near⟩ := newest_enterNotice st (ys.foldl (enterNotice st) c) y
      exact ⟨older, newer, shape, none, by omega⟩
    · have earlier : x ∈ ys := by simpa [Ne.symm same] using hx
      exact (ih (by omega) x earlier).enterNotice (by omega) st same

theorem enterNotice_length {c : List Notice} (bounded : c.length ≤ cacheSize) (st : NoticeStatus) (x : Item) :
    (enterNotice st c x).length ≤ cacheSize := by
  unfold enterNotice
  dsimp only
  rw [List.length_append, List.length_singleton]
  split
  · next known =>
    obtain ⟨e, he, hx⟩ := List.any_eq_true.1 known
    have shorter : (c.filter fun e => e.item != x).length < c.length :=
      List.length_filter_lt_length_iff_exists.2 ⟨e, he, by simpa using hx⟩
    omega
  · split
    · rw [List.length_drop]
      simp only [cacheSize] at *
      omega
    · omega

theorem foldl_enterNotice_length (st : NoticeStatus) (items : List Item) {c : List Notice} (bounded : c.length ≤ cacheSize) :
    (items.foldl (enterNotice st) c).length ≤ cacheSize := by
  induction items generalizing c with
  | nil => exact bounded
  | cons x xs ih => exact ih (enterNotice_length bounded st x)

/-- A notice that enters, by the entries of the other items. -/
theorem enterNotice_others (st : NoticeStatus) (c : List Notice) (x : Item) : enterNotice st c x =
    (if (c.filter fun e => e.item ≠ x).length = c.length ∧ 512 ≤ c.length then (c.filter fun e => e.item ≠ x).drop 1
      else c.filter fun e => e.item ≠ x) ++ [⟨x, st, 0⟩] := by
  have filters : (c.filter fun e => e.item != x) = c.filter fun e => e.item ≠ x := List.filter_congr fun e _ => by
    by_cases mine : e.item = x <;> simp [mine]
  unfold enterNotice
  dsimp only
  rw [← filters]
  congr 1
  split
  · next known =>
    obtain ⟨e, he, hx⟩ := List.any_eq_true.1 known
    have shorter : (c.filter fun e => e.item != x).length < c.length :=
      List.length_filter_lt_length_iff_exists.2 ⟨e, he, by simpa using hx⟩
    rw [if_neg (by omega)]
  · next absent =>
    have whole : (c.filter fun e => e.item != x) = c := List.filter_eq_self.2 (by simpa using absent)
    rw [whole]
    simp [cacheSize]

section
variable {s : State} {x : Item} {r : Record} {l : Lead} {st : NoticeStatus}

theorem offerFinal_cache (s : State) (x : Item) (d : Decision) : (s.offerFinal x d).cache = s.cache := by
  cases lead : s.lead? x with
  | none => simp only [State.offerFinal, lead]
  | some p => exact (offerFinal_rest lead d).2.1

theorem reEvaluateHeld_cache (s : State) (x : Item) (answer : Option IssueStatus) : (s.reEvaluateHeld x answer).cache = s.cache := by
  have acted (slot : Option (BitVec 2)) (o : IssueStatus) : (s.actOnStatus x slot o).cache = s.cache := (actOnStatus_onlyQueries s x slot o).cache
  unfold State.reEvaluateHeld
  split
  · split
    · dsimp only
      split
      · exact acted _ _
      · split
        · exact (offerFinal_cache _ _ _).trans (acted _ _)
        · exact acted _ _
    · rfl
    · rfl
  · rfl

theorem reEvaluateProvisional_cache (s : State) (x : Item) : (s.reEvaluateProvisional x).cache = s.cache := by
  unfold State.reEvaluateProvisional
  split
  · split
    · dsimp only
      split
      · split
        · rfl
        · exact (offerDecision_onlyOffers _ _ _).cache
      · exact (offerDecision_onlyOffers _ _ _).cache
    · rfl
  · rfl

theorem noticeTold_cache (s : State) (x : Item) : (s.noticeTold x).cache = s.cache := by
  unfold State.noticeTold
  split
  · split
    · exact reEvaluateHeld_cache _ _ _
    · exact reEvaluateProvisional_cache _ _
    · rfl
  · rfl

theorem takeNotices_cache (s : State) (st : NoticeStatus) (items : List Item) :
    (s.takeNotices st items).cache = items.foldl (enterNotice st) s.cache := by
  have told (xs : List Item) (t : State) : (xs.foldl State.noticeTold t).cache = t.cache := by
    induction xs generalizing t with
    | nil => rfl
    | cons x xs ih => exact (ih _).trans (noticeTold_cache t x)
  exact told _ _

/-- The verdict on an item that a notice has just named, by the notice and the record's mark (R129, R150). -/
def toldVerdict (st : NoticeStatus) (mark : IssueMark) : Verdict × Reason :=
  if st = .returned then (.alarm, .returned) else (.clear, if mark = .issued then .issuedMark else .issuedNotice)

theorem told_verdict (e : ClassEntry) (mark : IssueMark) (registry : Nat) : withAnswer none (issueStatus mark (some st) registry) ≠ .ask ∧
    issueVerdict e (issueStatus mark (some st) registry) = some (toldVerdict st mark) := by
  cases st <;> cases mark <;> exact ⟨nofun, rfl⟩

/-- The look-up of a PROVISIONAL record that gives ALARM changes nothing; any other offers a WITHDRAW with the provisional lanes (R156). -/
theorem reEvaluateProvisional_alarm (lead : s.lead? x = some (r, l)) {d : Decision} (found : s.lookUp r = some d) (alarm : d.verdict = .alarm) :
    s.reEvaluateProvisional x = s := by
  simp [State.reEvaluateProvisional, lead, found, alarm]

theorem reEvaluateProvisional_withdraws (lead : s.lead? x = some (r, l)) (stage : l.stage = .provisional) (final : l.final = none)
    {d : Decision} (found : s.lookUp r = some d) (quiet : d.verdict ≠ .alarm) {lanes : Nat × Option Nat} (named : l.provLanes = some lanes) :
    s.reEvaluateProvisional x =
      ((s.putLead r { l with stage := .openStage }).offerDecision x ⟨.withdraw, d.reason, lanes.1, lanes.2⟩).1 := by
  simp [State.reEvaluateProvisional, lead, found, quiet, stage, final, named]

end

/-- Settles O41. -/
theorem noticesEnterTheCacheAndAreTold : Obligations.NoticesEnterTheCacheAndAreTold := by
  intro s v a sender stamp items hv hears some' few bounded
  have size : (decide (1 ≤ items.length) && decide (items.length ≤ 8)) = true := by simp [some', few]
  have issued : exec (.heardIssue a sender items) s = .next ((v.setPhase (.idle 0)).takeNotices .issued items) := by
    rw [exec_heardIssue, ← hv, takeFrame_desk hears (b := .issueBody items) rfl size]
  have returned : exec (.heardReturn a sender items) s = .next ((v.setPhase (.idle 0)).takeNotices .returned items) := by
    rw [exec_heardReturn, ← hv, takeFrame_desk hears (b := .returnBody items) rfl size]
  have entered (st : NoticeStatus) : ((v.setPhase (.idle 0)).takeNotices st items).cache.length ≤ 512 ∧
      ∀ x ∈ items, ((v.setPhase (.idle 0)).takeNotices st items).cache.find? (fun e => e.item == x) = some ⟨x, st, 0⟩ := by
    rw [takeNotices_cache]
    exact ⟨foldl_enterNotice_length st items bounded, fun x hx => (newest_foldl st _ items (by simp only [cacheSize]; omega) x hx).find⟩
  refine ⟨⟨_, issued, entered .issued⟩, ⟨_, returned, entered .returned⟩, fun x cmd st others cache one command hothers hcache => ?_⟩
  subst one
  obtain ⟨u, hu⟩ : ∃ u : State, u = (v.setPhase (.idle 0)).setCache cache := ⟨_, rfl⟩
  have cacheU : u.cache = cache := by rw [hu]; rfl
  have run : exec cmd s = .next (u.noticeTold x) := by
    have told : ∀ st', st' = st → (v.setPhase (.idle 0)).takeNotices st' [x] = u.noticeTold x := by
      rintro st' rfl
      have single : cache = enterNotice st' v.cache x := by rw [enterNotice_others, hcache, hothers]
      rw [hu, single]
      rfl
    obtain ⟨rfl, rfl⟩ | ⟨rfl, rfl⟩ := command
    · rw [issued, told _ rfl]
    · rw [returned, told _ rfl]
  have notice : noticeOf x u.cache = some st := by
    rw [cacheU, hcache, hothers, ← enterNotice_others]
    exact noticeOf_enterNotice st _ x
  rw [run, ← hu]
  refine ⟨fun unled => ?_, fun r l lead => ⟨fun stage => ?_, fun laneA laneB e left d held hd => ?_,
    fun checked verdict reason lanes stage final named hchecked outcome => ?_⟩⟩
  · have leadU : u.lead? x = none := by rw [hu]; exact unled
    simp only [State.noticeTold, leadU]
  all_goals have leadU : u.lead? x = some (r, l) := by rw [hu]; exact lead
  · simp only [State.noticeTold, leadU, stage]
  · obtain ⟨known, verdict⟩ := told_verdict (st := st) e r.mark u.sys.cfg.registry
    have status : u.issueStatusOf r = issueStatus r.mark (some st) u.sys.cfg.registry := by
      rw [State.issueStatusOf, record?_item (lead?_eq_some.1 leadU).1, notice]
    have decided : u.noticeTold x = (u.endQuery x l.slot).offerFinal x d := by
      have told : u.noticeTold x = u.reEvaluateHeld x none := by simp only [State.noticeTold, leadU, held]
      have value : d = ⟨(toldVerdict st r.mark).1, (toldVerdict st r.mark).2, laneA, laneB⟩ := by
        rw [hd, toldVerdict]
        split <;> rfl
      rw [told, value]
      exact reEvaluateHeld_decides leadU held (by rw [status]) known verdict
    have only := endQuery_onlyQueries u x l.slot
    obtain ⟨r1, l1, lead1, -, -⟩ := only.lead leadU
    obtain ⟨r', l', record, state, open', final, offered, -⟩ := offerFinal_decided lead1 d
    obtain ⟨queries, cached, -⟩ := offerFinal_rest lead1 d
    rw [decided]
    refine ⟨_, r', l', rfl, cached.trans (only.cache.trans cacheU), record, state, open', final, offered, fun unslotted => ?_,
      fun k seq use slot used unwaited => ?_⟩
    · rw [queries, unslotted]
      simp [State.endQuery, State.leaveSlotWait]
    · have same : u.queries = v.queries := by rw [hu]; rfl
      rw [queries, slot, show u.endQuery x (some k) = u.freeSlot k from rfl,
        freeSlot_idle (u := use) (by rw [same, used]) (by rw [same, unwaited]), State.setQueries_queries, Quad.get_set_self, same, used]
  · have told : u.noticeTold x = u.reEvaluateProvisional x := by simp only [State.noticeTold, leadU, stage]
    have checks : u.checkRecord r = checked := by rw [hchecked, hu]; rfl
    obtain ⟨d, found, hv', hw'⟩ : ∃ d, u.lookUp r = some d ∧ d.verdict = verdict ∧ d.reason = reason := by
      obtain ⟨d, decided, hv', hw'⟩ | ⟨⟨e, issue⟩, table⟩ := outcome
      · exact ⟨d, by simp only [State.lookUp, checks, decided], hv'.symm, hw'.symm⟩
      · have status : u.issueStatusOf r = issueStatus r.mark (some st) u.sys.cfg.registry := by
          rw [State.issueStatusOf, record?_item (lead?_eq_some.1 leadU).1, notice]
        obtain ⟨-, given⟩ := told_verdict (st := st) e r.mark u.sys.cfg.registry
        refine ⟨⟨verdict, reason, (u.estimateOf r).laneA, (u.estimateOf r).laneB⟩, ?_, rfl, rfl⟩
        simp only [State.lookUp, checks, issue, status, given]
        obtain ⟨rfl, rfl, rfl⟩ | ⟨rfl, rfl, rfl⟩ := table <;> rfl
    rw [told]
    refine ⟨fun alarm => ?_, fun quiet => ?_⟩
    · rw [reEvaluateProvisional_alarm leadU found (hv'.trans alarm)]
    · rw [reEvaluateProvisional_withdraws leadU stage final found (by rw [hv']; exact quiet) named, hw']
      obtain ⟨r', l', lead', same, -, offered⟩ := offerDecision_lead ⟨.withdraw, reason, lanes.1, lanes.2⟩
        (lead?_putLead (l' := { l with stage := .openStage }) leadU)
      obtain ⟨record, state⟩ := lead?_eq_some.1 lead'
      have cached := (offerDecision_onlyOffers (u.putLead r { l with stage := .openStage }) x ⟨.withdraw, reason, lanes.1, lanes.2⟩).cache
      simp only [Lead.mk.injEq] at same
      refine ⟨_, r', l', rfl, cached.trans cacheU, record, state, same.1, same.2.2.2.2.2.2.1.trans final, ?_⟩
      exact offered.imp (fun ⟨_, queued⟩ => queued) fun ⟨owed, waits⟩ => ⟨waits, owed⟩

end Sys2Proof.Machine
end

section
/-! PROOFS. A sample that a heard JOIN adds to a LEAD record's list (R109, R145, R146, R151, R154). -/

namespace Sys2Proof.Machine

/-! ### The estimate does not see the sent flags -/

/-- A sample, its sent flag aside. -/
def Sample.unflag (p : Sample) : Sample := { p with flag := .unsent }

theorem totalWeight_unflag (floor : Nat) (ps : List Sample) : totalWeight floor (ps.map Sample.unflag) = totalWeight floor ps := by
  rw [totalWeight, List.map_map]
  rfl

theorem filter_unflag (keep : Sample → Bool) (blind : ∀ p, keep p.unflag = keep p) (ps : List Sample) :
    (ps.map Sample.unflag).filter keep = (ps.filter keep).map Sample.unflag := by
  rw [List.filter_map]
  exact congrArg _ (List.filter_congr fun p _ => blind p)

theorem laneScore_unflag (floor : Nat) (ps : List Sample) : laneScore floor (ps.map Sample.unflag) = laneScore floor ps := funext fun j => by
  rw [laneScore, filter_unflag _ fun _ => rfl, totalWeight_unflag]
  rfl

theorem oldestFrom_unflag (now : Clock) (b : Sample) (ps : List Sample) :
    oldestFrom now b.unflag (ps.map Sample.unflag) = (oldestFrom now b ps).unflag := by
  induction ps generalizing b with
  | nil => rfl
  | cons p ps ih =>
    rw [List.map_cons, oldestFrom, oldestFrom, ← ih]
    congr 1
    exact (apply_ite Sample.unflag _ p b).symm

theorem originOf_unflag (now : Clock) (ps : List Sample) : originOf now (ps.map Sample.unflag) = originOf now ps := by
  cases ps with
  | nil => rfl
  | cons p ps =>
    rw [List.map_cons, originOf, originOf, oldestFrom_unflag]
    rfl

theorem centroid_unflag (floor : Nat) (origin : Clock) (ps : List Sample) :
    centroid floor origin (ps.map Sample.unflag) = centroid floor origin ps := by
  rw [centroid, totalWeight_unflag, List.map_map]
  rfl

theorem faceDirection_unflag (floor threshold : Nat) (origin : Clock) (ps : List Sample) :
    faceDirection floor threshold origin (ps.map Sample.unflag) = faceDirection floor threshold origin ps := by
  simp only [faceDirection, filter_unflag Sample.inner fun _ => rfl, filter_unflag (fun p => !p.inner) fun _ => rfl, totalWeight_unflag,
    centroid_unflag]

theorem estimate_unflag (c : Config) (now : Clock) (ps : List Sample) : estimate c now (ps.map Sample.unflag) = estimate c now ps := by
  simp only [estimate, laneScore_unflag, originOf_unflag]
  rw [filter_unflag _ fun _ => rfl]
  simp only [faceDirection_unflag]

theorem estimate_bare {s t : State} {r r' : Record} (bare : r'.bare = r.bare) (sys : t.sys = s.sys) (time : t.time = s.time) :
    t.estimateOf r' = s.estimateOf r := by
  have samples : r'.samples.map Sample.unflag = r.samples.map Sample.unflag := congrArg Record.samples bare
  rw [State.estimateOf, State.estimateOf, ← estimate_unflag, samples, estimate_unflag, sys, time]

/-! ### The look-up (R154) -/

section
variable {s : State} {x : Item} {r : Record} {l : Lead}

/-- The checks on a result never give a reason of the issue check. -/
theorem resultChecks_reason {c : Config} {hall level : BitVec 2} {code : Byte} {e : Estimate} {d : Decision}
    (decided : resultChecks c hall code level e = .decided d) : d.reason ≠ .unissued ∧ d.reason ≠ .returned := by
  have classes (h : classChecks c hall code level e = .decided d) : d.reason ≠ .unissued ∧ d.reason ≠ .returned := by
    unfold classChecks at h
    dsimp only at h
    split at h
    · cases h; exact ⟨nofun, nofun⟩
    · split at h
      · cases h; exact ⟨nofun, nofun⟩
      · split at h
        · cases h; exact ⟨nofun, nofun⟩
        · split at h
          · cases h; exact ⟨nofun, nofun⟩
          · split at h
            · cases h; exact ⟨nofun, nofun⟩
            · cases h
  unfold resultChecks at decided
  split at decided
  · cases decided; exact ⟨nofun, nofun⟩
  · split at decided
    · cases decided; exact ⟨nofun, nofun⟩
    · cases decided; exact ⟨nofun, nofun⟩
    · exact classes decided

theorem classOf_some {c : Config} {code : Byte} {k : ClassEntry} (low : code.toNat < c.classLimit) (entry : c.classes[code.toNat]? = some k) :
    classOf c code = some k := by
  simp [classOf, low, entry]

/-- An early alarm makes the record PROVISIONAL and offers its DECIDE (R155). -/
theorem provisionalCheck_alarms (lead : s.lead? x = some (r, l)) (stage : l.stage = .openStage) (unmade : l.provMade = false)
    (final : l.final = none) {d : Decision} (found : s.lookUp r = some d) (early : earlyAlarm d = true) {k : ClassEntry}
    (entry : classOf s.sys.cfg r.code = some k) (present : k.present = true) (enabled : k.provisionalEnable = true) :
    s.provisionalCheck x = ((s.putLead r { l with stage := .provisional, provMade := true, provLanes := some (d.laneA, d.laneB) }).offerDecision
      x { d with verdict := .provisional }).1 := by
  simp only [State.provisionalCheck, lead, stage, unmade, final, found, entry, early, present, enabled, and_self, if_true, Bool.and_self]

theorem provisionalCheck_idle (lead : s.lead? x = some (r, l)) (idle : l.stage = .provisional ∨ l.stage = .openStage ∧
      (l.provMade = true ∨ l.final ≠ none ∨ (∀ k, classOf s.sys.cfg r.code = some k → k.provisionalEnable = false) ∨
        ∀ d, s.lookUp r = some d → earlyAlarm d = false)) :
    s.provisionalCheck x = s := by
  simp only [State.provisionalCheck, lead]
  obtain stage | ⟨-, made | final | disabled | late⟩ := idle
  · rw [if_neg (by simp [stage])]
  · rw [if_neg (by simp [made])]
  · rw [if_neg (by simp [final])]
  · split
    · split
      · next d k found entry => rw [if_neg (by simp [disabled k entry])]
      · rfl
    · rfl
  · split
    · split
      · next d k found entry => rw [if_neg (by simp [late d found])]
      · rfl
    · rfl

/-- Whatever the check does, the record it leaves is still to be judged, on the same result (R146). -/
theorem provisionalCheck_undecided (lead : s.lead? x = some (r, l)) (undecided : l.undecided = true) :
    ∃ r' l', (s.provisionalCheck x).lead? x = some (r', l') ∧ l'.undecided = true ∧ (s.provisionalCheck x).estimateOf r' = s.estimateOf r := by
  have kept : ∃ r' l', s.lead? x = some (r', l') ∧ l'.undecided = true ∧ s.estimateOf r' = s.estimateOf r := ⟨r, l, lead, undecided, rfl⟩
  obtain ⟨final, -⟩ := undecided_iff.1 undecided
  simp only [State.provisionalCheck, lead]
  split
  · split
    · next d k found entry =>
      split
      · have stored := lead?_putLead (l' := { l with stage := .provisional, provMade := true, provLanes := some (d.laneA, d.laneB) }) lead
        obtain ⟨r', l', lead', same, bare, -⟩ := offerDecision_lead { d with verdict := .provisional } stored
        have only := offerDecision_onlyOffers (s.putLead r
          { l with stage := .provisional, provMade := true, provLanes := some (d.laneA, d.laneB) }) x { d with verdict := .provisional }
        simp only [Lead.mk.injEq] at same
        refine ⟨r', l', lead', undecided_iff.2 ⟨same.2.2.2.2.2.2.1.trans final, .inr same.1⟩, ?_⟩
        exact estimate_bare (s := s) (r := { r with state := .lead { l with
          stage := .provisional, provMade := true, provLanes := some (d.laneA, d.laneB) } }) bare only.sys only.time
      · exact kept
    · exact kept
  · exact kept

/-- What a final evaluation makes of a record: it is decided, or HELD with the lanes of the result (R148, R150). -/
def State.Evaluated (t : State) (x : Item) (e : Estimate) : Prop :=
  ∃ r l, t.record? x = some r ∧ r.state = .lead l ∧ ((∃ d, l.final = some d ∧ l.stage = .openStage ∧ t.DecideOffered x d l) ∨
    ∃ k left, l.stage = .held e.laneA e.laneB k left)

theorem finalEvaluation_evaluated (lead : s.lead? x = some (r, l)) (undecided : l.undecided = true) :
    (s.finalEvaluation x).Evaluated x (s.estimateOf r) := by
  have decides (d : Decision) (h : s.checkRecord r = .decided d ∨ ∃ e, s.checkRecord r = .toIssue e ∧
      issueVerdict e (s.issueStatusOf r) = some (d.verdict, d.reason) ∧ d.laneA = (s.estimateOf r).laneA ∧ d.laneB = (s.estimateOf r).laneB) :
      (s.finalEvaluation x).Evaluated x (s.estimateOf r) := by
    obtain ⟨r', l', record, state, stage, final, offered⟩ := finalEvaluation_decides lead undecided h
    exact ⟨r', l', record, state, .inl ⟨d, final, stage, offered⟩⟩
  cases checked : s.checkRecord r with
  | decided d => exact decides d (.inl checked)
  | toIssue e =>
    cases verdict : issueVerdict e (s.issueStatusOf r) with
    | some p => exact decides ⟨p.1, p.2, (s.estimateOf r).laneA, (s.estimateOf r).laneB⟩ (.inr ⟨e, checked, verdict, rfl, rfl⟩)
    | none =>
      have asks : s.issueStatusOf r = .ask ∧ holdLimit e ≠ 0 := by
        cases status : s.issueStatusOf r with
        | ask =>
          rw [status, issueVerdict] at verdict
          exact ⟨rfl, fun zero => by rw [if_pos zero] at verdict; cases verdict⟩
        | byMark | byNotice | byAnswer | unissued | returned | unknown => rw [status] at verdict; cases verdict
      rw [finalEvaluation_holds lead undecided checked asks.1 asks.2]
      obtain ⟨r2, l2, lead2, -, -⟩ := (actOnStatus_onlyQueries s x l.slot .ask).lead lead
      obtain ⟨lead3, -, -⟩ := holdRecord_lead lead2 (s.estimateOf r).laneA (s.estimateOf r).laneB e
      obtain ⟨record, state⟩ := lead?_eq_some.1 lead3
      exact ⟨_, _, record, state, .inr ⟨e, _, rfl⟩⟩

/-! ### A heard sample that enters a list with room (R93, R94) -/

theorem count_zero (bounded : counterAt s.report.counters .samplesLost ≤ 65535) : s.count .samplesLost 0 = s := by
  by_cases running : s.sys.run = .running
  · rw [State.count_running running, Nat.add_zero, Nat.min_eq_right bounded]
    rfl
  · exact State.count_still running _ _

theorem addSample_appends (record : s.record? x = some r) (room : r.samples.length < listSize)
    (bounded : counterAt s.report.counters .samplesLost ≤ 65535) (p : Sample) : s.addSample x p =
      ((s.putRecord { r with samples := r.samples ++ [p] }).sampleAdded x (dwellOf s.time.clock r.samples), true) := by
  have counted : (s.putRecord { r with samples := r.samples ++ [p] }).count .samplesLost 0 = s.putRecord { r with samples := r.samples ++ [p] } :=
    count_zero bounded
  simp only [State.addSample, record, offerToList, room, if_true, counted]

theorem addHeard_appends (record : s.record? x = some r) (room : r.samples.length < listSize)
    (bounded : counterAt s.report.counters .samplesLost ≤ 65535) {p : Sample} (fresh : ∀ q ∈ r.samples,
      ¬ (q.station = p.station ∧ q.side = p.side ∧ q.coil = p.coil ∧ q.strength = p.strength)) : s.addHeard x p =
      (s.putRecord { r with samples := r.samples ++ [p] }).sampleAdded x (dwellOf s.time.clock r.samples) := by
  have none : r.samples.any (isCopy p) = false := by
    simp only [List.any_eq_false, isCopy, Bool.and_eq_true, beq_iff_eq]
    rintro q hq ⟨⟨⟨⟨station, side⟩, coil⟩, strength⟩, -⟩
    exact fresh q hq ⟨station.symm, side.symm, coil.symm, strength.symm⟩
  simp only [State.addHeard, record, none, addSample_appends record room bounded]
  rfl

theorem putRecord_putRecord (s : State) (r r' : Record) (item : r'.item = r.item) : (s.putRecord r).putRecord r' = s.putRecord r' := by
  have twice : replaceRecord r'.item (some r') (replaceRecord r.item (some r) s.table) = replaceRecord r'.item (some r') s.table := by
    rw [replaceRecord, replaceRecord, replaceRecord, List.map_map, item]
    refine List.map_congr_left fun e _ => ?_
    rw [Function.comp_apply, ofItem_replaced r.item r.item rfl e]
    split <;> rfl
  exact congrArg (fun t => s.setTable t) twice

theorem putLead_putRecord (s : State) (r : Record) (l : Lead) : (s.putRecord r).putLead r l = s.putRecord { r with state := .lead l } :=
  putRecord_putRecord s r _ rfl

/-- The state in which a sample added to a LEAD record's list is judged: the list grown, the quiet timer restarted (R109, R145). -/
def State.grown (s : State) (r : Record) (l : Lead) (ps : List Sample) : State :=
  s.putRecord { r with samples := ps, state := .lead { l with quiet := some (s.sys.cfg.quiet * 1000) } }

theorem grown_lead (lead : s.lead? x = some (r, l)) (ps : List Sample) : (s.grown r l ps).lead? x =
    some ({ r with samples := ps, state := .lead { l with quiet := some (s.sys.cfg.quiet * 1000) } },
      { l with quiet := some (s.sys.cfg.quiet * 1000) }) := by
  obtain ⟨record, -⟩ := lead?_eq_some.1 lead
  have stored := record?_putRecord (s := s) (r := r) (r' := { r with
    samples := ps, state := .lead { l with quiet := some (s.sys.cfg.quiet * 1000) } }) (by simpa [record?_item record] using record) x
  rw [if_pos (record?_item record).symm] at stored
  exact lead?_eq_some.2 ⟨stored, rfl⟩

theorem sampleAdded_grown (lead : s.lead? x = some (r, l)) (ps : List Sample) (before : Nat) :
    (∀ a b e left, l.stage = .held a b e left → (s.putRecord { r with samples := ps }).sampleAdded x before = (s.grown r l ps).reEvaluateHeld x none) ∧
    (l.stage = .openStage ∨ l.stage = .provisional → (s.putRecord { r with samples := ps }).sampleAdded x before =
      if before < dwellOf s.time.clock ps ∧ s.sys.cfg.maxDwell ≤ dwellOf s.time.clock ps
      then ((s.grown r l ps).provisionalCheck x).finalEvaluation x else (s.grown r l ps).provisionalCheck x) := by
  obtain ⟨record, state⟩ := lead?_eq_some.1 lead
  have stored : (s.putRecord { r with samples := ps }).lead? x = some ({ r with samples := ps }, l) := by
    have found := record?_putRecord (s := s) (r := r) (r' := { r with samples := ps }) (by simpa [record?_item record] using record) x
    rw [if_pos (record?_item record).symm] at found
    exact lead?_eq_some.2 ⟨found, state⟩
  have grown : (s.putRecord { r with samples := ps }).putLead { r with samples := ps } { l with quiet := some (s.sys.cfg.quiet * 1000) } =
      s.grown r l ps := putLead_putRecord _ _ _
  refine ⟨fun a b e left held => ?_, fun stage => ?_⟩
  · rw [← grown]
    simp only [State.sampleAdded, stored, held]
    rfl
  · rw [← grown]
    rcases stage with stage | stage <;> (simp only [State.sampleAdded, stored, stage]; rfl)

/-- A JOIN of one new sample for this station's own LEAD record (R93, R103). -/
theorem heardJoin_ownLead (lead : s.lead? x = some (r, l)) {sender : Nat} {stamp : Clock} {b : JoinBody} {w : WireSample} (item : b.item = x)
    (own : b.lead.toNat = s.number) (known : s.number < s.sys.cfg.n) (foreign : sender ≠ s.number) (one : b.samples = [w])
    (room : r.samples.length < listSize) (bounded : counterAt s.report.counters .samplesLost ≤ 65535)
    (fresh : ∀ q ∈ r.samples, ¬ (q.station = sender ∧ q.side = w.side ∧ q.coil = w.coil ∧ q.strength = w.strength)) :
    s.heardJoin sender stamp b =
      (s.putRecord { r with samples := r.samples ++ [heardSample sender stamp w] }).sampleAdded x (dwellOf s.time.clock r.samples) := by
  obtain ⟨record, state⟩ := lead?_eq_some.1 lead
  have appended := addHeard_appends record room bounded (p := heardSample sender stamp w) fresh
  simp only [state] at appended
  have admitted : ¬ (s.sys.cfg.n ≤ s.number ∨ s.number = sender) := by
    rintro (far | same)
    · omega
    · exact foreign same.symm
  simp only [State.heardJoin, own, item, record, state, one, if_neg admitted, if_true]
  exact appended

end

/-- Settles O47. -/
theorem sampleAtALeadIsJudged : Obligations.SampleAtALeadIsJudged := by
  intro s v a sender stamp b w x r l ps e checked st hv lead
  refine ⟨fun short => ?_, fun hears item own known one room bounded fresh hps he hchecked hst => ?_⟩
  · rw [exec_dwellReached, ← hv]
    simp only [State.dwellReached, lead, if_neg (Nat.not_le.2 short)]
  obtain ⟨w0, hw0⟩ : ∃ w0, w0 = v.setPhase (.idle 0) := ⟨_, rfl⟩
  have lead0 : w0.lead? x = some (r, l) := by rw [hw0]; exact lead
  obtain ⟨u, hu⟩ : ∃ u, u = w0.grown r l ps := ⟨_, rfl⟩
  obtain ⟨l1, hl1⟩ : ∃ l1 : Lead, l1 = { l with quiet := some (v.sys.cfg.quiet * 1000) } := ⟨_, rfl⟩
  obtain ⟨r1, hr1⟩ : ∃ r1 : Record, r1 = { r with samples := ps, state := .lead l1 } := ⟨_, rfl⟩
  have leadU : u.lead? x = some (r1, l1) := by
    rw [hu, grown_lead lead0, hr1, hl1, hw0]
    rfl
  have target : u = (v.setPhase (.idle 0)).putRecord { r with
      samples := ps, state := .lead { l with quiet := some (v.sys.cfg.quiet * 1000) } } := by rw [hu, hw0]; rfl
  have joined : exec (.heardJoin a sender b) s =
      .next ((w0.putRecord { r with samples := ps }).sampleAdded x (dwellOf v.time.clock r.samples)) := by
    have small : sizeAllowed (.joinBody b) = true := by simp [sizeAllowed, JoinBody.wellFormed, one]
    have heard := heardJoin_ownLead (stamp := stamp) lead0 item (by rw [hw0]; exact own) (by rw [hw0]; exact known)
      (by rw [hw0]; exact hears.2.2.2) one room (by rw [hw0]; exact bounded) fresh
    rw [exec_heardJoin, ← hv, takeFrame_k16 hears rfl small, ← hw0, heard, hps]
    rw [hw0]
    rfl
  have check : u.checkRecord r1 = checked := by rw [hchecked, he, hr1, hu, hw0]; rfl
  have estimated : u.estimateOf r1 = e := by rw [he, hr1, hu, hw0]; rfl
  have status : u.issueStatusOf r1 = st := by rw [hst, hr1, hu, hw0]; rfl
  have cfg : u.sys.cfg = v.sys.cfg := by rw [hu, hw0]; rfl
  obtain ⟨heldRun, openRun⟩ := sampleAdded_grown lead0 ps (dwellOf v.time.clock r.samples)
  have clock : w0.time = v.time ∧ w0.sys = v.sys := by rw [hw0]; exact ⟨rfl, rfl⟩
  rw [clock.1, clock.2, ← hu] at openRun
  rw [← hu] at heldRun
  refine ⟨fun calm => ⟨fun d k stage unmade final low entry present enabled alarm judged => ?_, fun idle => ?_⟩,
    fun longer reached final stage => ?_, fun laneA laneB k left held => ⟨fun asks served => ?_, fun d sameA sameB table => ?_⟩⟩
  · have found : u.lookUp r1 = some d := by
      obtain ⟨decided, -⟩ | ⟨⟨k', toIssue⟩, laneA, laneB, table⟩ := judged
      · simp only [State.lookUp, check, decided]
      · simp only [State.lookUp, check, toIssue, status, estimated, ← laneA, ← laneB]
        obtain ⟨given, reason⟩ | ⟨given, reason⟩ := table <;> (rw [given, issueVerdict, Option.map_some, ← alarm, ← reason])
    have early : earlyAlarm d = true := by
      obtain ⟨-, reason | reason⟩ | ⟨-, -, -, ⟨-, reason⟩ | ⟨-, reason⟩⟩ := judged <;> simp [earlyAlarm, alarm, reason]
    rw [joined, openRun (.inl stage), if_neg calm, provisionalCheck_alarms leadU (by rw [hl1]; exact stage) (by rw [hl1]; exact unmade)
      (by rw [hl1]; exact final) found early (by rw [cfg, hr1]; exact classOf_some low entry) present enabled]
    obtain ⟨r', l', lead', same, -, offered⟩ := offerDecision_lead { d with verdict := .provisional }
      (lead?_putLead (l' := { l1 with stage := .provisional, provMade := true, provLanes := some (d.laneA, d.laneB) }) leadU)
    obtain ⟨record, state⟩ := lead?_eq_some.1 lead'
    simp only [Lead.mk.injEq, hl1] at same
    obtain ⟨sameStage, -, -, quiet, made, lanes, sameFinal, -⟩ := same
    exact ⟨_, r', l', rfl, record, state, sameStage, made, lanes, sameFinal.trans final, quiet,
      offered.imp (fun ⟨_, queued⟩ => queued) fun ⟨owed, waits⟩ => ⟨waits, owed⟩⟩
  · have still : u.provisionalCheck x = u := by
      have classes : u.sys.cfg = v.sys.cfg ∧ r1.code = r.code := ⟨cfg, by rw [hr1]⟩
      refine provisionalCheck_idle leadU ?_
      rw [classes.1, classes.2]
      rw [show l1.stage = l.stage by rw [hl1], show l1.provMade = l.provMade by rw [hl1], show l1.final = l.final by rw [hl1]]
      refine idle.imp id fun ⟨open', why⟩ => ⟨open', ?_⟩
      obtain made | final | high | disabled | ⟨d, decided, notReference, notLevel⟩ | ⟨⟨k, toIssue⟩, known⟩ := why
      · exact .inl made
      · exact .inr (.inl final)
      · exact .inr (.inr (.inl fun k entry => by rw [classOf, if_neg (Nat.not_lt.2 high)] at entry; cases entry))
      · refine .inr (.inr (.inl fun k entry => ?_))
        rw [classOf] at entry
        split at entry
        · cases here : v.sys.cfg.classes[r.code.toNat]? with
          | none =>
            simp only [List.getD_eq_getElem?_getD, here] at entry
            cases entry
            rfl
          | some k' =>
            simp only [List.getD_eq_getElem?_getD, here] at entry
            cases entry
            exact disabled _ here
        · cases entry
      · refine .inr (.inr (.inr fun d' found => ?_))
        simp only [State.lookUp, check, decided, Option.some.injEq] at found
        obtain ⟨notUnissued, notReturned⟩ := resultChecks_reason (hchecked.symm.trans decided)
        simp [earlyAlarm, ← found, notReference, notLevel, notUnissued, notReturned]
      · refine .inr (.inr (.inr fun d' found => ?_))
        simp only [State.lookUp, check, toIssue, status] at found
        obtain given | given | given := known
        · rw [given, issueVerdict, Option.map_some] at found
          cases found
          rfl
        · rw [given, issueVerdict, Option.map_some] at found
          cases found
          rfl
        · rw [given, issueVerdict] at found
          split at found
          · cases found
            simp [earlyAlarm]
          · cases found
    rw [joined, openRun (idle.elim .inr fun h => .inl h.1), if_neg calm, still, target]
  · have undecided : l1.undecided = true := undecided_iff.2 (by rw [hl1]; exact ⟨final, stage⟩)
    obtain ⟨r2, l2, lead2, undecided2, same⟩ := provisionalCheck_undecided leadU undecided
    obtain ⟨r', l', record, state, outcome⟩ := finalEvaluation_evaluated lead2 undecided2
    rw [same, estimated] at outcome
    exact ⟨_, r', l', by rw [joined, openRun stage, if_pos ⟨longer, reached⟩], record, state, outcome⟩
  · rw [joined, heldRun _ _ _ _ held, ← target]
    have waits : u.actOnStatus x l1.slot .ask = u := by
      have queries : u.queries = v.queries := by rw [hu, hw0]; rfl
      rw [State.actOnStatus, if_pos rfl, if_pos (by
        rw [queries, hl1]
        exact served.imp Option.isSome_iff_ne_none.2 id)]
    have stage : l1.stage = .held laneA laneB k left := by rw [hl1]; exact held
    simp only [State.reEvaluateHeld, leadU, stage, status, asks, withAnswer, waits]
  · rw [joined, heldRun _ _ _ _ held]
    have verdict : issueVerdict k st = some (d.verdict, d.reason) := issueVerdict_of (by
      obtain h | h | h | h := table
      · exact .inl h
      · exact .inr (.inl h)
      · exact .inr (.inr (.inl h))
      · exact .inr (.inr (.inr (.inl h))))
    have asked : st ≠ .ask := by
      obtain ⟨h, -⟩ | ⟨h, -⟩ | ⟨h, -⟩ | ⟨h, -⟩ := table <;> (rw [h]; exact nofun)
    rw [reEvaluateHeld_decides leadU (by rw [hl1]; exact held) (by rw [status]; rfl) asked verdict, ← sameA, ← sameB]
    obtain ⟨r', l', record, state, stage, final, offered⟩ := (endQuery_onlyQueries u x l1.slot).decided leadU d
    exact ⟨_, r', l', rfl, record, state, stage, final, offered⟩

end Sys2Proof.Machine
end

section
/-! PROOFS. The completion of a SIGHT (R91, R99, R147). -/

namespace Sys2Proof.Machine

/-! ### Samples that have gone out stay SENT while owners are asked -/

section
variable {s : State} {x : Item} {ps : List Sample}

/-- The item has a LEAD record with just these samples. -/
def State.LeadList (s : State) (x : Item) (ps : List Sample) : Prop := ∃ r l, s.record? x = some r ∧ r.state = .lead l ∧ r.samples = ps

theorem flagFirst_unmoved {me : Nat} {ok : SentFlag → Bool} {dest : SentFlag} (c : OwnSample) (unmoved : ∀ q ∈ ps, ok q.flag = false) :
    flagFirst me ok dest c ps = none := by
  induction ps with
  | nil => rfl
  | cons p ps ih =>
    rw [flagFirst, if_neg (by simp [unmoved p List.mem_cons_self]), ih fun q hq => unmoved q (List.mem_cons_of_mem _ hq)]
    rfl

theorem settleFlags_sent (me : Nat) (cs : List OwnSample) (sent : ∀ q ∈ ps, q.flag = .sent) : settleFlags me .sent cs ps = ps := by
  have each (c : OwnSample) : ((flagFirst me isQueued .sent c ps).or (flagFirst me (· != .sent) .sent c ps)).getD ps = ps := by
    rw [flagFirst_unmoved c fun q hq => by rw [sent q hq]; rfl, flagFirst_unmoved c fun q hq => by rw [sent q hq]; rfl]
    rfl
  induction cs with
  | nil => rfl
  | cons c cs ih => rw [settleFlags, List.foldl_cons, each c]; exact ih

theorem State.LeadList.putLead {y : Item} {r : Record} {l l' : Lead} (h : s.LeadList x ps) (lead : s.lead? y = some (r, l)) :
    (s.putLead r l').LeadList x ps := by
  obtain ⟨record, -⟩ := lead?_eq_some.1 lead
  have item := record?_item record
  obtain ⟨r0, l0, record0, state0, samples0⟩ := h
  have stored := record?_putRecord (s := s) (r := r) (r' := { r with state := .lead l' }) (by simpa [item] using record) x
  by_cases mine : x = r.item
  · rw [if_pos mine] at stored
    have same : r = r0 := Option.some.inj (by rw [← record, ← record0, mine, item])
    exact ⟨_, l', stored, rfl, by rw [same]; exact samples0⟩
  · rw [if_neg mine] at stored
    exact ⟨r0, l0, stored.trans record0, state0, samples0⟩

theorem State.LeadList.putOther {r r0 : Record} (h : s.LeadList x ps) (record : s.record? r.item = some r0)
    (gathers : r0.state.gathers = true) : (s.putRecord r).LeadList x ps := by
  obtain ⟨r1, l1, record1, state1, samples1⟩ := h
  refine ⟨r1, l1, ?_, state1, samples1⟩
  rw [record?_putRecord record, if_neg ?_, record1]
  rintro rfl
  rw [record] at record1
  cases record1
  rw [state1] at gathers
  cases gathers

section
variable (sent : ∀ q ∈ ps, q.flag = .sent)
include sent

theorem State.LeadList.settleSamples (h : s.LeadList x ps) (y : Item) (cs : List OwnSample) : (s.settleSamples y .sent cs).LeadList x ps := by
  obtain ⟨r0, l0, record0, state0, samples0⟩ := h
  unfold State.settleSamples
  split
  · next r record =>
    have stored := record?_putRecord (r' := { r with samples := settleFlags s.number .sent cs r.samples })
      (by simpa [record?_item record] using record) x
    by_cases mine : x = r.item
    · rw [if_pos mine] at stored
      have same : r = r0 := Option.some.inj (by rw [← record, ← record0, mine, record?_item record])
      rw [same, samples0, settleFlags_sent _ _ sent] at stored
      exact ⟨{ r0 with samples := ps }, l0, by rw [same, samples0, settleFlags_sent _ _ sent]; exact stored, state0, rfl⟩
    · rw [if_neg mine] at stored
      exact ⟨r0, l0, stored.trans record0, state0, samples0⟩
  · exact ⟨r0, l0, record0, state0, samples0⟩

theorem State.LeadList.loseJoin (h : s.LeadList x ps) (d : Option (JoinMsg × Owner)) : (s.loseJoin d).LeadList x ps := by
  have counted (n : Nat) : (s.count .samplesLost n).LeadList x ps := by
    rw [State.LeadList, State.record?, State.count_table]
    exact h
  unfold State.loseJoin
  split
  · exact h
  · dsimp only
    split
    · exact (counted _).settleSamples sent _ _
    · exact counted _

theorem State.LeadList.offer (h : s.LeadList x ps) (k : WaitKey) (o : Owner) (p : Payload) : (s.offer (some k) o p).1.LeadList x ps := by
  unfold State.offer
  cases judgeOffer o p s.line.queue with
  | into q left => exact h
  | placed q d => exact State.LeadList.loseJoin (s := (s.setQueue q).giveUp k) sent h d
  | refused =>
    dsimp only [State.enterWaiting]
    split <;> exact h

theorem State.LeadList.offerDecision (h : s.LeadList x ps) (y : Item) (d : Decision) : (s.offerDecision y d).1.LeadList x ps := by
  have offered := h.offer sent (.decision y) (.record y) (.decision { item := y, decision := d, again := false })
  unfold State.offerDecision
  dsimp only
  split
  · next lead => exact offered.putLead lead
  · exact offered

/-- Asking the waiting owners leaves the samples of a LEAD record as they are, once all are SENT. -/
theorem leadList_walkKept (x : Item) : WalkKept fun s => s.LeadList x ps where
  giveUp _ h := h
  offer k o _ _ h := h.offer sent k o _
  put record gathers _ h := h.putOther record gathers
  decision _ _ _ h := h.offerDecision sent _ _
  disown lead h := h.putLead lead
  repeatDecide _ _ h := h.offer sent _ _ _
  request _ h := h

theorem State.LeadList.actOnStatus (h : s.LeadList x ps) (y : Item) (o : IssueStatus) : (s.actOnStatus y none o).LeadList x ps := by
  unfold State.actOnStatus
  split
  · split
    · exact h
    · split
      · next k _ =>
        have queried {t : State} (ht : t.LeadList x ps) : (t.offerQuery k).1.LeadList x ps := (leadList_walkKept sent x).offerQuery k ht
        refine queried ?_
        unfold State.setSlotField
        split
        · next lead => exact State.LeadList.putLead h lead
        · exact h
      · exact h
  · exact h

theorem State.LeadList.offerFinal (h : s.LeadList x ps) (y : Item) (d : Decision) : (s.offerFinal y d).LeadList x ps := by
  unfold State.offerFinal
  split
  · next lead => exact (h.putLead lead).offerDecision sent _ _
  · exact h

theorem State.LeadList.finalEvaluation (h : s.LeadList x ps) {y : Item} {r : Record} {l : Lead} (lead : s.lead? y = some (r, l))
    (unslotted : l.slot = none) : (s.finalEvaluation y).LeadList x ps := by
  simp only [State.finalEvaluation, lead, unslotted]
  split
  · split
    · exact h.offerFinal sent _ _
    · have asked (e : ClassEntry) : (if holdLimit e = 0 then s else s.actOnStatus y none (s.issueStatusOf r)).LeadList x ps := by
        split
        · exact h
        · exact h.actOnStatus sent _ _
      split
      · exact (asked _).offerFinal sent _ _
      · unfold State.holdRecord
        split
        · next lead => exact (asked _).putLead lead
        · exact asked _
  · exact h

end

theorem finalEvaluation_phase (s : State) (x : Item) : (s.finalEvaluation x).line.phase = s.line.phase := by
  have final (t : State) (d : Decision) : (t.offerFinal x d).line.phase = t.line.phase := by
    cases lead : t.lead? x with
    | none => simp only [State.offerFinal, lead]
    | some p => exact (offerFinal_rest lead d).2.2.1
  have asked (slot : Option (BitVec 2)) (e : ClassEntry) (o : IssueStatus) :
      (if holdLimit e = 0 then s else s.actOnStatus x slot o).line.phase = s.line.phase := by
    split
    · rfl
    · exact (actOnStatus_onlyQueries s x slot o).phase
  unfold State.finalEvaluation
  split
  · split
    · split
      · exact final _ _
      · dsimp only
        split
        · exact (final _ _).trans (asked _ _ _)
        · unfold State.holdRecord
          split <;> exact asked _ _ _
    · rfl
  · rfl

end

/-! ### The record becomes LEAD (R99) -/

section
variable {s : State} {x : Item} {r : Record}

/-- What a completed SIGHT makes of its record: LEAD afresh, whatever moved among its flags. -/
theorem sightSent_leads (record : s.record? x = some r) {m : SightMsg} {ctx : Bool}
    (leads : (∃ w, r.state = .sole w) ∧ ctx = false ∨ (∃ y patience, r.state = .joint y patience) ∧ m.takeover = true ∧ ctx = true) :
    ∃ r', (s.sightSent x m).2 = some ctx ∧ (s.sightSent x m).1.record? x = some r' ∧ r'.state = .lead (Lead.fresh s.sys.cfg) ∧
      { r'.bare with state := .sole false } = { r.bare with state := .sole false } ∧ (s.sightSent x m).1.sys = s.sys ∧
      (s.sightSent x m).1.time = s.time ∧ (s.sightSent x m).1.line.phase = s.line.phase ∧
      ∀ p, r.samples = [p] → p.station = s.sys.station.toNat → m.samples = [⟨p.side, p.coil, p.strength, p.time⟩] →
        r'.samples = [{ p with flag := .sent }] := by
  have only := settleSamples_onlyOffers s x .sent m.samples
  obtain ⟨r1, record1, bare⟩ := only.record_exists record
  have led : s.sightSent x m = (((((s.settleSamples x .sent m.samples).putRecState r1 (.lead (Lead.fresh s.sys.cfg))).giveUp (.sight x)).giveUp
      (.join x)), some ctx) := by
    have becomes : (s.samplesSent x m.samples).becomeLead x = ((((s.settleSamples x .sent m.samples).putRecState r1
        (.lead (Lead.fresh s.sys.cfg))).giveUp (.sight x)).giveUp (.join x)) := by
      simp only [State.samplesSent, State.becomeLead, record1, only.sys]
    obtain ⟨⟨w, sole⟩, rfl⟩ | ⟨⟨y, patience, joint⟩, takeover, rfl⟩ := leads
    · simp only [State.sightSent, record, sole, becomes]
    · simp only [State.sightSent, record, joint, takeover, if_true, becomes]
  rw [led]
  refine ⟨{ r1 with state := .lead (Lead.fresh s.sys.cfg) }, rfl, record?_putRecState record1 _, rfl, ?_, only.sys, only.time, only.phase,
    fun p one own carried => ?_⟩
  · simp only [Record.bare, Record.mk.injEq] at bare ⊢
    exact ⟨bare.1, bare.2.1, bare.2.2.1, bare.2.2.2.1, bare.2.2.2.2.1, bare.2.2.2.2.2.1, trivial⟩
  · have settled := settleSamples_one (pre := []) (post := []) .sent record one own (.inr (by simp))
    rw [← carried] at settled
    rw [settled, record?_putRecord (r := r) (by simpa [record?_item record] using record), if_pos (record?_item record).symm] at record1
    cases record1
    rfl

end

theorem dwellOf_bare {r r' : Record} (bare : { r'.bare with state := .sole false } = { r.bare with state := .sole false }) (now : Clock) :
    dwellOf now r'.samples = dwellOf now r.samples := by
  have samples : r'.samples.map Sample.unflag = r.samples.map Sample.unflag := congrArg Record.samples bare
  rw [dwellOf, dwellOf, ← originOf_unflag, samples, originOf_unflag]

/-- A completed SIGHT up to the walk: its record is LEAD afresh when the walk is over. -/
theorem sightCompleted {v : State} {att : Attempt} {before behind : List QFrame} {f : QFrame} {m : SightMsg} {r : Record} {ctx : Bool}
    (sends : v.Sends att before f behind) (ends : att.left = 0) (payload : f.payload = .sight m) (owner : f.owner = .record m.item)
    (record : v.record? m.item = some r)
    (leads : (∃ w, r.state = .sole w) ∧ ctx = false ∨ (∃ y patience, r.state = .joint y patience) ∧ m.takeover = true ∧ ctx = true) :
    ∃ (w : State) (r' : Record) (l : Lead), v.transmitCompletes = w.contextCreated m.item ctx ∧ w.lead? m.item = some (r', l) ∧
      { l with owed := none } = Lead.fresh v.sys.cfg ∧ { r'.bare with state := .sole false } = { r.bare with state := .sole false } ∧
      w.sys = v.sys ∧ w.time = v.time ∧ w.line.phase = .idle 0 ∧
      ∀ p, r.samples = [p] → p.station = v.sys.station.toNat → m.samples = [⟨p.side, p.coil, p.strength, p.time⟩] →
        w.LeadList m.item [{ p with flag := .sent }] := by
  obtain ⟨u, hu⟩ : ∃ u, u = v.afterFrame (before ++ behind) := ⟨_, rfl⟩
  have record0 : u.record? m.item = some r := by rw [hu]; exact record
  obtain ⟨r1, context, record1, state1, bare1, sys1, time1, phase1, sent1⟩ := sightSent_leads record0 leads
  have sentSight : u.frameSent f = u.sightSent m.item m := by simp only [State.frameSent, payload, owner]
  have walked := walk_onlyOffers (u.sightSent m.item m).1
  obtain ⟨r2, record2, bare2⟩ := walked.record_exists record1
  obtain ⟨l, state2, same⟩ := lead_of_bare bare2 state1
  refine ⟨(u.sightSent m.item m).1.walk, r2, l, ?_, lead?_eq_some.2 ⟨record2, state2⟩, ?_, ?_, ?_, ?_, ?_, fun p one own carried => ?_⟩
  · rw [complete_of sends ends, ← hu, sentSight, context]
    simp only [State.afterSent, payload]
  · rw [same, hu]
    rfl
  · exact (congrArg (fun b : Record => { b with state := .sole false }) bare2).trans bare1
  · rw [walked.sys, sys1, hu]; rfl
  · rw [walked.time, time1, hu]; rfl
  · rw [walked.phase, phase1, hu]; rfl
  · have here : (u.sightSent m.item m).1.LeadList m.item [{ p with flag := .sent }] :=
      ⟨r1, _, record1, state1, sent1 p one (by rw [hu]; exact own) carried⟩
    exact (leadList_walkKept (ps := [{ p with flag := .sent }]) (by simp) m.item).walk here

/-- Settles O28. -/
theorem sightCompletionMakesTheLead : Obligations.SightCompletionMakesTheLead := by
  intro s v a att before behind f m r hv sends ends payload owner record
  have run : exec (.transmitComplete a) s = .next v.transmitCompletes := by rw [exec_transmitComplete, ← hv]
  refine ⟨fun waiting sole short => ?_, fun y patience joint takeover => ?_⟩
  · obtain ⟨w, r', l, done, lead, fresh, bare, sys, time, phase, sent⟩ :=
      sightCompleted sends ends payload owner record (.inl ⟨⟨waiting, sole⟩, rfl⟩)
    have still : w.contextCreated m.item false = w := by
      have early : ¬ w.sys.cfg.maxDwell ≤ dwellOf w.time.clock r'.samples := by
        rw [sys, time, dwellOf_bare bare]
        exact Nat.not_le.2 short
      simp only [State.contextCreated, lead, Bool.false_or, decide_eq_true_eq, if_neg early]
    obtain ⟨record', state'⟩ := lead?_eq_some.1 lead
    simp only [Lead.fresh, Lead.mk.injEq] at fresh
    obtain ⟨stage, provSent, slot, quiet, provMade, -, final, -⟩ := fresh
    simp only [Record.bare, Record.mk.injEq] at bare
    obtain ⟨-, code, level, mark, created, -⟩ := bare
    refine ⟨w, r', l, by rw [run, done, still], record', state', stage, provSent, slot, quiet, provMade, final, code, level, mark, created,
      phase, fun p one own carried => ?_⟩
    obtain ⟨r0, l0, record0, -, samples0⟩ := sent p one own carried
    rw [record'] at record0
    cases record0
    exact samples0
  · obtain ⟨w, r', l, done, lead, fresh, -, -, -, phase, sent⟩ :=
      sightCompleted sends ends payload owner record (.inr ⟨⟨y, patience, joint⟩, takeover, rfl⟩)
    have judged : w.contextCreated m.item true = w.finalEvaluation m.item := by
      simp only [State.contextCreated, lead, Bool.true_or, if_true]
    simp only [Lead.fresh, Lead.mk.injEq] at fresh
    obtain ⟨stage, -, slot, -, -, -, final, -⟩ := fresh
    obtain ⟨r2, l2, record2, state2, outcome⟩ := finalEvaluation_evaluated lead (undecided_iff.2 ⟨final, .inl stage⟩)
    refine ⟨w.finalEvaluation m.item, r2, l2, by rw [run, done, judged], record2, state2, ?_, (finalEvaluation_phase _ _).trans phase,
      fun p one own carried => ?_⟩
    · exact outcome.imp (fun ⟨d, decided, _⟩ => by rw [decided]; exact nofun) fun ⟨k, left, held⟩ => ⟨_, _, k, left, held⟩
    · obtain ⟨r0, l0, record0, -, samples0⟩ := (sent p one own carried).finalEvaluation (by simp) lead slot
      rw [record2] at record0
      cases record0
      exact samples0

end Sys2Proof.Machine
end

section
/-! PROOFS. Offers at a full queue and the walk of the waiting list (R75, R78, R79). -/

namespace Sys2Proof.Machine

/-! ### A normal offer without room (R78) -/

section
variable {o : Owner} {p : Payload} {q before behind : List QFrame} {f : QFrame} {m : JoinMsg}

theorem takeOldestJoin_first (payload : f.payload = .join m) (still : f.underTx = false)
    (oldest : ∀ g ∈ before, isJoin g = true → g.underTx = true) : takeOldestJoin (before ++ f :: behind) = some (m, f.owner, before ++ behind) := by
  induction before with
  | nil => simp [takeOldestJoin, payload, still]
  | cons g gs ih =>
    have rest := ih fun h hh => oldest h (List.mem_cons_of_mem _ hh)
    rw [List.cons_append, takeOldestJoin, rest]
    split
    · next payload' => rw [if_pos (oldest g List.mem_cons_self (by rw [isJoin, payload']))]; rfl
    · rfl

theorem takeOldestJoin_none (busy : ∀ g ∈ q, isJoin g = true → g.underTx = true) : takeOldestJoin q = none := by
  induction q with
  | nil => rfl
  | cons g gs ih =>
    rw [takeOldestJoin, ih fun h hh => busy h (List.mem_cons_of_mem _ hh)]
    split
    · next payload => rw [if_pos (busy g List.mem_cons_self (by rw [isJoin, payload]))]; rfl
    · rfl

/-- A normal offer that nothing takes in and that finds no room is judged by the oldest JOIN alone. -/
theorem judgeOffer_full (normal : p.urgent = false) (apart : ∀ g ∈ q, p.meets g.payload = false)
    (full : ¬ (q.length < queueSize ∧ normalCount q < normalShare)) :
    (takeOldestJoin q = none → judgeOffer o p q = .refused) ∧
    ∀ m owner q', takeOldestJoin q = some (m, owner, q') → judgeOffer o p q = .placed (q' ++ [QFrame.fresh o p]) (some (m, owner)) := by
  have judged : judgeOffer o p q = match takeOldestJoin q with
      | some t => .placed (t.2.2 ++ [QFrame.fresh o p]) (some (t.1, t.2.1))
      | none => .refused := by
    rw [judgeOffer, mergeOrReplace_apart apart, barred_apart apart, normal, if_neg full]
    rfl
  rw [judged]
  exact ⟨fun e => by rw [e], fun m owner q' e => by rw [e]⟩

theorem offer_displaces {s : State} {k : WaitKey} (normal : p.urgent = false) (apart : ∀ g ∈ s.line.queue, p.meets g.payload = false)
    (full : ¬ s.NormalRoom) {owner : Owner} {q' : List QFrame} (oldest : takeOldestJoin s.line.queue = some (m, owner, q')) :
    s.offer (some k) o p = (((s.setQueue (q' ++ [QFrame.fresh o p])).giveUp k).loseJoin (some (m, owner)), .taken) := by
  rw [State.offer, (judgeOffer_full normal apart full).2 m owner q' oldest]

theorem offer_refused {s : State} {k : WaitKey} (normal : p.urgent = false) (apart : ∀ g ∈ s.line.queue, p.meets g.payload = false)
    (full : ¬ s.NormalRoom) (none : takeOldestJoin s.line.queue = none) : s.offer (some k) o p = (s.enterWaiting k, .refused) := by
  rw [State.offer, (judgeOffer_full normal apart full).1 none]

end

/-! ### A walk, entry by entry (R79) -/

section
variable {s : State} {k : WaitKey} {ks : List WaitKey}

theorem walkList_taken (waits : k ∈ s.line.waiting) (taken : (s.askAgain k).2 = true) : State.walkList (k :: ks) s = (s.askAgain k).1 := by
  rw [State.walkList, if_pos waits]
  simp only [taken, if_true]

theorem walkList_goesOn (waits : k ∈ s.line.waiting) (refused : (s.askAgain k).2 = false) :
    State.walkList (k :: ks) s = State.walkList ks (s.askAgain k).1 := by
  rw [State.walkList, if_pos waits]
  simp only [refused, Bool.false_eq_true, if_false]

/-- A walk in which every owner is refused again changes nothing. -/
theorem walk_still (still : ∀ k ∈ s.line.waiting, s.askAgain k = (s, false)) : s.walk = s := by
  have all (ks : List WaitKey) : State.walkList ks s = s := by
    induction ks with
    | nil => rfl
    | cons k ks ih =>
      by_cases waits : k ∈ s.line.waiting
      · rw [walkList_goesOn waits (by rw [still k waits]), still k waits]
        exact ih
      · rw [State.walkList, if_neg waits]
        exact ih
  exact all _

theorem walk_urgent {w1 w2 : List WaitKey} (waits : s.line.waiting = w1 ++ k :: w2) (normal : ∀ e ∈ w1, e.urgent = false)
    (urgent : k.urgent = true) : ∃ ks, s.walk = State.walkList (k :: w2.filter WaitKey.urgent ++ ks) s := by
  refine ⟨s.line.waiting.filter fun k => !k.urgent, ?_⟩
  have none : w1.filter WaitKey.urgent = [] := List.filter_eq_nil_iff.2 fun e he => by simp [normal e he]
  have first : s.line.waiting.filter WaitKey.urgent = k :: w2.filter WaitKey.urgent := by
    rw [waits, List.filter_append, none, List.filter_cons_of_pos urgent, List.nil_append]
  rw [State.walk, first]

theorem walk_normal {w2 : List WaitKey} (waits : s.line.waiting = k :: w2) (rest : ∀ e ∈ w2, e.urgent = false) (normal : k.urgent = false) :
    ∃ ks, s.walk = State.walkList (k :: ks) s := by
  refine ⟨w2.filter fun k => !k.urgent, ?_⟩
  have none : (k :: w2).filter WaitKey.urgent = [] := List.filter_eq_nil_iff.2 fun e he => by
    rcases List.mem_cons.1 he with rfl | he
    · simp [normal]
    · simp [rest e he]
  rw [State.walk, waits, none, List.nil_append, List.filter_cons_of_pos (by simp [normal])]

end

theorem release_apart {lane : Nat} {p : Payload} (other : p ≠ .release lane) : (Payload.release lane).meets p = false := by
  cases p with
  | release n => simpa [Payload.meets] using other
  | sight _ | join _ | decision _ | claim _ | defer _ | query _ _ _ | report => rfl

theorem takePoll_unasked {s : State} (clear : Bool) (noRequest : s.report.request = .none) :
    s.takePoll clear = ((s.setReport { s.report with clear := clear }).offerReport).1 := by
  rw [State.takePoll, noRequest]

/-- Settles O27. -/
theorem fullQueueDisplacesAJoinAndAsksInOrder : Obligations.FullQueueDisplacesAJoinAndAsksInOrder := by
  refine ⟨fun s v u a sender stamp b q hv hears target noRequest full => ⟨fun before f m behind queue payload still oldest hq hu => ?_,
      fun busy unlisted => ?_⟩,
    fun s v u a lane att before behind f sd hv sends ends payload hu => ?_⟩
  · have asked : exec (.heardPoll a sender b) s = .next ((v.setPhase (.idle 0)).takePoll b.clear) := by
      rw [exec_heardPoll, ← hv, heardPoll_taken hears.2.1 (.inl hears.1) hears.2.2 (.inr target)]
    obtain ⟨w, hw⟩ : ∃ w : State, w = (v.setPhase (.idle 0)).setReport { v.report with clear := b.clear } := ⟨_, rfl⟩
    have offered : w.offer (some .report) .reportUnit .report = (((w.setQueue q).giveUp .report).loseJoin (some (m, f.owner)), .taken) := by
      have found : takeOldestJoin w.line.queue = some (m, f.owner, before ++ behind) := by
        rw [hw, show ((v.setPhase (.idle 0)).setReport { v.report with clear := b.clear }).line.queue = v.line.queue from rfl, queue]
        exact takeOldestJoin_first payload still oldest
      rw [offer_displaces rfl (fun _ _ => rfl) (by rw [hw]; exact full) found, hq]
      rfl
    have running : ((w.setQueue q).giveUp .report).sys.run = .running := by rw [hw]; exact hears.1
    have poll : (v.setPhase (.idle 0)).takePoll b.clear =
        (((w.setQueue q).giveUp .report).loseJoin (some (m, f.owner))).setReport
          { (((w.setQueue q).giveUp .report).loseJoin (some (m, f.owner))).report with request := .queued } := by
      rw [takePoll_unasked (s := v.setPhase (.idle 0)) _ noRequest, show (v.setPhase (.idle 0)).setReport { (v.setPhase (.idle 0)).report with clear := b.clear } = w by
        rw [hw]; rfl, State.offerReport, offered]
      rfl
    obtain ⟨c, hc⟩ : ∃ c, c = ((w.setQueue q).giveUp .report).count .samplesLost m.samples.length := ⟨_, rfl⟩
    have counted : c = ((w.setQueue q).giveUp .report).setReport { w.report with
        counters := { w.report.counters with samplesLost := min 65535 (w.report.counters.samplesLost + m.samples.length) } } := by
      rw [hc, State.count_running running]
      rfl
    rw [asked, poll]
    refine ⟨fun owner => ?_, fun r p pre post owner record samples mine one only => ?_⟩
    · rw [owner]
      simp only [State.loseJoin, ← hc]
      rw [counted, hu, hw]
      rfl
    · have settled := settleSamples_one (v := c) .sent (by rw [counted, hw]; exact record) samples (by rw [counted, hw]; exact mine) only
      rw [← one] at settled
      rw [owner]
      simp only [State.loseJoin, ← hc, settled]
      rw [counted, hu, hw]
      rfl
  · rw [exec_heardPoll, ← hv, heardPoll_taken hears.2.1 (.inl hears.1) hears.2.2 (.inr target)]
    obtain ⟨w, hw⟩ : ∃ w : State, w = (v.setPhase (.idle 0)).setReport { v.report with clear := b.clear } := ⟨_, rfl⟩
    have refused := offer_refused (o := .reportUnit) (k := .report) (p := .report) (s := w) rfl (fun _ _ => rfl) (by rw [hw]; exact full)
      (by rw [hw]; exact takeOldestJoin_none busy)
    rw [State.enterWaiting, if_neg (by rw [hw]; exact unlisted)] at refused
    rw [takePoll_unasked (s := v.setPhase (.idle 0)) _ noRequest, show (v.setPhase (.idle 0)).setReport
      { (v.setPhase (.idle 0)).report with clear := b.clear } = w by rw [hw]; rfl, State.offerReport, refused, hw]
    rfl
  · have done : exec (.transmitComplete a) s = .next u.walk := by
      have sent : u.frameSent f = (u, none) := by simp only [State.frameSent, payload]
      rw [exec_transmitComplete, ← hv, complete_of sends ends, show v.afterFrame (before ++ behind) = u by rw [hu]; rfl, sent]
      simp only [State.afterSent, payload]
    have queue : u.line.queue = before ++ behind := by rw [hu]
    have waiting : u.line.waiting = v.line.waiting := by rw [hu]
    have lane : u.lane sd = v.lane sd := by rw [hu]; rfl
    have fresh {p : Payload} (apart : ∀ g ∈ before ++ behind, p.meets g.payload = false) (room : (before ++ behind).length < 8)
        (normal : p.urgent = false → normalCount (before ++ behind) < 6) (k : WaitKey) (o : Owner) : u.offer (some k) o p =
        ((u.setQueue (before ++ behind ++ [QFrame.fresh o p])).giveUp k, .taken) := by
      rw [offer_fresh ⟨by rw [queue]; exact apart, by rw [queue]; exact room, by rw [queue]; exact normal⟩, queue]
    have releases (ks : List WaitKey) {t t' : State} (waits : .release sd ∈ t.line.waiting)
        (offered : t.offer (some (.release sd)) (.side sd) (.release (v.lane sd)) = (t', .taken)) (lane : t.lane sd = v.lane sd) :
        State.walkList (.release sd :: ks) t = t' := by
      have again : t.askAgain (.release sd) = (t', true) := by
        simp only [State.askAgain, State.offerRelease, lane, offered]
        rfl
      rw [walkList_taken waits (by rw [again]), again]
    rw [done]
    refine ⟨fun w1 w2 waits normal room apart => ?_, fun w2 g waits queued same owner still room apart => ?_,
      fun w2 waits rest asking unsent room few => ?_, fun full noJoins owners => ?_⟩
    · obtain ⟨ks, walked⟩ := walk_urgent (k := .release sd) (waiting.trans waits) normal rfl
      have offered := fresh (p := .release (v.lane sd)) (fun g hg => release_apart (apart g hg)) room nofun
        (.release sd) (.side sd)
      rw [walked, List.cons_append, releases _ (by rw [waiting, waits]; simp) offered lane, State.giveUp, State.setQueue, ← waiting]
      rfl
    · obtain ⟨ks, walked⟩ := walk_urgent (k := .defer sd) (w1 := []) (waiting.trans waits) nofun rfl
      obtain ⟨t, ht⟩ : ∃ t, t = u.giveUp (.defer sd) := ⟨_, rfl⟩
      have absorbed : u.offer (some (.defer sd)) (.side sd) (.defer (v.lane sd)) = (t, .merged []) := by
        have judged : judgeOffer (.side sd) (.defer (v.lane sd)) u.line.queue = .into u.line.queue [] := by
          rw [queue]
          exact judgeOffer_absorbed (.inl ⟨_, rfl⟩) (mem_sideView.2 ⟨g, queued, owner, same, still⟩)
        rw [State.offer, judged, ht]
        rfl
      have again : u.askAgain (.defer sd) = (t, false) := by
        simp only [State.askAgain, State.offerDefer, lane, absorbed]
        rfl
      have offered : t.offer (some (.release sd)) (.side sd) (.release (v.lane sd)) =
          ((t.setQueue (before ++ behind ++ [QFrame.fresh (.side sd) (.release (v.lane sd))])).giveUp (.release sd), .taken) := by
        have left : t.line.queue = before ++ behind := by rw [ht, ← queue]; rfl
        rw [offer_fresh ⟨by rw [left]; exact fun g hg => release_apart (apart g hg), by rw [left]; exact room, fun normal => by cases normal⟩, left]
      rw [walked, List.cons_append, walkList_goesOn (by rw [waiting, waits]; simp) (by rw [again]), again,
        List.filter_cons_of_pos (by rfl), List.cons_append, releases _ ?_ offered (by rw [ht]; exact lane), ht]
      · have both : (v.line.waiting.filter (· ≠ .defer sd)).filter (· ≠ .release sd) =
            v.line.waiting.filter fun e => e ≠ .defer sd && e ≠ .release sd := by
          rw [List.filter_filter]
          exact List.filter_congr fun e _ => Bool.and_comm _ _
        rw [← both, ← waiting]
        rfl
      · have kept : t.line.waiting = v.line.waiting.filter (· ≠ .defer sd) := by rw [ht, ← waiting]; rfl
        rw [kept, waits]
        simp
    · obtain ⟨ks, walked⟩ := walk_normal (k := .claim sd) (waiting.trans waits) rest rfl
      have offered := fresh (p := .claim (v.lane sd)) (fun _ _ => rfl) room (fun _ => few) (.claim sd) (.side sd)
      have again : u.askAgain (.claim sd) = ((u.setQueue (before ++ behind ++ [QFrame.fresh (.side sd) (.claim (v.lane sd))])).giveUp (.claim sd), true) := by
        have claim : (u.claims.get sd).state = .asking ∧ (u.claims.get sd).sent = false := by rw [hu]; exact ⟨asking, unsent⟩
        simp only [State.askAgain, if_pos claim, State.offerClaim, lane, offered]
        rfl
      rw [walked, walkList_taken (by rw [waiting, waits]; simp) (by rw [again]), again, State.giveUp, State.setQueue, ← waiting]
      rfl
    · rw [walk_still fun k waits => ?_]
      rw [waiting] at waits
      have crowded : ¬ u.NormalRoom := by
        rintro ⟨-, few⟩
        rw [queue] at few
        exact Nat.not_lt.2 full few
      have noOldest : takeOldestJoin u.line.queue = none := takeOldestJoin_none fun g hg join => by
        rw [queue] at hg
        rw [noJoins g hg] at join
        cases join
      have stays {k : WaitKey} (o : Owner) {p : Payload} (apart : ∀ q : Payload, p.meets q = false) (normal : p.urgent = false)
          (waits : k ∈ v.line.waiting) : u.offer (some k) o p = (u, .refused) := by
        rw [offer_refused normal (fun g _ => apart g.payload) crowded noOldest, State.enterWaiting, if_pos (by rw [waiting]; exact waits)]
      rcases owners k waits with ⟨rfl, owed⟩ | ⟨sd, rfl, asking, unsent⟩
      · have request : u.report.request = .owed := by rw [hu]; exact owed
        have same : u.setReport { u.report with request := .owed } = u := by rw [← request]; rfl
        simp only [State.askAgain, if_pos request, State.offerReport, stays .reportUnit (p := .report) (fun _ => rfl) rfl waits, if_true, same]
        rfl
      · have claim : (u.claims.get sd).state = .asking ∧ (u.claims.get sd).sent = false := by rw [hu]; exact ⟨asking, unsent⟩
        simp only [State.askAgain, if_pos claim, State.offerClaim, stays (.side sd) (p := .claim (u.lane sd)) (fun _ => rfl) rfl waits]
        rfl

end Sys2Proof.Machine
end

section
/-! PROOFS. A record that offers its one UNSENT sample, in a SIGHT or in a JOIN (R97, R98). -/

namespace Sys2Proof.Machine

/-- Of a record's own samples this one alone is UNSENT. -/
structure Record.OneUnsent (r : Record) (me : Nat) (pre : List Sample) (p : Sample) (post : List Sample) : Prop where
  samples : r.samples = pre ++ p :: post
  own : p.station = me
  unsent : p.flag = .unsent
  others : ∀ q ∈ pre ++ post, q.station = me → q.flag ≠ .unsent

section
variable {s : State} {x : Item} {r : Record} {me : Nat} {pre post : List Sample} {p : Sample}

theorem not_unsent {q : Sample} (sent : q.station = me → q.flag ≠ .unsent) : (q.own me && isUnsent q.flag) = false := by
  by_cases own : q.station = me
  · simp [isUnsent, sent own]
  · simp [Sample.own, own]

theorem flagAll_nil (ok : SentFlag → Bool) (dest : SentFlag) (ps : List Sample) : flagAll me ok dest [] ps = ps := by
  induction ps with
  | nil => rfl
  | cons q qs ih => rw [flagAll, if_neg (by simp), ih]

theorem Record.OneUnsent.flagAll (one : r.OneUnsent me pre p post) (dest : SentFlag) :
    flagAll me isUnsent dest [p.content] r.samples = pre ++ { p with flag := dest } :: post := by
  obtain ⟨samples, own, unsent, others⟩ := one
  rw [samples]
  have head : Machine.flagAll me isUnsent dest [p.content] (p :: post) = { p with flag := dest } :: post := by
    rw [Machine.flagAll, if_pos (by simp [Sample.own, own, unsent, isUnsent])]
    simp [flagAll_nil]
  clear samples
  induction pre with
  | nil => exact head
  | cons q qs ih =>
    have skip : ¬ (q.own me && [p.content].contains q.content && isUnsent q.flag) = true := by
      have quiet := not_unsent (others q (by simp))
      intro both
      simp only [Bool.and_eq_true] at both
      rw [both.1.1, both.2] at quiet
      cases quiet
    rw [List.cons_append, Machine.flagAll, if_neg skip, ih fun q' hq' => others q' (List.mem_cons_of_mem _ hq')]
    rfl

theorem Record.OneUnsent.unsentOwn (one : r.OneUnsent s.number pre p post) : s.unsentOwn r = [p.content] := by
  obtain ⟨samples, own, unsent, others⟩ := one
  have none {qs : List Sample} (h : ∀ q ∈ qs, q ∈ pre ++ post) : qs.filter (fun q => q.own s.number && isUnsent q.flag) = [] :=
    List.filter_eq_nil_iff.2 fun q hq => by simpa using not_unsent (others q (h q hq))
  have self : (p.own s.number && isUnsent p.flag) = true := by simp [Sample.own, own, unsent, isUnsent]
  rw [State.unsentOwn, samples, List.filter_append, none fun q hq => List.mem_append_left _ hq, List.filter_cons, if_pos self,
    none fun q hq => List.mem_append_right _ hq]
  rfl

theorem unsentOwn_nil (sent : ∀ q ∈ r.samples, q.station = s.number → q.flag ≠ .unsent) : s.unsentOwn r = [] := by
  have none : r.samples.filter (fun q => q.own s.number && isUnsent q.flag) = [] :=
    List.filter_eq_nil_iff.2 fun q hq => by simpa using not_unsent (sent q hq)
  rw [State.unsentOwn, none]
  rfl

/-- A SIGHT that takes a position carries the one UNSENT sample, which is QUEUED then (R97). -/
theorem offerSight_one (one : r.OneUnsent s.number pre p post)
    (fresh : TakesFresh (.sight (sightOf r false false [p.content])) s.line.queue) :
    s.offerSight r = (((s.setQueue (s.line.queue ++
      [QFrame.fresh (.record r.item) (.sight (sightOf r false false [p.content]))])).giveUp (.sight r.item)).putRecord
        { r with samples := pre ++ { p with flag := .queued } :: post, state := .sole false }, .taken) := by
  have carried : (s.unsentOwn r).take frameSamples = [p.content] := by rw [one.unsentOwn]; rfl
  rw [State.offerSight, carried, offer_fresh fresh, one.flagAll]

theorem join_apart {q : List QFrame} {m : JoinMsg} (apart : ∀ f ∈ q, ∀ n, f.payload = .join n → n.item ≠ m.item) :
    ∀ f ∈ q, (Payload.join m).meets f.payload = false := by
  intro f hf
  cases payload : f.payload with
  | join n => simpa [Payload.meets] using apart f hf n payload
  | sight _ | decision _ | claim _ | defer _ | release _ | query _ _ _ | report => rfl

theorem offerJoinOnce_none (record : s.record? x = some r) (sent : ∀ q ∈ r.samples, q.station = s.number → q.flag ≠ .unsent) :
    s.offerJoinOnce x = none := by
  have nothing : (s.unsentOwn r).take frameSamples = [] := by rw [unsentOwn_nil sent]; rfl
  simp only [State.offerJoinOnce, record]
  split
  · simp only [nothing]
  · rfl

/-- JOINs of a record that has nothing UNSENT (R98). -/
theorem offerJoins_none (record : s.record? x = some r) (sent : ∀ q ∈ r.samples, q.station = s.number → q.flag ≠ .unsent) :
    s.offerJoins x = s := by
  rw [State.offerJoins]
  split
  · rfl
  · simp only [listSize, State.offerJoinsFuel, offerJoinOnce_none record sent]

/-- A JOIN that takes a position carries the one UNSENT sample to the record's lead (R98). -/
theorem offerJoins_one (record : s.record? x = some r) {y : Nat} {patience : Timer} (joint : r.state = .joint y patience)
    (one : r.OneUnsent s.number pre p post) (unlisted : .join x ∉ s.line.waiting)
    (fresh : TakesFresh (.join { item := x, lead := y, samples := [p.content] }) s.line.queue) :
    s.offerJoins x = ((s.setQueue (s.line.queue ++
      [QFrame.fresh (.record x) (.join { item := x, lead := y, samples := [p.content] })])).giveUp (.join x)).putRecord
        { r with samples := pre ++ { p with flag := .queued } :: post } := by
  have item := record?_item record
  obtain ⟨t, ht⟩ : ∃ t : State, t = (s.setQueue (s.line.queue ++
    [QFrame.fresh (.record x) (.join { item := x, lead := y, samples := [p.content] })])).giveUp (.join x) := ⟨_, rfl⟩
  obtain ⟨r', hr'⟩ : ∃ r' : Record, r' = { r with samples := pre ++ { p with flag := .queued } :: post } := ⟨_, rfl⟩
  have recordT : t.record? x = some r := by rw [ht]; exact record
  have number : t.number = s.number := by rw [ht]; rfl
  have once : s.offerJoinOnce x = some (t.putRecord r', .taken) := by
    have carried : (s.unsentOwn r).take frameSamples = [p.content] := by rw [one.unsentOwn]; rfl
    have flagged : t.flagSamples x isUnsent .queued [p.content] = t.putRecord r' := by
      rw [State.flagSamples, recordT, hr', number]
      simp only [one.flagAll]
    simp only [State.offerJoinOnce, record, joint, carried, offer_fresh fresh, ← ht, flagged]
  have recordR : (t.putRecord r').record? x = some r' := by
    have stored := record?_putRecord (s := t) (r := r) (r' := r') (by rw [hr']; simpa [item] using recordT) x
    rw [if_pos (by rw [hr']; exact item.symm)] at stored
    exact stored
  have done : (t.putRecord r').offerJoinOnce x = none := offerJoinOnce_none recordR fun q hq own => by
    rw [hr'] at hq
    rcases List.mem_append.1 hq with front | back
    · exact one.others q (List.mem_append_left _ front) (by rw [← number]; exact own)
    · rcases List.mem_cons.1 back with rfl | back
      · exact nofun
      · exact one.others q (List.mem_append_right _ back) (by rw [← number]; exact own)
  rw [State.offerJoins, if_neg unlisted, ← ht, ← hr']
  simp only [listSize, State.offerJoinsFuel, once, done]

end

end Sys2Proof.Machine
end

section
/-! PROOFS. A lost contention and what a dropped frame's owner does (R71, R72, R80). -/

namespace Sys2Proof.Machine

section
variable {v : State} {att : Attempt} {before behind : List QFrame} {f : QFrame}

/-- The line after a lost contention. -/
def State.outbid (v : State) (stamp : Clock) (q : List QFrame) : State :=
  { v with line := { v.line with phase := .receiving stamp, backoff := true, queue := q } }

/-- The same, with a dropped frame counted. -/
def State.dropped (v : State) (stamp : Clock) (q : List QFrame) : State :=
  { v with
    line := { v.line with phase := .receiving stamp, backoff := true, queue := q }
    report := { v.report with counters := { v.report.counters with framesDropped := min 65535 (v.report.counters.framesDropped + 1) } } }

theorem contentionLost_keeps (sends : v.Sends att before f behind) (bit : att.bitNow = some true) (again : f.losses + 1 < 16) :
    v.contentionLost = (v.outbid att.stamp (before ++ { f with underTx := false, losses := f.losses + 1 } :: behind)).carryOut
      { f with underTx := false, losses := f.losses + 1 } := by
  obtain ⟨phase, queue, front, tx⟩ := sends
  have sent : sentFrame v.line.queue = some f := by rw [queue]; exact sentFrame_of front tx
  have below : ¬ retryLimit ≤ f.losses + 1 := Nat.not_le.2 again
  simp only [State.contentionLost, phase, bit, if_true, State.loseContention, sent, if_neg below]
  rw [queue, backToWaiting_of front tx]
  rfl

theorem contentionLost_drops (sends : v.Sends att before f behind) (bit : att.bitNow = some true) (last : 16 ≤ f.losses + 1)
    (running : v.sys.run = .running) :
    v.contentionLost = (((v.dropped att.stamp (before ++ behind)).frameDropped f).walk).afterDropped f := by
  obtain ⟨phase, queue, front, tx⟩ := sends
  have sent : sentFrame v.line.queue = some f := by rw [queue]; exact sentFrame_of front tx
  have counted : (v.outbid att.stamp (before ++ behind)).count .framesDropped 1 = v.dropped att.stamp (before ++ behind) :=
    State.count_running (s := v.outbid att.stamp (before ++ behind)) running _ _
  simp only [State.contentionLost, phase, bit, if_true, State.loseContention, sent, if_pos (show retryLimit ≤ f.losses + 1 from last),
    State.dropSent]
  rw [← counted, show ((v.setPhase (.receiving att.stamp)).setBackoff true).line.queue = v.line.queue from rfl, queue, withoutSent_of front tx]
  rfl

/-- What a drop does to its owner leaves the line's phase and back-off and the count of drops. -/
theorem frameDropped_line (s : State) (f : QFrame) : (s.frameDropped f).line.phase = s.line.phase ∧
    (s.frameDropped f).line.backoff = s.line.backoff ∧
    (s.frameDropped f).report.counters.framesDropped = s.report.counters.framesDropped := by
  have offers {t : State} (only : OnlyOffers s t) : t.line.phase = s.line.phase ∧ t.line.backoff = s.line.backoff ∧
      t.report.counters.framesDropped = s.report.counters.framesDropped :=
    ⟨only.phase, only.backoff, only.counter (k := .framesDropped) nofun⟩
  unfold State.frameDropped
  split
  · next r _ =>
    have line : ((s.freeRecord r.item).count .samplesLost r.samples.length).line = (s.freeRecord r.item).line := State.count_line _ _ _
    have counter : ((s.freeRecord r.item).count .samplesLost r.samples.length).report.counters.framesDropped =
        s.report.counters.framesDropped := by
      by_cases running : (s.freeRecord r.item).sys.run = .running
      · exact counterAt_count (s := s.freeRecord r.item) running .samplesLost .framesDropped r.samples.length
      · rw [State.count_still running]
        rfl
    have only := askRemoval_onlyOffers ((s.freeRecord r.item).count .samplesLost r.samples.length) fun f => ofRecord r.item f && isSight f
    refine ⟨only.phase.trans ?_, only.backoff.trans ?_, (only.counter (k := .framesDropped) nofun).trans counter⟩
    · rw [line]; rfl
    · rw [line]; rfl
  · split
    · unfold State.releaseSettled
      dsimp only
      split
      · split <;> exact ⟨rfl, rfl, rfl⟩
      · split <;> exact ⟨rfl, rfl, rfl⟩
      all_goals exact ⟨rfl, rfl, rfl⟩
    · exact offers (settleSamples_onlyOffers _ _ _ _)
    · exact offers (settleSamples_onlyOffers _ _ _ _)
    · exact ⟨rfl, rfl, rfl⟩
    · exact ⟨rfl, rfl, rfl⟩

/-- The rest timer that a settled RELEASE leaves (R43). -/
theorem releaseSettled_eq (s : State) (sd : Side) : s.releaseSettled sd = s.setClaim sd { s.claims.get sd with
    rest := if (s.claims.get sd).rest ≠ none then (s.claims.get sd).rest else
      if (s.claims.get sd).state = .resting .gap then some 20000 else
      if (s.claims.get sd).state = .resting .backOff then some ((s.sys.station.toNat + 1) * 5000) else none } := by
  have same (c : Claim) (hc : c = s.claims.get sd) : s.setClaim sd c = s := by
    rw [hc, State.setClaim]
    cases sd <;> rfl
  by_cases rest : (s.claims.get sd).rest = none
  · obtain ⟨gap, backOff⟩ := releaseSettled_starts rest
    rw [if_neg (by simp [rest])]
    by_cases inGap : (s.claims.get sd).state = .resting .gap
    · rw [if_pos inGap, gap inGap]
    · rw [if_neg inGap]
      by_cases inBackOff : (s.claims.get sd).state = .resting .backOff
      · rw [if_pos inBackOff, backOff inBackOff]
      · rw [if_neg inBackOff, same _ (by rw [← rest])]
        unfold State.releaseSettled
        dsimp only
        split
        · next st => exact absurd st inGap
        · next st => exact absurd st inBackOff
        all_goals rfl
  · rw [if_pos rest, same _ rfl]
    unfold State.releaseSettled
    simp only [if_neg rest]
    split <;> rfl

end

/-! ### A dropped frame's owner, with nothing else waiting and room in the queue (R36, R43, R91, R97, R98, R100, R108, R133, R153) -/

section
variable {s : State} {f : QFrame} {x : Item} {r : Record} {p : Sample} {sd : Side}

theorem giveUp_unwaited (unwaited : s.line.waiting = []) (k : WaitKey) : s.giveUp k = s := by
  rw [State.giveUp, unwaited, List.filter_nil, ← unwaited]
  rfl

theorem giveUp_queue (unwaited : s.line.waiting = []) (q : List QFrame) (k : WaitKey) : (s.setQueue q).giveUp k = s.setQueue q :=
  giveUp_unwaited (s := s.setQueue q) unwaited k

theorem setQueue_nil (s : State) : s.setQueue (s.line.queue ++ []) = s := by
  rw [List.append_nil]
  rfl

/-- The frames of a drop that leave it at that: the walk finds nobody waiting. -/
theorem droppedPlain (unwaited : s.line.waiting = []) (nobody : s.frameDropped f = s) :
    ((s.frameDropped f).walk).afterDropped f = s.afterDropped f := by
  rw [nobody, walk_empty unwaited]

section
variable (unwaited : s.line.waiting = [])
include unwaited

theorem offer_alone {k : WaitKey} {o : Owner} {p : Payload} (fresh : TakesFresh p s.line.queue) :
    s.offer (some k) o p = (s.setQueue (s.line.queue ++ [QFrame.fresh o p]), .taken) := by
  rw [offer_fresh fresh, giveUp_queue unwaited]

theorem droppedClaim (room : s.NormalRoom) (payload : f.payload = .claim (s.lane sd)) (owner : f.owner = .side sd) :
    ((s.frameDropped f).walk).afterDropped f = s.setQueue (s.line.queue ++
      if (s.claims.get sd).state = .asking ∧ (s.claims.get sd).sent = false then [QFrame.fresh (.side sd) (.claim (s.lane sd))] else []) := by
  rw [droppedPlain unwaited (by simp only [State.frameDropped, State.soleLeaving, payload, owner])]
  simp only [State.afterDropped, payload, owner]
  split
  · rw [State.offerClaim, offer_alone unwaited (takesFresh_of_room room fun _ _ => rfl)]
  · exact (setQueue_nil s).symm

theorem droppedRelease {lane : Nat} (payload : f.payload = .release lane) (owner : f.owner = .side sd) :
    ((s.frameDropped f).walk).afterDropped f = s.releaseSettled sd := by
  have settled : s.frameDropped f = s.releaseSettled sd := by simp only [State.frameDropped, State.soleLeaving, payload, owner]
  have still : (s.releaseSettled sd).line.waiting = [] := by rw [releaseSettled_eq]; exact unwaited
  rw [settled, walk_empty still]
  simp only [State.afterDropped, payload]

theorem droppedReport (payload : f.payload = .report) : ((s.frameDropped f).walk).afterDropped f = s.reportDropped := by
  have settled : s.frameDropped f = s.reportDropped := by simp only [State.frameDropped, State.soleLeaving, payload]
  rw [settled, walk_empty (by exact unwaited)]
  simp only [State.afterDropped, payload]

theorem droppedJoin_orphan {m : JoinMsg} (payload : f.payload = .join m) (owner : f.owner = .noRecord) :
    ((s.frameDropped f).walk).afterDropped f = s := by
  rw [droppedPlain unwaited (by simp only [State.frameDropped, State.soleLeaving, payload, owner])]
  simp only [State.afterDropped, payload, owner]

theorem droppedQuery (room : s.NormalRoom) {receiver tag : Nat} {k : BitVec 2} {u : SlotUse} (payload : f.payload = .query receiver tag x)
    (owner : f.owner = .slot k) (use : (s.queries.slots.get k).use = some u) :
    ((s.frameDropped f).walk).afterDropped f = s.setQueue (s.line.queue ++
      if u.tag = tag then [QFrame.fresh (.slot k) (.query s.sys.cfg.registry u.tag u.item)] else []) := by
  rw [droppedPlain unwaited (by simp only [State.frameDropped, State.soleLeaving, payload, owner])]
  simp only [State.afterDropped, payload, owner, use]
  split
  · simp only [State.offerQuery, use]
    rw [offer_alone unwaited (takesFresh_of_room room fun _ _ => rfl)]
  · exact (setQueue_nil s).symm

theorem droppedDecision {l : Lead} {d : Decision} {again : Bool} (record : s.record? x = some r) (lead : r.state = .lead l)
    (payload : f.payload = .decision ⟨x, d, again⟩) (owner : f.owner = .record x) :
    (again = false → Verdict.isFinal d.verdict = true → l.final ≠ none → TakesFresh (.decision ⟨x, d, false⟩) s.line.queue →
      ((s.frameDropped f).walk).afterDropped f =
        (s.setQueue (s.line.queue ++ [QFrame.fresh (.record x) (.decision ⟨x, d, false⟩)])).putRecord
          { r with state := .lead { l with owed := none } }) ∧
    (again = true ∨ Verdict.isFinal d.verdict = false → ((s.frameDropped f).walk).afterDropped f = s) := by
  have found : s.lead? x = some (r, l) := lead?_eq_some.2 ⟨record, lead⟩
  rw [droppedPlain unwaited (by simp only [State.frameDropped, State.soleLeaving, payload, owner])]
  simp only [State.afterDropped, payload, owner, found]
  refine ⟨fun first final decided fresh => ?_, fun idle => ?_⟩
  · rw [if_pos (by simp [first, final, Option.isSome_iff_ne_none, decided]), State.offerDecision, offer_alone unwaited fresh]
    simp only [show (s.setQueue (s.line.queue ++ [QFrame.fresh (.record x) (.decision ⟨x, d, false⟩)])).lead? x = some (r, l) from found]
    rfl
  · rw [if_neg (by rcases idle with rfl | open' <;> simp [*])]

/-- The record of a dropped SIGHT or JOIN with the one own sample that the frame carried, UNSENT again (R91). -/
theorem dropped_unsent {r' : Record} (record : s.record? x = some r) (one : r.samples = [p]) (own : p.station = s.sys.station.toNat)
    (hr' : r' = { r with samples := [{ p with flag := .unsent }] }) (owner : f.owner = .record x)
    (carries : (∃ m, f.payload = .join m ∧ m.samples = [p.content]) ∨ ∃ m, f.payload = .sight m ∧ f.asked = .none ∧ m.samples = [p.content]) :
    (s.frameDropped f).walk = s.putRecord r' ∧ (s.putRecord r').record? x = some r' ∧ r'.item = x ∧
      r'.OneUnsent s.number [] { p with flag := .unsent } [] := by
  have item := record?_item record
  have settled : s.settleSamples x .unsent [p.content] = s.putRecord r' := by
    rw [hr']
    exact settleSamples_one (pre := []) (post := []) .unsent record one own (.inr (by simp))
  have dropped : s.frameDropped f = s.putRecord r' := by
    obtain ⟨m, payload, samples⟩ | ⟨m, payload, asked, samples⟩ := carries
    · simp only [State.frameDropped, State.soleLeaving, payload, owner, samples, settled]
    · have stays : s.soleLeaving f = none := by
        simp only [State.soleLeaving, payload, owner]
        rw [if_neg (by rw [asked]; exact nofun)]
      simp only [State.frameDropped, stays, payload, owner, samples, settled]
  have stored := record?_putRecord (s := s) (r := r) (r' := r') (by rw [hr']; simpa [item] using record) x
  rw [if_pos (by rw [hr']; exact item.symm)] at stored
  exact ⟨by rw [dropped, walk_empty (by exact unwaited)], stored, by rw [hr']; exact item, by rw [hr']; rfl, own, rfl, by simp⟩

theorem droppedJoin (room : s.NormalRoom) {m : JoinMsg} {y : Nat} {patience : Timer} (record : s.record? x = some r) (one : r.samples = [p])
    (own : p.station = s.sys.station.toNat) (owner : f.owner = .record x) (payload : f.payload = .join m) (item : m.item = x)
    (carries : m.samples = [p.content]) (joint : r.state = .joint y patience)
    (apart : ∀ g ∈ s.line.queue, ∀ n, g.payload = .join n → n.item ≠ x) :
    ((s.frameDropped f).walk).afterDropped f = (s.setQueue (s.line.queue ++
      [QFrame.fresh (.record x) (.join { m with lead := y })])).putRecord { r with samples := [{ p with flag := .queued }] } := by
  obtain ⟨r', hr'⟩ : ∃ r' : Record, r' = { r with samples := [{ p with flag := .unsent }] } := ⟨_, rfl⟩
  obtain ⟨t, ht⟩ : ∃ t, t = s.putRecord r' := ⟨_, rfl⟩
  obtain ⟨walked, stored, -, unsent⟩ := dropped_unsent unwaited record one own hr' owner (.inl ⟨m, payload, carries⟩)
  have unwaitedT : t.line.waiting = [] := by rw [ht]; exact unwaited
  have queue : t.line.queue = s.line.queue := by rw [ht]; rfl
  have message : ({ item := x, lead := y, samples := [Sample.content { p with flag := .unsent }] } : JoinMsg) = { m with lead := y } := by
    rw [← item, show Sample.content { p with flag := .unsent } = p.content from rfl, ← carries]
  rw [← ht] at walked stored
  have offered := offerJoins_one (s := t) stored (by rw [hr']; exact joint) (by rw [ht]; exact unsent) (by rw [unwaitedT]; simp)
    (by rw [queue]; exact takesFresh_of_room room (join_apart apart))
  rw [message, giveUp_queue unwaitedT, queue] at offered
  rw [walked]
  simp only [State.afterDropped, payload, owner, offered]
  rw [ht, hr']
  exact putRecord_putRecord (s.setQueue _) _ _ rfl

theorem droppedSight (room : s.NormalRoom) {m : SightMsg} (record : s.record? x = some r) (one : r.samples = [p])
    (own : p.station = s.sys.station.toNat) (owner : f.owner = .record x) (payload : f.payload = .sight m) (asked : f.asked = .none)
    (carries : m.samples = [p.content]) (apart : ∀ g ∈ s.line.queue, ∀ n, g.payload = .sight n → n.item ≠ x) :
    (∀ waiting, r.state = .sole waiting → ((s.frameDropped f).walk).afterDropped f = (s.setQueue (s.line.queue ++
      [QFrame.fresh (.record x) (.sight { item := x, code := r.code, mark := r.mark, level := r.level, takeover := false, again := false
                                          samples := m.samples })])).putRecord
        { r with samples := [{ p with flag := .queued }], state := .sole false }) ∧
    (∀ y patience, m.takeover = true → r.state = .joint y patience → ((s.frameDropped f).walk).afterDropped f = (s.setQueue (s.line.queue ++
      [QFrame.fresh (.record x) (.sight { item := x, code := r.code, mark := r.mark, level := r.level, takeover := true, again := false
                                          samples := m.samples })])).putRecord
        { r with samples := [{ p with flag := .queued }] }) := by
  obtain ⟨r', hr'⟩ : ∃ r' : Record, r' = { r with samples := [{ p with flag := .unsent }] } := ⟨_, rfl⟩
  obtain ⟨t, ht⟩ : ∃ t, t = s.putRecord r' := ⟨_, rfl⟩
  obtain ⟨walked, stored, item, unsent⟩ := dropped_unsent unwaited record one own hr' owner (.inr ⟨m, payload, asked, carries⟩)
  have unwaitedT : t.line.waiting = [] := by rw [ht]; exact unwaited
  have queue : t.line.queue = s.line.queue := by rw [ht]; rfl
  have number : t.number = s.number := by rw [ht]; rfl
  have content : m.samples = [Sample.content { p with flag := .unsent }] := carries
  have fields : r'.code = r.code ∧ r'.mark = r.mark ∧ r'.level = r.level ∧ r'.state = r.state := by rw [hr']; exact ⟨rfl, rfl, rfl, rfl⟩
  rw [← ht] at walked stored
  have again (l : RecState) : ∀ q : List QFrame, (t.setQueue q).putRecord { r' with samples := [{ p with flag := .queued }], state := l } =
      (s.setQueue q).putRecord { r with samples := [{ p with flag := .queued }], state := l } := fun q => by
    rw [ht, hr']
    exact putRecord_putRecord (s.setQueue q) _ _ rfl
  refine ⟨fun waiting sole => ?_, fun y patience takeover joint => ?_⟩
  · have drops : t.afterDropped f = (t.offerSight r').1 := by
      simp only [State.afterDropped, payload, owner, stored, fields.2.2.2, sole]
    rw [walked, drops, offerSight_one (s := t) (by rw [number]; exact unsent) (by
      rw [queue]
      exact takesFresh_of_room room (sight_apart (by rw [sightOf, item]; exact apart)))]
    simp only [giveUp_queue unwaitedT]
    refine (again (.sole false) _).trans ?_
    rw [queue, ← content, sightOf, item, fields.1, fields.2.1, fields.2.2.1]
  · have strongest : t.strongestOwn r' = [p.content] := by
      have mine : ({ p with flag := .unsent } : Sample).own t.number = true := by
        rw [number]
        exact beq_iff_eq.2 own
      rw [State.strongestOwn, hr', List.filter_cons, if_pos mine]
      rfl
    have offered := offerTakeover_fresh (s := t) (r := r') (by rw [State.NormalRoom, queue]; exact room) (by rw [queue, item]; exact apart)
    obtain ⟨w, hw⟩ : ∃ w : State, w = t.setQueue (t.line.queue ++ [QFrame.fresh (.record x) (.sight (sightOf r' true false [p.content]))]) :=
      ⟨_, rfl⟩
    have flagged : w.flagSamples x anyFlag .queued [p.content] = w.putRecord { r' with samples := [{ p with flag := .queued }] } := by
      have found : w.record? x = some r' := by rw [hw]; exact stored
      have mine : ({ p with flag := .unsent } : Sample).own w.number && [p.content].contains (Sample.content { p with flag := .unsent }) &&
          anyFlag SentFlag.unsent := by
        have number' : w.number = s.number := by rw [hw, ← number]; rfl
        have mine : ({ p with flag := .unsent } : Sample).own s.number = true := beq_iff_eq.2 own
        rw [number', mine]
        simp [Sample.content, anyFlag]
      rw [State.flagSamples, found]
      simp only [show r'.samples = [{ p with flag := .unsent }] by rw [hr']]
      rw [flagAll, if_pos mine]
      rfl
    rw [strongest, giveUp_queue unwaitedT, item, ← hw, flagged] at offered
    have recordW : (w.putRecord { r' with samples := [{ p with flag := .queued }] }).record? x =
        some { r' with samples := [{ p with flag := .queued }] } := by
      have put := record?_putRecord (s := w) (r := r') (r' := { r' with samples := [{ p with flag := .queued }] })
        (by rw [item, hw]; exact stored) x
      rw [if_pos item.symm] at put
      exact put
    have drops : t.afterDropped f = (t.offerTakeover r').1.offerJoins x := by
      simp only [State.afterDropped, payload, owner, stored, fields.2.2.2, joint, takeover, if_true]
    rw [walked, drops, offered, offerJoins_none recordW (by simp), hw, queue]
    refine (again r'.state _).trans ?_
    rw [show [p.content] = m.samples from carries.symm, sightOf, item, fields.1, fields.2.1, fields.2.2.1, fields.2.2.2]

/-- A SOLE record whose freeing waited for the dropped SIGHT is freed (R100). -/
theorem droppedSole_leaves {m : SightMsg} {waiting : Bool} (record : s.record? x = some r) (sole : r.state = .sole waiting)
    (payload : f.payload = .sight m) (owner : f.owner = .record x) (asked : f.asked = .remove)
    (disowned : ∀ g ∈ s.line.queue, g.owner ≠ .record x) (fits : s.line.queue.length ≤ queueSize) :
    ((s.frameDropped f).walk).afterDropped f = (s.setTable (replaceRecord x none s.table)).count .samplesLost r.samples.length := by
  have item := record?_item record
  have mine : ∀ g ∈ s.line.queue, ofRecord x g = false := fun g hg => by simpa [ofRecord] using disowned g hg
  have same : orphan x s.line.queue = s.line.queue := by
    rw [orphan, List.map_congr_left (g := id) (fun g hg => by simp [mine g hg]), List.map_id]
  have freed : s.freeRecord x = s.setTable (replaceRecord x none s.table) := by
    simp only [State.freeRecord, same]
    have still (k : WaitKey) : (s.setTable (replaceRecord x none s.table)).giveUp k = s.setTable (replaceRecord x none s.table) :=
      giveUp_unwaited (s := s.setTable (replaceRecord x none s.table)) unwaited k
    rw [still, still, still]
    rfl
  obtain ⟨t, ht⟩ : ∃ t, t = (s.setTable (replaceRecord x none s.table)).count .samplesLost r.samples.length := ⟨_, rfl⟩
  have line : t.line = s.line := by rw [ht]; exact State.count_line _ _ _
  have leaves : s.frameDropped f = t := by
    have sole' : s.soleLeaving f = some r := by simp only [State.soleLeaving, payload, owner, asked, if_true, record, sole]
    have none : t.line.queue.filter (fun f => !(ofRecord x f && isSight f)) = t.line.queue :=
      List.filter_eq_self.2 fun g hg => by
        rw [line] at hg
        simp [mine g hg]
    simp only [State.frameDropped, sole', State.freeSole, item, freed, ← ht]
    rw [askRemoval_unwaited (by rw [line]; exact unwaited) (by rw [line]; exact fits) (fun g hg kind => by
      rw [line] at hg
      simp [mine g hg] at kind), none]
    rfl
  have gone : t.record? x = none := by
    have table : t.table = replaceRecord x none s.table := by rw [ht]; exact State.count_table _ _ _
    have free := (freeRecord_record s x).1
    rw [State.record?, table]
    exact free
  rw [leaves, walk_empty (by rw [line]; exact unwaited)]
  simp only [State.afterDropped, payload, owner, gone]
  exact ht

end

end

/-! ### A removal or a conversion held until the loss (R72, R80) -/

section
variable {s : State} {before behind : List QFrame} {g : QFrame} {ok : QFrame → Bool}

theorem removeLoop_lone (unwaited : s.line.waiting = []) (queue : s.line.queue = before ++ g :: behind) (mine : ok g = true)
    (still : g.underTx = false) (others : ∀ h ∈ before ++ behind, ok h = false) :
    State.removeLoop ok queueSize s = s.setQueue (before ++ behind) := by
  have front {q : List QFrame} (h : ∀ e ∈ q, e ∈ before ++ behind) : q.filter (fun f => !(ok f && !f.underTx)) = q :=
    List.filter_eq_self.2 fun e he => by simp [others e (h e he)]
  have none {q : List QFrame} (h : ∀ e ∈ q, e ∈ before ++ behind) : q.countP (fun f => ok f && !f.underTx) = 0 :=
    List.countP_eq_zero.2 fun e he => by simp [others e (h e he)]
  have gone : ¬ (!(ok g && !g.underTx)) = true := by simp [mine, still]
  have once : (ok g && !g.underTx) = true := by simp [mine, still]
  rw [removeLoop_unwaited queueSize unwaited, queue, List.filter_append, List.filter_cons, if_neg gone,
    front fun e he => List.mem_append_left _ he, front fun e he => List.mem_append_right _ he]
  rw [queue, List.countP_append, List.countP_cons, none fun e he => List.mem_append_left _ he, none fun e he => List.mem_append_right _ he,
    if_pos once]
  decide

theorem removeLoop_nobody (unwaited : s.line.waiting = []) (others : ∀ h ∈ s.line.queue, ok h = false) :
    State.removeLoop ok queueSize s = s := by
  have none : s.line.queue.countP (fun f => ok f && !f.underTx) = 0 := List.countP_eq_zero.2 fun e he => by simp [others e he]
  rw [removeLoop_unwaited queueSize unwaited (by rw [none]; exact Nat.zero_le _),
    List.filter_eq_self.2 fun e he => by simp [others e he]]
  rfl

/-- A held removal of a frame that is no SIGHT. -/
theorem carryOut_removes (unwaited : s.line.waiting = []) (queue : s.line.queue = before ++ g :: behind) (asked : g.asked = .remove)
    (still : g.underTx = false) (others : ∀ h ∈ before ++ behind, h.asked = .none) {lane : Nat} (payload : g.payload = .claim lane) :
    s.carryOut g = s.setQueue (before ++ behind) := by
  have stays : s.soleLeaving g = none := by simp only [State.soleLeaving, payload]
  simp only [State.carryOut, asked, stays]
  exact removeLoop_lone unwaited queue (by simp [asked]) still fun h hh => by simp [others h hh]

/-- A held conversion: the SIGHT becomes a JOIN in its place, or leaves where it carries nothing. -/
theorem carryOut_converts (unwaited : s.line.waiting = []) (queue : s.line.queue = before ++ g :: behind) {lead : Nat}
    (asked : g.asked = .convert lead) (still : g.underTx = false) (others : ∀ h ∈ before ++ behind, h.asked = .none) {m : SightMsg}
    (payload : g.payload = .sight m) : s.carryOut g = s.setQueue (if m.samples = [] then before ++ behind else
      before ++ { g with payload := .join { item := m.item, lead := lead, samples := m.samples }, asked := .none } :: behind) := by
  have foreign {q : List QFrame} (h : ∀ e ∈ q, e ∈ before ++ behind) :
      q.map (fun e => if (e.asked == .convert lead) && !sightEmpty e then convertFrame lead e else e) = q := by
    refine (List.map_congr_left (g := id) fun e he => ?_).trans (List.map_id q)
    rw [if_neg (by simp [others e (h e he)])]
    rfl
  have empty : sightEmpty g = m.samples.isEmpty := by simp only [sightEmpty, payload]
  simp only [State.carryOut, asked]
  rw [queue, List.map_append, List.map_cons, foreign fun e he => List.mem_append_left _ he, foreign fun e he => List.mem_append_right _ he]
  by_cases nothing : m.samples = []
  · rw [if_pos nothing, if_neg (by simp [empty, nothing])]
    exact removeLoop_lone (s := s.setQueue _) unwaited rfl (by simp [asked, empty, nothing]) still fun h hh => by simp [others h hh]
  · rw [if_neg nothing, if_pos (by simp [asked, empty, nothing])]
    have converted : convertFrame lead g =
        { g with payload := .join { item := m.item, lead := lead, samples := m.samples }, asked := .none } := by
      simp only [convertFrame, payload]
    rw [converted]
    refine removeLoop_nobody (s := s.setQueue _) unwaited fun h hh => ?_
    rcases List.mem_append.1 hh with front | back
    · simp [others h (List.mem_append_left _ front)]
    · rcases List.mem_cons.1 back with rfl | back
      · rfl
      · simp [others h (List.mem_append_right _ back)]

end

/-- Settles O25. -/
theorem contentionLossCountsAndDrops : Obligations.ContentionLossCountsAndDrops := by
  intro s v a att before behind f hv sends bit
  have run : exec (.contentionLost a) s = .next v.contentionLost := by rw [exec_contentionLost, ← hv]
  rw [run]
  refine ⟨fun again plain => ?_, fun again unwaited others => ⟨fun lane asked payload => ?_, fun m lead asked payload => ?_⟩,
    fun last running => ?_, fun last running payload unwaited => ?_, fun lost fresh last running unwaited few normal hlost hfresh => ?_⟩
  · rw [contentionLost_keeps sends bit again]
    simp only [State.carryOut, plain]
    rfl
  · rw [contentionLost_keeps sends bit again, carryOut_removes (s := v.outbid att.stamp
      (before ++ { f with underTx := false, losses := f.losses + 1 } :: behind)) (g := { f with underTx := false, losses := f.losses + 1 })
      unwaited rfl asked rfl others payload]
    rfl
  · rw [contentionLost_keeps sends bit again, carryOut_converts (s := v.outbid att.stamp
      (before ++ { f with underTx := false, losses := f.losses + 1 } :: behind)) (g := { f with underTx := false, losses := f.losses + 1 })
      unwaited rfl asked rfl others payload]
    rfl
  · rw [contentionLost_drops sends bit last running]
    obtain ⟨phase, backoff, counter⟩ := frameDropped_line (v.dropped att.stamp (before ++ behind)) f
    have only := (walk_onlyOffers ((v.dropped att.stamp (before ++ behind)).frameDropped f)).trans (afterDropped_only _ f)
    exact ⟨_, rfl, only.phase.trans phase, only.backoff.trans backoff, (only.counter (k := .framesDropped) nofun).trans counter⟩
  · rw [contentionLost_drops sends bit last running, droppedReport (by exact unwaited) payload]
    rfl
  obtain ⟨u, hu⟩ : ∃ u, u = v.dropped att.stamp (before ++ behind) := ⟨_, rfl⟩
  have none : u.line.waiting = [] := by rw [hu]; exact unwaited
  have queue : u.line.queue = before ++ behind := by rw [hu]; rfl
  have room : u.NormalRoom := by rw [State.NormalRoom, queue]; exact ⟨few, normal⟩
  have put (q : List QFrame) : lost q = u.setQueue q := by rw [hlost, hu]; rfl
  have whole : lost (before ++ behind) = u := by rw [put, ← queue]; rfl
  have made (p : Payload) (o : Owner) : fresh p o = QFrame.fresh o p := by rw [hfresh]; rfl
  rw [contentionLost_drops sends bit last running, ← hu]
  refine ⟨fun sd c hc payload owner => ?_, fun sd c hc payload owner => ?_, fun m payload owner => ?_,
    fun r p x record one own owner => ⟨fun m y patience payload item carries joint apart => ?_, fun m payload asked carries apart => ?_⟩,
    fun r waiting x m record sole payload owner asked apart disowned => ?_,
    fun r l d x again record lead payload owner => ⟨fun first final decided apart => ?_, fun idle => ?_⟩,
    fun receiver tag x k use payload owner used => ?_⟩
  · rw [droppedClaim none room (by rw [hu]; exact payload) owner, queue, put, made, hc, hu]
    rfl
  · rw [droppedRelease none payload owner, releaseSettled_eq, whole, hc, hu]
    rfl
  · rw [droppedJoin_orphan none payload owner, whole]
  · rw [droppedJoin none room (by rw [hu]; exact record) one (by rw [hu]; exact own) owner payload item carries joint
      (by rw [queue]; exact apart), put, made, queue]
  · have sight := droppedSight none room (by rw [hu]; exact record) one (by rw [hu]; exact own) owner payload asked carries
      (by rw [queue]; exact apart)
    refine ⟨fun waiting sole => ?_, fun y patience takeover joint => ?_⟩
    · rw [sight.1 waiting sole, put, made, queue]
    · rw [sight.2 y patience takeover joint, put, made, queue]
  · rw [droppedSole_leaves none (by rw [hu]; exact record) sole payload owner asked (by rw [queue]; exact disowned)
      (by rw [queue]; exact Nat.le_of_lt few), whole, hu]
    rfl
  · rw [(droppedDecision none (by rw [hu]; exact record) lead payload owner).1 first (isFinal_iff.2 final) decided
      ⟨by
        rw [queue]
        intro g hg
        cases kind : g.payload with
        | decision n => simpa [Payload.meets] using apart g hg n kind
        | sight _ | join _ | claim _ | defer _ | release _ | query _ _ _ | report => rfl, by rw [queue]; exact few, nofun⟩, put, made, queue]
  · rw [(droppedDecision none (by rw [hu]; exact record) lead payload owner).2 (idle.imp id fun open' => by
      simp only [List.mem_cons, List.not_mem_nil, or_false] at open'
      rcases open' with e | e <;> (rw [e]; rfl)), whole]
  · rw [droppedQuery none room payload owner (by rw [hu]; exact used), queue, put, made, hu]
    rfl

end Sys2Proof.Machine
end

section
/-! PROOFS. Heard SIGHTs and JOINs at the records they find (R92, R94, R101 to R103, R109). -/

namespace Sys2Proof.Machine

/-! ### The Snoop Directory (R92) -/

theorem dirPut_known {x : Item} {lead : Nat} {now : Clock} {d : List DirEntry} {e : DirEntry} (known : dirEntry x d = some e) :
    dirPut x lead now d = (d.filter fun e => e.item ≠ x) ++ [⟨x, lead, now⟩] := by
  simp only [dirPut, known, Option.isNone_some, Bool.false_eq_true, false_and, if_false, dirRemove_eq]

theorem dirEntry_none_iff {x : Item} {d : List DirEntry} :
    dirEntry x d = none ↔ (d.filter fun e => e.item ≠ x).length = d.length := by
  rw [List.length_filter_eq_length_iff, dirEntry, List.find?_eq_none]
  simp

/-- The entry of an item as the newest, by the entries of the others. -/
theorem dirPut_others (x : Item) (lead : Nat) (now : Clock) (d : List DirEntry) : dirPut x lead now d =
    (if (d.filter fun e => e.item ≠ x).length = d.length ∧ 64 ≤ d.length then (d.filter fun e => e.item ≠ x).drop 1
      else d.filter fun e => e.item ≠ x) ++ [⟨x, lead, now⟩] := by
  simp only [dirPut, dirRemove_eq, Option.isNone_iff_eq_none, dirEntry_none_iff]
  rfl

section
variable {s t : State} {x : Item} {r : Record}

/-! ### A list that takes heard samples (R93, R94) -/

/-- Of a state only the sample list of one record that does not lead, and the counters, have changed. -/
structure Grew (x : Item) (r : Record) (s t : State) : Prop where
  record : ∃ ps, t.record? x = some { r with samples := ps }
  line : t.line = s.line
  directory : t.directory = s.directory

theorem sampleAdded_unled (unled : s.lead? x = none) (before : Nat) : s.sampleAdded x before = s := by
  simp only [State.sampleAdded, unled]

theorem unled_of {ps : List Sample} (record : s.record? x = some { r with samples := ps }) (gathers : r.state.gathers = true) :
    s.lead? x = none := by
  cases lead : s.lead? x with
  | none => rfl
  | some p =>
    obtain ⟨found, state⟩ := lead?_eq_some.1 lead
    rw [record] at found
    have led := congrArg Record.state (Option.some.inj found)
    rw [show r.state = .lead p.2 from led.trans state] at gathers
    cases gathers

theorem Grew.addHeard (gathers : r.state.gathers = true) (h : Grew x r s t) (p : Sample) : Grew x r s (t.addHeard x p) := by
  obtain ⟨⟨ps, record⟩, line, directory⟩ := h
  have item : r.item = x := record?_item (r := { r with samples := ps }) record
  simp only [State.addHeard, record]
  split
  · exact ⟨⟨ps, record⟩, line, directory⟩
  · obtain ⟨o, ho⟩ : ∃ o, o = offerToList t.sys.cfg.noiseFloor t.time.clock p ps := ⟨_, rfl⟩
    obtain ⟨u, hu⟩ : ∃ u, u = (t.putRecord { r with samples := o.samples }).count .samplesLost o.lost := ⟨_, rfl⟩
    have stored : u.record? x = some { r with samples := o.samples } := by
      have put := record?_putRecord (s := t) (r := { r with samples := ps }) (r' := { r with samples := o.samples })
        (by simpa [item] using record) x
      rw [if_pos item.symm] at put
      rw [hu, State.record?, State.count_table]
      exact put
    have same : (t.addSample x p).1 = u := by
      simp only [State.addSample, record, ← ho, ← hu]
      split
      · exact sampleAdded_unled (unled_of stored gathers) _
      · rfl
    rw [same]
    refine ⟨⟨o.samples, stored⟩, ?_, ?_⟩
    · rw [hu, State.count_line]
      exact line
    · rw [hu, State.count_directory]
      exact directory

theorem addAllHeard_grew (record : s.record? x = some r) (gathers : r.state.gathers = true) (ps : List Sample) :
    Grew x r s (s.addAllHeard x ps) := by
  have all (t : State) (h : Grew x r s t) : Grew x r s (t.addAllHeard x ps) := by
    induction ps generalizing t with
    | nil => exact h
    | cons p ps ih => exact ih _ (h.addHeard gathers p)
  exact all s ⟨⟨r.samples, record⟩, rfl, rfl⟩

theorem takeMark_known (record : s.record? x = some r) (m : IssueMark) : s.takeMark x m = s.putRecord { r with mark := m } ∧
    (s.putRecord { r with mark := m }).record? x = some { r with mark := m } := by
  have item := record?_item record
  have put := record?_putRecord (s := s) (r := r) (r' := { r with mark := m }) (by simpa [item] using record) x
  rw [if_pos item.symm] at put
  exact ⟨by simp only [State.takeMark, record], put⟩

/-- A JOINT record takes the heard SIGHT's mark and samples. -/
theorem joint_takes (record : s.record? x = some r) (gathers : r.state.gathers = true) (m : IssueMark) (ps : List Sample) :
    Grew x { r with mark := m } s ((s.takeMark x m).addAllHeard x ps) := by
  obtain ⟨taken, stored⟩ := takeMark_known record m
  rw [taken]
  obtain ⟨found, line, directory⟩ := addAllHeard_grew (r := { r with mark := m }) stored gathers ps
  exact ⟨found, line, directory⟩

/-! ### A record that becomes or stays JOINT -/

theorem joint_of_unslotted {r' : Record} {y : Nat} {patience : Timer} (same : r'.unslotted = r.unslotted) (joint : r.state = .joint y patience) :
    r'.state = .joint y patience := by
  have states := congrArg Record.state same
  simp only [Record.unslotted, joint] at states
  cases st : r'.state <;> rw [st] at states <;> simp only [RecState.unslotted] at states <;> cases states
  rfl

/-- What a record keeps when it takes a new lead. -/
structure Rejoined (x : Item) (r : Record) (y : Nat) (patience : Timer) (t : State) : Prop where
  record : ∃ r', t.record? x = some r' ∧ r'.state = .joint y patience ∧ r'.code = r.code ∧ r'.level = r.level ∧ r'.mark = r.mark ∧
    r'.created = r.created

theorem rejoined_of {y : Nat} {patience : Timer} {r1 : Record} (record : s.record? x = some r) (item : r1.item = r.item)
    (state : r1.state = .joint y patience) (same : r1.code = r.code ∧ r1.level = r.level ∧ r1.mark = r.mark ∧ r1.created = r.created)
    (only : OnlyQueries (s.putRecord r1) t) : Rejoined x r y patience t := by
  have stored := record?_putRecord (s := s) (r := r) (r' := r1) (by rw [item]; simpa [record?_item record] using record) x
  rw [if_pos ((record?_item record).symm.trans item.symm)] at stored
  obtain ⟨r2, record2, bare⟩ := only.record stored
  have fields := bare
  simp only [Record.unslotted, Record.mk.injEq] at fields
  obtain ⟨-, code, level, mark, created, -⟩ := fields
  obtain ⟨code1, level1, mark1, created1⟩ := same
  exact ⟨r2, record2, joint_of_unslotted bare state, code.trans code1, level.trans level1, mark.trans mark1, created.trans created1⟩

theorem soleToJoint_rejoined (record : s.record? x = some r) (y : Nat) :
    Rejoined x r y (some s.patience) (s.soleToJoint r y) ∧ OnlyOffers (s.putRecState r (.joint y (some s.patience))) (s.soleToJoint r y) := by
  have only : OnlyOffers (s.putRecState r (.joint y (some s.patience))) (s.soleToJoint r y) :=
    ((giveUp_onlyOffers _ _).trans (askConversion_onlyOffers _ _ _)).trans (offerJoins_onlyOffers _ _)
  exact ⟨rejoined_of (r1 := { r with state := .joint y (some s.patience) }) record rfl rfl ⟨rfl, rfl, rfl, rfl⟩ only.queryFree, only⟩

theorem rejoin_rejoined (record : s.record? x = some r) (y : Nat) : Rejoined x r y (some s.patience) (s.rejoin r y) :=
  rejoined_of (r1 := { r with samples := settleFlags s.number .unsent (sightSamples r.item s.line.queue) r.samples,
                               state := .joint y (some s.patience) }) record rfl rfl ⟨rfl, rfl, rfl, rfl⟩
    (((giveUp_onlyOffers _ _).trans (askRemoval_onlyOffers _ _)).trans (offerJoins_onlyOffers _ _)).queryFree

theorem yieldLead_rejoined (record : s.record? x = some r) (l : Lead) (y : Nat) : Rejoined x r y (some s.patience) (s.yieldLead r l y) :=
  have removed (t : State) : OnlyQueries t (((t.giveUp (.decision r.item)).giveUp (.sight r.item)).askRemoval fun f => ofRecord r.item f && isDecision f) :=
    (((giveUp_onlyOffers _ _).trans (giveUp_onlyOffers _ _)).trans (askRemoval_onlyOffers _ _)).queryFree
  have rest (t : State) : OnlyQueries t ((t.askRemoval fun f => ofRecord r.item f && isSight f).offerJoins r.item) :=
    ((askRemoval_onlyOffers _ _).trans (offerJoins_onlyOffers _ _)).queryFree
  rejoined_of (r1 := { r with samples := unsendOwn s.number r.samples, state := .joint y (some s.patience) }) record rfl rfl ⟨rfl, rfl, rfl, rfl⟩
    (((removed _).trans (endQuery_onlyQueries _ _ _)).trans (rest _))

/-! ### What judging a LEAD record keeps of it -/

/-- A record apart from its state and its sent flags. -/
def Record.face (r : Record) : Record := { r with samples := r.samples.map Sample.unflag, state := .sole false }

/-- The item's record leads, its face and its quiet timer being as given. -/
def State.LeadWith (s : State) (x : Item) (P : Record → Timer → Prop) : Prop := ∃ r l, s.lead? x = some (r, l) ∧ P r.face l.quiet

section
variable {P : Record → Timer → Prop} {l : Lead}

theorem OnlyQueries.leadWith (only : OnlyQueries s t) (h : s.LeadWith x P) : t.LeadWith x P := by
  obtain ⟨r, l, lead, holds⟩ := h
  obtain ⟨r', l', lead', sameLead, same⟩ := only.lead lead
  have face : r'.face = r.face := congrArg (fun u : Record => { u with state := .sole false }) same
  simp only [Lead.mk.injEq] at sameLead
  obtain ⟨-, -, -, quiet, -⟩ := sameLead
  exact ⟨r', l', lead', by rw [face, quiet]; exact holds⟩

theorem leadWith_putLead {l' : Lead} (lead : s.lead? x = some (r, l)) (holds : P r.face l'.quiet) : (s.putLead r l').LeadWith x P :=
  ⟨_, _, lead?_putLead lead, holds⟩

theorem State.LeadWith.putLead {l' : Lead} (h : s.LeadWith x P) (lead : s.lead? x = some (r, l)) (quiet : l'.quiet = l.quiet) :
    (s.putLead r l').LeadWith x P := by
  obtain ⟨r0, l0, lead0, holds⟩ := h
  obtain ⟨rfl, rfl⟩ := Prod.mk.inj (Option.some.inj (lead.symm.trans lead0))
  exact leadWith_putLead lead (by rw [quiet]; exact holds)

theorem State.LeadWith.offerDecision (h : s.LeadWith x P) (d : Decision) : (s.offerDecision x d).1.LeadWith x P :=
  (offerDecision_onlyOffers s x d).queryFree.leadWith h

theorem State.LeadWith.offerFinal (h : s.LeadWith x P) (d : Decision) : (s.offerFinal x d).LeadWith x P := by
  unfold State.offerFinal
  split
  · next lead => exact State.LeadWith.offerDecision (h.putLead lead (by rfl)) d
  · exact h

theorem State.LeadWith.actOnStatus (h : s.LeadWith x P) (slot : Option (BitVec 2)) (o : IssueStatus) :
    (s.actOnStatus x slot o).LeadWith x P := (actOnStatus_onlyQueries s x slot o).leadWith h

theorem State.LeadWith.finalEvaluation (h : s.LeadWith x P) : (s.finalEvaluation x).LeadWith x P := by
  unfold State.finalEvaluation
  split
  · next r l lead =>
    split
    · split
      · exact h.offerFinal _
      · next e _ =>
        have asked : (if holdLimit e = 0 then s else s.actOnStatus x l.slot (s.issueStatusOf r)).LeadWith x P := by
          split
          · exact h
          · exact h.actOnStatus _ _
        dsimp only
        split
        · exact asked.offerFinal _
        · unfold State.holdRecord
          split
          · next lead' => exact asked.putLead lead' rfl
          · exact asked
    · exact h
  · exact h

theorem State.LeadWith.reEvaluateHeld (h : s.LeadWith x P) (answer : Option IssueStatus) : (s.reEvaluateHeld x answer).LeadWith x P := by
  unfold State.reEvaluateHeld
  split
  · split
    · dsimp only
      split
      · exact h.actOnStatus _ _
      · split
        · exact (h.actOnStatus _ _).offerFinal _
        · exact h.actOnStatus _ _
    · exact h
    · exact h
  · exact h

theorem State.LeadWith.provisionalCheck (h : s.LeadWith x P) : (s.provisionalCheck x).LeadWith x P := by
  unfold State.provisionalCheck
  split
  · next lead =>
    split
    · split
      · split
        · exact State.LeadWith.offerDecision (h.putLead lead (by rfl)) _
        · exact h
      · exact h
    · exact h
  · exact h

/-- An added sample restarts the quiet timer; the judgements that follow leave it (R145). -/
theorem sampleAdded_leadWith (lead : s.lead? x = some (r, l)) (holds : P r.face (some (ms s.sys.cfg.quiet))) (before : Nat) :
    (s.sampleAdded x before).LeadWith x P := by
  have restarted : (s.putLead r { l with quiet := some (ms s.sys.cfg.quiet) }).LeadWith x P := leadWith_putLead lead holds
  simp only [State.sampleAdded, lead]
  cases stage : l.stage with
  | held _ _ _ _ => rw [stage] at restarted; exact restarted.reEvaluateHeld none
  | openStage | provisional =>
    rw [stage] at restarted
    dsimp only
    split
    · exact restarted.provisionalCheck.finalEvaluation
    · exact restarted.provisionalCheck

/-- A record whose list is stored anew, a number of samples counted lost. -/
theorem lead?_putSamples (lead : s.lead? x = some (r, l)) (r' : Record) (item : r'.item = r.item) (state : r'.state = r.state) (k : CounterName)
    (n : Nat) : ((s.putRecord r').count k n).lead? x = some (r', l) := by
  obtain ⟨record, leads⟩ := lead?_eq_some.1 lead
  have put := record?_putRecord (s := s) (r := r) (r' := r') (by rw [item]; simpa [record?_item record] using record) x
  rw [if_pos ((record?_item record).symm.trans item.symm)] at put
  refine lead?_eq_some.2 ⟨?_, state.trans leads⟩
  rw [State.record?, State.count_table]
  exact put

/-- The item's record leads, with a given mark. -/
def State.LeadMarked (s : State) (x : Item) (m : IssueMark) : Prop := s.LeadWith x fun r _ => r.mark = m

theorem State.LeadMarked.addHeard {m : IssueMark} (h : s.LeadMarked x m) (p : Sample) : (s.addHeard x p).LeadMarked x m := by
  obtain ⟨r, l, lead, mark⟩ := h
  obtain ⟨record, -⟩ := lead?_eq_some.1 lead
  simp only [State.addHeard, record]
  split
  · exact ⟨r, l, lead, mark⟩
  · have stored (ps : List Sample) (n : Nat) := lead?_putSamples lead { r with samples := ps } rfl rfl .samplesLost n
    simp only [State.addSample, record]
    split
    · exact sampleAdded_leadWith (stored _ _) mark _
    · exact ⟨_, _, stored _ _, mark⟩

theorem State.LeadMarked.addAllHeard {m : IssueMark} (h : s.LeadMarked x m) (ps : List Sample) : (s.addAllHeard x ps).LeadMarked x m := by
  induction ps generalizing s with
  | nil => exact h
  | cons p ps ih => exact ih (h.addHeard p)

theorem State.LeadMarked.takeMark {m : IssueMark} (h : s.LeadMarked x m) (m' : IssueMark) : (s.takeMark x m').LeadMarked x m' := by
  obtain ⟨r, l, lead, -⟩ := h
  obtain ⟨record, state⟩ := lead?_eq_some.1 lead
  obtain ⟨taken, stored⟩ := takeMark_known record m'
  rw [taken]
  exact ⟨_, l, lead?_eq_some.2 ⟨stored, state⟩, rfl⟩

end

/-! ### A decided LEAD record only keeps its list (R145) -/

section
variable {l : Lead}

theorem sampleAdded_decided (lead : s.lead? x = some (r, l)) (stage : l.stage = .openStage) (final : l.final ≠ none) (before : Nat) :
    s.sampleAdded x before = s.putLead r { l with quiet := some (ms s.sys.cfg.quiet) } := by
  obtain ⟨l', hl'⟩ : ∃ l' : Lead, l' = { l with quiet := some (ms s.sys.cfg.quiet) } := ⟨_, rfl⟩
  have stored := lead?_putLead (l' := l') lead
  have idle : (s.putLead r l').provisionalCheck x = s.putLead r l' :=
    provisionalCheck_idle stored (.inr ⟨by rw [hl']; exact stage, .inr (.inl (by rw [hl']; exact final))⟩)
  have judged : l'.undecided = false := Bool.eq_false_iff.2 fun undecided => by
    have none := (undecided_iff.1 undecided).1
    rw [hl'] at none
    exact final none
  have skips := finalEvaluation_skips stored judged
  simp only [State.sampleAdded, lead, stage]
  rw [← show l' = { l with stage := .openStage, quiet := some (ms s.sys.cfg.quiet) } by rw [hl', ← stage], idle, skips, ite_self]

/-- The item's record leads, decided, with a given mark, in a state with a given line. -/
def State.DecidedLead (s : State) (x : Item) (m : IssueMark) (line : Line) : Prop :=
  s.line = line ∧ ∃ r l, s.lead? x = some (r, l) ∧ r.mark = m ∧ l.stage = .openStage ∧ l.final ≠ none

theorem State.DecidedLead.addHeard {m : IssueMark} {line : Line} (h : s.DecidedLead x m line) (p : Sample) :
    (s.addHeard x p).DecidedLead x m line := by
  obtain ⟨hline, r, l, lead, mark, stage, final⟩ := h
  obtain ⟨record, state⟩ := lead?_eq_some.1 lead
  simp only [State.addHeard, record]
  split
  · exact ⟨hline, r, l, lead, mark, stage, final⟩
  · obtain ⟨o, ho⟩ : ∃ o, o = offerToList s.sys.cfg.noiseFloor s.time.clock p r.samples := ⟨_, rfl⟩
    obtain ⟨u, hu⟩ : ∃ u, u = (s.putRecord { r with samples := o.samples }).count .samplesLost o.lost := ⟨_, rfl⟩
    have lineU : u.line = line := by rw [hu, State.count_line]; exact hline
    have stored : u.lead? x = some ({ r with samples := o.samples }, l) := by
      rw [hu]
      exact lead?_putSamples lead { r with samples := o.samples } rfl rfl .samplesLost o.lost
    simp only [State.addSample, record, ← ho, ← hu]
    split
    · dsimp only
      rw [sampleAdded_decided stored stage final]
      exact ⟨lineU, _, _, lead?_putLead stored, mark, stage, final⟩
    · exact ⟨lineU, _, _, stored, mark, stage, final⟩

theorem State.DecidedLead.addAllHeard {m : IssueMark} {line : Line} (h : s.DecidedLead x m line) (ps : List Sample) :
    (s.addAllHeard x ps).DecidedLead x m line := by
  induction ps generalizing s with
  | nil => exact h
  | cons p ps ih => exact ih (h.addHeard p)

/-- An offered SIGHT is queued, on its own or in another, or its owner waits (R75). -/
theorem offer_sightOffered {m : SightMsg} (item : m.item = x) (o : Owner) : (s.offer (some (.sight x)) o (.sight m)).1.SightOffered x := by
  unfold State.offer
  cases j : judgeOffer o (.sight m) s.line.queue with
  | into q left =>
    obtain ⟨rfl, -, f, hf, payload, -⟩ | ⟨g, n, m', same, payload, item', -, edited⟩ | ⟨_, _, _, e, -⟩ | ⟨_, _, _, e, -⟩ := judgeOffer_into j
    · exact .inl ⟨f, hf, m, payload, item⟩
    · obtain rfl := Payload.sight.inj same
      obtain ⟨⟨front, back, -, rfl⟩, -⟩ := edited
      exact .inl ⟨_, List.mem_append_right _ List.mem_cons_self, _, rfl, item'.trans item⟩
    · cases e
    · cases e
  | placed q d =>
    refine .inl ⟨QFrame.fresh o (.sight m), ?_, m, rfl, item⟩
    dsimp only
    rw [loseJoin_line]
    exact judgeOffer_placed_new j
  | refused =>
    refine .inr ?_
    dsimp only [State.enterWaiting]
    split
    · next waits => exact waits
    · simp

end

end

/-- A JOIN of a K16 of the row, up to the record it finds. -/
theorem heardJoin_run {s v : State} {a : Nat} {sender : Address} {stamp : Clock} {b : JoinBody} (hv : v = s.advance a)
    (hears : v.HearsK16 sender stamp) (some' : 1 ≤ b.samples.length) (few : b.samples.length ≤ 4) :
    exec (.heardJoin a sender b) s = .next ((v.setPhase (.idle 0)).heardJoin sender.toNat stamp b) := by
  have size : sizeAllowed (.joinBody b) = true := by simp [sizeAllowed, JoinBody.wellFormed, some', few]
  rw [exec_heardJoin, ← hv, takeFrame_k16 hears rfl size]

theorem heardSight_run {s v : State} {a : Nat} {sender : Address} {stamp : Clock} {b : SightBody} (hv : v = s.advance a)
    (hears : v.HearsK16 sender stamp) (few : b.samples.length ≤ 4) :
    exec (.heardSight a sender b) s = .next ((v.setPhase (.idle 0)).heardSight sender.toNat stamp b) := by
  have size : sizeAllowed (.sightBody b) = true := by simp [sizeAllowed, SightBody.wellFormed, few]
  rw [exec_heardSight, ← hv, takeFrame_k16 hears rfl size]

section
variable {s : State} {sender : Nat} {stamp : Clock} {b : JoinBody} {r : Record}

/-- A JOIN that names a possible lead, by the record it finds (R103). -/
theorem heardJoin_named (named : b.lead.toNat < s.sys.cfg.n) (other : b.lead.toNat ≠ sender) :
    (s.record? b.item = none → s.heardJoin sender stamp b = s.setDirectory (dirJoin b.item b.lead.toNat s.time.clock s.directory)) ∧
    (∀ r, s.record? b.item = some r →
      ((∃ w, r.state = .sole w) → s.heardJoin sender stamp b = (if b.lead.toNat = s.number then s else s.soleToJoint r b.lead.toNat).addAllHeard
        b.item (heardSamples sender stamp b.samples)) ∧
      (∀ l, r.state = .lead l → s.heardJoin sender stamp b = (if b.lead.toNat = s.number then s else s.contested r l b.lead.toNat false).addAllHeard
        b.item (heardSamples sender stamp b.samples)) ∧
      ((∃ y patience, r.state = .joint y patience) → s.heardJoin sender stamp b =
        s.addAllHeard b.item (heardSamples sender stamp b.samples)) ∧
      ((∃ d close, r.state = .closed d close) → s.heardJoin sender stamp b = s)) := by
  have admitted : ¬ (s.sys.cfg.n ≤ b.lead.toNat ∨ b.lead.toNat = sender) := by
    rintro (far | same)
    · omega
    · exact other same
  refine ⟨fun none => ?_, fun r record => ⟨fun ⟨w, sole⟩ => ?_, fun l lead => ?_, fun ⟨y, patience, joint⟩ => ?_, fun ⟨d, close, closed⟩ => ?_⟩⟩
  · simp only [State.heardJoin, if_neg admitted, none]
  · simp only [State.heardJoin, if_neg admitted, record, sole]
  · simp only [State.heardJoin, if_neg admitted, record, lead]
  · simp only [State.heardJoin, if_neg admitted, record, joint]
  · simp only [State.heardJoin, if_neg admitted, record, closed]

theorem Rejoined.grown {x : Item} {y : Nat} {patience : Timer} {t : State} (h : Rejoined x r y patience t) (ps : List Sample) :
    Rejoined x r y patience (t.addAllHeard x ps) := by
  obtain ⟨⟨r1, record, state, fields⟩⟩ := h
  obtain ⟨⟨qs, found⟩, -, -⟩ := addAllHeard_grew record (by rw [state]; rfl) ps
  exact ⟨⟨_, found, state, fields⟩⟩

end

/-- Settles O34. -/
theorem heardJoinIsTakenByTheRecord : Obligations.HeardJoinIsTakenByTheRecord := by
  intro s v a sender stamp b others hv hears some' few hothers
  rw [heardJoin_run hv hears some' few]
  obtain ⟨u, hu⟩ : ∃ u, u = v.setPhase (.idle 0) := ⟨_, rfl⟩
  have cfg : u.sys = v.sys ∧ u.time = v.time ∧ u.directory = v.directory := by rw [hu]; exact ⟨rfl, rfl, rfl⟩
  have records (x : Item) : u.record? x = v.record? x := by rw [hu]; rfl
  have patience : some u.patience = some ((v.sys.cfg.maxDwell + 2560) * 1000) := by rw [hu]; rfl
  rw [← hu]
  have byRecord (named : b.lead.toNat < v.sys.cfg.n) (other : b.lead.toNat ≠ sender.toNat) :=
    heardJoin_named (s := u) (stamp := stamp) (by rw [cfg.1]; exact named) other
  refine ⟨fun unnamed => ?_, fun r d close record closed => ?_, fun e named other none entry => ?_, fun named other none new => ?_,
    fun r waiting named other record sole foreign => ?_, fun r l named other record lead foreign => ⟨fun lower unsent => ?_,
      fun higher stage final => ?_⟩, fun r w named other record stays one room bounded fresh => ?_⟩
  · simp only [State.heardJoin]
    rw [if_pos (by rw [cfg.1]; exact unnamed)]
  · by_cases unnamed : v.sys.cfg.n ≤ b.lead.toNat ∨ b.lead.toNat = sender.toNat
    · simp only [State.heardJoin]
      rw [if_pos (by rw [cfg.1]; exact unnamed)]
    · rw [not_or, not_le] at unnamed
      rw [((byRecord unnamed.1 unnamed.2).2 r (by rw [records]; exact record)).2.2.2 ⟨d, close, closed⟩]
  · have known : dirEntry b.item v.directory = some e := entry
    rw [(byRecord named other).1 (by rw [records]; exact none), cfg.2.1, cfg.2.2, dirJoin, known]
    simp only [dirPut_known known, hothers]
  · have unknown : dirEntry b.item v.directory = Option.none := dirEntry_none_iff.2 (by rw [← hothers]; exact new)
    rw [(byRecord named other).1 (by rw [records]; exact none), cfg.2.1, cfg.2.2, dirJoin, unknown]
    simp only [dirPut_others, ← hothers, new, true_and]
  · have found : u.record? b.item = some r := by rw [records]; exact record
    rw [((byRecord named other).2 r found).1 ⟨waiting, sole⟩, if_neg (show ¬ b.lead.toNat = u.number by rw [State.number, cfg.1]; exact foreign)]
    obtain ⟨⟨r', record', state', -, -, mark, created⟩⟩ := (soleToJoint_rejoined found b.lead.toNat).1.grown (heardSamples sender.toNat stamp b.samples)
    exact ⟨_, r', rfl, record', by rw [state', patience], mark, created⟩
  · have found : u.record? b.item = some r := by rw [records]; exact record
    rw [((byRecord named other).2 r found).2.1 l lead, if_neg (show ¬ b.lead.toNat = u.number by rw [State.number, cfg.1]; exact foreign),
      State.contested, if_pos ⟨by rw [State.number, cfg.1]; exact lower, unsent⟩]
    obtain ⟨⟨r', record', state', -, -, mark, -⟩⟩ := (yieldLead_rejoined found l b.lead.toNat).grown (heardSamples sender.toNat stamp b.samples)
    exact ⟨_, r', rfl, record', by rw [state', patience], mark⟩
  · have found : u.record? b.item = some r := by rw [records]; exact record
    have keeps : ¬ (b.lead.toNat < u.number ∧ l.provSent = false) := by
      rw [State.number, cfg.1]
      rintro ⟨lower, unsent⟩
      rcases higher with higher | sent
      · omega
      · rw [unsent] at sent
        cases sent
    rw [((byRecord named other).2 r found).2.1 l lead, if_neg (show ¬ b.lead.toNat = u.number by rw [State.number, cfg.1]; exact foreign),
      State.contested, if_neg keeps, if_neg nofun]
    obtain ⟨w, hw⟩ : ∃ w, w = (u.offerRepeatSight r).1 := ⟨_, rfl⟩
    have item := record?_item found
    have offered : w.SightOffered b.item := by
      rw [hw, State.offerRepeatSight, item]
      exact offer_sightOffered (m := sightOf r false true []) item _
    obtain ⟨r1, l1, lead1, same, bare⟩ := (offer_onlyOffers u (some (.sight r.item)) (.record r.item) (.sight (sightOf r false true []))).lead
      (lead?_eq_some.2 ⟨found, lead⟩)
    simp only [Lead.mk.injEq] at same
    obtain ⟨stage1, -, -, -, -, -, final1, -⟩ := same
    have decided : w.DecidedLead b.item r.mark w.line :=
      ⟨rfl, r1, l1, by rw [hw]; exact lead1, (by have marks := congrArg Record.mark bare; exact marks), stage1.trans stage, by rw [final1]; exact final⟩
    obtain ⟨line, r', l', lead', mark, -⟩ := decided.addAllHeard (heardSamples sender.toNat stamp b.samples)
    obtain ⟨record', state'⟩ := lead?_eq_some.1 lead'
    refine ⟨_, r', l', by rw [hw], record', state', mark, ?_⟩
    rw [State.SightOffered, line]
    exact offered
  · have found : u.record? b.item = some r := by rw [records]; exact record
    have same : u.heardJoin sender.toNat stamp b = u.addAllHeard b.item (heardSamples sender.toNat stamp b.samples) := by
      obtain ⟨bySole, -, byJoint, -⟩ := (byRecord named other).2 r found
      obtain joint | ⟨sole, own⟩ := stays
      · exact byJoint joint
      · rw [bySole sole, if_pos (show b.lead.toNat = u.number by rw [State.number, cfg.1]; exact own)]
    have gathers : r.state.gathers = true := by
      obtain ⟨y, patience, joint⟩ | ⟨⟨waiting, sole⟩, -⟩ := stays
      · rw [joint]; rfl
      · rw [sole]; rfl
    have appended := addHeard_appends (p := heardSample sender.toNat stamp w) found room (by rw [hu]; exact bounded) fresh
    have put := record?_putRecord (s := u) (r := r) (r' := { r with samples := r.samples ++ [heardSample sender.toNat stamp w] })
      (by simpa [record?_item found] using found) b.item
    rw [if_pos (record?_item found).symm] at put
    rw [sampleAdded_unled (unled_of put gathers)] at appended
    rw [same, one, show heardSamples sender.toNat stamp [w] = [heardSample sender.toNat stamp w] from rfl]
    exact congrArg Host.Outcome.next appended

end Sys2Proof.Machine
end

section
/-! PROOFS. A heard SIGHT, by the record it finds (O32, O33). -/

namespace Sys2Proof.Machine

section
variable {s : State} {x : Item} {r : Record} {before behind : List QFrame} {f : QFrame} {m : SightMsg}

/-- A heard SIGHT, by the record it finds (R92, R101 to R103). -/
theorem heardSight_known {sender : Nat} {stamp : Clock} {b : SightBody} (record : s.record? b.item = some r) :
    ((∃ w, r.state = .sole w) → s.heardSight sender stamp b =
      ((s.soleToJoint r sender).takeMark b.item b.mark).addAllHeard b.item (heardSamples sender stamp b.samples)) ∧
    (∀ l, r.state = .lead l → s.heardSight sender stamp b =
      ((s.contested r l sender b.again).takeMark b.item b.mark).addAllHeard b.item (heardSamples sender stamp b.samples)) ∧
    ((∃ y patience, r.state = .joint y patience) → s.heardSight sender stamp b =
      ((s.rejoin r sender).takeMark b.item b.mark).addAllHeard b.item (heardSamples sender stamp b.samples)) ∧
    (∀ d close, r.state = .closed d close →
      s.heardSight sender stamp b = if s.decisionIntended b.item then s else (s.offerRepeatDecide b.item d).1) := by
  refine ⟨fun ⟨w, sole⟩ => ?_, fun l lead => ?_, fun ⟨y, patience, joint⟩ => ?_, fun d close closed => ?_⟩
  · simp only [State.heardSight, record, sole]
  · simp only [State.heardSight, record, lead]
  · simp only [State.heardSight, record, joint]
  · simp only [State.heardSight, record, closed]

/-- A record that took a new lead takes the SIGHT's mark and samples besides. -/
theorem Rejoined.marked {y : Nat} {patience : Timer} {t : State} (h : Rejoined x r y patience t) (mark : IssueMark) (ps : List Sample) :
    ∃ r', ((t.takeMark x mark).addAllHeard x ps).record? x = some r' ∧ r'.state = .joint y patience ∧ r'.mark = mark ∧ r'.code = r.code ∧
      r'.level = r.level ∧ r'.created = r.created := by
  obtain ⟨⟨r1, record, state, code, level, -, created⟩⟩ := h
  obtain ⟨⟨qs, found⟩, -, -⟩ := joint_takes record (by rw [state]; rfl) mark ps
  exact ⟨_, found, state, rfl, code, level, created⟩

theorem removeLoop_absent {ok : QFrame → Bool} (fuel : Nat) (absent : ∀ g ∈ s.line.queue, ok g = false) : State.removeLoop ok fuel s = s := by
  have none {q : List QFrame} (h : ∀ g ∈ q, ok g = false) : dropFirst ok q = none := by
    induction q with
    | nil => rfl
    | cons g gs ih =>
      rw [dropFirst, if_neg (by simp [h g List.mem_cons_self]), ih fun e he => h e (List.mem_cons_of_mem _ he)]
      rfl
  cases fuel with
  | zero => rfl
  | succ n =>
    unfold State.removeLoop
    rw [none absent]

/-- The queue in which a record's SIGHT is turned into a JOIN in its place (R80). -/
theorem askConversion_lone (queue : s.line.queue = before ++ f :: behind) (payload : f.payload = .sight m) (owner : f.owner = .record x)
    (still : f.underTx = false) (alone : ∀ g ∈ before ++ behind, isSight g = true → g.owner ≠ .record x) (lead : Nat) :
    (m.samples ≠ [] → s.askConversion x lead = s.setQueue (before ++
      { f with payload := .join { item := m.item, lead := lead, samples := m.samples }, asked := .none } :: behind)) ∧
    (m.samples = [] → s.line.waiting = [] → s.askConversion x lead = s.setQueue (before ++ behind)) := by
  have foreign : ∀ g ∈ before ++ behind, (ofRecord x g && isSight g) = false := fun g hg => by
    cases kind : isSight g with
    | false => simp
    | true => simpa [ofRecord] using alone g hg kind
  have same {q : List QFrame} (h : ∀ e ∈ q, e ∈ before ++ behind) : (q.map fun g => if (ofRecord x g && isSight g) = true then
      if g.underTx then { g with asked := .convert lead } else if sightEmpty g then g else convertFrame lead g else g) = q := by
    refine (List.map_congr_left (g := id) fun e he => ?_).trans (List.map_id q)
    rw [if_neg (by rw [foreign e (h e he)]; exact nofun)]
    rfl
  have mine : (ofRecord x f && isSight f) = true := by simp [ofRecord, owner, isSight, payload]
  have empty : sightEmpty f = m.samples.isEmpty := by simp only [sightEmpty, payload]
  have mapped : s.askConversion x lead = State.removeLoop (fun g => ofRecord x g && isSight g && sightEmpty g) queueSize (s.setQueue (before ++
      (if m.samples = [] then f else { f with payload := .join { item := m.item, lead := lead, samples := m.samples }, asked := .none }) ::
        behind)) := by
    have converted : (if (ofRecord x f && isSight f) = true then
        if f.underTx then { f with asked := .convert lead } else if sightEmpty f then f else convertFrame lead f else f) =
        if m.samples = [] then f else { f with payload := .join { item := m.item, lead := lead, samples := m.samples }, asked := .none } := by
      have join : convertFrame lead f = { f with payload := .join { item := m.item, lead := lead, samples := m.samples }, asked := .none } := by
        simp only [convertFrame, payload]
      rw [if_pos mine, if_neg (by rw [still]; exact nofun), empty, join]
      simp only [List.isEmpty_iff]
    rw [State.askConversion]
    dsimp only
    rw [queue, List.map_append, List.map_cons, same fun e he => List.mem_append_left _ he, same fun e he => List.mem_append_right _ he,
      converted]
  rw [mapped]
  refine ⟨fun carries => ?_, fun nothing unwaited => ?_⟩
  · rw [if_neg carries]
    refine removeLoop_absent _ fun g hg => ?_
    rcases List.mem_append.1 hg with front | back
    · rw [foreign g (List.mem_append_left _ front)]; rfl
    · rcases List.mem_cons.1 back with rfl | back
      · simp [isSight]
      · rw [foreign g (List.mem_append_right _ back)]; rfl
  · rw [if_pos nothing]
    exact removeLoop_lone (s := s.setQueue (before ++ f :: behind)) unwaited rfl (by rw [mine, empty, nothing]; rfl) still fun g hg => by
      rw [foreign g hg]; rfl

end

/-- Settles O33. -/
theorem heardSightAtADecidingRecord : Obligations.HeardSightAtADecidingRecord := by
  intro s v a sender stamp b r hv hears few record
  rw [heardSight_run hv hears few]
  obtain ⟨u, hu⟩ : ∃ u, u = v.setPhase (.idle 0) := ⟨_, rfl⟩
  have found : u.record? b.item = some r := by rw [hu]; exact record
  have item := record?_item found
  have number : u.number = v.sys.station.toNat := by rw [hu]; rfl
  have patience : some u.patience = some ((v.sys.cfg.maxDwell + 2560) * 1000) := by rw [hu]; rfl
  obtain ⟨-, byLead, byJoint, byClosed⟩ := heardSight_known (sender := sender.toNat) (stamp := stamp) (b := b) found
  rw [← hu]
  refine ⟨fun l lead lower unsent => ?_, fun l lead higher => ⟨fun again bare => ?_, fun first => ?_, fun w again one final stage room bounded fresh => ?_⟩,
    fun y old joint => ?_, fun d close closed room unlisted apart => ?_⟩
  · rw [byLead l lead, State.contested, if_pos ⟨by rw [number]; exact lower, unsent⟩]
    obtain ⟨r', record', state', mark, -⟩ := (yieldLead_rejoined found l sender.toNat).marked b.mark (heardSamples sender.toNat stamp b.samples)
    exact ⟨_, r', rfl, record', by rw [state', patience], mark⟩
  on_goal 4 =>
    rw [byJoint ⟨y, old, joint⟩]
    obtain ⟨r', record', state', mark, -⟩ := (rejoin_rejoined found sender.toNat).marked b.mark (heardSamples sender.toNat stamp b.samples)
    exact ⟨_, r', rfl, record', by rw [state', patience], mark⟩
  on_goal 4 =>
    have idle : u.decisionIntended b.item = false := by
      have none : u.line.queue.any (fun f => ofRecord b.item f && isDecision f) = false := List.any_eq_false.2 fun f hf => by
        rw [hu] at hf
        cases payload : f.payload with
        | decision n => simpa [ofRecord] using fun owned => absurd owned (apart f hf n payload).2
        | sight _ | join _ | claim _ | defer _ | release _ | query _ _ _ | report => simp [isDecision, payload]
      have unlisted' : WaitKey.decision b.item ∉ u.line.waiting := by rw [hu]; exact unlisted
      simp [State.decisionIntended, none, unlisted']
    have offered := offer_fresh (s := u) (k := .decision b.item) (o := .record b.item)
      (p := .decision { item := b.item, decision := d, again := true }) ⟨by
        intro g hg
        rw [hu] at hg
        cases kind : g.payload with
        | decision n => simpa [Payload.meets] using (apart g hg n kind).1
        | sight _ | join _ | claim _ | defer _ | release _ | query _ _ _ | report => rfl, by rw [hu]; exact room, nofun⟩
    have unwaited : v.line.waiting.filter (· ≠ .decision b.item) = v.line.waiting :=
      List.filter_eq_self.2 fun k hk => decide_eq_true fun same => unlisted (same ▸ hk)
    rw [byClosed d close closed, idle, if_neg nofun, State.offerRepeatDecide, offered, State.giveUp, hu]
    exact congrArg (fun ks => Host.Outcome.next (((v.setPhase (.idle 0)).setQueue (v.line.queue ++
      [QFrame.fresh (.record b.item) (.decision { item := b.item, decision := d, again := true })])).setWaiting ks)) unwaited
  all_goals
    have keeps : ¬ (sender.toNat < u.number ∧ l.provSent = false) := by
      rw [number]
      rintro ⟨lower, unsent⟩
      rcases higher with higher | sent
      · omega
      · rw [unsent] at sent
        cases sent
    rw [byLead l lead, State.contested, if_neg keeps]
  · rw [if_pos again, bare, (takeMark_known found b.mark).1]
    rfl
  · obtain ⟨w, hw⟩ : ∃ w, w = (u.offerRepeatSight r).1 := ⟨_, rfl⟩
    have offered : w.SightOffered b.item := by
      rw [hw, State.offerRepeatSight, item]
      exact offer_sightOffered (m := sightOf r false true []) item _
    have leads : w.LeadMarked b.item r.mark := by
      rw [hw]
      exact (offer_onlyOffers u (some (.sight r.item)) (.record r.item) (.sight (sightOf r false true []))).queryFree.leadWith
        ⟨r, l, lead?_eq_some.2 ⟨found, lead⟩, rfl⟩
    obtain ⟨r', l', lead', mark⟩ := (leads.takeMark b.mark).addAllHeard (heardSamples sender.toNat stamp b.samples)
    obtain ⟨record', state'⟩ := lead?_eq_some.1 lead'
    rw [if_neg (by rw [first]; exact nofun), ← hw]
    refine ⟨_, r', l', rfl, record', state', mark, fun bare => ?_⟩
    obtain ⟨r1, record1, state1⟩ : ∃ r1, w.record? b.item = some r1 ∧ r1.state = r.state := by
      have moved := offer_flagsMove (t := u) (some (.sight r.item)) (.record r.item) (.sight (sightOf r false true [])) b.item
      rw [found, Option.map_some, Option.map_eq_some_iff] at moved
      obtain ⟨r1, record1, same⟩ := moved
      exact ⟨r1, by rw [hw]; exact record1, by have states := congrArg Record.state same; exact states⟩
    obtain ⟨taken, stored⟩ := takeMark_known record1 b.mark
    rw [bare] at record' ⊢
    have same : r' = { r1 with mark := b.mark } := by
      rw [taken] at record'
      exact Option.some.inj (record'.symm.trans stored)
    rw [same] at state'
    refine ⟨RecState.lead.inj (state'.symm.trans (state1.trans lead)), ?_⟩
    rw [taken]
    exact offered
  · rw [if_pos again, (takeMark_known found b.mark).1, one]
    obtain ⟨r1, hr1⟩ : ∃ r1 : Record, r1 = { r with mark := b.mark } := ⟨_, rfl⟩
    obtain ⟨t, ht⟩ : ∃ t, t = u.putRecord r1 := ⟨_, rfl⟩
    have stored : t.record? b.item = some r1 := by rw [ht, hr1]; exact (takeMark_known found b.mark).2
    have appended := addHeard_appends (p := heardSample sender.toNat stamp w) stored (by rw [hr1]; exact room) (by rw [ht, hu]; exact bounded)
      (by rw [hr1]; exact fresh)
    obtain ⟨r2, hr2⟩ : ∃ r2 : Record, r2 = { r1 with samples := r1.samples ++ [heardSample sender.toNat stamp w] } := ⟨_, rfl⟩
    have leads : (t.putRecord r2).lead? b.item = some (r2, l) := by
      have item1 : r1.item = b.item := record?_item stored
      have put := record?_putRecord (s := t) (r := r1) (r' := r2) (by rw [hr2]; simpa [item1] using stored) b.item
      rw [if_pos (by rw [hr2]; exact item1.symm)] at put
      exact lead?_eq_some.2 ⟨put, by rw [hr2, hr1]; exact lead⟩
    rw [← hr2, sampleAdded_decided leads stage final, putLead_putRecord, ht, putRecord_putRecord _ _ _ (by rw [hr2])] at appended
    rw [← hr1, show heardSamples sender.toNat stamp [w] = [heardSample sender.toNat stamp w] from rfl, ← ht]
    refine congrArg Host.Outcome.next ((show t.addAllHeard b.item [heardSample sender.toNat stamp w] = t.addHeard b.item _ from rfl).trans ?_)
    rw [ht, appended, hr2, hr1, hu]
    rfl

/-- Settles O32. -/
theorem heardSightNamesTheLead : Obligations.HeardSightNamesTheLead := by
  intro s v a sender stamp b others hv hears few hothers
  rw [heardSight_run hv hears few]
  obtain ⟨u, hu⟩ : ∃ u, u = v.setPhase (.idle 0) := ⟨_, rfl⟩
  have records (x : Item) : u.record? x = v.record? x := by rw [hu]; rfl
  have patience : some u.patience = some ((v.sys.cfg.maxDwell + 2560) * 1000) := by rw [hu]; rfl
  rw [← hu]
  refine ⟨fun none => ?_, fun r waiting record sole => ?_, fun r waiting before f m behind record sole queue payload owner still alone sent => ?_⟩
  · have unknown : u.record? b.item = Option.none := by rw [records]; exact none
    simp only [State.heardSight, unknown, dirSight]
    rw [dirPut_others, hothers, hu]
    rfl
  all_goals
    have found : u.record? b.item = some r := by rw [records]; exact record
    have item := record?_item found
    have heard := (heardSight_known (sender := sender.toNat) (stamp := stamp) (b := b) found).1 ⟨waiting, sole⟩
    obtain ⟨joined, only⟩ := soleToJoint_rejoined found sender.toNat
    obtain ⟨⟨r1, record1, state1, code, level, -, created⟩⟩ := joined
    obtain ⟨⟨ps, grown⟩, line, directory⟩ := joint_takes record1 (by rw [state1]; rfl) b.mark (heardSamples sender.toNat stamp b.samples)
    rw [heard]
  · refine ⟨_, _, rfl, grown, state1.trans (by rw [patience]), rfl, code, level, created, ?_, ?_⟩
    · rw [directory, only.directory, hu]
      rfl
    · rw [line, only.phase, hu]
      rfl
  · obtain ⟨w, hw⟩ : ∃ w, w = (u.putRecState r (.joint sender.toNat (some u.patience))).giveUp (.sight b.item) := ⟨_, rfl⟩
    have queueW : w.line.queue = before ++ f :: behind := by rw [hw, hu]; exact queue
    obtain ⟨carrying, empty⟩ := askConversion_lone (s := w) queueW payload owner still alone sender.toNat
    have recordW : w.record? b.item = some { r with state := .joint sender.toNat (some u.patience) } := by
      rw [hw]
      exact record?_putRecState found _
    have becomes : u.soleToJoint r sender.toNat = (w.askConversion b.item sender.toNat).offerJoins b.item := by
      rw [State.soleToJoint, item, hw]
    have quiet (q : List QFrame) : (w.setQueue q).offerJoins b.item = w.setQueue q :=
      offerJoins_none (s := w.setQueue q) (r := { r with state := .joint sender.toNat (some u.patience) }) recordW (by
        rw [hw, hu]
        exact sent)
    refine ⟨_, rfl, fun carries => ?_, fun nothing unwaited => ?_⟩
    · rw [line, becomes, carrying carries, quiet]
      rfl
    · have unwaitedW : w.line.waiting = [] := by
        rw [hw, hu]
        exact List.filter_eq_nil_iff.2 fun k hk => by
          rw [show ((v.setPhase (.idle 0)).putRecState r (.joint sender.toNat (some (v.setPhase (.idle 0)).patience))).line.waiting = [] from unwaited] at hk
          cases hk
      rw [line, becomes, empty nothing unwaitedW, quiet]
      rfl

end Sys2Proof.Machine
end

section
/-! PROOFS. A SINGLE reply for an item with a record (R55, R93, R95). -/

namespace Sys2Proof.Machine

/-! ### The slot that hands a sample on -/

section
variable {v : State} {sd : Side} {k : CoilNumber} {w : Sweep} {r : Round} {reply : Reply}

/-- Handing a sample to the Passage Engine leaves the sweeps. -/
theorem sweeps_closed (W : PerSide Sweep) : Closed fun s => s.sweeps = W := by
  constructor
  case count => exact fun k n h => (State.count_sweeps _ k n).trans h
  all_goals (intros; assumption)

/-- A slot with a SINGLE reply within a round: the doze timer restarts, the sample is handed on, the next slot begins (R49, R55). -/
theorem slotSingle (hw : w = v.sweeps.get sd) (inRound : w.round = some r) (here : w.list[w.position]? = some k) (atEnd : r.slot = 0)
    (goesOn : r.stopping = false) (uncut : r.cut = false) (more : r.ended + 1 < r.q) :
    v.slotEnds sd (.single reply) = ((v.setSweep sd { w with mode := .active, doze := some (v.sys.cfg.dozeDelay * 1000000) }).localSample
      sd k reply).setSweep sd { w with mode := .active, doze := some (v.sys.cfg.dozeDelay * 1000000)
                                       round := some { r with ended := r.ended + 1, singles := r.singles + 1, slot := 500 } } := by
  obtain ⟨t, ht⟩ : ∃ t, t = (v.setSweep sd { w with mode := .active, doze := some (v.sys.cfg.dozeDelay * 1000000) }).localSample sd k reply :=
    ⟨_, rfl⟩
  have active : (v.activity sd).localSample sd k reply = t := by
    have delay : ms (v.sys.cfg.dozeDelay * 1000) = v.sys.cfg.dozeDelay * 1000000 := by simp only [ms]; omega
    rw [ht, State.activity, ← hw, delay]
  have sweep : t.sweeps.get sd = { w with mode := .active, doze := some (v.sys.cfg.dozeDelay * 1000000) } := by
    have kept := (sweeps_closed (v.sweeps.set sd { w with mode := .active, doze := some (v.sys.cfg.dozeDelay * 1000000) })).localSample
      (s := v.setSweep sd { w with mode := .active, doze := some (v.sys.cfg.dozeDelay * 1000000) }) sd k reply rfl
    rw [ht, kept, PerSide.get_set_self]
  rw [← ht]
  have within : ¬ r.q ≤ r.ended + 1 := Nat.not_le.2 more
  simp only [State.slotEnds, ← hw, inRound, Sweep.coilHere, here, atEnd, if_true, State.slotReply, active, State.afterSlot, Round.tally, goesOn,
    uncut, Bool.false_eq_true, if_false, if_neg within, sweep, slotTime]

end

/-! ### A list that takes a local sample (R93) -/

section
variable {floor : Nat} {now : Clock} {p b : Sample} {before behind ps : List Sample}

theorem weakestFrom_first (bi i : Nat) (rest : ∀ q ∈ ps, weaker floor now q b = false) : weakestFrom floor now b bi i ps = bi := by
  induction ps generalizing i with
  | nil => rfl
  | cons q qs ih =>
    rw [weakestFrom, if_neg (by rw [rest q List.mem_cons_self]; exact nofun)]
    exact ih (i + 1) fun q' hq' => rest q' (List.mem_cons_of_mem _ hq')

/-- The entry that gives way: weaker than all before it, and none behind it weaker. -/
theorem weakestFrom_of {c : Sample} (bi i : Nat) (least : weaker floor now b c = true) (front : ∀ q ∈ before, weaker floor now b q = true)
    (back : ∀ q ∈ behind, weaker floor now q b = false) :
    weakestFrom floor now c bi i (before ++ b :: behind) = i + before.length := by
  induction before generalizing c bi i with
  | nil =>
    rw [List.nil_append, weakestFrom, if_pos least, weakestFrom_first _ _ back]
    rfl
  | cons q qs ih =>
    have tail := fun q' hq' => front q' (List.mem_cons_of_mem _ hq')
    rw [List.cons_append, weakestFrom]
    split
    · rw [ih _ _ (front q List.mem_cons_self) tail, List.length_cons]; omega
    · rw [ih _ _ least tail, List.length_cons]; omega

theorem weakestIndex_of (front : ∀ q ∈ before, weaker floor now b q = true) (back : ∀ q ∈ behind, weaker floor now q b = false) :
    weakestIndex floor now (before ++ b :: behind) = before.length := by
  cases before with
  | nil => exact weakestFrom_first _ _ back
  | cons q qs =>
    rw [List.cons_append, weakestIndex, weakestFrom_of 0 1 (front q List.mem_cons_self) (fun q' hq' => front q' (List.mem_cons_of_mem _ hq')) back,
      List.length_cons]
    omega

/-- A full list (R93): the sample takes the place of the weakest entry, or is lost itself. -/
theorem offerToList_full (full : (before ++ b :: behind).length = listSize) (front : ∀ q ∈ before, weaker floor now b q = true)
    (back : ∀ q ∈ behind, weaker floor now q b = false) : offerToList floor now p (before ++ b :: behind) =
      if b.weight floor < p.weight floor then ⟨before ++ p :: behind, true, 1⟩ else ⟨before ++ b :: behind, false, 1⟩ := by
  have at' : (before ++ b :: behind)[before.length]? = some b := by simp
  have set' : (before ++ b :: behind).set before.length p = before ++ p :: behind := by simp
  rw [offerToList, if_neg (by omega), weakestIndex_of front back]
  simp only [at', set']

theorem offerToList_room (room : ps.length < listSize) : offerToList floor now p ps = ⟨ps ++ [p], true, 0⟩ := by
  rw [offerToList, if_pos room]

end

/-! ### A local sample at a record (R95) -/

section
variable {s E : State} {x : Item} {rec r1 : Record} {reply : Reply} {p : Sample} {L : List Sample} {n : Nat} {entered : Bool}

theorem marked_addSample (record : s.record? reply.item = some rec)
    (takes : offerToList s.sys.cfg.noiseFloor s.time.clock p rec.samples = ⟨L, entered, n⟩)
    (hr1 : r1 = { rec with mark := reply.mark, samples := L }) (hE : E = (s.putRecord r1).count .samplesLost n) :
    E.record? reply.item = some r1 ∧ (s.putRecord { rec with mark := reply.mark }).addSample reply.item p =
      if entered then (E.sampleAdded reply.item (dwellOf s.time.clock rec.samples), true) else (E, false) := by
  have item := record?_item record
  have mark := (takeMark_known record reply.mark).2
  have stored := record?_putRecord (s := s) (r := rec) (r' := r1) (by rw [hr1]; simpa [item] using record) reply.item
  rw [if_pos (by rw [hr1]; exact item.symm)] at stored
  refine ⟨by rw [hE, State.record?, State.count_table]; exact stored, ?_⟩
  have twice : ((s.putRecord { rec with mark := reply.mark }).putRecord r1).count .samplesLost n = E := by
    rw [putRecord_putRecord _ _ _ (by rw [hr1]), hE]
  simp only [State.addSample, mark]
  rw [show offerToList (s.putRecord { rec with mark := reply.mark }).sys.cfg.noiseFloor (s.putRecord { rec with mark := reply.mark }).time.clock p
    rec.samples = ⟨L, entered, n⟩ from takes]
  dsimp only
  rw [← hr1, twice]
  rfl

theorem localKnown_enters (record : s.record? reply.item = some rec)
    (takes : offerToList s.sys.cfg.noiseFloor s.time.clock p rec.samples = ⟨L, true, n⟩)
    (hr1 : r1 = { rec with mark := reply.mark, samples := L }) (hE : E = (s.putRecord r1).count .samplesLost n) :
    E.record? reply.item = some r1 ∧
    (rec.state = .sole true → s.localKnown rec reply p = E) ∧
    (rec.state = .sole false → s.localKnown rec reply p = (E.offerSight r1).1) ∧
    (∀ l, rec.state = .lead l → s.localKnown rec reply p = E.sampleAdded reply.item (dwellOf s.time.clock rec.samples)) ∧
    (∀ y patience, rec.state = .joint y patience → s.localKnown rec reply p = E.offerJoins reply.item) := by
  obtain ⟨stored, added⟩ := marked_addSample record takes hr1 hE
  rw [if_pos rfl] at added
  have unled (gathers : rec.state.gathers = true) : E.sampleAdded reply.item (dwellOf s.time.clock rec.samples) = E :=
    sampleAdded_unled (unled_of (r := r1) (ps := r1.samples) stored (by rw [hr1]; exact gathers)) _
  refine ⟨stored, fun sole => ?_, fun sole => ?_, fun l lead => ?_, fun y patience joint => ?_⟩
  · simp only [sole] at added
    simp only [State.localKnown, sole, added, Bool.true_eq_false, and_false, if_false]
    exact unled (by rw [sole]; rfl)
  · simp only [sole] at added
    simp only [State.localKnown, sole, added, and_self, if_true, unled (by rw [sole]; rfl), stored]
  · simp only [lead] at added
    simp only [State.localKnown, lead, added]
  · simp only [joint] at added
    simp only [State.localKnown, joint, added, if_true, unled (by rw [joint]; rfl)]

theorem localKnown_discards (record : s.record? reply.item = some rec)
    (takes : offerToList s.sys.cfg.noiseFloor s.time.clock p rec.samples = ⟨L, false, n⟩)
    (hr1 : r1 = { rec with mark := reply.mark, samples := L }) (hE : E = (s.putRecord r1).count .samplesLost n)
    (open' : ∀ d c, rec.state ≠ .closed d c) : s.localKnown rec reply p = E := by
  obtain ⟨-, added⟩ := marked_addSample record takes hr1 hE
  rw [if_neg nofun] at added
  cases state : rec.state with
  | closed d c => exact absurd state (open' d c)
  | sole _ | lead _ | joint _ _ =>
    simp only [state] at added
    simp only [State.localKnown, state, added, Bool.false_eq_true, false_and, if_false]

/-- A SOLE record's SIGHT, whatever the queue does with it: queued with the record as its owner, or waiting (R75, R97). -/
theorem offerSight_outcome (record : s.record? rec.item = some rec) :
    ∃ r', (s.offerSight rec).1.record? rec.item = some r' ∧ r'.mark = rec.mark ∧ r'.samples.length = rec.samples.length ∧
      (r'.state = .sole false ∧ (∃ f ∈ (s.offerSight rec).1.line.queue, ∃ m, f.payload = .sight m ∧ m.item = rec.item ∧
          f.owner = .record rec.item) ∨
        r'.state = .sole true ∧ (.sight rec.item) ∈ (s.offerSight rec).1.line.waiting) := by
  obtain ⟨cs, hcs⟩ : ∃ cs, cs = (s.unsentOwn rec).take frameSamples := ⟨_, rfl⟩
  obtain ⟨o, ho⟩ : ∃ o, o = s.offer (some (.sight rec.item)) (.record rec.item) (.sight (sightOf rec false false cs)) := ⟨_, rfl⟩
  have only : OnlyOffers s o.1 := by rw [ho]; exact offer_onlyOffers _ _ _ _
  obtain ⟨r0, record0, -⟩ := only.record_exists record
  have put (r' : Record) (item : r'.item = rec.item) : (o.1.putRecord r').record? rec.item = some r' := by
    have stored := record?_putRecord (s := o.1) (r := r0) (r' := r') (by rw [item]; exact record0) rec.item
    rwa [if_pos item.symm] at stored
  have offered : (o.2 = .refused ∧ (.sight rec.item) ∈ o.1.line.waiting) ∨ (o.2 ≠ .refused ∧ ∃ f ∈ o.1.line.queue, ∃ m, f.payload = .sight m ∧
      m.item = rec.item ∧ f.owner = .record rec.item) := by
    rw [ho]
    unfold State.offer
    cases j : judgeOffer (.record rec.item) (.sight (sightOf rec false false cs)) s.line.queue with
    | into q left =>
      refine .inr ⟨nofun, ?_⟩
      obtain ⟨rfl, -, f, hf, payload, owner, -⟩ | ⟨g, n, m', same, payload, item', -, edited⟩ | ⟨_, _, _, e, -⟩ | ⟨_, _, _, e, -⟩ := judgeOffer_into j
      · exact ⟨f, hf, _, payload, rfl, owner⟩
      · obtain rfl := Payload.sight.inj same
        obtain ⟨⟨front, back, -, rfl⟩, -⟩ := edited
        exact ⟨_, List.mem_append_right _ List.mem_cons_self, _, rfl, item', rfl⟩
      · cases e
      · cases e
    | placed q d =>
      refine .inr ⟨nofun, QFrame.fresh (.record rec.item) (.sight (sightOf rec false false cs)), ?_, _, rfl, rfl, rfl⟩
      dsimp only
      rw [loseJoin_line]
      exact judgeOffer_placed_new j
    | refused =>
      refine .inl ⟨rfl, ?_⟩
      dsimp only [State.enterWaiting]
      split
      · next waits => exact waits
      · simp
  unfold State.offerSight
  simp only [← hcs, ← ho]
  rcases offered with ⟨refused, waits⟩ | ⟨taken, queued⟩
  · rw [refused]
    exact ⟨_, put { rec with state := .sole true } rfl, rfl, rfl, .inr ⟨rfl, waits⟩⟩
  · cases result : o.2 with
    | refused => exact absurd result taken
    | taken | merged _ => exact ⟨_, put { rec with samples := _, state := .sole false } rfl, rfl, flagAll_length _ _ _ _ _, .inl ⟨rfl, queued⟩⟩

/-- A sample that enters, between the entries `pre` and `post` that stay, the counters becoming `report` (R93, R95, R97, R98). -/
theorem localSample_enters {sd : Side} {k : CoilNumber} {pre post : List Sample} {report : ReportUnit} (record : s.record? reply.item = some rec)
    (hp : p = s.sampleOf sd k reply)
    (takes : offerToList s.sys.cfg.noiseFloor s.time.clock p rec.samples = ⟨pre ++ p :: post, true, n⟩)
    (hr1 : r1 = { rec with mark := reply.mark, samples := pre ++ p :: post })
    (counted : (s.putRecord r1).count .samplesLost n = (s.putRecord r1).setReport report) :
    (rec.state = .sole true → s.localSample sd k reply = (s.putRecord r1).setReport report) ∧
    (rec.state = .sole false → s.NormalRoom → (∀ f ∈ s.line.queue, ∀ m, f.payload = .sight m → m.item ≠ reply.item) →
      (∀ q ∈ pre ++ post, q.station = s.number → q.flag ≠ .unsent) →
      s.localSample sd k reply = ((((s.putRecord { r1 with samples := pre ++ { p with flag := .queued } :: post }).setReport report).setQueue
        (s.line.queue ++ [QFrame.fresh (.record reply.item) (.sight { item := reply.item, code := rec.code, mark := reply.mark
                                                                      level := rec.level, takeover := false, again := false
                                                                      samples := [p.content] })])).giveUp (.sight reply.item))) ∧
    (rec.state = .sole false → ∃ r', (s.localSample sd k reply).record? reply.item = some r' ∧ r'.mark = reply.mark ∧
      r'.samples.length = (pre ++ p :: post).length ∧
      (r'.state = .sole false ∧ (∃ f ∈ (s.localSample sd k reply).line.queue, ∃ m, f.payload = .sight m ∧ m.item = reply.item ∧
          f.owner = .record reply.item) ∨
        r'.state = .sole true ∧ (.sight reply.item) ∈ (s.localSample sd k reply).line.waiting)) ∧
    (∀ l, rec.state = .lead l → (s.localSample sd k reply).LeadWith reply.item fun r q => r = r1.face ∧ q = some (ms s.sys.cfg.quiet)) ∧
    (∀ y patience, rec.state = .joint y patience → s.NormalRoom → (.join reply.item) ∉ s.line.waiting →
      (∀ f ∈ s.line.queue, ∀ m, f.payload = .join m → m.item ≠ reply.item) →
      (∀ q ∈ pre ++ post, q.station = s.number → q.flag ≠ .unsent) →
      s.localSample sd k reply = ((((s.putRecord { r1 with samples := pre ++ { p with flag := .queued } :: post }).setReport report).setQueue
        (s.line.queue ++ [QFrame.fresh (.record reply.item) (.join { item := reply.item, lead := y, samples := [p.content] })])).giveUp
          (.join reply.item))) := by
  obtain ⟨E, hE⟩ : ∃ E, E = (s.putRecord r1).setReport report := ⟨_, rfl⟩
  have item := record?_item record
  have item1 : r1.item = reply.item := by rw [hr1]; exact item
  have known : s.localSample sd k reply = s.localKnown rec reply p := by simp only [State.localSample, record, ← hp]
  obtain ⟨stored, waits, sights, leads, joins⟩ := localKnown_enters record takes hr1 (hE.trans counted.symm)
  have number : E.number = s.number := by rw [hE]; rfl
  have line : E.line = s.line := by rw [hE]; rfl
  have one (others : ∀ q ∈ pre ++ post, q.station = s.number → q.flag ≠ .unsent) : r1.OneUnsent E.number pre p post := by
    rw [number]
    exact ⟨by rw [hr1], by rw [hp]; rfl, by rw [hp]; rfl, others⟩
  have again (r' : Record) (same : r'.item = r1.item) : E.putRecord r' = (s.putRecord r').setReport report := by
    rw [hE]
    exact congrArg (fun t : State => t.setReport report) (putRecord_putRecord s r1 r' same)
  rw [known]
  refine ⟨fun sole => (waits sole).trans hE, fun sole room apart others => ?_, fun sole => ?_, fun l lead => ?_,
    fun y patience joint room unlisted apart others => ?_⟩
  · have message : sightOf r1 false false [p.content] = { item := reply.item, code := rec.code, mark := reply.mark, level := rec.level
                                                          takeover := false, again := false, samples := [p.content] } := by
      rw [sightOf, item1, hr1]
    have offered := offerSight_one (s := E) (one others) (by
      rw [line]
      exact takesFresh_of_room room (sight_apart (by rw [message]; exact apart)))
    rw [message, item1, line] at offered
    rw [sights sole, offered]
    have same : ({ r1 with samples := pre ++ { p with flag := .queued } :: post } : Record) =
        { r1 with samples := pre ++ { p with flag := .queued } :: post, state := .sole false } := by
      rw [← sole, hr1]
    have put := again { r1 with samples := pre ++ { p with flag := .queued } :: post, state := .sole false } rfl
    rw [same, ← put, ← item1]
    rfl
  · rw [sights sole]
    have outcome := offerSight_outcome (s := E) (rec := r1) (by rw [item1]; exact stored)
    rw [item1] at outcome
    obtain ⟨r', record', mark, length, queued⟩ := outcome
    exact ⟨r', record', mark.trans (by rw [hr1]), length.trans (by rw [hr1]), queued⟩
  · rw [leads l lead]
    exact sampleAdded_leadWith (l := l) (lead?_eq_some.2 ⟨stored, by rw [hr1]; exact lead⟩) ⟨rfl, by rw [hE]; rfl⟩ _
  · have offered := offerJoins_one (s := E) stored (show r1.state = .joint y patience by rw [hr1]; exact joint) (one others)
      (by rw [line]; exact unlisted) (by rw [line]; exact takesFresh_of_room room (join_apart apart))
    rw [joins y patience joint, offered, line]
    have put := again { r1 with samples := pre ++ { p with flag := .queued } :: post } rfl
    rw [← put]
    rfl

end

theorem weaker_front {floor : Nat} {now : Clock} {b q : Sample} (h : b.strength.toNat - floor < q.strength.toNat - floor ∨
    b.strength.toNat - floor = q.strength.toNat - floor ∧ (now - q.time).toNat < (now - b.time).toNat) : weaker floor now b q = true := by
  simp only [weaker, Sample.weight, weightOf, elapsedMs, Bool.or_eq_true, Bool.and_eq_true, beq_iff_eq]
  exact h.imp (fun less => decide_eq_true less) fun ⟨same, earlier⟩ => ⟨same, decide_eq_true earlier⟩

theorem weaker_back {floor : Nat} {now : Clock} {b q : Sample} (h : b.strength.toNat - floor < q.strength.toNat - floor ∨
    b.strength.toNat - floor = q.strength.toNat - floor ∧ (now - q.time).toNat ≤ (now - b.time).toNat) : weaker floor now q b = false := by
  simp only [weaker, Sample.weight, weightOf, elapsedMs]
  rw [Bool.eq_false_iff]
  intro less
  simp only [Bool.or_eq_true, Bool.and_eq_true, beq_iff_eq] at less
  rcases less with less | ⟨same, less⟩
  · have := of_decide_eq_true less
    omega
  · have := of_decide_eq_true less
    omega

/-- The samples of a record with the face of another, their flags aside. -/
theorem samples_of_face {r r' : Record} (face : r'.face = r.face) :
    r'.mark = r.mark ∧ r'.samples.map (fun q => { q with flag := SentFlag.sent }) = r.samples.map fun q => { q with flag := SentFlag.sent } := by
  have samples : r'.samples.map Sample.unflag = r.samples.map Sample.unflag := congrArg Record.samples face
  have sent := congrArg (List.map fun q : Sample => { q with flag := SentFlag.sent }) samples
  rw [List.map_map, List.map_map] at sent
  exact ⟨by have marks := congrArg Record.mark face; exact marks, sent⟩

/-- Settles O23. -/
theorem singleReplyForAKnownItemIsTaken : Obligations.SingleReplyForAKnownItemIsTaken := by
  intro s v u a sd k w r reply p rec hv hw inRound here atEnd goesOn uncut more record bounded hp hu
  obtain ⟨t, ht⟩ : ∃ t, t = v.setSweep sd { w with mode := .active, doze := some (v.sys.cfg.dozeDelay * 1000000) } := ⟨_, rfl⟩
  obtain ⟨W, hW⟩ : ∃ W : Sweep, W = { w with mode := .active, doze := some (v.sys.cfg.dozeDelay * 1000000)
                                             round := some { r with ended := r.ended + 1, singles := r.singles + 1, slot := 500 } } := ⟨_, rfl⟩
  have run : exec (.slotEnd a sd (.single reply)) s = .next ((t.localSample sd k reply).setSweep sd W) := by
    rw [exec_slotEnd, ← hv, slotSingle hw inRound here atEnd goesOn uncut more, ht, hW]
  have recordT : t.record? reply.item = some rec := by rw [ht]; exact record
  have sample : p = t.sampleOf sd k reply := by rw [hp, ht]; rfl
  have content : p.content = ⟨sd, k, reply.strength, v.time.clock⟩ := by rw [hp]; rfl
  have resume {x : State} (hx : x.sweeps = t.sweeps) : x.setSweep sd W = { x with sweeps := u.sweeps } := by
    rw [State.setSweep, hx, hu, ht, hW]
    cases sd <;> rfl
  rw [run]
  refine ⟨fun room => ?_, fun d c closed => ?_, fun before b behind weight report running full shape hweight front back hreport => ?_⟩
  · obtain ⟨r1, hr1⟩ : ∃ r1 : Record, r1 = { rec with mark := reply.mark, samples := rec.samples ++ [p] } := ⟨_, rfl⟩
    have counted : (t.putRecord r1).count .samplesLost 0 = (t.putRecord r1).setReport v.report := by
      rw [count_zero (by rw [ht]; exact bounded), ht]
      rfl
    obtain ⟨waits, sights, outcome, leads, joins⟩ := localSample_enters (pre := rec.samples) (post := []) recordT sample
      (offerToList_room room) hr1 counted
    refine ⟨fun sole => ?_, fun sole free apart others => ?_, fun sole => ?_, fun l lead => ?_, fun y patience joint free unlisted apart others => ?_⟩
    · rw [waits sole, resume (by rfl), hr1, ht, hu]
      rfl
    · rw [sights sole (by rw [ht]; exact free) (by rw [ht]; exact apart) (by rw [ht, List.append_nil]; exact others), resume (by rfl), hr1, content,
        ht, hu]
      rfl
    · obtain ⟨r', record', mark, length, queued⟩ := outcome sole
      exact ⟨_, r', rfl, record', mark, length.trans (by simp), queued⟩
    · obtain ⟨r', l', lead', face, quiet⟩ := leads l lead
      obtain ⟨record', state'⟩ := lead?_eq_some.1 lead'
      obtain ⟨mark, samples⟩ := samples_of_face face
      refine ⟨_, r', l', rfl, record', mark.trans (by rw [hr1]), state', quiet.trans (by rw [ht]; rfl), samples.trans (by rw [hr1])⟩
    · rw [joins y patience joint (by rw [ht]; exact free) (by rw [ht]; exact unlisted) (by rw [ht]; exact apart)
        (by rw [ht, List.append_nil]; exact others), resume (by rfl), hr1, content, ht, hu]
      rfl
  · have known : t.localSample sd k reply = t.putRecState rec (.closed d t.time.clock) := by
      simp only [State.localSample, recordT, State.localKnown, closed]
    rw [known, resume (by rfl), ht, hu]
    rfl
  · have weights (q : Sample) : weight q = q.strength.toNat - v.sys.cfg.noiseFloor := by rw [hweight]
    have noise : t.sys.cfg.noiseFloor = v.sys.cfg.noiseFloor := by rw [ht]; rfl
    have now : t.time.clock = v.time.clock := by rw [ht]; rfl
    have offered : offerToList t.sys.cfg.noiseFloor t.time.clock p rec.samples =
        if weight b < weight p then ⟨before ++ p :: behind, true, 1⟩ else ⟨before ++ b :: behind, false, 1⟩ := by
      rw [shape, weights, weights, noise, now]
      exact offerToList_full (by rw [← shape]; exact full) (fun q hq => weaker_front (by simpa only [weights] using front q hq))
        fun q hq => weaker_back (by simpa only [weights] using back q hq)
    have counted (r1 : Record) : (t.putRecord r1).count .samplesLost 1 = (t.putRecord r1).setReport report := by
      rw [State.count_running (s := t.putRecord r1) (by rw [ht]; exact running), hreport, ht]
      rfl
    refine ⟨fun lighter open' => ?_, ?_⟩
    · rw [if_neg (Nat.not_lt.2 lighter), ← shape] at offered
      have lost : t.localSample sd k reply = (t.putRecord { rec with mark := reply.mark }).setReport report := by
        have known := localKnown_discards recordT offered rfl (counted _).symm open'
        simp only [State.localSample, recordT, ← sample, known]
      rw [lost, resume (by rfl), ht, hu]
      rfl
    obtain ⟨r1, hr1⟩ : ∃ r1 : Record, r1 = { rec with mark := reply.mark, samples := before ++ p :: behind } := ⟨_, rfl⟩
    have enters (heavier : weight b < weight p) := localSample_enters recordT sample (by rw [if_pos heavier] at offered; exact offered) hr1 (counted r1)
    refine ⟨fun heavier sole => ?_, fun heavier sole free apart others => ?_, fun l heavier lead => ?_,
      fun y patience heavier joint free unlisted apart others => ?_⟩
    · rw [(enters heavier).1 sole, resume (by rfl), hr1, ht, hu]
      rfl
    · rw [(enters heavier).2.1 sole (by rw [ht]; exact free) (by rw [ht]; exact apart) (by rw [ht]; exact others), resume (by rfl), hr1, content,
        ht, hu]
      rfl
    · obtain ⟨r', l', lead', face, quiet⟩ := (enters heavier).2.2.2.1 l lead
      obtain ⟨record', state'⟩ := lead?_eq_some.1 lead'
      obtain ⟨mark, samples⟩ := samples_of_face face
      exact ⟨_, r', l', rfl, record', mark.trans (by rw [hr1]), state', quiet.trans (by rw [ht]; rfl), samples.trans (by rw [hr1])⟩
    · rw [(enters heavier).2.2.2.2 y patience joint (by rw [ht]; exact free) (by rw [ht]; exact unlisted) (by rw [ht]; exact apart)
        (by rw [ht]; exact others), resume (by rfl), hr1, content, ht, hu]
      rfl

end Sys2Proof.Machine
end

section
/-! PROOFS. A SINGLE reply for an item without a record (R55, R96 to R98). -/

namespace Sys2Proof.Machine

/-! ### Positions of the Passage Table (R96) -/

section
variable {T : List (Option Record)} {i : Nat} {now : Clock}

theorem freePosition_of (bound : i < T.length) (free : T[i]? = some none) (first : ∀ j, j < i → T[j]? ≠ some none) :
    freePosition T = some i := by
  rw [List.getElem?_eq_getElem bound] at free
  have found : T.findIdx Option.isNone = i := by
    refine (List.findIdx_eq bound).2 ⟨by rw [Option.some.inj free]; rfl, fun j hj => ?_⟩
    have used := first j hj
    rw [List.getElem?_eq_getElem (by omega)] at used
    rw [← Bool.not_eq_true, Option.isNone_iff_eq_none]
    exact fun none => used (congrArg some none)
  simp only [freePosition, found, bound, if_true]

theorem freePosition_full (full : ∀ e ∈ T, e ≠ none) : freePosition T = none := by
  have found : T.findIdx Option.isNone = T.length := by
    rw [List.findIdx_eq_length]
    intro e he
    rw [← Bool.not_eq_true, Option.isNone_iff_eq_none]
    exact full e he
  simp only [freePosition, found, lt_irrefl, if_false]

theorem freePosition_exists (free : none ∈ T) : ∃ i, freePosition T = some i := by
  have found : T.findIdx Option.isNone < T.length := List.findIdx_lt_length.2 ⟨none, free, rfl⟩
  exact ⟨T.findIdx Option.isNone, by simp only [freePosition, found, if_true]⟩

theorem oldestClosed_none (open' : ∀ e ∈ T, ∃ r, e = some r ∧ ∀ d c, r.state ≠ .closed d c) : oldestClosed now T = none := by
  induction T with
  | nil => rfl
  | cons e t ih =>
    obtain ⟨r, rfl, notClosed⟩ := open' e List.mem_cons_self
    simp only [oldestClosed, ih fun e' he' => open' e' (List.mem_cons_of_mem _ he')]

/-- What the search finds is as old as some CLOSED record. -/
theorem oldestClosed_age {n : Nat} (younger : ∀ r d c, some r ∈ T → r.state = .closed d c → elapsedMs now c ≤ n) {b : Record × Nat}
    (found : oldestClosed now T = some b) : b.2 ≤ n := by
  induction T generalizing b with
  | nil => cases found
  | cons e t ih =>
    have tail {o : Record × Nat} (rest : oldestClosed now t = some o) : o.2 ≤ n :=
      ih (fun r d c hr => younger r d c (List.mem_cons_of_mem _ hr)) rest
    cases e with
    | none => exact tail found
    | some r =>
      have head {d : Decision} {c : Clock} (closed : r.state = .closed d c) : elapsedMs now c ≤ n := younger r d c List.mem_cons_self closed
      cases rest : oldestClosed now t with
      | none =>
        simp only [oldestClosed, rest] at found
        split at found
        · next closed => cases found; exact head closed
        · cases found
      | some o =>
        simp only [oldestClosed, rest] at found
        split at found
        · next closed =>
          split at found <;> cases found
          · exact head closed
          · exact tail rest
        · cases found; exact tail rest

/-- The CLOSED record of the earliest close time, the lower-numbered position first (R96). -/
theorem oldestClosed_of {before behind : List (Option Record)} {r0 : Record} {d0 : Decision} {c0 : Clock} (closed : r0.state = .closed d0 c0)
    (front : ∀ r d c, some r ∈ before → r.state = .closed d c → elapsedMs now c < elapsedMs now c0)
    (back : ∀ r d c, some r ∈ behind → r.state = .closed d c → elapsedMs now c ≤ elapsedMs now c0) :
    oldestClosed now (before ++ some r0 :: behind) = some (r0, elapsedMs now c0) := by
  induction before with
  | nil =>
    rw [List.nil_append]
    cases rest : oldestClosed now behind with
    | none => simp only [oldestClosed, rest, closed]
    | some o => simp only [oldestClosed, rest, closed, oldestClosed_age back rest, if_true]
  | cons e t ih =>
    have rest := ih fun r d c hr => front r d c (List.mem_cons_of_mem _ hr)
    rw [List.cons_append]
    cases e with
    | none => simp only [oldestClosed, rest]
    | some r =>
      simp only [oldestClosed, rest]
      split
      · next closed' => rw [if_neg (Nat.not_le.2 (front r _ _ List.mem_cons_self closed'))]
      · rfl

/-- A record put at a free position leaves every other item's. -/
theorem findRecord_set_other {r : Record} {y : Item} (other : y ≠ r.item) (free : T[i]? = some none) :
    findRecord y (T.set i (some r)) = findRecord y T := by
  induction T generalizing i with
  | nil => rfl
  | cons e t ih =>
    cases i with
    | zero =>
      obtain rfl : e = none := by simpa using free
      simp only [List.set_cons_zero, findRecord, other.symm, if_false]
    | succ i =>
      have tail := ih (i := i) (by simpa using free)
      cases e with
      | none => simpa only [List.set_cons_succ, findRecord] using tail
      | some a => simp only [List.set_cons_succ, findRecord, tail]

theorem replaceRecord_created {r r' : Record} (new : findRecord r.item T = none) (item : r'.item = r.item) :
    replaceRecord r'.item (some r') (T.set i (some r)) = T.set i (some r') := by
  have untouched : T.map (fun e => if ofItem r'.item e then some r' else e) = T := by
    refine (List.map_congr_left fun e he => ?_).trans (List.map_id _)
    cases e with
    | none => rfl
    | some a =>
      have apart : a.item ≠ r'.item := fun same =>
        findRecord_eq_none.1 new (mem_tableItems.2 ⟨a, he, same.trans item⟩)
      simp [apart]
  rw [replaceRecord, List.map_set, untouched, ofItem_some, item]
  simp

end

/-! ### A local sample of a new item (R96 to R98) -/

section
variable {s t : State} {reply : Reply} {p : Sample} {i : Nat} {e : DirEntry} {r r' : Record} {T : List (Option Record)}

theorem putRecord_created (table : s.table = T.set i (some r)) (new : findRecord r.item T = none) (item : r'.item = r.item) :
    s.putRecord r' = s.setTable (T.set i (some r')) := by
  rw [State.putRecord, table, replaceRecord_created new item]

theorem localNew_sole (room : s.roomForRecord = some (t, i)) (unlisted : dirEntry reply.item s.directory = none) :
    s.localNew reply p =
      ((t.setTable (t.table.set i (some (newRecord s.time.clock reply p (.sole false))))).offerSight
        (newRecord s.time.clock reply p (.sole false))).1 := by
  simp only [State.localNew, room, unlisted]

theorem localNew_joint (room : s.roomForRecord = some (t, i)) (listed : dirEntry reply.item s.directory = some e) :
    s.localNew reply p =
      ((t.setTable (t.table.set i (some (newRecord s.time.clock reply p (.joint e.lead (some s.patience)))))).setDirectory
        (dirRemove reply.item t.directory)).offerJoins reply.item := by
  simp only [State.localNew, room, listed]

theorem roomForRecord_free (free : freePosition s.table = some i) : s.roomForRecord = some (s, i) := by
  simp only [State.roomForRecord, free]

/-- Room made by the oldest CLOSED record (R96). -/
theorem roomForRecord_closed {before behind : List (Option Record)} {d0 : Decision} {c0 : Clock} (full : ∀ e ∈ s.table, e ≠ none)
    (shape : s.table = before ++ some r :: behind) (closed : r.state = .closed d0 c0)
    (front : ∀ r1 d c, some r1 ∈ before → r1.state = .closed d c → elapsedMs s.time.clock c < elapsedMs s.time.clock c0)
    (back : ∀ r1 d c, some r1 ∈ behind → r1.state = .closed d c → elapsedMs s.time.clock c ≤ elapsedMs s.time.clock c0) :
    ∃ i, s.roomForRecord = some (s.freeRecord r.item, i) := by
  have emptied : none ∈ (s.freeRecord r.item).table := by
    show none ∈ replaceRecord r.item none s.table
    rw [replaceRecord, List.mem_map]
    exact ⟨some r, by rw [shape]; simp, by simp⟩
  obtain ⟨i, free⟩ := freePosition_exists emptied
  refine ⟨i, ?_⟩
  have oldest := oldestClosed_of closed front back
  rw [← shape] at oldest
  simp only [State.roomForRecord, freePosition_full full, oldest, free, Option.map_some]

theorem roomForRecord_none (held : ∀ e ∈ s.table, ∃ r, e = some r ∧ ∀ d c, r.state ≠ .closed d c) : s.roomForRecord = none := by
  have full : ∀ e ∈ s.table, e ≠ none := fun e he none => by
    obtain ⟨r, rfl, -⟩ := held e he
    cases none
  simp only [State.roomForRecord, freePosition_full full, oldestClosed_none held]

/-- A record that carries one sample, after offers. -/
theorem lone_of_bare (same : r'.bare = r.bare) (lone : r.samples = [p]) :
    r'.code = r.code ∧ r'.level = r.level ∧ r'.mark = r.mark ∧ r'.created = r.created ∧
      (∃ flag, r'.samples = [{ p with flag := flag }]) ∧ r'.state.bare = r.state.bare := by
  have samples : r'.samples.map (fun q => { q with flag := SentFlag.unsent }) = r.samples.map fun q => { q with flag := SentFlag.unsent } :=
    congrArg Record.samples same
  have code := congrArg Record.code same
  have level := congrArg Record.level same
  have mark := congrArg Record.mark same
  have created := congrArg Record.created same
  refine ⟨code, level, mark, created, ?_, congrArg Record.state same⟩
  rw [lone, List.map_cons, List.map_nil, List.map_eq_singleton_iff] at samples
  obtain ⟨q, only, face⟩ := samples
  refine ⟨q.flag, only.trans ?_⟩
  have whole := congrArg (fun p' : Sample => [{ p' with flag := q.flag }]) face
  exact whole

theorem sole_of_bare {waiting : Bool} {st : RecState} (same : st.bare = (RecState.sole waiting).bare) : ∃ waiting', st = .sole waiting' := by
  cases st with
  | sole w => exact ⟨w, rfl⟩
  | lead _ | joint _ _ | closed _ _ => cases same

theorem joint_of_bare {y : Nat} {patience : Timer} {st : RecState} (same : st.bare = (RecState.joint y patience).bare) : st = .joint y patience := by
  cases st with
  | joint _ _ => exact same
  | sole _ | lead _ | closed _ _ => cases same

/-- The record of a new item: SOLE, or JOINT to the directory entry's lead; its own offers leave the other items (R96). -/
theorem localNew_creates (room : s.roomForRecord = some (t, i)) (new : s.record? reply.item = none) :
    ∃ r', (s.localNew reply p).record? reply.item = some r' ∧ r'.code = reply.code ∧ r'.level = reply.level ∧ r'.mark = reply.mark ∧
      r'.created = s.time.clock ∧ (∃ flag, r'.samples = [{ p with flag := flag }]) ∧
      (dirEntry reply.item s.directory = none → ∃ waiting, r'.state = .sole waiting) ∧
      (∀ e, dirEntry reply.item s.directory = some e → r'.state = .joint e.lead (some s.patience)) ∧
      ∀ y, y ≠ reply.item → t.record? y = none → (s.localNew reply p).record? y = none := by
  obtain ⟨-, newT, position, -, -⟩ := closed_true.roomForRecord room new trivial
  cases listed : dirEntry reply.item s.directory with
  | none =>
    obtain ⟨r0, hr0⟩ : ∃ r0, r0 = newRecord s.time.clock reply p (.sole false) := ⟨_, rfl⟩
    have item : r0.item = reply.item := by rw [hr0]; rfl
    have stored : (t.setTable (t.table.set i (some r0))).record? r0.item = some r0 := findRecord_set (by rw [item]; exact newT) position
    have only := offerSight_onlyOffers stored (w := false) (by rw [hr0]; rfl)
    obtain ⟨r', record, same⟩ := only.record_exists stored
    obtain ⟨code, level, mark, created, samples, state⟩ := lone_of_bare (p := p) same (by rw [hr0]; rfl)
    rw [item] at record
    rw [localNew_sole room listed, ← hr0]
    refine ⟨r', record, code.trans (by rw [hr0]; rfl), level.trans (by rw [hr0]; rfl), mark.trans (by rw [hr0]; rfl),
      created.trans (by rw [hr0]; rfl), samples, fun _ => sole_of_bare (waiting := false) (state.trans (by rw [hr0]; rfl)), nofun,
      fun y other none => ?_⟩
    have kept := only.records y
    rw [show (t.setTable (t.table.set i (some r0))).record? y = t.record? y from
      findRecord_set_other (by rw [item]; exact other) position, none] at kept
    exact Option.map_eq_none_iff.1 kept
  | some e =>
    obtain ⟨r0, hr0⟩ : ∃ r0, r0 = newRecord s.time.clock reply p (.joint e.lead (some s.patience)) := ⟨_, rfl⟩
    have item : r0.item = reply.item := by rw [hr0]; rfl
    obtain ⟨D, hD⟩ : ∃ D, D = (t.setTable (t.table.set i (some r0))).setDirectory (dirRemove reply.item t.directory) := ⟨_, rfl⟩
    have stored : D.record? r0.item = some r0 := by
      rw [hD]
      exact findRecord_set (by rw [item]; exact newT) position
    have only := offerJoins_onlyOffers D reply.item
    obtain ⟨r', record, same⟩ := only.record_exists stored
    obtain ⟨code, level, mark, created, samples, state⟩ := lone_of_bare (p := p) same (by rw [hr0]; rfl)
    rw [item] at record
    rw [localNew_joint room listed, ← hr0, ← hD]
    refine ⟨r', record, code.trans (by rw [hr0]; rfl), level.trans (by rw [hr0]; rfl), mark.trans (by rw [hr0]; rfl),
      created.trans (by rw [hr0]; rfl), samples, nofun, fun e' same' => ?_, fun y other none => ?_⟩
    · cases same'
      exact joint_of_bare (state.trans (by rw [hr0]; rfl))
    have kept := only.records y
    rw [show D.record? y = t.record? y from by
      rw [hD]
      exact findRecord_set_other (by rw [item]; exact other) position, none] at kept
    exact Option.map_eq_none_iff.1 kept

/-- The whole state where the new record's one sample goes out as a SIGHT (R96, R97). -/
theorem localNew_sight (free : freePosition s.table = some i) (new : s.record? reply.item = none) (own : p.station = s.number)
    (unsent : p.flag = .unsent) (room : s.NormalRoom) (unlisted : dirEntry reply.item s.directory = none)
    (apart : ∀ f ∈ s.line.queue, ∀ m, f.payload = .sight m → m.item ≠ reply.item) :
    s.localNew reply p = ((s.setTable (s.table.set i (some
      (newRecord s.time.clock reply { p with flag := .queued } (.sole false))))).setQueue (s.line.queue ++
        [QFrame.fresh (.record reply.item) (.sight { item := reply.item, code := reply.code, mark := reply.mark, level := reply.level
                                                     takeover := false, again := false, samples := [p.content] })])).giveUp
          (.sight reply.item) := by
  obtain ⟨r0, hr0⟩ : ∃ r0, r0 = newRecord s.time.clock reply p (.sole false) := ⟨_, rfl⟩
  have item : r0.item = reply.item := by rw [hr0]; rfl
  have fresh : TakesFresh (.sight (sightOf r0 false false [p.content])) s.line.queue :=
    takesFresh_of_room room (sight_apart (m := sightOf r0 false false [p.content]) (by
      rw [show (sightOf r0 false false [p.content]).item = reply.item from item]
      exact apart))
  rw [localNew_sole (roomForRecord_free free) unlisted, ← hr0,
    offerSight_one (s := s.setTable (s.table.set i (some r0))) (pre := []) (post := []) (p := p) ⟨by rw [hr0]; rfl, own, unsent, nofun⟩ fresh]
  dsimp only
  rw [putRecord_created (T := s.table) (r := r0) (r' := { r0 with samples := [] ++ { p with flag := .queued } :: [], state := .sole false }) rfl (by rw [item]; exact new) rfl, hr0]
  rfl

/-- The whole state where the new record's one sample goes out as a JOIN (R96, R98). -/
theorem localNew_join (free : freePosition s.table = some i) (new : s.record? reply.item = none) (own : p.station = s.number)
    (unsent : p.flag = .unsent) (room : s.NormalRoom) (listed : dirEntry reply.item s.directory = some e)
    (unowed : .join reply.item ∉ s.line.waiting)
    (apart : ∀ f ∈ s.line.queue, ∀ m, f.payload = .join m → m.item ≠ reply.item) :
    s.localNew reply p = (((s.setTable (s.table.set i (some
      (newRecord s.time.clock reply { p with flag := .queued } (.joint e.lead (some s.patience)))))).setDirectory
        (dirRemove reply.item s.directory)).setQueue (s.line.queue ++
        [QFrame.fresh (.record reply.item) (.join { item := reply.item, lead := e.lead, samples := [p.content] })])).giveUp
          (.join reply.item) := by
  have position := freePosition_some free
  obtain ⟨r0, hr0⟩ : ∃ r0, r0 = newRecord s.time.clock reply p (.joint e.lead (some s.patience)) := ⟨_, rfl⟩
  have item : r0.item = reply.item := by rw [hr0]; rfl
  have stored : ((s.setTable (s.table.set i (some r0))).setDirectory (dirRemove reply.item s.directory)).record? reply.item = some r0 := by
    rw [← item]
    exact findRecord_set (by rw [item]; exact new) position
  rw [localNew_joint (roomForRecord_free free) listed, ← hr0,
    offerJoins_one (s := (s.setTable _).setDirectory _) (pre := []) (post := []) (p := p) stored
      (show r0.state = .joint e.lead (some s.patience) by rw [hr0]; rfl) ⟨by rw [hr0]; rfl, own, unsent, nofun⟩ unowed
      (takesFresh_of_room (s := (s.setTable _).setDirectory _) room (join_apart apart)),
    putRecord_created (T := s.table) (r := r0) (r' := { r0 with samples := [] ++ { p with flag := .queued } :: [] }) rfl (by rw [item]; exact new) rfl, hr0]
  rfl

/-- A full table, none CLOSED: the sample goes out as a JOIN without a record, or is lost (R96). -/
theorem localNew_unrecorded (held : ∀ e ∈ s.table, ∃ r, e = some r ∧ ∀ d c, r.state ≠ .closed d c) :
    (dirEntry reply.item s.directory = none → s.localNew reply p = s.count .samplesLost 1) ∧
    (∀ e, dirEntry reply.item s.directory = some e → s.NormalRoom →
      (∀ f ∈ s.line.queue, ∀ m, f.payload = .join m → m.item ≠ reply.item) →
      s.localNew reply p = s.setQueue (s.line.queue ++
        [QFrame.fresh .noRecord (.join { item := reply.item, lead := e.lead, samples := [p.content] })])) := by
  refine ⟨fun unlisted => by simp only [State.localNew, roomForRecord_none held, unlisted], fun e listed room apart => ?_⟩
  have judged : judgeOffer .noRecord (.join { item := reply.item, lead := e.lead, samples := [p.content] }) s.line.queue =
      .placed (s.line.queue ++ [QFrame.fresh .noRecord (.join { item := reply.item, lead := e.lead, samples := [p.content] })]) none :=
    judgeOffer_fresh (takesFresh_of_room room (join_apart apart))
  simp only [State.localNew, roomForRecord_none held, listed, State.offer, judged, State.loseJoin]
  rfl

end

/-- Settles O22. -/
theorem singleReplyForANewItemIsTaken : Obligations.SingleReplyForANewItemIsTaken := by
  intro s v u a sd k w r reply p hv hw inRound here atEnd goesOn uncut more new hp hu
  obtain ⟨t, ht⟩ : ∃ t, t = v.setSweep sd { w with mode := .active, doze := some (v.sys.cfg.dozeDelay * 1000000) } := ⟨_, rfl⟩
  obtain ⟨W, hW⟩ : ∃ W : Sweep, W = { w with mode := .active, doze := some (v.sys.cfg.dozeDelay * 1000000)
                                             round := some { r with ended := r.ended + 1, singles := r.singles + 1, slot := 500 } } := ⟨_, rfl⟩
  have newT : t.record? reply.item = none := by rw [ht]; exact new
  have sample : t.sampleOf sd k reply = p := by rw [hp, ht]; rfl
  have run : exec (.slotEnd a sd (.single reply)) s = .next ((t.localNew reply p).setSweep sd W) := by
    have handed : t.localSample sd k reply = t.localNew reply p := by simp only [State.localSample, newT, sample]
    rw [exec_slotEnd, ← hv, slotSingle hw inRound here atEnd goesOn uncut more, ← ht, ← hW, handed]
  have content : p.content = ⟨sd, k, reply.strength, v.time.clock⟩ := by rw [hp]; rfl
  have table : t.table = v.table := by rw [ht]; rfl
  have line : t.line = v.line := by rw [ht]; rfl
  have directory : t.directory = v.directory := by rw [ht]; rfl
  have clock : t.time.clock = v.time.clock := by rw [ht]; rfl
  have patience : t.patience = (v.sys.cfg.maxDwell + 2560) * 1000 := by rw [ht]; rfl
  have own : p.station = t.number := by rw [hp, ht]; rfl
  have unsent : p.flag = .unsent := by rw [hp]
  have unlisted (absent : ∀ e ∈ v.directory, e.item ≠ reply.item) : dirEntry reply.item t.directory = none := by
    rw [directory, dirEntry, List.find?_eq_none]
    simpa using absent
  have resume {x : State} (hx : x.sweeps = t.sweeps) : x.setSweep sd W = { x with sweeps := u.sweeps } := by
    rw [State.setSweep, hx, hu, ht, hW]
    cases sd <;> rfl
  rw [run]
  refine ⟨fun i bound free first room => ?_, fun before r0 d0 c0 behind full shape closed front back => ?_, fun held running => ?_⟩
  · have position : freePosition t.table = some i := by rw [table]; exact freePosition_of bound free first
    have roomT : t.NormalRoom := by rw [ht]; exact room
    refine ⟨fun absent apart => ?_, fun e listed unowed apart => ?_⟩
    · rw [localNew_sight position newT own unsent roomT (unlisted absent) (by rw [line]; exact apart), resume (by rfl), content, table, line,
        clock, ht, hu]
      rfl
    · rw [localNew_join position newT own unsent roomT (by rw [directory]; exact listed) (by rw [line]; exact unowed)
        (by rw [line]; exact apart), resume (by rfl), content, table, line, clock, directory, patience, dirRemove_eq, ht, hu]
      rfl
  · obtain ⟨i, room⟩ := roomForRecord_closed (s := t) (by rw [table]; exact full) (table.trans shape) closed (by rw [clock]; exact front)
      (by rw [clock]; exact back)
    obtain ⟨r', record, code, level, mark, created, samples, sole, joint, others⟩ := localNew_creates (p := p) room newT
    have apart : r0.item ≠ reply.item := fun same =>
      findRecord_eq_none.1 new (mem_tableItems.2 ⟨r0, by rw [shape]; simp, same⟩)
    rw [directory] at sole joint
    rw [patience] at joint
    exact ⟨_, r', rfl, others _ apart (freeRecord_record t r0.item).1, record, code, level, mark, created.trans clock, samples, sole, joint⟩
  · obtain ⟨lost, joins⟩ := localNew_unrecorded (s := t) (reply := reply) (p := p) (by rw [table]; exact held)
    refine ⟨fun absent => ?_, fun e listed room apart => ?_⟩
    · rw [lost (unlisted absent), State.count_running (s := t) (by rw [ht]; exact running), resume (by rfl), ht, hu]
      rfl
    · rw [joins e (by rw [directory]; exact listed) (by rw [ht]; exact room) (by rw [line]; exact apart), resume (by rfl), content, line, ht, hu]
      rfl

end Sys2Proof.Machine
end

section
/-! PROOFS. LEAD records as the query slots and their queued DECIDEs see them, and what every operation on frames leaves of that
(R80, R130 to R134, R153). -/

namespace Sys2Proof.Machine

/-! ### What is seen of a record that leads -/

def Stage.isHeld : Stage → Bool
  | .held _ _ _ _ => true
  | .openStage | .provisional => false

/-- What query slots and queued DECIDEs hang on: the query slot field, whether the record is HELD, whether it is decided, its position. -/
structure Gist where
  slot : Option (BitVec 2)
  held : Bool
  decided : Bool
  place : Nat

def Lead.gist (l : Lead) (place : Nat) : Gist := ⟨l.slot, l.stage.isHeld, l.final.isSome, place⟩

def RecState.gist (place : Nat) : RecState → Option Gist
  | .lead l => some (l.gist place)
  | .sole _ | .joint _ _ | .closed _ _ => none

/-- What is seen of the item's record in a table, if it leads. -/
def gistIn (t : List (Option Record)) (x : Item) : Option Gist := (findRecord x t).bind fun r => r.state.gist (t.findIdx (ofItem x))

/-- A decided record is in OPEN, and a final DECIDE that a record owes is that of a decided one (R153). -/
def Lead.Settled (l : Lead) : Prop :=
  (l.final ≠ none → l.stage = .openStage) ∧ ∀ d, l.owed = some d → Verdict.isFinal d.verdict = true → l.final ≠ none

/-- A DECIDE that is no repeat belongs to a LEAD record, decided if the DECIDE is a final one; or its record leads no longer and its removal
is held, while it is under transmission where `strict`. `W` tells which items lead and whether they are decided. -/
def Fit (W : Item → Option Bool) (strict : Bool) (f : QFrame) : Prop :=
  ∀ m x, f.payload = .decision m → m.again = false → f.owner = .record x → m.item = x ∧
    ((∃ b, W x = some b ∧ (Verdict.isFinal m.decision.verdict = true → b = true)) ∨
      W x = none ∧ (strict = true → f.underTx = true) ∧ f.asked = .remove)

/-- An offer of a DECIDE that is no repeat comes from a record that leads, decided if the DECIDE is a final one. -/
def OfferFits (W : Item → Option Bool) (o : Owner) (p : Payload) : Prop :=
  ∀ m x, p = .decision m → m.again = false → o = .record x → m.item = x ∧
    ∃ b, W x = some b ∧ (Verdict.isFinal m.decision.verdict = true → b = true)

/-- The leads of a table are seen as `P`, the query slots are `q`, what leads is settled, and the queued DECIDEs fit `W`. -/
structure Seen (P : Item → Option Gist) (q : Queries) (W : Item → Option Bool) (strict : Bool) (t : List (Option Record)) (qs : Queries)
    (line : List QFrame) : Prop where
  gist : gistIn t = P
  queries : qs = q
  leads : ∀ x r l, findRecord x t = some r → r.state = .lead l → l.Settled
  frames : ∀ f ∈ line, Fit W strict f

def State.Sees (P : Item → Option Gist) (q : Queries) (W : Item → Option Bool) (strict : Bool) (s : State) : Prop :=
  Seen P q W strict s.table s.queries s.line.queue

/-- Every record that leads is among those that DECIDEs may belong to. -/
def Within (P : Item → Option Gist) (W : Item → Option Bool) : Prop := ∀ x g, P x = some g → W x = some g.decided

section
variable {t : List (Option Record)} {x y : Item} {r r0 : Record} {l : Lead} {n : Nat}

theorem RecState.gist_unled {st : RecState} (unled : st.leads = false) : st.gist n = none := by
  cases st with
  | lead _ => cases unled
  | sole _ | joint _ _ | closed _ _ => rfl

theorem RecState.gist_eq_some {st : RecState} {g : Gist} : st.gist n = some g ↔ ∃ l, st = .lead l ∧ g = l.gist n := by
  cases st with
  | lead l => simp [RecState.gist, eq_comm]
  | sole _ | joint _ _ | closed _ _ => simp [RecState.gist]

theorem findIdx_replace (t : List (Option Record)) (r : Record) (y : Item) :
    (replaceRecord r.item (some r) t).findIdx (ofItem y) = t.findIdx (ofItem y) := by
  rw [replaceRecord, List.findIdx_map]
  exact congrArg (fun p => t.findIdx p) (funext fun e => ofItem_replaced y r.item rfl e)

/-- A record that is stored is seen, and the others as before. -/
theorem gistIn_replace (record : findRecord r.item t = some r0) (y : Item) : gistIn (replaceRecord r.item (some r) t) y =
    if y = r.item then r.state.gist (t.findIdx (ofItem r.item)) else gistIn t y := by
  rw [gistIn, findIdx_replace]
  split
  · next same =>
    rw [same, findRecord_replace_same rfl record]
    rfl
  · next other =>
    rw [findRecord_replace_of_ne other (fun _ e => by cases e; rfl)]
    rfl

theorem gistIn_found (record : findRecord x t = some r) : gistIn t x = r.state.gist (t.findIdx (ofItem x)) := by
  rw [gistIn, record]
  rfl

/-- A record is stored whose state is the old one, or leads no more than that. -/
theorem gistIn_same (record : findRecord r.item t = some r0) (state : r.state = r0.state ∨ r.state.leads = false ∧ r0.state.leads = false) :
    gistIn (replaceRecord r.item (some r) t) = gistIn t := by
  funext y
  rw [gistIn_replace record]
  split
  · next same =>
    rw [same, gistIn_found record]
    rcases state with e | ⟨after, before⟩
    · rw [e]
    · rw [RecState.gist_unled after, RecState.gist_unled before]
  · rfl

/-- No two records carry the same item. -/
theorem findRecord_of_mem (nodup : (tableItems t).Nodup) (mem : some r ∈ t) : findRecord r.item t = some r := by
  induction t with
  | nil => cases mem
  | cons e t ih =>
    cases e with
    | none =>
      have later : some r ∈ t := by simpa using mem
      exact ih nodup later
    | some a =>
      obtain ⟨first, rest⟩ := List.nodup_cons.1 (show (a.item :: tableItems t).Nodup from nodup)
      rcases List.mem_cons.1 mem with same | later
      · rw [← Option.some.inj same, findRecord, if_pos rfl]
      · have other : a.item ≠ r.item := fun same => first (mem_tableItems.2 ⟨r, later, same.symm⟩)
        rw [findRecord, if_neg other]
        exact ih rest later

/-- A record that does not lead leaves the table. -/
theorem gistIn_free (nodup : (tableItems t).Nodup) (mem : some r ∈ t) (unled : r.state.leads = false) :
    gistIn (replaceRecord r.item none t) = gistIn t := by
  funext y
  by_cases same : y = r.item
  · rw [same, gistIn, gistIn, findRecord_replace_none, findRecord_of_mem nodup mem]
    exact (RecState.gist_unled unled).symm
  · have places : (replaceRecord r.item none t).findIdx (ofItem y) = t.findIdx (ofItem y) := by
      rw [replaceRecord, List.findIdx_map]
      refine congrArg (fun p => t.findIdx p) (funext fun e => ?_)
      simp only [Function.comp]
      split
      · next mine =>
        cases e with
        | none => rfl
        | some a =>
          rw [ofItem_some, beq_iff_eq] at mine
          simp [mine, Ne.symm same]
      · rfl
    rw [gistIn, gistIn, findRecord_replace_of_ne same (fun _ e => by cases e), places]

/-- A record that does not lead is put in a FREE position. -/
theorem gistIn_create {i : Nat} (new : findRecord r.item t = none) (free : t[i]? = some none) (unled : r.state.leads = false) :
    gistIn (t.set i (some r)) = gistIn t := by
  funext y
  by_cases same : y = r.item
  · rw [same, gistIn, gistIn, findRecord_set new free, new]
    exact RecState.gist_unled unled
  · have places : (t.set i (some r)).findIdx (ofItem y) = t.findIdx (ofItem y) := by
      have items : (t.set i (some r)).map (ofItem y) = t.map (ofItem y) := by
        rw [List.map_set]
        refine List.ext_getElem? fun j => ?_
        rw [List.getElem?_set]
        split
        · next at' =>
          subst at'
          split
          · simp [List.getElem?_map, free, Ne.symm same]
          · next out => simp [List.getElem?_eq_none (Nat.not_lt.1 out)]
        · rfl
      have counted (u : List (Option Record)) : u.findIdx (ofItem y) = (u.map (ofItem y)).findIdx id := by
        rw [List.findIdx_map]
        rfl
      rw [counted, items, ← counted]
    rw [gistIn, gistIn, findRecord_set_other same free, places]

end

end Sys2Proof.Machine
end

section
/-! PROOFS. Offers, walks, removals and the other operations on frames keep what is seen of the leads (R75, R79, R80). -/

namespace Sys2Proof.Machine

/-! ### Frames -/

section
variable {W : Item → Option Bool} {strict : Bool} {o : Owner} {p : Payload} {q q' : List QFrame}

theorem fit_of_other {f : QFrame} (other : ∀ m, f.payload ≠ .decision m) : Fit W strict f := fun m _ payload => absurd payload (other m)

theorem offerFits_of_other (other : ∀ m, p ≠ .decision m) : OfferFits W o p := fun m _ payload => absurd payload (other m)

theorem OfferFits.fit (fits : OfferFits W o p) {f : QFrame} (payload : f.payload = p) (owner : f.owner = o) : Fit W strict f :=
  fun m x hm again hx => by
    obtain ⟨item, leads⟩ := fits m x (payload ▸ hm) again (owner ▸ hx)
    exact ⟨item, .inl leads⟩

theorem Edited.mem_new {f g h : QFrame} (e : Edited q q' f g) (new : h ∈ q') : h = g ∨ h ∈ q := by
  obtain ⟨⟨a, b, rfl, rfl⟩, -⟩ := e
  simp only [List.mem_append, List.mem_cons] at new ⊢
  tauto

theorem judgeOffer_into_fits {left : List OwnSample} (fits : OfferFits W o p) (old : ∀ f ∈ q, Fit W strict f)
    (j : judgeOffer o p q = .into q' left) : ∀ f ∈ q', Fit W strict f := by
  intro f hf
  obtain ⟨rfl, -⟩ | ⟨_, _, _, rfl, -, -, -, e⟩ | ⟨_, _, _, rfl, -, -, -, -, -, e⟩ | ⟨_, _, _, rfl, -, -, -, e⟩ := judgeOffer_into j
  · exact old f hf
  all_goals rcases e.mem_new hf with rfl | kept
  · exact fit_of_other nofun
  · exact old f kept
  · exact fit_of_other nofun
  · exact old f kept
  · exact fits.fit rfl rfl
  · exact old f kept

theorem judgeOffer_placed_fits {d : Option (JoinMsg × Owner)} (fits : OfferFits W o p) (old : ∀ f ∈ q, Fit W strict f)
    (j : judgeOffer o p q = .placed q' d) : ∀ f ∈ q', Fit W strict f := by
  intro f hf
  have placed : f = QFrame.fresh o p ∨ f ∈ q := by
    obtain ⟨-, -, ⟨-, rfl, -⟩ | ⟨a, g, b, m, -, -, rfl, rfl, -⟩⟩ := judgeOffer_placed j <;>
      simp only [List.mem_append, List.mem_cons, List.not_mem_nil, or_false] at hf ⊢ <;> tauto
  rcases placed with rfl | kept
  · exact fits.fit rfl rfl
  · exact old f kept

/-- A frame whose owner and payload change as a held removal, a conversion or the freeing of its record changes them. -/
theorem Fit.recast {f g : QFrame} (fit : Fit W strict f) (alike : Alike f g) (recast : Recast f g) : Fit W strict g := by
  intro m x hm again hx
  obtain ⟨payload, owner, asked⟩ := recast
  have same : g.payload = f.payload := by
    rcases payload with same | ⟨n, -, n', e⟩
    · exact same
    · rw [e] at hm; cases hm
  rw [same] at hm
  have own : f.owner = .record x := by
    rcases owner with same | ⟨-, e⟩
    · rw [← same]; exact hx
    · rw [e] at hx; cases hx
  obtain ⟨item, leads⟩ := fit m x hm again own
  refine ⟨item, leads.imp_right fun ⟨unled, sent, removal⟩ => ⟨unled, fun h => alike.underTx.trans (sent h), ?_⟩⟩
  rcases asked with same | remove | ⟨n, e⟩
  · exact same.trans removal
  · exact remove
  · rw [hm] at e; cases e

end

/-! ### Records -/

section
variable {P : Item → Option Gist} {q : Queries} {W : Item → Option Bool} {strict : Bool} {s : State}

theorem State.Sees.congr {t : State} (h : s.Sees P q W strict) (table : t.table = s.table) (queries : t.queries = s.queries)
    (queue : t.line.queue = s.line.queue) : t.Sees P q W strict := by
  rw [State.Sees, table, queries, queue]
  exact h

theorem State.Sees.setQueue {line : List QFrame} (h : s.Sees P q W strict) (frames : ∀ f ∈ line, Fit W strict f) :
    (s.setQueue line).Sees P q W strict := { h with frames := frames }

/-- A record is stored for one of its item. -/
theorem State.Sees.store {r r0 : Record} (record : s.record? r.item = some r0) (settled : ∀ l, r.state = .lead l → l.Settled)
    (h : s.Sees P q W strict) : (s.putRecord r).Sees (Function.update P r.item (r.state.gist (s.positionOf r.item))) q W strict where
  gist := by
    funext y
    rw [Function.update_apply, ← h.gist]
    exact gistIn_replace record y
  queries := h.queries
  leads x r' l found lead := by
    have stored := record?_putRecord record x
    rw [show (s.putRecord r).record? x = some r' from found] at stored
    split at stored
    · cases stored; exact settled l lead
    · exact h.leads x r' l stored.symm lead
  frames := h.frames

/-- A record is stored whose state is the old one, or leads no more than that. -/
theorem State.Sees.put {r r0 : Record} (record : s.record? r.item = some r0)
    (state : r.state = r0.state ∨ r.state.leads = false ∧ r0.state.leads = false) (h : s.Sees P q W strict) :
    (s.putRecord r).Sees P q W strict where
  gist := (gistIn_same record state).trans h.gist
  queries := h.queries
  leads := by
    refine (h.store record fun l lead => ?_).leads
    rcases state with same | ⟨unled, -⟩
    · exact h.leads _ r0 l record (same ▸ lead)
    · rw [lead] at unled; cases unled
  frames := h.frames

/-- A LEAD record is stored with a settled context that is seen as the old one. -/
theorem State.Sees.putLead {x : Item} {r : Record} {l l' : Lead} (lead : s.lead? x = some (r, l)) (settled : l'.Settled)
    (same : l'.slot = l.slot ∧ l'.stage.isHeld = l.stage.isHeld ∧ l'.final.isSome = l.final.isSome) (h : s.Sees P q W strict) :
    (s.putLead r l').Sees P q W strict := by
  obtain ⟨record, state⟩ := lead?_eq_some.1 lead
  obtain rfl := record?_item record
  have stored := h.store (r := { r with state := .lead l' }) record fun _ e => by cases e; exact settled
  have seen : (RecState.lead l').gist (s.positionOf r.item) = P r.item := by
    rw [← h.gist, gistIn_found record, state]
    simp [RecState.gist, Lead.gist, same, State.positionOf]
  rw [show ({ r with state := .lead l' } : Record).state = .lead l' from rfl, seen, Function.update_eq_self] at stored
  exact stored

theorem State.Sees.count (k : CounterName) (n : Nat) (h : s.Sees P q W strict) : (s.count k n).Sees P q W strict :=
  h.congr (State.count_table _ _ _) (State.count_queries _ _ _) (by rw [State.count_line])

theorem State.Sees.settleSamples (x : Item) (dest : SentFlag) (cs : List OwnSample) (h : s.Sees P q W strict) :
    (s.settleSamples x dest cs).Sees P q W strict := by
  unfold State.settleSamples
  split
  · next r record => exact h.put (r0 := r) (by simpa [record?_item record] using record) (.inl rfl)
  · exact h

theorem State.Sees.loseJoin (d : Option (JoinMsg × Owner)) (h : s.Sees P q W strict) : (s.loseJoin d).Sees P q W strict := by
  unfold State.loseJoin
  split
  · exact h
  · dsimp only
    split
    · exact (h.count _ _).settleSamples _ _ _
    · exact h.count _ _

theorem State.Sees.offer (key : Option WaitKey) {o : Owner} {p : Payload} (fits : OfferFits W o p) (h : s.Sees P q W strict) :
    (s.offer key o p).1.Sees P q W strict := by
  have taken {line : List QFrame} (frames : ∀ f ∈ line, Fit W strict f) : (s.setQueue line).Sees P q W strict := h.setQueue frames
  unfold State.offer
  cases j : judgeOffer o p s.line.queue with
  | into line left => cases key <;> exact taken (judgeOffer_into_fits fits h.frames j)
  | placed line d => cases key <;> exact State.Sees.loseJoin d (taken (judgeOffer_placed_fits fits h.frames j))
  | refused =>
    cases key with
    | none => exact h
    | some k =>
      dsimp only [State.enterWaiting]
      split <;> exact h

theorem State.Sees.seen {x : Item} {r : Record} {l : Lead} (h : s.Sees P q W strict) (lead : s.lead? x = some (r, l)) :
    P x = some (l.gist (s.positionOf x)) := by
  obtain ⟨record, state⟩ := lead?_eq_some.1 lead
  rw [← h.gist, gistIn_found record, state]
  rfl

theorem State.Sees.settled {x : Item} {r : Record} {l : Lead} (h : s.Sees P q W strict) (lead : s.lead? x = some (r, l)) : l.Settled := by
  obtain ⟨record, state⟩ := lead?_eq_some.1 lead
  exact h.leads x r l record state

theorem State.Sees.lead {x : Item} {g : Gist} (h : s.Sees P q W strict) (seen : P x = some g) :
    ∃ r l, s.lead? x = some (r, l) ∧ g = l.gist (s.positionOf x) := by
  rw [← h.gist] at seen
  obtain ⟨r, record, state⟩ := Option.bind_eq_some_iff.1 seen
  obtain ⟨l, lead, rfl⟩ := RecState.gist_eq_some.1 state
  exact ⟨r, l, lead?_eq_some.2 ⟨record, lead⟩, rfl⟩

/-- A LEAD record offers a DECIDE, a final one only where it is decided. -/
theorem State.Sees.offerDecision {x : Item} {r : Record} {l : Lead} {d : Decision} (within : Within P W) (lead : s.lead? x = some (r, l))
    (decided : Verdict.isFinal d.verdict = true → l.final ≠ none) (h : s.Sees P q W strict) : (s.offerDecision x d).1.Sees P q W strict := by
  have offered := h.offer (some (.decision x)) (o := .record x) (p := .decision ⟨x, d, false⟩) fun m y payload _ owner => by
    cases payload
    cases owner
    refine ⟨rfl, l.final.isSome, within x _ (h.seen lead), fun final => ?_⟩
    simpa [Option.isSome_iff_ne_none] using decided final
  obtain ⟨r', l', lead', same, -⟩ := (offer_onlyOffers s (some (.decision x)) (.record x) (.decision ⟨x, d, false⟩)).lead lead
  have sameFinal : l'.final = l.final := by
    have e := congrArg Lead.final same
    exact e
  have settled := offered.settled lead'
  unfold State.offerDecision
  simp only [lead']
  refine offered.putLead lead' ⟨settled.1, fun d' owed final => ?_⟩ ⟨rfl, rfl, rfl⟩
  split at owed
  · cases owed
    show l'.final ≠ none
    rw [sameFinal]
    exact decided final
  · cases owed

theorem RecState.unled_of_gathers {st : RecState} (gathers : st.gathers = true) : st.leads = false := by
  cases st with
  | lead _ => cases gathers
  | sole _ | joint _ _ | closed _ _ => rfl

/-- The offers of a walk. -/
theorem sees_walk (within : Within P W) : WalkKept (State.Sees P q W strict) where
  giveUp _ h := h
  offer _ _ _ other h := h.offer _ (offerFits_of_other fun m e => other (by rw [e]; rfl))
  put record before after h := h.put record (.inr ⟨RecState.unled_of_gathers after, RecState.unled_of_gathers before⟩)
  decision lead owed _ h := h.offerDecision within lead ((h.settled lead).2 _ owed)
  disown lead h := h.putLead lead ⟨(h.settled lead).1, nofun⟩ ⟨rfl, rfl, rfl⟩
  repeatDecide _ _ h := h.offer _ fun _ _ payload again => by cases payload; cases again
  request _ h := h

end

/-! ### Every operation on frames -/

/-- What the query slots and the queued DECIDEs hang on, at a sound queue and with no item twice. -/
def State.Tracks (P : Item → Option Gist) (q : Queries) (W : Item → Option Bool) (strict : Bool) (s : State) : Prop :=
  (s.QueueSound ∧ s.ItemsApart) ∧ s.Sees P q W strict

theorem base_kept : RecordsKept fun s => s.QueueSound ∧ s.ItemsApart :=
  (RecordsKept.of_closed queueSound_kept.toClosed).and (RecordsKept.of_closed itemsApart_kept.toClosed)

theorem tracks_frames {P : Item → Option Gist} {q : Queries} {W : Item → Option Bool} {strict : Bool} (within : Within P W) :
    FramesKept (State.Tracks P q W strict) where
  request r c h := ⟨base_kept.request r c h.1, h.2⟩
  giveUp key h := ⟨base_kept.giveUp key h.1, h.2⟩
  offer sized plain owner key h := ⟨base_kept.offer sized plain owner key h.1, h.2.offer _ (offerFits_of_other fun m e => by rw [e] at plain; cases plain)⟩
  put record length state h := ⟨base_kept.put record length state h.1, h.2.put record state⟩
  sounder u h := ⟨base_kept.sounder u h.1, h.2⟩
  hall u h := ⟨base_kept.hall u h.1, h.2⟩
  pins p h := ⟨base_kept.pins p h.1, h.2⟩
  phase p old new h := ⟨base_kept.phase p old new h.1, h.2⟩
  count k n h := ⟨base_kept.count k n h.1, h.2.count k n⟩
  carried h := ⟨base_kept.carried h.1, h.2⟩
  entry lead none h := ⟨base_kept.entry lead none h.1, h.2⟩
  refresh lead e h := ⟨base_kept.refresh lead e h.1, h.2⟩
  remove x h := ⟨base_kept.remove x h.1, h.2⟩
  notice st x h := ⟨base_kept.notice st x h.1, h.2⟩
  lamp sd l sound h := ⟨base_kept.lamp sd l sound h.1, h.2⟩
  dropWalk dropped h := ⟨base_kept.dropWalk dropped h.1,
    (sees_walk within).walk (h.2.setQueue fun f hf => h.2.frames f ((dropFirst_sublist dropped).subset hf))⟩
  recast alike recast h := ⟨base_kept.recast alike recast h.1, h.2.setQueue fun f hf => by
    obtain ⟨f0, hf0, rfl⟩ := List.mem_map.1 hf
    exact (h.2.frames f0 hf0).recast (alike f0) (recast f0)⟩
  putLead lead slot stage final owed h := ⟨base_kept.putLead lead slot stage final owed h.1,
    h.2.putLead lead (by rw [Lead.Settled, stage, final, owed]; exact h.2.settled lead) ⟨slot, by rw [stage], by rw [final]⟩⟩
  free {s r} mem unled h := by
    refine ⟨base_kept.free mem unled h.1, (gistIn_free h.1.2.1 mem unled).trans h.2.gist, h.2.queries, fun x r' l found lead => ?_, fun f hf => ?_⟩
    · by_cases same : x = r.item
      · rw [same] at found
        exact absurd ((freeRecord_record s r.item).1.symm.trans found) nofun
      · exact h.2.leads x r' l (((freeRecord_record s r.item).2 x same).symm.trans found) lead
    · obtain ⟨f0, hf0, rfl⟩ := List.mem_map.1 hf
      split
      · exact fun _ _ _ _ owner => by cases owner
      · exact h.2.frames f0 hf0
  create {s r i} new free length unled h := by
    refine ⟨base_kept.create new free length unled h.1, (gistIn_create new free unled).trans h.2.gist, h.2.queries, fun x r' l found lead => ?_,
      h.2.frames⟩
    have found' : findRecord x (s.table.set i (some r)) = some r' := found
    by_cases same : x = r.item
    · rw [same, findRecord_set new free] at found'
      cases found'
      rw [lead] at unled; cases unled
    · rw [findRecord_set_other same free] at found'
      exact h.2.leads x r' l found' lead
  repeatDecide x d h := ⟨base_kept.repeatDecide x d h.1, h.2.offer _ fun _ _ payload again => by cases payload; cases again⟩

end Sys2Proof.Machine
end

section
/-! PROOFS. Query slots and the slot-wait list, by what is seen of the leads (R130 to R134, R137, R138). -/

namespace Sys2Proof.Machine

/-! ### Slots that fit the leads -/

/-- Query slots and the slot-wait list serve HELD leads, each at most once. -/
structure SlotsFit (P : Item → Option Gist) (q : Queries) : Prop where
  used : ∀ k u, (q.slots.get k).use = some u → u.tag = queryTag k (q.slots.get k).seq ∧
    ∃ g, P u.item = some g ∧ g.slot = some k ∧ g.held = true ∧ u.position = g.place
  serves : ∀ x g k, P x = some g → g.slot = some k → ∃ u, (q.slots.get k).use = some u ∧ u.item = x
  nodup : q.wait.Nodup
  waits : ∀ x ∈ q.wait, ∃ g, P x = some g ∧ g.slot = none ∧ g.held = true

/-- The item's record, if it leads, has no slot and waits for none. -/
def Unasked (P : Item → Option Gist) (q : Queries) (x : Item) : Prop := x ∉ q.wait ∧ ∀ g, P x = some g → g.slot = none

/-- The view of the leads in which the slot field of the item's is `k`. -/
def slotted (P : Item → Option Gist) (x : Item) (k : Option (BitVec 2)) : Item → Option Gist :=
  Function.update P x ((P x).map fun g => { g with slot := k })

/-- Which items lead, and whether they are decided. -/
def finals (P : Item → Option Gist) (x : Item) : Option Bool := (P x).map Gist.decided

theorem isHeld_iff {st : Stage} : st.isHeld = true ↔ ∃ p q e left, st = .held p q e left := by
  cases st <;> simp [Stage.isHeld]

theorem gistIn_eq_some {s : State} {x : Item} {g : Gist} :
    gistIn s.table x = some g ↔ ∃ r l, s.lead? x = some (r, l) ∧ g = l.gist (s.positionOf x) := by
  rw [gistIn, Option.bind_eq_some_iff]
  constructor
  · rintro ⟨r, record, state⟩
    obtain ⟨l, lead, rfl⟩ := RecState.gist_eq_some.1 state
    exact ⟨r, l, lead?_eq_some.2 ⟨record, lead⟩, rfl⟩
  · rintro ⟨r, l, lead, rfl⟩
    obtain ⟨record, state⟩ := lead?_eq_some.1 lead
    exact ⟨r, record, by rw [state]; rfl⟩

/-- O56's statement of the slots, in terms of what is seen of the leads. -/
theorem querySlotsSound_iff {s : State} : s.QuerySlotsSound ↔ SlotsFit (gistIn s.table) s.queries := by
  constructor
  · rintro ⟨used, serves, nodup, waits⟩
    refine ⟨fun k u use => ?_, fun x g k seen slot => ?_, nodup, fun x hx => ?_⟩
    · obtain ⟨tag, r, l, p, q, e, left, lead, slot, held, place⟩ := used k u use
      exact ⟨tag, _, gistIn_eq_some.2 ⟨r, l, lead, rfl⟩, slot, isHeld_iff.2 ⟨p, q, e, left, held⟩, place⟩
    · obtain ⟨r, l, lead, rfl⟩ := gistIn_eq_some.1 seen
      exact serves x r l k lead slot
    · obtain ⟨r, l, p, q, e, left, lead, slot, held⟩ := waits x hx
      exact ⟨_, gistIn_eq_some.2 ⟨r, l, lead, rfl⟩, slot, isHeld_iff.2 ⟨p, q, e, left, held⟩⟩
  · rintro ⟨used, serves, nodup, waits⟩
    refine ⟨fun k u use => ?_, fun x r l k lead slot => ?_, nodup, fun x hx => ?_⟩
    · obtain ⟨tag, g, seen, slot, held, place⟩ := used k u use
      obtain ⟨r, l, lead, rfl⟩ := gistIn_eq_some.1 seen
      obtain ⟨p, q, e, left, held⟩ := isHeld_iff.1 held
      exact ⟨tag, r, l, p, q, e, left, lead, slot, held, place⟩
    · exact serves x _ k (gistIn_eq_some.2 ⟨r, l, lead, rfl⟩) slot
    · obtain ⟨g, seen, slot, held⟩ := waits x hx
      obtain ⟨r, l, lead, rfl⟩ := gistIn_eq_some.1 seen
      obtain ⟨p, q, e, left, held⟩ := isHeld_iff.1 held
      exact ⟨r, l, p, q, e, left, lead, slot, held⟩

section
variable {P : Item → Option Gist} {q : Queries} {x : Item} {k : BitVec 2} {u : SlotUse} {g : Gist} {o : Option Gist}

theorem slotted_self : slotted P x k x = (P x).map fun g => { g with slot := some k } := Function.update_self ..

theorem slotted_of_ne {y : Item} {j : Option (BitVec 2)} (other : y ≠ x) : slotted P x j y = P y := Function.update_of_ne other _ _

theorem slotted_none_self : slotted P x none x = (P x).map fun g => { g with slot := none } := Function.update_self ..

theorem finals_slotted (P : Item → Option Gist) (x : Item) (j : Option (BitVec 2)) : finals (slotted P x j) = finals P := by
  funext y
  by_cases same : y = x
  · subst same
    rw [finals, slotted, Function.update_self, finals]
    cases P y <;> rfl
  · rw [finals, slotted_of_ne same, finals]

theorem within_finals (P : Item → Option Gist) : Within P (finals P) := fun x g seen => by rw [finals, seen]; rfl

variable (fit : SlotsFit P q)
include fit

/-- A record that is not HELD has no slot and waits for none. -/
theorem SlotsFit.unasked (unheld : ∀ g, P x = some g → g.held = false) : Unasked P q x := by
  refine ⟨fun hx => ?_, fun g seen => ?_⟩
  · obtain ⟨g, seen, -, held⟩ := fit.waits x hx
    rw [unheld g seen] at held; cases held
  · cases slot : g.slot with
    | none => rfl
    | some k =>
      obtain ⟨u, use, rfl⟩ := fit.serves x g k seen slot
      obtain ⟨-, g', seen', -, held, -⟩ := fit.used k u use
      rw [unheld g' seen'] at held; cases held

/-- A record without a slot that waits for none may change, as long as it takes none. -/
theorem SlotsFit.alter (idle : Unasked P q x) (slotless : ∀ g, o = some g → g.slot = none) : SlotsFit (Function.update P x o) q where
  used k u use := by
    obtain ⟨tag, g, seen, slot, held, place⟩ := fit.used k u use
    have other : u.item ≠ x := fun same => by rw [same] at seen; rw [idle.2 g seen] at slot; cases slot
    exact ⟨tag, g, (Function.update_of_ne other _ _).trans seen, slot, held, place⟩
  serves y g k seen slot := by
    by_cases same : y = x
    · rw [same, Function.update_self] at seen
      rw [slotless g seen] at slot; cases slot
    · rw [Function.update_of_ne same] at seen
      exact fit.serves y g k seen slot
  nodup := fit.nodup
  waits y hy := by
    obtain ⟨g, seen, held⟩ := fit.waits y hy
    exact ⟨g, (Function.update_of_ne (fun same => idle.1 (by rw [← same]; exact hy)) _ _).trans seen, held⟩

/-- A slot is freed and its record's field cleared, or its record leads no more (R134). -/
theorem SlotsFit.free (use : (q.slots.get k).use = some u) (slotless : ∀ g, o = some g → g.slot = none) (seq : BitVec 2) :
    SlotsFit (Function.update P u.item o) { q with slots := q.slots.set k ⟨seq, none⟩ } := by
  obtain ⟨-, g, seen, slot, -, -⟩ := fit.used k u use
  refine ⟨fun j v use' => ?_, fun y g' j seen' slot' => ?_, fit.nodup, fun y hy => ?_⟩
  · by_cases same : j = k
    · rw [same, Quad.get_set_self] at use'; cases use'
    · rw [Quad.get_set_of_ne _ _ same] at use' ⊢
      obtain ⟨tag, g', seen', slot', held, place⟩ := fit.used j v use'
      have other : v.item ≠ u.item := fun e => by
        rw [e, seen] at seen'
        cases seen'
        exact same (Option.some.inj (slot'.symm.trans slot))
      exact ⟨tag, g', (Function.update_of_ne other _ _).trans seen', slot', held, place⟩
  · by_cases same : y = u.item
    · rw [same, Function.update_self] at seen'
      rw [slotless g' seen'] at slot'; cases slot'
    · rw [Function.update_of_ne same] at seen'
      obtain ⟨v, use', rfl⟩ := fit.serves y g' j seen' slot'
      have other : j ≠ k := fun e => by
        rw [e, use] at use'
        cases use'
        exact same rfl
      exact ⟨v, (congrArg QSlot.use (Quad.get_set_of_ne _ _ other)).trans use', rfl⟩
  · obtain ⟨g', seen', slot', held⟩ := fit.waits y hy
    have other : y ≠ u.item := fun e => by
      rw [e, seen] at seen'
      cases seen'
      rw [slot] at slot'; cases slot'
    exact ⟨g', (Function.update_of_ne other _ _).trans seen', slot', held⟩

/-- A FREE slot becomes WAITING for a HELD record (R131, R132). -/
theorem SlotsFit.give (free : (q.slots.get k).use = none) (idle : Unasked P q x) (slot : g.slot = some k) (held : g.held = true) :
    SlotsFit (Function.update P x (some g)) { q with slots := q.slots.set k { q.slots.get k with
      use := some ⟨x, g.place, queryTag k (q.slots.get k).seq⟩ } } := by
  refine ⟨fun j v use' => ?_, fun y g' j seen' slot' => ?_, fit.nodup, fun y hy => ?_⟩
  · by_cases same : j = k
    · rw [same, Quad.get_set_self] at use' ⊢
      cases use'
      exact ⟨rfl, g, Function.update_self .., slot, held, rfl⟩
    · rw [Quad.get_set_of_ne _ _ same] at use' ⊢
      obtain ⟨tag, g', seen', slot', held', place⟩ := fit.used j v use'
      have other : v.item ≠ x := fun e => by rw [e] at seen'; rw [idle.2 g' seen'] at slot'; cases slot'
      exact ⟨tag, g', (Function.update_of_ne other _ _).trans seen', slot', held', place⟩
  · by_cases same : y = x
    · rw [same, Function.update_self] at seen'
      cases seen'
      obtain rfl := Option.some.inj (slot.symm.trans slot')
      exact ⟨_, congrArg QSlot.use (Quad.get_set_self ..), same.symm⟩
    · rw [Function.update_of_ne same] at seen'
      obtain ⟨v, use', item⟩ := fit.serves y g' j seen' slot'
      have other : j ≠ k := fun e => by rw [e, free] at use'; cases use'
      exact ⟨v, (congrArg QSlot.use (Quad.get_set_of_ne _ _ other)).trans use', item⟩
  · obtain ⟨g', seen', slot', held'⟩ := fit.waits y hy
    exact ⟨g', (Function.update_of_ne (fun e => idle.1 (by rw [← e]; exact hy)) _ _).trans seen', slot', held'⟩

/-- Items leave the slot-wait list (R130, R137, R138). -/
theorem SlotsFit.unlist {ys : List Item} (fewer : ys.Sublist q.wait) : SlotsFit P { q with wait := ys } :=
  ⟨fit.used, fit.serves, fit.nodup.sublist fewer, fun y hy => fit.waits y (fewer.subset hy)⟩

/-- A HELD record joins the slot-wait list (R132). -/
theorem SlotsFit.enlist (idle : Unasked P q x) (slot : g.slot = none) (held : g.held = true) :
    SlotsFit (Function.update P x (some g)) { q with wait := q.wait ++ [x] } := by
  have altered := fit.alter (o := some g) idle fun _ e => by cases e; exact slot
  refine ⟨altered.used, altered.serves, ?_, fun y hy => ?_⟩
  · exact List.nodup_append'.2 ⟨fit.nodup, List.nodup_singleton _, by simpa [List.disjoint_singleton] using idle.1⟩
  · rcases List.mem_append.1 hy with old | new
    · exact altered.waits y old
    · rw [List.mem_singleton.1 new]
      exact ⟨g, Function.update_self .., slot, held⟩

end

/-! ### Operations on slots -/

/-- A sound state, its leads seen as `P` and its query slots being `q`. -/
def State.Tracked (P : Item → Option Gist) (q : Queries) (s : State) : Prop := s.Tracks P q (finals P) true

theorem tracked_frames (P : Item → Option Gist) (q : Queries) : FramesKept (State.Tracked P q) := tracks_frames (within_finals P)

section
variable {s : State} {P : Item → Option Gist} {q : Queries} {x : Item} {g : Gist}

theorem base_store {r r0 : Record} (record : s.record? r.item = some r0) (length : r.samples.length = r0.samples.length)
    (h : s.QueueSound ∧ s.ItemsApart) : (s.putRecord r).QueueSound ∧ (s.putRecord r).ItemsApart :=
  ⟨queueSound_kept.toClosed.putSame record length h.1, itemsApart_kept.toClosed.putSame record length h.2⟩

/-- A frame that fits, fits also where more is decided. -/
theorem Fit.mono {W W' : Item → Option Bool} {strict : Bool} {f : QFrame} (fit : Fit W strict f)
    (more : ∀ x b, W x = some b → ∃ b', W' x = some b' ∧ (b = true → b' = true)) (unled : ∀ x, W x = none → W' x = none) : Fit W' strict f := by
  intro m x payload again owner
  obtain ⟨item, ⟨b, seen, decided⟩ | ⟨gone, held⟩⟩ := fit m x payload again owner
  · obtain ⟨b', seen', mono⟩ := more x b seen
    exact ⟨item, .inl ⟨b', seen', fun final => mono (decided final)⟩⟩
  · exact ⟨item, .inr ⟨unled x gone, held⟩⟩

/-- A LEAD record is stored with another settled context, decided if it was. -/
theorem State.Tracked.putLead {r : Record} {l l' : Lead} (h : s.Tracked P q) (lead : s.lead? x = some (r, l)) (settled : l'.Settled)
    (decided : l.final.isSome = true → l'.final.isSome = true) :
    (s.putLead r l').Tracked (Function.update P x (some (l'.gist (s.positionOf x)))) q := by
  obtain ⟨record, state⟩ := lead?_eq_some.1 lead
  obtain rfl := record?_item record
  have seen := h.2.seen lead
  have stored := h.2.store (r := { r with state := .lead l' }) record fun _ e => by cases e; exact settled
  refine ⟨base_store (r := { r with state := .lead l' }) record rfl h.1, stored.gist, stored.queries, stored.leads, fun f hf => ?_⟩
  refine (h.2.frames f hf).mono (fun y b hb => ?_) fun y gone => ?_
  · by_cases same : y = r.item
    · subst same
      rw [finals, seen] at hb
      cases hb
      exact ⟨l'.final.isSome, by rw [finals, Function.update_self]; rfl, decided⟩
    · exact ⟨b, by rw [finals, Function.update_of_ne same]; exact hb, id⟩
  · have other : y ≠ r.item := fun same => by rw [same, finals, seen] at gone; cases gone
    rw [finals, Function.update_of_ne other]
    exact gone

theorem State.Tracked.setSlotField (h : s.Tracked P q) (x : Item) (k : Option (BitVec 2)) : (s.setSlotField x k).Tracked (slotted P x k) q := by
  unfold State.setSlotField
  split
  · next r l lead =>
    have settled := h.2.settled lead
    have stored := h.putLead (l' := { l with slot := k }) lead ⟨settled.1, settled.2⟩ id
    have same : slotted P x k = Function.update P x (some (({ l with slot := k } : Lead).gist (s.positionOf x))) := by
      rw [slotted, h.2.seen lead]
      rfl
    rw [same]
    exact stored
  · next unled =>
    have gone : P x = none := by
      by_contra led
      obtain ⟨g, seen⟩ := Option.ne_none_iff_exists'.1 led
      obtain ⟨r, l, lead, -⟩ := h.2.lead seen
      rw [unled] at lead; cases lead
    have same : slotted P x k = P := by rw [slotted, gone, Option.map_none, ← gone, Function.update_eq_self]
    rw [same]
    exact h

theorem State.Tracked.setQueries (h : s.Tracked P q) (q' : Queries) : (s.setQueries q').Tracked P q' :=
  ⟨⟨h.1.1, h.1.2⟩, { h.2 with queries := rfl }⟩

theorem State.Tracked.takeSlot (h : s.Tracked P q) (seen : P x = some g) (k : BitVec 2) : (s.takeSlot k x).Tracked (slotted P x (some k))
    { q with slots := q.slots.set k { q.slots.get k with use := some ⟨x, g.place, queryTag k (q.slots.get k).seq⟩ } } := by
  obtain ⟨r, l, lead, rfl⟩ := h.2.lead seen
  unfold State.takeSlot
  rw [h.2.queries]
  exact (tracked_frames _ _).offerQuery k ((h.setQueries _).setSlotField x (some k))

/-- A record gives its slot or its place in the slot-wait list up (R130, R134, R138): the oldest waiting record takes the slot at once. The
slots fit a view `P0` that differs from the leads at this record only, which may lead no longer. -/
theorem State.Tracked.endQuery {P0 : Item → Option Gist} (h : s.Tracked P q) (fit : SlotsFit P0 q) (seen : P0 x = some g)
    (off : ∀ y, y ≠ x → P y = P0 y) (own : P x = none ∨ P x = some g) :
    ∃ P' q', (s.endQuery x g.slot).Tracked P' q' ∧ SlotsFit P' q' ∧ Unasked P' q' x ∧ P' x = (P x).map (fun g => { g with slot := none }) ∧
      finals P' = finals P := by
  have cleared : slotted P x none = Function.update P0 x ((P x).map fun g => { g with slot := none }) := by
    funext y
    by_cases same : y = x
    · rw [same, slotted_none_self, Function.update_self]
    · rw [slotted_of_ne same, Function.update_of_ne same, off y same]
  have slotless : ∀ g', ((P x).map fun g => { g with slot := none }) = some g' → g'.slot = none := by
    intro g' e
    obtain ⟨_, -, rfl⟩ := Option.map_eq_some_iff.1 e
    rfl
  cases slot : g.slot with
  | none =>
    have idle : Unasked P0 { q with wait := q.wait.filter (· ≠ x) } x :=
      ⟨by simp, fun g' e => by rw [seen] at e; cases e; exact slot⟩
    have same : P x = (P x).map fun g => { g with slot := none } := by
      rcases own with e | e
      · rw [e]; rfl
      · rw [e, Option.map_some, ← slot]
    have view : P = Function.update P0 x ((P x).map fun g => { g with slot := none }) := by
      rw [← cleared, slotted, ← same, Function.update_eq_self]
    have fit' := (fit.unlist (q.wait.filter_sublist (p := (· ≠ x)))).alter (o := (P x).map fun g => { g with slot := none }) idle slotless
    rw [← view] at fit'
    refine ⟨P, _, ?_, fit', ⟨idle.1, fun g' e => slotless g' (same.symm.trans e)⟩, same, rfl⟩
    show (s.leaveSlotWait x).Tracked _ _
    rw [State.leaveSlotWait, h.2.queries]
    exact h.setQueries _
  | some k =>
    obtain ⟨u, use, item⟩ := fit.serves x g k seen slot
    have useS : (s.queries.slots.get k).use = some u := by rw [h.2.queries]; exact use
    have unserved : (s.unserved k u).Tracked (slotted P x none) q := by
      rw [← item]
      exact State.Tracked.setSlotField ((tracked_frames P q).askRemoval (ofSlot k) ((tracked_frames P q).giveUp (k := .query k) rfl h)) u.item none
    have freed := fit.free (o := (P x).map fun g => { g with slot := none }) use slotless ((q.slots.get k).seq + 1)
    rw [item, ← cleared] at freed
    show ∃ P' q', (s.freeSlot k).Tracked P' q' ∧ _
    cases waits : q.wait with
    | nil =>
      rw [freeSlot_idle useS (by rw [h.2.queries]; exact waits), h.2.queries]
      rw [waits] at freed
      exact ⟨_, _, unserved.setQueries _, freed, ⟨nofun, fun g' e => slotless g' (slotted_none_self.symm.trans e)⟩, slotted_none_self,
        finals_slotted _ _ _⟩
    | cons y ys =>
      obtain ⟨gy, seenY, slotY, heldY⟩ := fit.waits y (by rw [waits]; exact List.mem_cons_self)
      have other : y ≠ x := fun e => by rw [e, seen] at seenY; cases seenY; rw [slot] at slotY; cases slotY
      have unlisted : x ∉ ys := fun hx => by
        obtain ⟨g', e, slot', -⟩ := fit.waits x (by rw [waits]; exact List.mem_cons_of_mem _ hx)
        rw [seen] at e
        cases e
        rw [slot] at slot'; cases slot'
      have seenY' : slotted P x none y = some gy := by rw [slotted_of_ne other, off y other, seenY]
      have rest := freed.unlist (ys := ys) (by rw [waits]; exact List.sublist_cons_self y ys)
      have idle : Unasked (slotted P x none) { slots := q.slots.set k ⟨(q.slots.get k).seq + 1, none⟩, wait := ys } y := by
        refine ⟨?_, fun g' e => by rw [seenY'] at e; cases e; exact slotY⟩
        have nodup := fit.nodup
        rw [waits] at nodup
        exact (List.nodup_cons.1 nodup).1
      have given := rest.give (k := k) (g := { gy with slot := some k }) (by rw [Quad.get_set_self]) idle rfl heldY
      have view : slotted (slotted P x none) y (some k) = Function.update (slotted P x none) y (some { gy with slot := some k }) := by
        rw [slotted, seenY']
        rfl
      rw [freeSlot_handed useS (by rw [h.2.queries]; exact waits), h.2.queries]
      rw [← view] at given
      refine ⟨_, _, (unserved.setQueries _).takeSlot seenY' k, given, ⟨unlisted, fun g' e => ?_⟩, ?_, ?_⟩
      · rw [slotted_of_ne other.symm] at e
        exact slotless g' (slotted_none_self.symm.trans e)
      · rw [slotted_of_ne other.symm, slotted_none_self]
      · rw [finals_slotted, finals_slotted]

end

end Sys2Proof.Machine
end

section
/-! PROOFS. The operations on records keep the query slots and the queued DECIDEs sound (R80, R102, R104, R130 to R138, R145 to R156). -/

namespace Sys2Proof.Machine

/-! ### The invariant -/

/-- Query slots and slot-wait list serve HELD leads, each at most once, and queued DECIDEs are those of leads, at a sound queue. -/
def State.LeadsSound (s : State) : Prop := ∃ P q, SlotsFit P q ∧ s.Tracked P q

/-- Such a state in which the item's record, if it leads, has no slot and waits for none. -/
def State.LeadsIdle (x : Item) (s : State) : Prop := ∃ P q, SlotsFit P q ∧ s.Tracked P q ∧ Unasked P q x

theorem State.LeadsIdle.sound {s : State} {x : Item} (h : s.LeadsIdle x) : s.LeadsSound := by
  obtain ⟨P, q, fit, tracked, -⟩ := h
  exact ⟨P, q, fit, tracked⟩

/-- What every operation on frames keeps whatever is seen, it keeps. -/
theorem FramesKept.ofViews {A : (Item → Option Gist) → Queries → Prop} {I : (Item → Option Gist) → Queries → State → Prop}
    (K : ∀ P q, FramesKept (I P q)) : FramesKept fun s => ∃ P q, A P q ∧ I P q s where
  request r c := fun ⟨P, q, fit, h⟩ => ⟨P, q, fit, (K P q).request r c h⟩
  giveUp key := fun ⟨P, q, fit, h⟩ => ⟨P, q, fit, (K P q).giveUp key h⟩
  offer sized plain owner key := fun ⟨P, q, fit, h⟩ => ⟨P, q, fit, (K P q).offer sized plain owner key h⟩
  put record length state := fun ⟨P, q, fit, h⟩ => ⟨P, q, fit, (K P q).put record length state h⟩
  sounder u := fun ⟨P, q, fit, h⟩ => ⟨P, q, fit, (K P q).sounder u h⟩
  hall u := fun ⟨P, q, fit, h⟩ => ⟨P, q, fit, (K P q).hall u h⟩
  pins p := fun ⟨P, q, fit, h⟩ => ⟨P, q, fit, (K P q).pins p h⟩
  phase p old new := fun ⟨P, q, fit, h⟩ => ⟨P, q, fit, (K P q).phase p old new h⟩
  count k n := fun ⟨P, q, fit, h⟩ => ⟨P, q, fit, (K P q).count k n h⟩
  carried := fun ⟨P, q, fit, h⟩ => ⟨P, q, fit, (K P q).carried h⟩
  entry lead none := fun ⟨P, q, fit, h⟩ => ⟨P, q, fit, (K P q).entry lead none h⟩
  refresh lead e := fun ⟨P, q, fit, h⟩ => ⟨P, q, fit, (K P q).refresh lead e h⟩
  remove x := fun ⟨P, q, fit, h⟩ => ⟨P, q, fit, (K P q).remove x h⟩
  notice st x := fun ⟨P, q, fit, h⟩ => ⟨P, q, fit, (K P q).notice st x h⟩
  lamp sd l sound := fun ⟨P, q, fit, h⟩ => ⟨P, q, fit, (K P q).lamp sd l sound h⟩
  dropWalk dropped := fun ⟨P, q, fit, h⟩ => ⟨P, q, fit, (K P q).dropWalk dropped h⟩
  recast alike recast := fun ⟨P, q, fit, h⟩ => ⟨P, q, fit, (K P q).recast alike recast h⟩
  putLead lead slot stage final owed := fun ⟨P, q, fit, h⟩ => ⟨P, q, fit, (K P q).putLead lead slot stage final owed h⟩
  free mem unled := fun ⟨P, q, fit, h⟩ => ⟨P, q, fit, (K P q).free mem unled h⟩
  create new free length unled := fun ⟨P, q, fit, h⟩ => ⟨P, q, fit, (K P q).create new free length unled h⟩
  repeatDecide x d := fun ⟨P, q, fit, h⟩ => ⟨P, q, fit, (K P q).repeatDecide x d h⟩

theorem leadsSound_frames : FramesKept State.LeadsSound := .ofViews tracked_frames

/-! ### Records that have no slot and wait for none -/

section
variable {s : State} {x : Item} {r : Record} {l l' : Lead} {d : Decision} {P : Item → Option Gist} {q : Queries}

/-- A record that is not HELD has no slot and waits for none. -/
theorem State.LeadsSound.idle (h : s.LeadsSound) (unheld : ∀ r l, s.lead? x = some (r, l) → l.stage.isHeld = false) : s.LeadsIdle x := by
  obtain ⟨P, q, fit, tracked⟩ := h
  refine ⟨P, q, fit, tracked, fit.unasked fun g seen => ?_⟩
  obtain ⟨r, l, lead, rfl⟩ := tracked.2.lead seen
  exact unheld r l lead

theorem State.LeadsIdle.slot (h : s.LeadsIdle x) (lead : s.lead? x = some (r, l)) : l.slot = none := by
  obtain ⟨P, q, -, tracked, -, slotless⟩ := h
  exact slotless _ (tracked.2.seen lead)

theorem State.LeadsIdle.unlisted (h : s.LeadsIdle x) : x ∉ s.queries.wait := by
  obtain ⟨P, q, -, tracked, unlisted, -⟩ := h
  rw [tracked.2.queries]
  exact unlisted

theorem State.LeadsSound.settled (h : s.LeadsSound) (lead : s.lead? x = some (r, l)) : l.Settled := by
  obtain ⟨P, q, -, tracked⟩ := h
  exact tracked.2.settled lead

/-- Its context may change, as long as it takes no slot. -/
theorem State.LeadsIdle.putLead (h : s.LeadsIdle x) (lead : s.lead? x = some (r, l)) (settled : l'.Settled) (slot : l'.slot = l.slot)
    (decided : l.final.isSome = true → l'.final.isSome = true) : (s.putLead r l').LeadsIdle x := by
  have none := h.slot lead
  obtain ⟨P, q, fit, tracked, idle⟩ := h
  have slotless : ∀ g, some (l'.gist (s.positionOf x)) = some g → g.slot = Option.none := fun g e => by
    cases e
    exact slot.trans none
  exact ⟨_, q, fit.alter idle slotless, tracked.putLead lead settled decided, idle.1, fun g e => slotless g (by rwa [Function.update_self] at e)⟩

theorem State.Tracked.offerDecision (h : s.Tracked P q) (lead : s.lead? x = some (r, l))
    (decided : Verdict.isFinal d.verdict = true → l.final ≠ none) : (s.offerDecision x d).1.Tracked P q :=
  ⟨⟨queueSound_kept.toClosed.offerDecision x d h.1.1, itemsApart_kept.toClosed.offerDecision x d h.1.2⟩,
    h.2.offerDecision (within_finals P) lead decided⟩

theorem State.LeadsSound.offerDecision (h : s.LeadsSound) (lead : s.lead? x = some (r, l))
    (decided : Verdict.isFinal d.verdict = true → l.final ≠ none) : (s.offerDecision x d).1.LeadsSound := by
  obtain ⟨P, q, fit, tracked⟩ := h
  exact ⟨P, q, fit, tracked.offerDecision lead decided⟩

/-- A decision is offered (R153). -/
theorem State.LeadsIdle.offerFinal (h : s.LeadsIdle x) (d : Decision) : (s.offerFinal x d).LeadsSound := by
  unfold State.offerFinal
  split
  · next r l lead =>
    have decided := h.putLead (l' := { l with stage := .openStage, final := some d }) lead ⟨fun _ => rfl, fun _ _ _ => nofun⟩ rfl fun _ => rfl
    exact decided.sound.offerDecision (lead?_putLead lead) fun _ => nofun
  · exact h.sound

theorem Lead.Settled.undecided {st : Stage} (settled : l.Settled) (undecided : l.final = none) : ({ l with stage := st } : Lead).Settled :=
  ⟨fun decided => absurd undecided decided, settled.2⟩

/-- A record is put in HELD without a slot (R150). -/
theorem State.LeadsIdle.holdRecord (h : s.LeadsIdle x) (undecided : ∀ r l, s.lead? x = some (r, l) → l.final = none) (a : Nat) (b : Option Nat)
    (e : ClassEntry) : (s.holdRecord x a b e).LeadsSound := by
  unfold State.holdRecord
  split
  · next r l lead =>
    exact (h.putLead (l' := { l with stage := .held a b e (ms (holdLimit e)) }) lead ((h.sound.settled lead).undecided (undecided r l lead)) rfl id).sound
  · exact h.sound

/-! ### Slots -/

/-- A record gives its slot or its place in the slot-wait list up. -/
theorem State.LeadsSound.endQuery (h : s.LeadsSound) (lead : s.lead? x = some (r, l)) : (s.endQuery x l.slot).LeadsIdle x := by
  obtain ⟨P, q, fit, tracked⟩ := h
  have seen := tracked.2.seen lead
  obtain ⟨P', q', tracked', fit', idle, -⟩ := tracked.endQuery fit seen (fun _ _ => rfl) (.inr seen)
  exact ⟨P', q', fit', tracked', idle⟩

theorem State.LeadsSound.freeSlot (h : s.LeadsSound) (k : BitVec 2) : (s.freeSlot k).LeadsSound := by
  cases use : (s.queries.slots.get k).use with
  | none => simpa only [State.freeSlot, use] using h
  | some u =>
    obtain ⟨P, q, fit, tracked⟩ := id h
    obtain ⟨-, g, seen, slot, -⟩ := fit.used k u (by rw [← tracked.2.queries]; exact use)
    obtain ⟨r, l, lead, rfl⟩ := tracked.2.lead seen
    have ended := h.endQuery lead
    rw [show l.slot = some k from slot] at ended
    exact ended.sound

theorem freeSlot_free {k : BitVec 2} (free : q.freeSlot = some k) : (q.slots.get k).use = none := by
  have := List.find?_some free
  simpa using this

/-- A HELD record without a slot asks for one (R132). -/
theorem State.LeadsIdle.asks (h : s.LeadsIdle x) (lead : s.lead? x = some (r, l)) (held : l.stage.isHeld = true) :
    (s.actOnStatus x l.slot .ask).LeadsSound := by
  have slot := h.slot lead
  have unlisted := h.unlisted
  obtain ⟨P, q, fit, tracked, idle⟩ := h
  have seen := tracked.2.seen lead
  rw [State.actOnStatus, if_pos rfl, if_neg (by simp [slot, unlisted]), tracked.2.queries]
  split
  · next k free =>
    have given := fit.give (g := { l.gist (s.positionOf x) with slot := some k }) (freeSlot_free free) idle rfl held
    have view : slotted P x (some k) = Function.update P x (some { l.gist (s.positionOf x) with slot := some k }) := by
      rw [slotted, seen]
      rfl
    rw [← view] at given
    exact ⟨_, _, given, tracked.takeSlot seen k⟩
  · have listed := fit.enlist idle (g := l.gist (s.positionOf x)) slot held
    rw [← seen, Function.update_eq_self] at listed
    exact ⟨_, _, listed, tracked.setQueries _⟩

/-- A record that is not HELD yet asks for a slot and is put in HELD (R132, R150). -/
theorem State.LeadsIdle.asksAndHolds (h : s.LeadsIdle x) (lead : s.lead? x = some (r, l)) (undecided : l.final = none) (a : Nat)
    (b : Option Nat) (e : ClassEntry) : ((s.actOnStatus x l.slot .ask).holdRecord x a b e).LeadsSound := by
  have slot := h.slot lead
  have unlisted := h.unlisted
  obtain ⟨P, q, fit, tracked, idle⟩ := h
  have seen := tracked.2.seen lead
  rw [State.actOnStatus, if_pos rfl, if_neg (by simp [slot, unlisted]), tracked.2.queries]
  split
  · next k free =>
    have taken := tracked.takeSlot seen k
    obtain ⟨r1, l1, lead1, gist⟩ := taken.2.lead (x := x) (g := { l.gist (s.positionOf x) with slot := some k }) (by
      rw [slotted_self, seen]
      rfl)
    have slot1 : l1.slot = some k := (congrArg Gist.slot gist).symm
    have place : (s.takeSlot k x).positionOf x = s.positionOf x := (congrArg Gist.place gist).symm
    have undecided1 : l1.final = none := by
      have same : l1.final.isSome = l.final.isSome := (congrArg Gist.decided gist).symm
      simpa [undecided] using same
    obtain ⟨held, hheld⟩ : ∃ held, held = { l1 with stage := .held a b e (ms (holdLimit e)) } := ⟨_, rfl⟩
    have stored := taken.putLead (l' := held) lead1 (hheld ▸ (taken.2.settled lead1).undecided undecided1) (by rw [hheld]; exact id)
    have given := fit.give (g := held.gist (s.positionOf x)) (freeSlot_free free) idle (by rw [hheld]; exact slot1) (by rw [hheld]; rfl)
    rw [place, slotted, Function.update_idem] at stored
    simp only [State.holdRecord, lead1]
    rw [← hheld]
    exact ⟨_, _, given, stored⟩
  · obtain ⟨held, hheld⟩ : ∃ held, held = { l with stage := .held a b e (ms (holdLimit e)) } := ⟨_, rfl⟩
    have listed := fit.enlist idle (g := held.gist (s.positionOf x)) (by rw [hheld]; exact slot) (by rw [hheld]; rfl)
    have leadQ : (s.setQueries { q with wait := q.wait ++ [x] }).lead? x = some (r, l) := lead
    have stored := (tracked.setQueries { q with wait := q.wait ++ [x] }).putLead (l' := held) leadQ
      (hheld ▸ (tracked.2.settled lead).undecided undecided) (by rw [hheld]; exact id)
    simp only [State.holdRecord, leadQ]
    rw [← hheld]
    exact ⟨_, _, listed, stored⟩

/-- What is done with a status at a HELD record (R130, R132). -/
theorem State.LeadsSound.actOnStatus (h : s.LeadsSound) (lead : s.lead? x = some (r, l)) (held : l.stage.isHeld = true) (o : IssueStatus) :
    (s.actOnStatus x l.slot o).LeadsSound ∧ (o ≠ .ask → (s.actOnStatus x l.slot o).LeadsIdle x) := by
  by_cases ask : o = .ask
  · refine ⟨?_, fun e => absurd ask e⟩
    subst ask
    by_cases served : l.slot.isSome = true ∨ x ∈ s.queries.wait
    · rw [State.actOnStatus, if_pos rfl, if_pos served]
      exact h
    · obtain ⟨P, q, fit, tracked⟩ := h
      refine State.LeadsIdle.asks ⟨P, q, fit, tracked, ?_, fun g seen => ?_⟩ lead held
      · rw [← tracked.2.queries]
        exact fun listed => served (.inr listed)
      · rw [tracked.2.seen lead] at seen
        cases seen
        show l.slot = none
        simpa using fun e => served (.inl e)
  · rw [State.actOnStatus, if_neg ask]
    exact ⟨(h.endQuery lead).sound, fun _ => h.endQuery lead⟩

/-! ### Verdicts -/

theorem State.LeadsSound.reEvaluateHeld (h : s.LeadsSound) (x : Item) (answer : Option IssueStatus) : (s.reEvaluateHeld x answer).LeadsSound := by
  unfold State.reEvaluateHeld
  split
  · next r l lead =>
    split
    · next held =>
      obtain ⟨sound, idle⟩ := h.actOnStatus lead (isHeld_iff.2 ⟨_, _, _, _, held⟩) (withAnswer answer (s.issueStatusOf r))
      dsimp only
      split
      · exact sound
      · next known =>
        split
        · exact (idle known).offerFinal _
        · exact sound
    all_goals exact h
  · exact h

theorem issueVerdict_ask {e : ClassEntry} (holds : holdLimit e ≠ 0) : issueVerdict e .ask = none := by
  rw [issueVerdict, if_neg holds]

theorem State.LeadsSound.finalEvaluation (h : s.LeadsSound) (x : Item) : (s.finalEvaluation x).LeadsSound := by
  unfold State.finalEvaluation
  split
  · next r l lead =>
    split
    · next undecided =>
      obtain ⟨final, stage⟩ := undecided_iff.1 undecided
      have idle : s.LeadsIdle x := h.idle fun r' l' lead' => by
        rw [lead] at lead'
        cases lead'
        rcases stage with e | e <;> rw [e] <;> rfl
      split
      · exact idle.offerFinal _
      · next e _ =>
        dsimp only
        by_cases asks : s.issueStatusOf r = .ask ∧ holdLimit e ≠ 0
        · obtain ⟨ask, holds⟩ := asks
          rw [if_neg holds, ask, issueVerdict_ask holds]
          exact idle.asksAndHolds lead final _ _ _
        · have still : (if holdLimit e = 0 then s else s.actOnStatus x l.slot (s.issueStatusOf r)).LeadsIdle x ∧
              OnlyQueries s (if holdLimit e = 0 then s else s.actOnStatus x l.slot (s.issueStatusOf r)) := by
            split
            · exact ⟨idle, .refl s⟩
            · next holds =>
              rw [State.actOnStatus, if_neg fun ask => asks ⟨ask, holds⟩]
              exact ⟨h.endQuery lead, endQuery_onlyQueries _ _ _⟩
          split
          · exact still.1.offerFinal _
          · refine still.1.holdRecord (fun r' l' lead' => ?_) _ _ _
            obtain ⟨r1, l1, lead1, same, -⟩ := still.2.lead lead
            obtain ⟨rfl, rfl⟩ := Prod.mk.inj (Option.some.inj (lead'.symm.trans lead1))
            have sameFinal : l'.final = l.final := by
              have e := congrArg Lead.final same
              exact e
            exact sameFinal.trans final
    · exact h
  · exact h

/-- An undecided record that is not HELD changes its stage and offers a DECIDE that is not final. -/
theorem State.LeadsSound.offersEarly (h : s.LeadsSound) (lead : s.lead? x = some (r, l)) (unheld : l.stage.isHeld = false)
    (undecided : l.final = none) (final : l'.final = l.final) (owed : l'.owed = l.owed) (slot : l'.slot = l.slot)
    (early : Verdict.isFinal d.verdict = false) : ((s.putLead r l').offerDecision x d).1.LeadsSound := by
  have idle : s.LeadsIdle x := h.idle fun r' l' lead' => by
    rw [lead] at lead'
    cases lead'
    exact unheld
  have settled : l'.Settled := by
    refine ⟨fun decided => absurd (final.trans undecided) decided, ?_⟩
    rw [owed, final]
    exact (h.settled lead).2
  refine (idle.putLead lead settled slot (by rw [final]; exact id)).sound.offerDecision (lead?_putLead lead) fun isFinal => ?_
  rw [early] at isFinal; cases isFinal

theorem State.LeadsSound.provisionalCheck (h : s.LeadsSound) (x : Item) : (s.provisionalCheck x).LeadsSound := by
  unfold State.provisionalCheck
  split
  · next r l lead =>
    split
    · next due =>
      obtain ⟨stage, -, final⟩ := due
      split
      · split
        · exact h.offersEarly lead (by rw [stage]; rfl) final rfl rfl rfl rfl
        · exact h
      · exact h
    · exact h
  · exact h

theorem State.LeadsSound.reEvaluateProvisional (h : s.LeadsSound) (x : Item) : (s.reEvaluateProvisional x).LeadsSound := by
  unfold State.reEvaluateProvisional
  split
  · next r l lead =>
    split
    · next due =>
      obtain ⟨stage, final⟩ := due
      have withdraws (d : Decision) (early : Verdict.isFinal d.verdict = false) :
          ((s.putLead r { l with stage := .openStage }).offerDecision x d).1.LeadsSound :=
        h.offersEarly lead (by rw [stage]; rfl) final rfl rfl rfl early
      dsimp only
      split
      · split
        · exact h
        · exact withdraws _ rfl
      · exact withdraws _ rfl
    · exact h
  · exact h

theorem State.LeadsSound.holdExpired (h : s.LeadsSound) (x : Item) : (s.holdExpired x).LeadsSound := by
  unfold State.holdExpired
  split
  · next r l lead =>
    split
    · refine State.LeadsIdle.offerFinal ?_ _
      split
      · exact (leadsSound_frames.count _ _ h).endQuery (r := r) (by rw [State.lead?, State.record?, State.count_table]; exact lead)
      · exact h.endQuery lead
    all_goals exact h
  · exact h

end

end Sys2Proof.Machine
end

section
/-! PROOFS. The end of a lead: its queued DECIDEs are removed and its slot is given up (R80, R102, R104). -/

namespace Sys2Proof.Machine

/-- The DECIDEs of a record. -/
def recordDecides (x : Item) (o : Owner) (p : Payload) : Bool := o == .record x && p.sort == 2

theorem isDecision_eq (f : QFrame) : isDecision f = (f.payload.sort == 2) := by
  unfold isDecision
  cases f.payload <;> rfl

theorem recordDecides_eq (x : Item) : (fun f => ofRecord x f && isDecision f) = fun f => recordDecides x f.owner f.payload :=
  funext fun f => by rw [isDecision_eq]; rfl

/-- A walk offers no DECIDE of a record that has none waiting. -/
theorem walk_spares_decides {s : State} {x : Item} (unwaited : (.decision x) ∉ s.line.waiting) {o : Owner} {p : Payload}
    (offers : WalkOffers s o p) : Spares (recordDecides x) o p := by
  obtain ⟨k, hk, fits⟩ := offers
  have other : ¬ (o = .record x ∧ p.sort = 2) := by
    rintro ⟨rfl, sort⟩
    cases k with
    | decision y =>
      obtain ⟨e, -⟩ := fits
      cases e
      exact unwaited hk
    | sight _ | join _ => obtain ⟨-, _, rfl, -⟩ := fits; cases sort
    | claim _ | defer _ | release _ | query _ | report => obtain ⟨e, -⟩ := fits; cases e
  refine ⟨fun p' same => ?_, fun mergeable => ?_⟩
  · rw [recordDecides, same]
    simpa using other
  · cases k with
    | sight x | join x | decision x => exact ⟨x, fits.1⟩
    | claim _ => obtain ⟨-, ⟨_, rfl⟩, -⟩ := fits; simp [Payload.sort] at mergeable
    | defer _ | release _ => obtain ⟨-, _, rfl⟩ := fits; simp [Payload.sort] at mergeable
    | query _ => obtain ⟨-, _, _, _, rfl⟩ := fits; simp [Payload.sort] at mergeable
    | report => obtain ⟨-, rfl⟩ := fits; simp [Payload.sort] at mergeable

/-- No offer and no removal puts a frame under transmission. -/
theorem QMoves.sent_old {A : Owner → Payload → Prop} {rm : QFrame → Bool} {q q' : List QFrame} (moves : QMoves A rm q q') {f : QFrame}
    (mem : f ∈ q') (sent : f.underTx = true) : f ∈ q := by
  have unsent {q q' : List QFrame} {g g' : QFrame} (e : Edited q q' g g') (mem : f ∈ q') : f ∈ q := by
    rcases e.mem_new mem with rfl | old
    · rw [e.2.2] at sent; cases sent
    · exact old
  induction moves with
  | refl => exact mem
  | into _ _ j ih =>
    obtain ⟨rfl, -⟩ | ⟨_, _, _, -, -, -, -, e⟩ | ⟨_, _, _, -, -, -, -, -, -, e⟩ | ⟨_, _, _, -, -, -, -, e⟩ := judgeOffer_into j
    · exact ih mem
    all_goals exact ih (unsent e mem)
  | placed _ _ j ih =>
    obtain ⟨-, -, ⟨-, rfl, -⟩ | ⟨a, g, b, m, -, -, rfl, rfl, -⟩⟩ := judgeOffer_placed j
    · rcases List.mem_append.1 mem with old | new
      · exact ih old
      · rw [List.mem_singleton.1 new] at sent; cases sent
    · rcases List.mem_append.1 mem with old | new
      · exact ih (by simp only [List.mem_append, List.mem_cons] at old ⊢; tauto)
      · rw [List.mem_singleton.1 new] at sent; cases sent
  | drop _ dropped ih => exact ih ((dropFirst_sublist dropped).subset mem)

/-- A removal marks what it asks for and is under transmission. -/
theorem askRemoval_sent {s : State} {ok : QFrame → Bool} {f : QFrame} (mem : f ∈ (s.askRemoval ok).line.queue) (sent : f.underTx = true)
    (kind : ∀ g, g.owner = f.owner → g.payload = f.payload → ok g = true) : f.asked = .remove := by
  have held := (removeLoop_moves (ok := ok) queueSize (s.setQueue (holdRemoval ok s.line.queue))).1.sent_old mem sent
  obtain ⟨g, -, rfl⟩ := List.mem_map.1 held
  by_cases marked : (ok g && g.underTx) = true
  · rw [if_pos marked]
  · rw [if_neg marked] at sent kind
    rw [kind g rfl rfl, sent] at marked
    exact absurd rfl marked

section
variable {s t : State} {x : Item} {r r' : Record} {l : Lead} {P : Item → Option Gist} {q : Queries}

/-- A record that leads no longer asks for the removal of its DECIDEs, none of which waits. -/
theorem State.Tracked.lapse (h : s.Tracked P q) (lead : s.lead? x = some (r, l)) (item : r'.item = r.item)
    (length : r'.samples.length = r.samples.length) (unled : r'.state.leads = false) (w : List WaitKey) (unwaited : (.decision x) ∉ w) :
    (((s.putRecord r').setWaiting w).askRemoval fun f => ofRecord x f && isDecision f).Tracked (Function.update P x none) q := by
  obtain ⟨record, -⟩ := lead?_eq_some.1 lead
  obtain rfl := record?_item record
  have record' : s.record? r'.item = some r := by rw [item]; exact record
  have stored := h.2.store record' fun l e => by rw [e] at unled; cases unled
  rw [RecState.gist_unled unled, item] at stored
  have base := base_store record' length h.1
  have within : Within (Function.update P r.item none) (finals P) := fun y g seen => by
    by_cases same : y = r.item
    · rw [same, Function.update_self] at seen; cases seen
    · rw [Function.update_of_ne same] at seen
      rw [finals, seen]
      rfl
  have tracks : ((s.putRecord r').setWaiting w).Tracks (Function.update P r.item none) q (finals P) true := ⟨⟨base.1, base.2⟩, stored⟩
  obtain ⟨base', seen⟩ := (tracks_frames within).askRemoval (fun f => ofRecord r.item f && isDecision f) tracks
  refine ⟨base', seen.gist, seen.queries, seen.leads, fun f hf m y payload again owner => ?_⟩
  obtain ⟨own, leads⟩ := seen.frames f hf m y payload again owner
  refine ⟨own, ?_⟩
  by_cases same : y = r.item
  · subst same
    have sent : f.underTx = true := by
      rw [recordDecides_eq] at hf
      exact askRemoval_none_left (s := (s.putRecord r').setWaiting w) base.1.1 (fun o p => walk_spares_decides unwaited) f hf
        (by rw [recordDecides, owner, payload]; simp [Payload.sort])
    refine .inr ⟨by rw [finals, Function.update_self]; rfl, fun _ => sent, askRemoval_sent hf sent fun g owner' payload' => ?_⟩
    rw [ofRecord, isDecision_eq, owner', payload', owner, payload]
    simp [Payload.sort]
  · rw [finals, Function.update_of_ne same]
    exact leads

/-- A lead that has ended gives its slot up. -/
theorem State.Tracked.endsLead (h : t.Tracked (Function.update P x none) q) (fit : SlotsFit P q) {g : Gist} (seen : P x = some g) :
    (t.endQuery x g.slot).LeadsSound := by
  obtain ⟨P', q', tracked, fit', -⟩ := h.endQuery fit seen (fun y other => Function.update_of_ne other _ _) (.inl (Function.update_self ..))
  exact ⟨P', q', fit', tracked⟩

theorem State.LeadsSound.yieldLead (h : s.LeadsSound) (lead : s.lead? x = some (r, l)) (y : Nat) : (s.yieldLead r l y).LeadsSound := by
  obtain ⟨P, q, fit, tracked⟩ := h
  have item := record?_item (lead?_eq_some.1 lead).1
  have lapsed := tracked.lapse (r' := { r with samples := unsendOwn s.number r.samples, state := .joint y (some s.patience) }) lead rfl
    (by simp [unsendOwn]) rfl (((s.line.waiting.filter (· ≠ .decision x))).filter (· ≠ .sight x)) (by simp)
  have ended := lapsed.endsLead fit (tracked.2.seen lead)
  rw [← item] at ended
  exact leadsSound_frames.offerJoins _ (leadsSound_frames.askRemoval _ ended)

theorem State.LeadsSound.closeLead (h : s.LeadsSound) (lead : s.lead? x = some (r, l)) (d : Decision) : (s.closeBy r d).LeadsSound := by
  obtain ⟨P, q, fit, tracked⟩ := h
  obtain ⟨record, state⟩ := lead?_eq_some.1 lead
  have item := record?_item record
  have lapsed := tracked.lapse (r' := { r with state := .closed d s.time.clock }) lead rfl rfl rfl
    (((s.line.waiting.filter (· ≠ .sight x)).filter (· ≠ .join x)).filter (· ≠ .decision x)) (by simp)
  have ended := lapsed.endsLead fit (tracked.2.seen lead)
  rw [← item] at ended
  simp only [State.closeBy, state]
  exact leadsSound_frames.askRemoval _ ended

end

theorem leadsSound_records : RecordsKept State.LeadsSound where
  toFramesKept := leadsSound_frames
  yieldLead y lead h := h.yieldLead lead y
  closeLead d lead h := h.closeLead lead d
  freeSlot k h := h.freeSlot k
  finalEvaluation x h := h.finalEvaluation x
  reEvaluateHeld x answer h := h.reEvaluateHeld x answer
  reEvaluateProvisional x h := h.reEvaluateProvisional x
  provisionalCheck x h := h.provisionalCheck x
  holdExpired x h := h.holdExpired x

end Sys2Proof.Machine
end

section
/-! PROOFS. The operations of sides, for a property that no side's coils, claim or sweep touches. -/

namespace Sys2Proof.Machine

/-- A property that also survives every change of a side, the offers of its claim frames, and what gives them up. -/
structure SidesKept (I : State → Prop) : Prop extends FramesKept I where
  coils     : ∀ {s : State} (c : PerSide CoilUnit), I s → I { s with coils := c }
  claims    : ∀ {s : State} (c : PerSide Claim), I s → I { s with claims := c }
  sweeps    : ∀ {s : State} (w : PerSide Sweep), I s → I { s with sweeps := w }
  giveUpAny : ∀ {s : State} (k : WaitKey), I s → I (s.giveUp k)
  sideOffer : ∀ {s : State} (k : WaitKey) (sd : Side) {p : Payload}, p.sized = true → p.ofSide = true → I s → I (s.offer (some k) (.side sd) p).1

section
variable {I : State → Prop} (K : SidesKept I)
include K

theorem SidesKept.setClaim {s : State} (sd : Side) (c : Claim) (h : I s) : I (s.setClaim sd c) := K.claims _ h

theorem SidesKept.takeRequest {s : State} (sd : Side) (h : I s) : I (s.takeRequest sd).1 := by
  unfold State.takeRequest
  dsimp only
  split
  · exact K.setClaim _ _ h
  · exact K.sideOffer _ _ rfl rfl (K.setClaim _ _ h)

theorem SidesKept.becomeFree {s : State} (sd : Side) (h : I s) : I (s.becomeFree sd).1 := by
  unfold State.becomeFree
  dsimp only
  split
  · exact K.takeRequest _ (K.setClaim _ _ h)
  · exact K.setClaim _ _ h

theorem SidesKept.drainEnergised {s : State} (sd : Side) (h : I s) : I (s.drainEnergised sd) := by
  unfold State.drainEnergised
  split
  · unfold State.drain
    dsimp only
    split
    · exact K.sweeps _ (K.coils _ h)
    · exact K.coils _ h
  · exact h

theorem SidesKept.endHold {s : State} (sd : Side) (h : I s) : I (s.endHold sd) := by
  unfold State.endHold
  dsimp only
  split
  · split
    · exact K.setClaim _ _ h
    · exact K.drainEnergised _ (K.setClaim _ _ h)
  · exact h

theorem SidesKept.giveUpLane {s : State} (sd : Side) (h : I s) : I (s.giveUpLane sd).1 := by
  have told := K.setClaim sd { s.claims.get sd with
    state := afterRelease (s.claims.get sd), clash := false, deferredPartner := false, hold := none, rest := none }
    (K.sideOffer (.release sd) sd (p := .release ((s.giveUp (.defer sd)).lane sd)) rfl rfl (K.giveUpAny (.defer sd) h))
  unfold State.giveUpLane
  dsimp only
  split
  · split
    · split
      · exact K.setClaim _ _ h
      · exact K.becomeFree _ (K.setClaim _ _ h)
    · split
      · exact K.becomeFree _ told
      · exact told
  · exact h

theorem SidesKept.sweepKept : SweepKept I where
  sweep _ _ h := K.sweeps _ h
  coils _ _ _ h := K.coils _ h
  activate _ h := K.coils _ h
  claim _ _ _ _ _ h := K.claims _ h
  take sd _ h := K.takeRequest sd h
  endHold sd h := K.endHold sd h
  giveUpLane sd h := K.giveUpLane sd h

theorem SidesKept.yieldTo {s : State} (sd : Side) (cause : RestCause) (rest : Nat) (h : I s) : I (s.yieldTo sd cause rest) :=
  K.askRemoval _ (K.giveUpAny _ (K.setClaim _ _ h))

theorem SidesKept.deferPartner {s : State} (sd : Side) (h : I s) : I (s.deferPartner sd) := K.sideOffer _ _ rfl rfl (K.setClaim _ _ h)

theorem SidesKept.partnerClaim {s : State} (sd : Side) (h : I s) : I (s.partnerClaim sd) := by
  unfold State.partnerClaim
  dsimp only
  split
  · exact h
  · split
    · exact K.deferPartner _ h
    · exact K.yieldTo _ _ _ h
  · exact K.deferPartner _ h
  · exact K.deferPartner _ h
  · exact K.setClaim _ _ h
  · exact K.setClaim _ _ h
  · exact K.becomeFree _ (K.giveUpAny _ h)
  · exact h

theorem SidesKept.partnerDefer {s : State} (sd : Side) (hold : Nat) (h : I s) : I (s.partnerDefer sd hold) := by
  unfold State.partnerDefer
  dsimp only
  split
  · exact K.askRemoval _ (K.yieldTo _ _ _ (K.giveUpAny _ (K.setClaim _ _ h)))
  all_goals exact h

theorem SidesKept.partnerRelease {s : State} (sd : Side) (h : I s) : I (s.partnerRelease sd) := by
  unfold State.partnerRelease
  split
  · exact h
  · exact K.becomeFree _ (K.giveUpAny _ h)
  all_goals exact h

theorem SidesKept.releaseSettled {s : State} (sd : Side) (h : I s) : I (s.releaseSettled sd) := by
  unfold State.releaseSettled
  dsimp only
  split
  · split
    · exact K.setClaim _ _ h
    · exact h
  · split
    · exact K.setClaim _ _ h
    · exact h
  all_goals exact h

theorem SidesKept.claimTransmitted {s : State} (sd : Side) (h : I s) : I (s.claimTransmitted sd) := by
  unfold State.claimTransmitted
  dsimp only
  split
  · exact K.setClaim _ _ h
  · exact h

theorem SidesKept.claimWaitEnds {s : State} (sd : Side) (h : I s) : I (s.claimWaitEnds sd) := by
  unfold State.claimWaitEnds
  dsimp only
  split
  · split
    · exact K.sweepKept.grant _ (K.setClaim _ _ h)
    · exact K.setClaim _ _ h
  · exact h

theorem SidesKept.restEnds {s : State} (sd : Side) (h : I s) : I (s.restEnds sd) := by
  have free := K.becomeFree sd (K.giveUpAny (.release sd) h)
  unfold State.restEnds
  dsimp only
  split
  · split
    case h_5 =>
      split
      · exact K.sweepKept.grant _ free
      · exact free
    all_goals exact K.setClaim _ _ h
  · exact h

end

/-! ### Sound leads -/

/-- What `LeadsSound` speaks of. -/
theorem State.LeadsSound.congr {s t : State} (h : s.LeadsSound) (table : t.table = s.table) (queries : t.queries = s.queries)
    (queue : t.line.queue = s.line.queue) (phase : t.line.phase.isSending = s.line.phase.isSending) (directory : t.directory = s.directory) :
    t.LeadsSound := by
  obtain ⟨P, q, fit, ⟨sound, apart⟩, sees⟩ := h
  refine ⟨P, q, fit, ⟨?_, ?_⟩, sees.congr table queries queue⟩
  · rw [State.QueueSound, queue, phase]; exact sound
  · rw [State.ItemsApart, table, directory]; exact apart

theorem leadsSound_sides : SidesKept State.LeadsSound where
  toFramesKept := leadsSound_frames
  coils _ h := h
  claims _ h := h
  sweeps _ h := h
  giveUpAny _ h := h
  sideOffer := fun k sd _ sized side ⟨P, q, fit, base, sees⟩ => ⟨P, q, fit,
    ⟨queueSound_kept.toClosed.offer (some k) (.side sd) sized base.1, itemsApart_kept.toClosed.offer (some k) (.side sd) sized base.2⟩,
    sees.offer _ (offerFits_of_other fun m e => by rw [e] at side; cases side)⟩

end Sys2Proof.Machine
end

section
/-! PROOFS. The ends of an attempt, the passing of time, and with them every command, keep the query slots sound (R72, R73, R99, R106). -/

namespace Sys2Proof.Machine

section
variable {s t : State} {x : Item} {r : Record} {l : Lead} {P : Item → Option Gist} {q : Queries}

theorem State.LeadsSound.walk (h : s.LeadsSound) : s.walk.LeadsSound := by
  obtain ⟨P, q, fit, base, sees⟩ := h
  exact ⟨P, q, fit, ⟨queueSound_kept.toClosed.walk base.1, itemsApart_kept.toClosed.walk base.2⟩, (sees_walk (within_finals P)).walk sees⟩

theorem State.LeadsSound.queueSound (h : s.LeadsSound) : s.QueueSound := by
  obtain ⟨-, -, -, base, -⟩ := h
  exact base.1

/-! ### Records that begin and end to lead -/

/-- A record begins to lead while nothing is under transmission (R99). -/
theorem State.LeadsSound.becomeLead (h : s.LeadsSound) (unsent : ∀ f ∈ s.line.queue, f.underTx = false)
    (unled : ∀ r, s.record? x = some r → r.state.leads = false) : (s.becomeLead x).LeadsSound := by
  unfold State.becomeLead
  split
  · next r record =>
    obtain ⟨P, q, fit, base, sees⟩ := h
    obtain rfl := record?_item record
    have gone : P r.item = none := by rw [← sees.gist, gistIn_found record]; exact RecState.gist_unled (unled r record)
    have stored := sees.store (r := { r with state := .lead (Lead.fresh s.sys.cfg) }) record fun l e => by
      cases e
      exact ⟨fun _ => rfl, nofun⟩
    have idle : Unasked P q r.item := fit.unasked fun g seen => by rw [gone] at seen; cases seen
    refine ⟨_, q, fit.alter idle ?_, base_store (r := { r with state := .lead (Lead.fresh s.sys.cfg) }) record rfl base, stored.gist,
      stored.queries, stored.leads, fun f hf m y payload again owner => ?_⟩
    · intro g e
      cases e
      rfl
    · obtain ⟨own, leads⟩ := sees.frames f hf m y payload again owner
      refine ⟨own, ?_⟩
      by_cases same : y = r.item
      · subst same
        rcases leads with ⟨b, led, -⟩ | ⟨-, sent, -⟩
        · rw [finals, gone] at led; cases led
        · have := sent rfl
          rw [unsent f hf] at this; cases this
      · rw [finals, Function.update_of_ne same]
        exact leads
  · exact h

/-- A decided record closes with none of its DECIDEs queued (R106). -/
theorem State.LeadsSound.closes (h : s.LeadsSound) (lead : s.lead? x = some (r, l)) (decided : l.final ≠ none)
    (apart : ∀ g ∈ s.line.queue, ∀ n, g.payload = .decision n → n.item ≠ x) (d : Decision) (c : Clock) :
    (s.putRecState r (.closed d c)).LeadsSound := by
  obtain ⟨P, q, fit, base, sees⟩ := h
  obtain ⟨record, state⟩ := lead?_eq_some.1 lead
  obtain rfl := record?_item record
  have stage := (sees.settled lead).1 decided
  have idle : Unasked P q r.item := fit.unasked fun g seen => by
    rw [sees.seen lead] at seen
    cases seen
    rw [Lead.gist, stage]
    rfl
  have stored := sees.store (r := { r with state := .closed d c }) record fun _ e => by cases e
  have unled : (RecState.closed d c).gist (s.positionOf r.item) = none := rfl
  rw [unled] at stored
  refine ⟨_, q, fit.alter idle ?_, base_store (r := { r with state := .closed d c }) record rfl base, stored.gist, stored.queries, stored.leads,
    fun f hf m y payload again owner => ?_⟩
  · exact fun g e => by cases e
  · obtain ⟨own, leads⟩ := sees.frames f hf m y payload again owner
    have other : y ≠ r.item := own ▸ apart f hf m payload
    refine ⟨own, ?_⟩
    rw [finals, Function.update_of_ne other]
    exact leads

/-! ### A completed frame (R73) -/

theorem State.LeadsSound.sightSent (h : s.LeadsSound) (unsent : ∀ f ∈ s.line.queue, f.underTx = false) (x : Item) (m : SightMsg) :
    (s.sightSent x m).1.LeadsSound := by
  have sent := leadsSound_frames.settleSamples x .sent m.samples h
  have leads {r : Record} (record : s.record? x = some r) (unled : r.state.leads = false) :
      ((s.settleSamples x .sent m.samples).becomeLead x).LeadsSound := by
    refine sent.becomeLead (by rw [settleSamples_line]; exact unsent) fun r' record' => ?_
    have item := record?_item record
    obtain ⟨r0, found, -, same⟩ := record?_offered (settleSamples_onlyOffers s x .sent m.samples) (r := r) (by rw [item]; exact record)
    rw [item, record'] at found
    cases found
    exact same.trans unled
  unfold State.sightSent
  split
  · next r record =>
    split
    · next sole => exact leads record (by rw [sole]; rfl)
    · exact sent
    · next joint =>
      split
      · exact leads record (by rw [joint]; rfl)
      · exact sent
    · exact h
  · exact h

theorem State.LeadsSound.decisionSent (h : s.LeadsSound) (x : Item) (m : DecideMsg)
    (own : ∀ r l, s.lead? x = some (r, l) → m.again = false → Verdict.isFinal m.decision.verdict = true → l.final ≠ none ∧
      ∀ g ∈ s.line.queue, ∀ n, g.payload = .decision n → n.item ≠ x) : (s.decisionSent x m).LeadsSound := by
  unfold State.decisionSent
  split
  · next r l lead =>
    split
    · exact h
    · next first =>
      split
      · next final =>
        obtain ⟨decided, apart⟩ := own r l lead (by simpa using first) final
        exact h.closes lead decided apart _ _
      · split
        · exact leadsSound_frames.putLead lead rfl rfl rfl rfl h
        · exact h
  · exact h

theorem State.LeadsSound.frameSent (h : s.LeadsSound) (unsent : ∀ f ∈ s.line.queue, f.underTx = false) (f : QFrame)
    (own : ∀ m x r l, f.payload = .decision m → f.owner = .record x → s.lead? x = some (r, l) → m.again = false →
      Verdict.isFinal m.decision.verdict = true → l.final ≠ none ∧ ∀ g ∈ s.line.queue, ∀ n, g.payload = .decision n → n.item ≠ x) :
    (s.frameSent f).1.LeadsSound := by
  unfold State.frameSent
  split
  · exact leadsSound_sides.claimTransmitted _ h
  · exact leadsSound_sides.releaseSettled _ h
  · exact h.sightSent unsent _ _
  · exact leadsSound_frames.settleSamples _ _ _ h
  · next payload =>
    dsimp only
    refine leadsSound_records.countDecision _ _ (leadsSound_records.alarmDecide _ _ _ _ _ ?_)
    split
    · next x owner => exact h.decisionSent x _ fun r l => own _ x r l payload owner
    · exact h
  · exact leadsSound_frames.carried h
  · exact h

/-- The frame under transmission leaves the queue at an attempt's end. -/
theorem State.LeadsSound.finish (h : s.LeadsSound) (sending : s.line.phase.isSending = true) (p : LinePhase) (b : Bool)
    (idle : p.isSending = false) : (((s.setPhase p).setBackoff b).setQueue (withoutSent s.line.queue)).LeadsSound := by
  obtain ⟨P, q, fit, base, sees⟩ := h
  exact ⟨P, q, fit, ⟨queueSound_kept.finish (s := s) p b sending idle base.1,
    itemsApart_kept.finish (s := s) p b sending idle base.2⟩,
    { sees with frames := fun f hf => sees.frames f ((withoutSent_sublist _).subset hf) }⟩

/-- What a completed DECIDE tells of its record: a final one is that of a decided record, which has no other queued. -/
theorem State.LeadsSound.ownDecide (h : s.LeadsSound) {a b : List QFrame} {f : QFrame} (queue : s.line.queue = a ++ f :: b) {m : DecideMsg}
    (payload : f.payload = .decision m) (owner : f.owner = .record x) (lead : s.lead? x = some (r, l)) (again : m.again = false)
    (final : Verdict.isFinal m.decision.verdict = true) :
    l.final ≠ none ∧ ∀ g ∈ a ++ b, ∀ n, g.payload = .decision n → n.item ≠ x := by
  obtain ⟨P, q, fit, base, sees⟩ := h
  have seen : finals P x = some l.final.isSome := by rw [finals, sees.seen lead]; rfl
  obtain ⟨own, leads⟩ := sees.frames f (by rw [queue]; simp) m x payload again owner
  refine ⟨?_, fun g hg n other same => ?_⟩
  · rcases leads with ⟨decided, led, isFinal⟩ | ⟨gone, -⟩
    · rw [seen] at led
      obtain rfl := Option.some.inj led
      simpa [Option.isSome_iff_ne_none] using isFinal final
    · rw [seen] at gone; cases gone
  · have once := ((queueSound_iff s).1 base.1).decisions
    have mine : f.decideItem = some x := by rw [QFrame.decideItem, payload]; exact congrArg some own
    have theirs : g.decideItem = some x := by rw [QFrame.decideItem, other]; exact congrArg some same
    have moved : (f :: (a ++ b)).Perm s.line.queue := by rw [queue]; exact List.perm_middle.symm
    have nodup := ((moved.filterMap QFrame.decideItem).nodup_iff).2 once
    rw [List.filterMap_cons_some mine] at nodup
    exact (List.nodup_cons.1 nodup).1 (List.mem_filterMap.2 ⟨g, hg, theirs⟩)

theorem State.LeadsSound.complete (h : s.LeadsSound) (sending : s.line.phase.isSending = true) : s.complete.LeadsSound := by
  have S := leadsSound_sides.sweepKept
  unfold State.complete
  dsimp only
  split
  · next f hf =>
    obtain ⟨a, b, queue, without, tx, -⟩ := sentFrame_split hf
    have left := h.finish sending (.idle 0) false rfl
    have sent := (left.frameSent (left.queueSound.unsent rfl) f fun m x r l payload owner lead again final => by
      rw [State.setQueue_line, without]
      exact h.ownDecide queue payload owner lead again final).walk
    unfold State.afterSent
    split
    · split
      · exact leadsSound_records.contextCreated _ _ sent
      · exact sent
    · split
      · exact S.provisionalTriggers _ _ sent
      · exact sent
    · exact sent
  · next none =>
    have without : withoutSent s.line.queue = s.line.queue := by
      have unsent := List.find?_eq_none.1 none
      revert unsent
      generalize s.line.queue = q
      intro unsent
      induction q with
      | nil => rfl
      | cons f q ih =>
        rw [withoutSent, if_neg (unsent f List.mem_cons_self), ih fun g hg => unsent g (List.mem_cons_of_mem _ hg)]
    have left := h.finish sending (.idle 0) false rfl
    rwa [without] at left

end

end Sys2Proof.Machine
end

section
/-! PROOFS. A loss of contention, the passing of time, and with them every command, keep the query slots sound (R71, R72, R80). -/

namespace Sys2Proof.Machine

/-! ### Removals that were held (R80) -/

/-- A frame whose removal was held and is to be carried out. -/
def leaving (f : QFrame) : Bool := f.asked == .remove && !f.underTx

/-- Offers and removals make no frame leave. -/
theorem QMoves.leaving_le {A : Owner → Payload → Prop} {rm : QFrame → Bool} {q q' : List QFrame} (moves : QMoves A rm q q') :
    q'.countP leaving ≤ q.countP leaving := by
  have edited {q q' : List QFrame} {f g : QFrame} (e : Edited q q' f g) (asked : g.asked = f.asked) : q'.countP leaving = q.countP leaving := by
    obtain ⟨⟨a, b, rfl, rfl⟩, old, new⟩ := e
    have same : leaving g = leaving f := by rw [leaving, leaving, asked, old, new]
    simp only [List.countP_append, List.countP_cons, same]
  have fresh (o : Owner) (p : Payload) : leaving (QFrame.fresh o p) = false := rfl
  induction moves with
  | refl => exact le_rfl
  | into _ _ j ih =>
    obtain ⟨rfl, -⟩ | ⟨_, _, _, -, -, -, -, e⟩ | ⟨_, _, _, -, -, -, -, -, -, e⟩ | ⟨_, _, _, -, -, -, -, e⟩ := judgeOffer_into j
    · exact ih
    all_goals exact (edited e rfl).trans_le ih
  | placed _ _ j ih =>
    obtain ⟨-, -, ⟨-, rfl, -⟩ | ⟨a, g, b, m, -, -, rfl, rfl, -⟩⟩ := judgeOffer_placed j
    · rw [List.countP_append, List.countP_singleton, fresh]
      exact ih
    · refine le_trans ?_ ih
      rw [List.countP_append, List.countP_singleton, fresh]
      exact ((List.sublist_cons_self g b).append_left a).countP_le
  | drop _ dropped ih => exact (dropFirst_sublist dropped).countP_le.trans ih

/-- The removals that were held leave no frame to be removed but under transmission. -/
theorem removeLoop_left (fuel : Nat) {s : State} (enough : s.line.queue.countP leaving ≤ fuel) :
    ∀ f ∈ (State.removeLoop (fun g => g.asked == .remove) fuel s).line.queue, f.asked = .remove → f.underTx = true := by
  induction fuel generalizing s with
  | zero =>
    intro f hf asked
    have stays := List.countP_eq_zero.1 (Nat.le_zero.1 enough) f hf
    simpa [leaving, asked] using stays
  | succ fuel ih =>
    unfold State.removeLoop
    split
    · next none => exact fun f hf asked => dropFirst_none none f hf (by simp [asked])
    · next q dropped =>
      refine ih ?_
      obtain ⟨a, f, b, old, rfl, asked, waiting⟩ := dropFirst_some dropped
      have walked := (walk_moves (rm := fun _ => false) (s.setQueue (a ++ b))).1.leaving_le
      have gone : leaving f = true := by rw [leaving, asked, waiting]; rfl
      rw [old, List.countP_append, List.countP_cons_of_pos gone] at enough
      rw [State.setQueue_line, List.countP_append] at walked
      exact walked.trans (by omega)

section
variable {s : State} {P : Item → Option Gist} {q : Queries}

/-! ### A lost attempt (R71, R72) -/

theorem State.LeadsSound.frameDropped (h : s.LeadsSound) (f : QFrame) : (s.frameDropped f).LeadsSound := by
  unfold State.frameDropped
  split
  · next r hr =>
    obtain ⟨x, -, record, unled⟩ := soleLeaving_eq_some hr
    exact leadsSound_frames.freeSole (mem_table_of_record? record) unled h
  · split
    · exact leadsSound_sides.releaseSettled _ h
    · exact leadsSound_frames.settleSamples _ _ _ h
    · exact leadsSound_frames.settleSamples _ _ _ h
    · exact leadsSound_frames.request .none false h
    · exact h

theorem State.LeadsSound.afterDropped (h : s.LeadsSound) (f : QFrame) : (s.afterDropped f).LeadsSound := by
  have K := leadsSound_frames
  unfold State.afterDropped
  split
  · split
    · exact leadsSound_sides.sideOffer _ _ rfl rfl h
    · exact h
  · split
    · next r record =>
      split
      · next sole => exact K.offerSight (by rw [record?_item record]; exact record) (by rw [sole]; rfl) h
      · split
        · exact K.offerJoins _ (K.offerTakeover _ h)
        · exact h
      · exact h
      · exact h
    · exact h
  · exact K.offerJoins _ h
  · split
    · split
      · exact K.offerQuery _ h
      · exact h
    · exact h
  · split
    · next r l lead =>
      split
      · next due =>
        refine h.offerDecision lead fun _ => ?_
        simp only [Bool.and_eq_true, Option.isSome_iff_ne_none] at due
        exact due.2
      · exact h
    · exact h
  · exact h

/-- A frame goes back to waiting with its loss count raised; a removal that was held is not carried out yet. -/
theorem State.Tracked.backToWaiting (h : s.Tracked P q) (sending : s.line.phase.isSending = true) (p : LinePhase) (b : Bool)
    (idle : p.isSending = false) {front back : List QFrame} {f : QFrame} (queue : s.line.queue = front ++ f :: back)
    (again : Machine.backToWaiting s.line.queue = front ++ { f with underTx := false, losses := f.losses + 1 } :: back) (strict : Bool)
    (fits : Fit (finals P) strict { f with underTx := false, losses := f.losses + 1 }) :
    (((s.setPhase p).setBackoff b).setQueue (Machine.backToWaiting s.line.queue)).Tracks P q (finals P) strict := by
  refine ⟨⟨queueSound_kept.lose (s := s) p b sending idle h.1.1, itemsApart_kept.lose (s := s) p b sending idle h.1.2⟩, h.2.gist, h.2.queries,
    h.2.leads, fun g hg => ?_⟩
  rw [State.setQueue_line, again, List.mem_append, List.mem_cons] at hg
  have others (old : g ∈ front ∨ g ∈ back) : Fit (finals P) strict g := by
    have fit := h.2.frames g (by rw [queue]; simp only [List.mem_append, List.mem_cons]; tauto)
    intro m x payload again owner
    obtain ⟨item, leads⟩ := fit m x payload again owner
    exact ⟨item, leads.imp_right fun ⟨gone, sent, asked⟩ => ⟨gone, fun _ => sent rfl, asked⟩⟩
  rcases hg with before | rfl | behind
  · exact others (.inl before)
  · exact fits
  · exact others (.inr behind)

theorem State.LeadsSound.loseContention (h : s.LeadsSound) (sending : s.line.phase.isSending = true) (stamp : Clock) :
    (s.loseContention stamp).LeadsSound := by
  have K := leadsSound_frames
  unfold State.loseContention
  dsimp only
  split
  · next f hf =>
    obtain ⟨front, back, queue, -, tx, again⟩ := sentFrame_split hf
    split
    · have left := h.finish sending (.receiving stamp) true rfl
      exact (State.LeadsSound.walk (State.LeadsSound.frameDropped (K.count .framesDropped 1 left) f)).afterDropped f
    · obtain ⟨P, q, fit, tracked⟩ := h
      obtain ⟨f', hf'⟩ : ∃ f', f' = { f with underTx := false, losses := f.losses + 1 } := ⟨_, rfl⟩
      have waits := fun strict => tracked.backToWaiting sending (.receiving stamp) true rfl queue again strict
      rw [← hf'] at waits ⊢
      by_cases strictly : Fit (finals P) true f'
      · exact K.carryOut _ ⟨P, q, fit, waits true strictly⟩
      · have loose : Fit (finals P) false f' := fun m x payload again owner => by
          rw [hf'] at payload owner ⊢
          obtain ⟨item, leads⟩ := tracked.2.frames f (by rw [queue]; simp) m x payload again owner
          exact ⟨item, leads.imp_right fun ⟨gone, _, asked⟩ => ⟨gone, (fun e => by cases e), asked⟩⟩
        obtain ⟨m, payload, asked⟩ : ∃ m, f'.payload = .decision m ∧ f'.asked = .remove := by
          by_contra unlike
          refine strictly fun m x payload again owner => ?_
          obtain ⟨item, leads⟩ := loose m x payload again owner
          rcases leads with leads | ⟨-, -, asked⟩
          · exact ⟨item, .inl leads⟩
          · exact absurd ⟨m, payload, asked⟩ unlike
        have stays : (((s.setPhase (.receiving stamp)).setBackoff true).setQueue (Machine.backToWaiting s.line.queue)).soleLeaving f' = none := by
          simp only [State.soleLeaving, payload]
        simp only [State.carryOut, asked, stays]
        obtain ⟨base, sees⟩ := (tracks_frames (within_finals P)).removeLoop (fun g => g.asked == .remove) queueSize (waits false loose)
        have left := removeLoop_left queueSize
          (s := ((s.setPhase (.receiving stamp)).setBackoff true).setQueue (Machine.backToWaiting s.line.queue))
          (List.countP_le_length.trans (waits false loose).1.1.1)
        refine ⟨P, q, fit, base, { sees with frames := fun g hg m x payload again owner => ?_ }⟩
        obtain ⟨item, leads⟩ := sees.frames g hg m x payload again owner
        exact ⟨item, leads.imp_right fun ⟨gone, _, asked⟩ => ⟨gone, fun _ => left g hg asked, asked⟩⟩
  · next none =>
    obtain ⟨P, q, fit, base, sees⟩ := h
    have back : Machine.backToWaiting s.line.queue = s.line.queue := by
      have unsent := List.find?_eq_none.1 none
      revert unsent
      generalize s.line.queue = q
      intro unsent
      induction q with
      | nil => rfl
      | cons f q ih =>
        rw [Machine.backToWaiting, if_neg (unsent f List.mem_cons_self), ih fun g hg => unsent g (List.mem_cons_of_mem _ hg)]
    have sound := queueSound_kept.lose (s := s) (.receiving stamp) true sending rfl base.1
    rw [back] at sound
    exact ⟨P, q, fit, ⟨sound, base.2⟩, sees⟩

/-! ### The start of an attempt, the passing of time, Hall Clear -/

theorem startFrame_fits {W : Item → Option Bool} (f : QFrame) {line : List QFrame} (old : ∀ g ∈ line, Fit W true g) :
    ∀ g ∈ startFrame f line, Fit W true g := by
  induction line with
  | nil => exact old
  | cons g line ih =>
    have first := old g List.mem_cons_self
    have rest : ∀ g' ∈ line, Fit W true g' := fun g' hg' => old g' (List.mem_cons_of_mem _ hg')
    intro g' hg'
    rw [startFrame] at hg'
    split at hg' <;> rcases List.mem_cons.1 hg' with rfl | later
    · intro m x payload again owner
      obtain ⟨item, leads⟩ := first m x payload again owner
      exact ⟨item, leads.imp_right fun ⟨gone, _, asked⟩ => ⟨gone, fun _ => rfl, asked⟩⟩
    · exact rest g' later
    · exact first
    · exact ih rest g' later

theorem State.LeadsSound.attemptStarts (h : s.LeadsSound) : s.attemptStarts.LeadsSound := by
  obtain ⟨P, q, fit, base, sees⟩ := h
  refine ⟨P, q, fit, ⟨queueSound_kept.attemptStarts base.1, itemsApart_kept.attemptStarts base.2⟩, ?_⟩
  unfold State.attemptStarts
  split
  · next f _ =>
    have started := startFrame_fits f sees.frames
    unfold State.startAttempt
    dsimp only
    split <;> exact { sees with frames := started }
  · exact sees

theorem findRecord_elapse (d : Nat) (x : Item) (t : List (Option Record)) :
    findRecord x (t.map (Option.map (Record.elapse d))) = (findRecord x t).map (Record.elapse d) := by
  induction t with
  | nil => rfl
  | cons e t ih =>
    cases e with
    | none => exact ih
    | some r =>
      by_cases same : r.item = x
      · simp [findRecord, Record.elapse, same]
      · simp [findRecord, Record.elapse, same, ih]

theorem gistIn_elapse (d : Nat) (t : List (Option Record)) : gistIn (t.map (Option.map (Record.elapse d))) = gistIn t := by
  funext x
  have places : (t.map (Option.map (Record.elapse d))).findIdx (ofItem x) = t.findIdx (ofItem x) := by
    rw [List.findIdx_map]
    refine congrArg (fun p => t.findIdx p) (funext fun e => ?_)
    cases e <;> rfl
  have states (n : Nat) (st : RecState) : (st.elapse d).gist n = st.gist n := by
    cases st with
    | lead l => cases stage : l.stage <;> simp [RecState.elapse, RecState.gist, Lead.gist, stage, Stage.elapse, Stage.isHeld]
    | sole _ | joint _ _ | closed _ _ => rfl
  rw [gistIn, gistIn, findRecord_elapse, places, Option.bind_map]
  exact congrArg _ (funext fun r => states _ r.state)

theorem State.LeadsSound.elapse (h : s.LeadsSound) (d : Nat) : (s.elapse d).LeadsSound := by
  obtain ⟨P, q, fit, base, sees⟩ := h
  refine ⟨P, q, fit, ⟨queueSound_kept.elapse d base.1, itemsApart_kept.elapse d base.2⟩, (gistIn_elapse d s.table).trans sees.gist, sees.queries,
    fun x r l found lead => ?_, sees.frames⟩
  obtain ⟨r0, found0, rfl⟩ := Option.map_eq_some_iff.1 ((findRecord_elapse d x s.table).symm.trans found)
  have before := sees.leads x r0
  cases state : r0.state with
  | lead l0 =>
    have same : (RecState.lead l0).elapse d = .lead l := by rw [← state]; exact lead
    cases same
    obtain ⟨decided, owed⟩ := before l0 found0 state
    exact ⟨fun final => by rw [decided final]; rfl, owed⟩
  | sole _ | joint _ _ | closed _ _ =>
    rw [Record.elapse, state] at lead
    cases lead

theorem State.LeadsSound.hallClear (h : s.LeadsSound) (idle : s.line.phase.isSending = false) : s.hallClear.LeadsSound := by
  obtain ⟨P, q, fit, base, sees⟩ := h
  have free (t : List (Option Record)) (x : Item) : findRecord x (t.map fun _ => none) = none := by
    induction t with
    | nil => rfl
    | cons e t ih => exact ih
  have use (k : BitVec 2) : ((q.hallClear).slots.get k).use = none := by
    rw [Queries.hallClear, Quad.get_map]
    unfold QSlot.hallClear
    split
    · rfl
    · next unused => simpa using unused
  have slots : SlotsFit (fun _ => none) q.hallClear :=
    ⟨(fun k u e => by rw [use] at e; cases e), (fun _ _ _ e => by cases e), List.nodup_nil, fun _ hx => absurd hx List.not_mem_nil⟩
  have unseen : gistIn (s.table.map fun _ => none) = fun _ => none := funext fun x => by rw [gistIn, free]; rfl
  have seen : Seen (fun _ => none) q.hallClear (finals fun _ => none) true (s.table.map fun _ => none) s.queries.hallClear [] :=
    ⟨unseen, by rw [sees.queries], (fun x r l found => by rw [free] at found; cases found), fun _ hf => absurd hf List.not_mem_nil⟩
  exact ⟨_, _, slots, ⟨queueSound_kept.clear idle base.1, itemsApart_kept.clear idle base.2⟩, seen⟩

end

/-! ### Every command -/

theorem leadsSound_commands : CommandsKept State.LeadsSound where
  toRecordsKept := leadsSound_records
  toSweepKept := leadsSound_sides.sweepKept
  advance _ h := h.elapse _
  startUp n h := by unfold State.startUp; split <;> exact h
  readFails h := by
    unfold State.readFails
    split
    · split <;> exact h
    all_goals exact h
  retryEnds h := by
    unfold State.retryEnds
    split
    · split <;> exact h
    all_goals exact h
  readCompletes image h := by
    have S := leadsSound_sides.sweepKept
    unfold State.readCompletes
    split
    · split
      · unfold State.takeImage
        split
        · dsimp only
          split
          · rw [enterRunning_eq]
            exact S.startSide _ (S.startSide _ h)
          · exact h
        · exact h
      · exact h
    all_goals exact h
  tick h := by unfold State.tick; split <;> exact h
  expire h := h
  claimWaitEnds sd h := leadsSound_sides.claimWaitEnds sd h
  restEnds sd h := leadsSound_sides.restEnds sd h
  partnerClaim sd _ _ h := leadsSound_sides.partnerClaim sd h
  partnerDefer sd hold _ _ h := leadsSound_sides.partnerDefer sd hold h
  partnerRelease sd _ _ h := leadsSound_sides.partnerRelease sd h
  attemptStarts h := h.attemptStarts
  contentionLost h := by
    unfold State.contentionLost
    split
    · next sending =>
      split
      · exact h.loseContention (by rw [sending]; rfl) _
      · exact h
    all_goals exact h
  transmitCompletes h := by
    unfold State.transmitCompletes
    split
    · next sending =>
      split
      · exact h.complete (by rw [sending]; rfl)
      · exact h
    all_goals exact h
  clear idle h := h.hallClear idle

/-- O56's invariants, in terms of what is seen of the leads. -/
theorem leadsSound_iff {s : State} : s.LeadsSound ↔ s.QueueSound ∧ s.ItemsApart ∧ s.DecisionsKept ∧ s.QuerySlotsSound := by
  have led (x : Item) : finals (gistIn s.table) x = (s.lead? x).map fun p => p.2.final.isSome := by
    cases lead : s.lead? x with
    | some p => rw [finals, gistIn_eq_some.2 ⟨p.1, p.2, lead, rfl⟩]; rfl
    | none =>
      cases seen : gistIn s.table x with
      | none => rw [finals, seen]; rfl
      | some g =>
        obtain ⟨r, l, lead', -⟩ := gistIn_eq_some.1 seen
        rw [lead] at lead'; cases lead'
  constructor
  · rintro ⟨P, q, fit, base, sees⟩
    obtain rfl := sees.gist
    obtain rfl := sees.queries
    refine ⟨base.1, base.2, ⟨fun x r l lead => ?_, fun f hf m x payload again owner => ?_⟩, querySlotsSound_iff.2 fit⟩
    · obtain ⟨decided, owed⟩ := sees.settled lead
      exact ⟨decided, fun d hd final => owed d hd (isFinal_iff.2 final)⟩
    · obtain ⟨item, leads⟩ := sees.frames f hf m x payload again owner
      refine ⟨item, ?_⟩
      rcases leads with ⟨b, seen, final⟩ | ⟨gone, sent, asked⟩
      · rw [led] at seen
        obtain ⟨⟨r, l⟩, lead, rfl⟩ := Option.map_eq_some_iff.1 seen
        exact .inl ⟨r, l, lead, fun isFinal => by simpa [Option.isSome_iff_ne_none] using final (isFinal_iff.2 isFinal)⟩
      · rw [led] at gone
        exact .inr ⟨Option.map_eq_none_iff.1 gone, sent rfl, asked⟩
  · rintro ⟨queue, items, ⟨leads, frames⟩, slots⟩
    refine ⟨_, _, querySlotsSound_iff.1 slots, ⟨queue, items⟩, rfl, rfl, fun x r l found lead => ?_, fun f hf m x payload again owner => ?_⟩
    · obtain ⟨decided, owed⟩ := leads x r l (lead?_eq_some.2 ⟨found, lead⟩)
      exact ⟨decided, fun d hd final => owed d hd (isFinal_iff.1 final)⟩
    · obtain ⟨item, own⟩ := frames f hf m x payload again owner
      refine ⟨item, ?_⟩
      rcases own with ⟨r, l, lead, final⟩ | ⟨gone, sent, asked⟩
      · refine .inl ⟨l.final.isSome, by rw [led, lead]; rfl, fun isFinal => ?_⟩
        simpa [Option.isSome_iff_ne_none] using final (isFinal_iff.1 isFinal)
      · exact .inr ⟨by rw [led, gone]; rfl, fun _ => sent, asked⟩

/-- Settles O56: every command's meaning is made of operations that keep query slots, slot-wait list and queued DECIDEs sound. -/
theorem everyStepKeepsTheQuerySlotsSound : Obligations.EveryStepKeepsTheQuerySlotsSound := by
  intro s t queue items decisions slots hs
  have h := leadsSound_iff.2 ⟨queue, items, decisions, slots⟩
  suffices after : t.LeadsSound by
    obtain ⟨-, -, kept⟩ := leadsSound_iff.1 after
    exact kept
  unfold step at hs
  split at hs
  · cases hs
    exact leadsSound_commands.advance _ h
  · next c cs _ =>
    obtain ⟨u, hu, kept⟩ := leadsSound_commands.exec (s := { s with pending := cs }) c (fun _ _ => by
      obtain ⟨queue, -, slots, decisions, -, items, -⟩ := resetMeetsEveryInvariant
      have reset := leadsSound_iff.2 ⟨queue, items, decisions, slots⟩
      exact reset) h
    rw [hu] at hs
    cases hs
    exact kept

end Sys2Proof.Machine
end
